-- ==== Sys2Proof/Word.lean ====
section
/-! DEFINITION. The word types of the block: registers are 32 bits on the host port (10_state.md R20), stream, context
and table elements are bytes, QT and COEF elements are 16 bits (10_state.md R35). -/

namespace Sys2Proof

/-- A 32-bit register, command word, or PLANE, CLINE, RLINE element. -/
abbrev Word := BitVec 32

/-- An element of STREAM, CX or TBL. -/
abbrev Byte := BitVec 8

/-- An element of QT or COEF. -/
abbrev Half := BitVec 16

end Sys2Proof
end

