-- ==== Sys2Proof/Syntax.lean ====
section
/-! DEFINITION. The commands of the block: one constructor per row of spec/opcode_table.json, its arguments the IMM
sub-fields of 30_encoding.md R102. Operands in ARG0 to ARG3 are state, not syntax (R101). -/

namespace Sys2Proof

/-- BR_MODE and the MODE sub-field (10_state.md R27, 41_bitreader.md R180). -/
inductive BrMode where
  | plain
  | stuff7
deriving DecidableEq, Repr

/-- TCLASS: the class of a Huffman table (10_state.md R30). -/
inductive TClass where
  | dc
  | ac
deriving DecidableEq, Repr

/-- FILTER of the IWT commands (45_wavelet_lifting.md R340). -/
inductive Filter where
  | rev53
  | irr97
deriving DecidableEq, Repr

/-- A command. Sub-fields that only select one of four things are `Fin 4`, flags are `Bool`; the others are numbers whose
range `Instr.wellFormed` checks. A reserved value of a defined sub-field (N = 0, KMODE = 3, AL = 14 ...) is a legal word
that faults when it executes (R102), so it is syntax here. -/
inductive Instr where
  | sysNop
  | sysReset
  | mqInit
  | mqReadbit (cxi : Nat)
  | brInit (mode : BrMode)
  | brReadbits (n : Nat)
  | brPeekbits (n : Nat)
  | brSkipbits (n : Nat)
  | brAlign
  | brPeekmarker (mark : Byte)
  | brSkipbytes
  | hufInit
  | hufLoadtable (tclass : TClass) (tid : Fin 4)
  | hufScancfg (ss se al : Nat)
  | hufRestart
  | hufDecode (tclass : TClass) (tid : Fin 4)
  | hufReceive (n : Nat)
  | hufExtend (n : Nat)
  | hufBlockBaseline (dct act comp : Fin 4)
  | hufDcFirst (dct comp : Fin 4)
  | hufDcRefine
  | hufAcFirst (act : Fin 4)
  | hufAcRefine (act : Fin 4)
  | ccittInit (kmode : Nat) (eoline balign eoblock black1 : Bool)
  | ccittReadbyte
  | idctBlock (qti : Fin 4)
  | iwtSr1d (filter : Filter) (phase : Bool)
  | iwtSr2d (filter : Filter) (phaseu phasev : Bool)
deriving DecidableEq, Repr

end Sys2Proof
end

