-- ==== Sys2Proof/WellFormed.lean ====
section
/-! DEFINITION. When a command fits its encoding: every numeric sub-field fits the bits 30_encoding.md R102 gives it.
Whether the value is also accepted (N of 1 to 16, SS up to SE, ...) is a check made when the command executes (R113). -/

namespace Sys2Proof

/-- The sub-fields of `i` fit their IMM bits. -/
def Instr.wellFormed : Instr → Bool
  | .sysNop => true
  | .sysReset => true
  | .mqInit => true
  | .mqReadbit cxi => decide (cxi < 2 ^ 24)
  | .brInit _ => true
  | .brReadbits n => decide (n < 32)
  | .brPeekbits n => decide (n < 32)
  | .brSkipbits n => decide (n < 32)
  | .brAlign => true
  | .brPeekmarker _ => true
  | .brSkipbytes => true
  | .hufInit => true
  | .hufLoadtable _ _ => true
  | .hufScancfg ss se al => decide (ss < 64) && decide (se < 64) && decide (al < 16)
  | .hufRestart => true
  | .hufDecode _ _ => true
  | .hufReceive n => decide (n < 32)
  | .hufExtend n => decide (n < 32)
  | .hufBlockBaseline _ _ _ => true
  | .hufDcFirst _ _ => true
  | .hufDcRefine => true
  | .hufAcFirst _ => true
  | .hufAcRefine _ => true
  | .ccittInit kmode _ _ _ _ => decide (kmode < 4)
  | .ccittReadbyte => true
  | .idctBlock _ => true
  | .iwtSr1d _ _ => true
  | .iwtSr2d _ _ _ => true

end Sys2Proof
end

