-- ==== Sys2Proof/Decode.lean ====
section
/-! DEFINITION. From command words to commands and back (30_encoding.md R100 to R106). Decoding is total and depends on the
word alone (R104). -/

namespace Sys2Proof

/-- Bits hi down to lo of a word as an unsigned number (00_scope.md R7). -/
def bitsOf (w : Word) (hi lo : Nat) : Nat := w.toNat / 2 ^ lo % 2 ^ (hi + 1 - lo)

/-- UNIT, OP and IMM of R100. -/
def unitOf (w : Word) : Nat := bitsOf w 31 28
def opOf (w : Word) : Nat := bitsOf w 27 24
def immOf (w : Word) : Nat := bitsOf w 23 0

/-- Only the low `k` IMM bits may be non-zero (R100: every IMM bit a command does not define must be 0). -/
def immWithin (w : Word) (k : Nat) : Bool := immOf w < 2 ^ k

def brModeOf (b : Nat) : BrMode := if b = 1 then .stuff7 else .plain
def tclassOf (b : Nat) : TClass := if b = 1 then .ac else .dc
def filterOf (b : Nat) : Filter := if b = 1 then .irr97 else .rev53

/-- Decoding by the opcode map of R103; `none` is an illegal word (R106). -/
def decode (w : Word) : Option Instr :=
  match unitOf w, opOf w with
  | 0, 0 => if immWithin w 0 then some .sysNop else none
  | 0, 1 => if immWithin w 0 then some .sysReset else none
  | 1, 0 => if immWithin w 0 then some .mqInit else none
  | 1, 1 => some (.mqReadbit (bitsOf w 23 0))
  | 2, 0 => if immWithin w 1 then some (.brInit (brModeOf (bitsOf w 0 0))) else none
  | 2, 1 => if immWithin w 5 then some (.brReadbits (bitsOf w 4 0)) else none
  | 2, 2 => if immWithin w 5 then some (.brPeekbits (bitsOf w 4 0)) else none
  | 2, 3 => if immWithin w 5 then some (.brSkipbits (bitsOf w 4 0)) else none
  | 2, 4 => if immWithin w 0 then some .brAlign else none
  | 2, 5 => if immWithin w 8 then some (.brPeekmarker (BitVec.ofNat 8 (bitsOf w 7 0))) else none
  | 2, 6 => if immWithin w 0 then some .brSkipbytes else none
  | 3, 0 => if immWithin w 0 then some .hufInit else none
  | 3, 1 => if immWithin w 3 then some (.hufLoadtable (tclassOf (bitsOf w 0 0)) (Fin.ofNat 4 (bitsOf w 2 1))) else none
  | 3, 2 => if immWithin w 16 then some (.hufScancfg (bitsOf w 5 0) (bitsOf w 11 6) (bitsOf w 15 12)) else none
  | 3, 3 => if immWithin w 0 then some .hufRestart else none
  | 3, 4 => if immWithin w 3 then some (.hufDecode (tclassOf (bitsOf w 0 0)) (Fin.ofNat 4 (bitsOf w 2 1))) else none
  | 3, 5 => if immWithin w 5 then some (.hufReceive (bitsOf w 4 0)) else none
  | 3, 6 => if immWithin w 5 then some (.hufExtend (bitsOf w 4 0)) else none
  | 3, 7 =>
    if immWithin w 6 then
      some (.hufBlockBaseline (Fin.ofNat 4 (bitsOf w 1 0)) (Fin.ofNat 4 (bitsOf w 3 2)) (Fin.ofNat 4 (bitsOf w 5 4)))
    else none
  | 3, 8 =>
    if immWithin w 6 && bitsOf w 3 2 == 0 then
      some (.hufDcFirst (Fin.ofNat 4 (bitsOf w 1 0)) (Fin.ofNat 4 (bitsOf w 5 4)))
    else none
  | 3, 9 => if immWithin w 0 then some .hufDcRefine else none
  | 3, 10 => if immWithin w 4 && bitsOf w 1 0 == 0 then some (.hufAcFirst (Fin.ofNat 4 (bitsOf w 3 2))) else none
  | 3, 11 => if immWithin w 4 && bitsOf w 1 0 == 0 then some (.hufAcRefine (Fin.ofNat 4 (bitsOf w 3 2))) else none
  | 4, 0 =>
    if immWithin w 6 then
      some (.ccittInit (bitsOf w 1 0) (bitsOf w 2 2 == 1) (bitsOf w 3 3 == 1) (bitsOf w 4 4 == 1) (bitsOf w 5 5 == 1))
    else none
  | 4, 1 => if immWithin w 0 then some .ccittReadbyte else none
  | 5, 0 => if immWithin w 2 then some (.idctBlock (Fin.ofNat 4 (bitsOf w 1 0))) else none
  | 6, 0 => if immWithin w 2 then some (.iwtSr1d (filterOf (bitsOf w 0 0)) (bitsOf w 1 1 == 1)) else none
  | 6, 1 =>
    if immWithin w 3 then some (.iwtSr2d (filterOf (bitsOf w 0 0)) (bitsOf w 1 1 == 1) (bitsOf w 2 2 == 1)) else none
  | _, _ => none

/-- The command word with the given UNIT, OP and IMM (R100). -/
def commandWord (unit op imm : Nat) : Word := BitVec.ofNat 32 (unit * 2 ^ 28 + op * 2 ^ 24 + imm)

def brModeBit : BrMode → Nat
  | .plain => 0
  | .stuff7 => 1

def tclassBit : TClass → Nat
  | .dc => 0
  | .ac => 1

def filterBit : Filter → Nat
  | .rev53 => 0
  | .irr97 => 1

/-- The word of a well-formed command, from R102 and R103. -/
def encode : Instr → Word
  | .sysNop => commandWord 0 0 0
  | .sysReset => commandWord 0 1 0
  | .mqInit => commandWord 1 0 0
  | .mqReadbit cxi => commandWord 1 1 cxi
  | .brInit mode => commandWord 2 0 (brModeBit mode)
  | .brReadbits n => commandWord 2 1 n
  | .brPeekbits n => commandWord 2 2 n
  | .brSkipbits n => commandWord 2 3 n
  | .brAlign => commandWord 2 4 0
  | .brPeekmarker mark => commandWord 2 5 mark.toNat
  | .brSkipbytes => commandWord 2 6 0
  | .hufInit => commandWord 3 0 0
  | .hufLoadtable c id => commandWord 3 1 (id.val * 2 + tclassBit c)
  | .hufScancfg ss se al => commandWord 3 2 (al * 2 ^ 12 + se * 2 ^ 6 + ss)
  | .hufRestart => commandWord 3 3 0
  | .hufDecode c id => commandWord 3 4 (id.val * 2 + tclassBit c)
  | .hufReceive n => commandWord 3 5 n
  | .hufExtend n => commandWord 3 6 n
  | .hufBlockBaseline dct act comp => commandWord 3 7 (comp.val * 2 ^ 4 + act.val * 2 ^ 2 + dct.val)
  | .hufDcFirst dct comp => commandWord 3 8 (comp.val * 2 ^ 4 + dct.val)
  | .hufDcRefine => commandWord 3 9 0
  | .hufAcFirst act => commandWord 3 10 (act.val * 2 ^ 2)
  | .hufAcRefine act => commandWord 3 11 (act.val * 2 ^ 2)
  | .ccittInit k el ba eb bl =>
    commandWord 4 0 (bl.toNat * 2 ^ 5 + eb.toNat * 2 ^ 4 + ba.toNat * 2 ^ 3 + el.toNat * 2 ^ 2 + k)
  | .ccittReadbyte => commandWord 4 1 0
  | .idctBlock q => commandWord 5 0 q.val
  | .iwtSr1d f ph => commandWord 6 0 (ph.toNat * 2 + filterBit f)
  | .iwtSr2d f u v => commandWord 6 1 (v.toNat * 2 ^ 2 + u.toNat * 2 + filterBit f)

/-- The match and mask columns of R103, row by row: a word `w` selects a row when `w &&& mask = match`. Decoding does not
use this table; it is the map's second form, against which the decoder is held. -/
def opcodeMap : List (Word × Word) :=
  [(0x00000000#32, 0xFFFFFFFF#32), (0x01000000#32, 0xFFFFFFFF#32), (0x10000000#32, 0xFFFFFFFF#32),
   (0x11000000#32, 0xFF000000#32), (0x20000000#32, 0xFFFFFFFE#32), (0x21000000#32, 0xFFFFFFE0#32),
   (0x22000000#32, 0xFFFFFFE0#32), (0x23000000#32, 0xFFFFFFE0#32), (0x24000000#32, 0xFFFFFFFF#32),
   (0x25000000#32, 0xFFFFFF00#32), (0x26000000#32, 0xFFFFFFFF#32), (0x30000000#32, 0xFFFFFFFF#32),
   (0x31000000#32, 0xFFFFFFF8#32), (0x32000000#32, 0xFFFF0000#32)] ++
  [(0x33000000#32, 0xFFFFFFFF#32), (0x34000000#32, 0xFFFFFFF8#32), (0x35000000#32, 0xFFFFFFE0#32),
   (0x36000000#32, 0xFFFFFFE0#32), (0x37000000#32, 0xFFFFFFC0#32), (0x38000000#32, 0xFFFFFFCC#32),
   (0x39000000#32, 0xFFFFFFFF#32), (0x3A000000#32, 0xFFFFFFF3#32), (0x3B000000#32, 0xFFFFFFF3#32),
   (0x40000000#32, 0xFFFFFFC0#32), (0x41000000#32, 0xFFFFFFFF#32), (0x50000000#32, 0xFFFFFFFC#32),
   (0x60000000#32, 0xFFFFFFFC#32), (0x61000000#32, 0xFFFFFFF8#32)]

/-- The command the decoder reads from a table row's bits: a command is one word of 32 bits (R100), bit 0 its least
significant bit. -/
def decodeTableWord (nbits w : Nat) : Option Instr := decode (BitVec.ofNat 32 (w % 2 ^ nbits))

end Sys2Proof
end

