-- ==== Sys2Proof/Config.lean ====
section
/-! DEFINITION. What an implementation fixes and the spec leaves OPEN (00_scope.md R6, 92_eei_decisions.md D26, D27), the
fixed counts, and the free values. The open SIZES are plain data (`Params`) that State carries and no step changes, so that
a claim about every state is a claim about every size (log 1). The open NUMERICS and the free values are constants without
a body: nothing can evaluate them (log 2, 5, 11). -/

namespace Sys2Proof

/-- The OPEN sizes of 00_scope.md R6. -/
structure Params where
  streamSize : Nat
  cxEntries : Nat
  tblSize : Nat
  coefBlocks : Nat
  planeWords : Nat
  colsMax : Nat
deriving DecidableEq, Repr

/-- The constraints R6 states, and the only thing a model may assume of the sizes. -/
abbrev Params.valid (p : Params) : Prop :=
  (1 ≤ p.streamSize ∧ p.streamSize ≤ 2 ^ 32 - 1) ∧ (1 ≤ p.cxEntries ∧ p.cxEntries ≤ 2 ^ 24) ∧ 272 ≤ p.tblSize ∧
  (1 ≤ p.coefBlocks ∧ 64 * p.coefBlocks ≤ 2 ^ 32) ∧ (1 ≤ p.planeWords ∧ p.planeWords ≤ 2 ^ 32 - 1) ∧
  (1 ≤ p.colsMax ∧ p.colsMax ≤ 2 ^ 31 - 2)

/-- DESIGN CHOICE (log 1): the sizes State.reset carries: R6's suggestions where it makes one (CX_ENTRIES, TBL_SIZE,
COLS_MAX), otherwise a power of two. No statement rests on them. -/
def Params.suggested : Params :=
  { streamSize := 65536, cxEntries := 65536, tblSize := 4096, coefBlocks := 1024, planeWords := 65536, colsMax := 65535 }

/-- QT_TABLES of R6, fixed. -/
def Config.qtTables : Nat := 4

/-- The numerics record of the 9/7 datapath (45_wavelet_lifting.md R352): a type, the meaning and the storage encoding of
a PLANE word, three operations and seven constants. No law is assumed of it. -/
structure Numerics where
  T : Type
  dec : Word → T
  enc : T → Word
  mul : T → T → T
  add : T → T → T
  sub : T → T → T
  alpha : T
  beta : T
  gamma : T
  delta : T
  K : T
  Kinv : T
  half : T

/-! The block's own numerics: free. Any datapath whose values can be numbered is an instance, so `Nat` stands for the type
T (log 2). -/

opaque Config.iwt97Dec : Word → Nat
opaque Config.iwt97Enc : Nat → Word
opaque Config.iwt97Mul : Nat → Nat → Nat
opaque Config.iwt97Add : Nat → Nat → Nat
opaque Config.iwt97Sub : Nat → Nat → Nat
opaque Config.iwt97Alpha : Nat
opaque Config.iwt97Beta : Nat
opaque Config.iwt97Gamma : Nat
opaque Config.iwt97Delta : Nat
opaque Config.iwt97K : Nat
opaque Config.iwt97Kinv : Nat
opaque Config.iwt97Half : Nat

/-- IWT97_NUM (R352), the OPEN parameter of D26. -/
def Config.iwt97Num : Numerics :=
  { T := Nat, dec := Config.iwt97Dec, enc := Config.iwt97Enc, mul := Config.iwt97Mul, add := Config.iwt97Add,
    sub := Config.iwt97Sub, alpha := Config.iwt97Alpha, beta := Config.iwt97Beta, gamma := Config.iwt97Gamma,
    delta := Config.iwt97Delta, K := Config.iwt97K, Kinv := Config.iwt97Kinv, half := Config.iwt97Half }

/-- What the k-th host read of an unwritten element returns (20_memory.md R76: unspecified; log 5). -/
opaque Config.freeHostRead : Nat → Word

/-- What HUF_EOBRUN becomes when HUF.AC_REFINE subtracts 1 from 0 (42_huffman_jpeg.md R226 states no result; 15 bits, so
it stays in R29's range 0 to 32767; log 11). -/
opaque Config.freeEobrun : Nat → BitVec 15

end Sys2Proof
end

