-- ==== Sys2Proof/Machine/State.lean ====
section
/-! DEFINITION. The state of the block (10_state.md), the port operations of its environment, the faults it records, and the
ways a step of the model can stop. All plain data. -/

namespace Sys2Proof.Machine

/-- The eight memory spaces of R35. -/
inductive Space where
  | stream
  | cx
  | tbl
  | qt
  | coef
  | plane
  | cline
  | rline
deriving DecidableEq, Repr

/-- Element width of a space (R35). -/
@[reducible] def Space.width : Space → Nat
  | .stream => 8
  | .cx => 8
  | .tbl => 8
  | .qt => 16
  | .coef => 16
  | .plane => 32
  | .cline => 32
  | .rline => 32

/-- A memory space: the written elements, index and value, indices strictly rising (`Memory.wf`). An element that is not
listed is unwritten and has no value (20_memory.md R76). For a byte space this is a list of `Host.Cell`. -/
abbrev Memory (w : Nat) := List (Nat × BitVec w)

/-- The architectural faults of 60_exceptions.md R371. -/
inductive FaultName where
  | illegalCommand
  | notInitialised
  | badOperand
  | badContextState
  | badMode
  | unwrittenRead
  | hufInvalidSequence
  | hufUnexpectedMarker
  | hufEoiInScan
  | hufEof
  | hufBadTable
  | hufInvalidAcn
  | hufDnlInScan
  | hufBadCategory
  | hufCoefOverrun
  | hufRunOverrun
  | hufNoTable
  | brEof
  | iwtUnsupportedPhase
deriving DecidableEq, Repr

/-- What the host does to the block between commands: the four port operations of R20, and power-on reset, an event outside
the command stream (70_reset_and_hazards.md R410). -/
inductive HostOp where
  | regRead (r : Nat)
  | regWrite (r : Nat) (v : Word)
  | memRead (sp : Space) (a : Nat)
  | memWrite (sp : Space) (a : Nat) (v : Word)
  | powerOn
deriving DecidableEq, Repr

/-- The eight flags that STATUS packs (R23). -/
structure Flags where
  fault : Bool
  mqRdy : Bool
  brRdy : Bool
  hufRdy : Bool
  ccRdy : Bool
  ccEof : Bool
  ccErr : Bool
  ccWarn : Bool
deriving DecidableEq, Repr

/-- FAULTINFO, FAULTARG and FAULTCMD (R24). -/
structure FaultRecord where
  info : Word
  arg : Word
  cmd : Word
deriving DecidableEq, Repr

/-- The MQ registers (R25). -/
structure MqUnit where
  a : BitVec 16
  chigh : BitVec 16
  clow : BitVec 16
  ct : BitVec 4
  bp : Word
  endIdx : Word
deriving DecidableEq, Repr

/-- The BR registers (R27). -/
structure BrUnit where
  pos : Word
  endIdx : Word
  buf : Word
  cnt : BitVec 5
  mode : BrMode
  skip : Bool
deriving DecidableEq, Repr

/-- A loaded slot of the Huffman table store (R30): `count[L-1]` is COUNT[L], `val[k]` is VAL[k]. -/
structure HufTable where
  count : Vector Byte 16
  val : List Byte
deriving DecidableEq, Repr

/-- The HUF registers (R29) but HUF_TVALID, which is a view of the table store (log 12). -/
structure HufUnit where
  pos : Word
  endIdx : Word
  bits : Byte
  bitcnt : BitVec 3
  pred : Vector Word 4
  eobrun : BitVec 16
  acstate : BitVec 3
  acnext : Word
  scan : BitVec 16
deriving DecidableEq, Repr

/-- The CCITT registers (R32). -/
structure CcUnit where
  cols : Word
  rows : Word
  flags : BitVec 6
  row : Word
  next2d : Bool
  outbits : Word
  cpos : Word
deriving DecidableEq, Repr

/-- Everything the spec gives the block, and four fields of the model's own: `params` (the OPEN sizes, log 1), `pending`
(host operations to come, oldest first, log 3), `portData` (what the last port read delivered, log 4), `freeCtr` (free
values drawn, log 5). -/
structure State where
  cmd : Word
  arg0 : Word
  arg1 : Word
  arg2 : Word
  arg3 : Word
  res : Word
  flags : Flags
  faultRec : FaultRecord
  mq : MqUnit
  br : BrUnit
  huf : HufUnit
  ht : Vector (Option HufTable) 8
  cc : CcUnit
  stream : Memory 8
  cx : Memory 8
  tbl : Memory 8
  qt : Memory 16
  coef : Memory 16
  plane : Memory 32
  cline : Memory 32
  rline : Memory 32
  params : Params
  pending : List HostOp
  portData : Word
  freeCtr : Nat
deriving DecidableEq, Repr

/-- Why a step of the model stops with a fault. (The block's own faults are not these: taking one is a next state.) -/
inductive Fault where
  /-- Raised by a host read or write of an element index at or beyond the size of the space (20_memory.md R75: no such
  element exists, and R20 gives the port no behaviour there). Safe. -/
  | hostIndexOutOfRange
deriving DecidableEq, Repr

/-- Why a step of the model is refused. -/
inductive Refusal where
  /-- An instruction without a meaning; raised by no arm of this model. Safe. -/
  | notModelled (mnemonic : String)
  /-- A host write to CLINE or RLINE, which the port does not offer (R35, 93_implementation_defined.md U13). Safe. -/
  | hostWriteReadOnly
  /-- The defensive arm 20_memory.md R75 suggests: a command reaches an element outside its space. No state that a run
  reaches does so. Safe. -/
  | blockAccessOutOfRange
  /-- A procedure's loop runs past the bound that holds in every state a run reaches (70_reset_and_hazards.md R432: every
  command completes). Safe. -/
  | loopBound
deriving DecidableEq, Repr

/-! Reset values (70_reset_and_hazards.md R411). -/

def Flags.clear : Flags :=
  { fault := false, mqRdy := false, brRdy := false, hufRdy := false, ccRdy := false, ccEof := false, ccErr := false,
    ccWarn := false }

def FaultRecord.clear : FaultRecord := { info := 0, arg := 0, cmd := 0 }

def MqUnit.clear : MqUnit := { a := 0, chigh := 0, clow := 0, ct := 0, bp := 0, endIdx := 0 }

def BrUnit.clear : BrUnit := { pos := 0, endIdx := 0, buf := 0, cnt := 0, mode := .plain, skip := false }

def HufUnit.clear : HufUnit :=
  { pos := 0, endIdx := 0, bits := 0, bitcnt := 0, pred := #v[0, 0, 0, 0], eobrun := 0, acstate := 0, acnext := 0,
    scan := 0x0FC0 }

def CcUnit.clear : CcUnit := { cols := 0, rows := 0, flags := 0, row := 0, next2d := false, outbits := 0, cpos := 0 }

/-- The state after power-on reset of a block with the given sizes: every register at its reset value, every memory element
unwritten (R411, R412). -/
def State.powerOn (p : Params) : State :=
  { cmd := 0, arg0 := 0, arg1 := 0, arg2 := 0, arg3 := 0, res := 0, flags := .clear, faultRec := .clear, mq := .clear,
    br := .clear, huf := .clear, ht := #v[none, none, none, none, none, none, none, none], cc := .clear, stream := [],
    cx := [], tbl := [], qt := [], coef := [], plane := [], cline := [], rline := [], params := p, pending := [],
    portData := 0, freeCtr := 0 }

/-- The machine right after power-on reset. -/
def State.reset : State := State.powerOn Params.suggested

end Sys2Proof.Machine
end

