-- ==== Sys2Proof/Machine/Operands.lean ====
section
/-! DEFINITION. Arithmetic helpers of 00_scope.md R9 and the operand forms of 20_memory.md R85. -/

namespace Sys2Proof.Machine

/-! ## R9: arithmetic on unbounded integers, narrowed only where a rule says so -/

/-- wrapN: signed N-bit wrap. -/
def wrapN (n : Nat) (x : Int) : Int := (x + 2 ^ (n - 1)) % 2 ^ n - 2 ^ (n - 1)

def wrap16 (x : Int) : Int := wrapN 16 x

def wrap32 (x : Int) : Int := wrapN 32 x

/-- asr32: 32-bit arithmetic shift right, rounding toward minus infinity. -/
def asr32 (x : Int) (s : Nat) : Int := wrap32 x / 2 ^ s

/-- shl32: 32-bit shift left. -/
def shl32 (x : Int) (s : Nat) : Int := wrap32 (x * 2 ^ s)

/-- The 16-bit element that holds `wrap16 x`. -/
def half16 (x : Int) : Half := BitVec.ofInt 16 (wrap16 x)

/-- The 32-bit element or register that holds `wrap32 x`. -/
def word32 (x : Int) : Word := BitVec.ofInt 32 (wrap32 x)

/-- u32 of a natural number, as a register value. -/
def u32 (x : Nat) : Word := BitVec.ofNat 32 x

/-! ## Spaces (10_state.md R35) -/

/-- Space id. -/
def Space.id : Space → Nat
  | .stream => 1
  | .cx => 2
  | .tbl => 3
  | .qt => 4
  | .coef => 5
  | .plane => 6
  | .cline => 7
  | .rline => 8

/-- Number of elements, by the sizes of R6. -/
def Space.size (p : Params) : Space → Nat
  | .stream => p.streamSize
  | .cx => p.cxEntries
  | .tbl => p.tblSize
  | .qt => Config.qtTables * 64
  | .coef => 64 * p.coefBlocks
  | .plane => p.planeWords
  | .cline => p.colsMax + 1
  | .rline => p.colsMax + 2

/-- The host may write every space but CLINE and RLINE. -/
def Space.hostWritable : Space → Bool
  | .cline => false
  | .rline => false
  | .stream => true
  | .cx => true
  | .tbl => true
  | .qt => true
  | .coef => true
  | .plane => true

/-- The elements of COEF and (in 5/3 mode) PLANE are signed (R35, R85). -/
def Space.signedElement : Space → Bool
  | .coef => true
  | .stream => false
  | .cx => false
  | .tbl => false
  | .qt => false
  | .plane => false
  | .cline => false
  | .rline => false

/-! ## R85: effective element indices, in unbounded integers -/

/-- Immediate index into QT: element `i` of table QTI. -/
def qtIndex (qti : Fin 4) (i : Nat) : Nat := 64 * qti.val + i

/-- Register base into TBL. -/
def tblIndex (s : State) (i : Nat) : Nat := s.arg0.toNat + i

/-- Scaled block: first element of the block ARG0 names. -/
def blockBase (s : State) : Nat := 64 * s.arg0.toNat

/-- Base and stride into PLANE. -/
def strided (base stride i : Nat) : Nat := base + i * stride

/-- Slot number `4 * class + id` of the table store and of HUF_TVALID (R29, R30). -/
def slotOf (c : TClass) (id : Fin 4) : Fin 8 :=
  match c with
  | .dc => ⟨id.val, by omega⟩
  | .ac => ⟨4 + id.val, by omega⟩

/-- The window operands ARG0, ARG1 are bad: `ARG0 > ARG1` or `ARG1 > STREAM_SIZE` (R144, R182, R212, R272). -/
def badWindow (s : State) : Bool :=
  decide (s.arg1.toNat < s.arg0.toNat) || decide (s.params.streamSize < s.arg1.toNat)

/-! ## Fields of packed registers -/

/-- HUF_SCAN fields (R29). -/
def HufUnit.ss (h : HufUnit) : Nat := h.scan.toNat % 64
def HufUnit.se (h : HufUnit) : Nat := h.scan.toNat / 64 % 64
def HufUnit.al (h : HufUnit) : Nat := h.scan.toNat / 4096

/-- CC_FLAGS fields (R32). -/
def CcUnit.kmode (c : CcUnit) : Nat := c.flags.toNat % 4
def CcUnit.eoline (c : CcUnit) : Bool := c.flags.getLsbD 2
def CcUnit.balign (c : CcUnit) : Bool := c.flags.getLsbD 3
def CcUnit.eoblock (c : CcUnit) : Bool := c.flags.getLsbD 4
def CcUnit.black1 (c : CcUnit) : Bool := c.flags.getLsbD 5

end Sys2Proof.Machine
end

