-- ==== Sys2Proof/Machine/Ops.lean ====
section
/-! DEFINITION. The shared operations: memory elements, how a command runs and is stopped, TAKING A FAULT and returning from
it, and the small register updates every unit uses. -/

namespace Sys2Proof.Machine

/-! ## One memory space as a canonical list -/

/-- The canonical form: indices strictly rising. -/
abbrev Memory.wf {w : Nat} (m : Memory w) : Prop := m.Pairwise fun x y => x.1 < y.1

/-- The value of element `a`; `none` when it is unwritten. -/
def Memory.read? {w : Nat} : Memory w → Nat → Option (BitVec w)
  | [], _ => none
  | (b, v) :: rest, a => if a = b then some v else Memory.read? rest a

/-- Write element `a`, which marks it written. -/
def Memory.write {w : Nat} : Memory w → Nat → BitVec w → Memory w
  | [], a, v => [(a, v)]
  | (b, u) :: rest, a, v =>
    if a < b then (a, v) :: (b, u) :: rest
    else if a = b then (a, v) :: rest
    else (b, u) :: Memory.write rest a v

/-- The space of a state. -/
def State.mem (s : State) : (sp : Space) → Memory sp.width
  | .stream => s.stream
  | .cx => s.cx
  | .tbl => s.tbl
  | .qt => s.qt
  | .coef => s.coef
  | .plane => s.plane
  | .cline => s.cline
  | .rline => s.rline

def State.setMem (s : State) : (sp : Space) → Memory sp.width → State
  | .stream, m => { s with stream := m }
  | .cx, m => { s with cx := m }
  | .tbl, m => { s with tbl := m }
  | .qt, m => { s with qt := m }
  | .coef, m => { s with coef := m }
  | .plane, m => { s with plane := m }
  | .cline, m => { s with cline := m }
  | .rline, m => { s with rline := m }

/-- Element `a` of space `sp`, `none` when unwritten. -/
def State.elem (s : State) (sp : Space) (a : Nat) : Option (BitVec sp.width) := (s.mem sp).read? a

/-- Number of elements of a space of this block. -/
def State.sizeOf (s : State) (sp : Space) : Nat := sp.size s.params

/-! ## Faults (60_exceptions.md R370 to R376) -/

/-- Fault code (R371). -/
def FaultName.code : FaultName → Nat
  | .illegalCommand => 0x01
  | .notInitialised => 0x02
  | .badOperand => 0x03
  | .badContextState => 0x04
  | .badMode => 0x05
  | .unwrittenRead => 0x06
  | .hufInvalidSequence => 0x10
  | .hufUnexpectedMarker => 0x11
  | .hufEoiInScan => 0x12
  | .hufEof => 0x13
  | .hufBadTable => 0x14
  | .hufInvalidAcn => 0x15
  | .hufDnlInScan => 0x17
  | .hufBadCategory => 0x18
  | .hufCoefOverrun => 0x19
  | .hufRunOverrun => 0x1A
  | .hufNoTable => 0x1B
  | .brEof => 0x20
  | .iwtUnsupportedPhase => 0x30

/-- Fault class (R370, R371): 1 FormatError, 2 UnsupportedFeatureError, 3 RecoverableTruncation, 4 HostError. -/
def FaultName.cls : FaultName → Nat
  | .illegalCommand => 4
  | .notInitialised => 4
  | .badOperand => 4
  | .badContextState => 4
  | .badMode => 4
  | .unwrittenRead => 4
  | .hufInvalidSequence => 1
  | .hufUnexpectedMarker => 1
  | .hufEoiInScan => 3
  | .hufEof => 3
  | .hufBadTable => 1
  | .hufInvalidAcn => 1
  | .hufDnlInScan => 3
  | .hufBadCategory => 1
  | .hufCoefOverrun => 1
  | .hufRunOverrun => 1
  | .hufNoTable => 1
  | .brEof => 3
  | .iwtUnsupportedPhase => 2

/-- FAULTINFO of a fault: CODE in 7:0, CLASS in 11:8 (R24). -/
def FaultName.infoWord (f : FaultName) : Word := u32 (f.cls * 2 ^ 8 + f.code)

/-- Fault entry (R373): the record is written, FAULT is set, nothing else changes. -/
def takeFault (f : FaultName) (info : Nat) (s : State) : State :=
  { s with
    faultRec := { info := f.infoWord, arg := u32 info, cmd := s.cmd }
    flags := { s.flags with fault := true } }

/-- The return from a fault, and all of SYS.RESET (R112, R376, R411): every register but CMD at its reset value, the table
store empty, memory spaces and their marks kept. -/
def resetRegisters (s : State) : State :=
  { s with
    arg0 := 0, arg1 := 0, arg2 := 0, arg3 := 0, res := 0, flags := .clear, faultRec := .clear, mq := .clear,
    br := .clear, huf := .clear, ht := #v[none, none, none, none, none, none, none, none], cc := .clear }

/-! ## Running a command's pseudocode -/

/-- What ends a command before its pseudocode does: `raise F(info)` of R8, or a stop of the model. -/
inductive Stop where
  | raise (f : FaultName) (info : Nat)
  | refuse (r : Refusal)
deriving DecidableEq, Repr

/-- A procedure of the spec: it reads and writes state and may stop; what it wrote before the stop stays (R373). -/
abbrev Proc := EStateM Stop State

/-- `raise F(info)`. -/
def raise {α : Type} (f : FaultName) (info : Nat) : Proc α := throw (.raise f info)

/-- A stop of the model itself. -/
def refuse {α : Type} (r : Refusal) : Proc α := throw (.refuse r)

/-- `if bad then raise F(info)`. -/
def check (bad : Bool) (f : FaultName) (info : Nat) : Proc Unit := if bad then raise f info else pure ()

/-- The outcome of a command (00_scope.md R10): completed, or faulted with the state as the pseudocode left it. -/
def runCommand (p : Proc Unit) (s : State) : Host.Outcome State Fault Refusal :=
  match p s with
  | .ok _ t => .next t
  | .error (.raise f info) t => .next (takeFault f info t)
  | .error (.refuse r) _ => .refused r

/-! ## Element accesses by a command (20_memory.md R75, R76) -/

/-- FAULTARG of UNWRITTEN_READ: space id in 31:28, index modulo 2^28 in 27:0. -/
def unwrittenInfo (sp : Space) (a : Nat) : Nat := sp.id * 2 ^ 28 + a % 2 ^ 28

/-- MemRead(S:a, 1). -/
def memRead (sp : Space) (a : Nat) : Proc (BitVec sp.width) := do
  let s ← get
  if s.sizeOf sp ≤ a then refuse .blockAccessOutOfRange
  else
    match s.elem sp a with
    | some v => pure v
    | none => raise .unwrittenRead (unwrittenInfo sp a)

/-- MemWrite(S:a, 1, v). -/
def memWrite (sp : Space) (a : Nat) (v : BitVec sp.width) : Proc Unit := do
  let s ← get
  if s.sizeOf sp ≤ a then refuse .blockAccessOutOfRange
  else set (s.setMem sp ((s.mem sp).write a v))

/-- `n` reads from `a` in steps of `stride`, in ascending order. -/
def memReadRun (sp : Space) (a stride : Nat) : Nat → Proc (List (BitVec sp.width))
  | 0 => pure []
  | n + 1 => do
    let v ← memRead sp a
    let vs ← memReadRun sp (a + stride) stride n
    pure (v :: vs)

/-- Writes from `a` in steps of `stride`, in ascending order. -/
def memWriteRun (sp : Space) (a stride : Nat) : List (BitVec sp.width) → Proc Unit
  | [] => pure ()
  | v :: vs => do
    memWrite sp a v
    memWriteRun sp (a + stride) stride vs

/-! ## Register updates -/

def State.setRes (s : State) (v : Word) : State := { s with res := v }
def State.setFlags (s : State) (f : Flags) : State := { s with flags := f }
def State.setMq (s : State) (m : MqUnit) : State := { s with mq := m }
def State.setBr (s : State) (b : BrUnit) : State := { s with br := b }
def State.setHuf (s : State) (h : HufUnit) : State := { s with huf := h }
def State.setHt (s : State) (t : Vector (Option HufTable) 8) : State := { s with ht := t }
def State.setCc (s : State) (c : CcUnit) : State := { s with cc := c }
def State.setFreeCtr (s : State) (k : Nat) : State := { s with freeCtr := k }

/-- `RES <- v`. -/
def putRes (v : Word) : Proc Unit := modify fun s => s.setRes v

def modifyFlags (f : Flags → Flags) : Proc Unit := modify fun s => s.setFlags (f s.flags)
def modifyMq (f : MqUnit → MqUnit) : Proc Unit := modify fun s => s.setMq (f s.mq)
def modifyBr (f : BrUnit → BrUnit) : Proc Unit := modify fun s => s.setBr (f s.br)
def modifyHuf (f : HufUnit → HufUnit) : Proc Unit := modify fun s => s.setHuf (f s.huf)
def modifyCc (f : CcUnit → CcUnit) : Proc Unit := modify fun s => s.setCc (f s.cc)

/-- The operand check of the INIT commands: a bad window raises BAD_OPERAND(0). -/
def checkWindow : Proc Unit := do
  let s ← get
  check (badWindow s) .badOperand 0

/-- The block check of R221 and R322: `ARG0 >= COEF_BLOCKS` raises BAD_OPERAND(ARG0). -/
def checkBlock : Proc Unit := do
  let s ← get
  check (decide (s.params.coefBlocks ≤ s.arg0.toNat)) .badOperand s.arg0.toNat

end Sys2Proof.Machine
end

