-- ==== Sys2Proof/Machine/Flags.lean ====
section
/-! DEFINITION. STATUS and its flags (10_state.md R23, R44), the readiness checks that read them (30_encoding.md R113 step 3)
and the views of packed registers. -/

namespace Sys2Proof.Machine

/-- STATUS: bit 0 FAULT, 1 MQ_RDY, 2 BR_RDY, 3 HUF_RDY, 4 CC_RDY, 5 CC_EOF, 6 CC_ERR, 7 CC_WARN, the rest 0 (R23). -/
def Flags.status (f : Flags) : Word :=
  u32 (f.fault.toNat + f.mqRdy.toNat * 2 + f.brRdy.toNat * 4 + f.hufRdy.toNat * 8 + f.ccRdy.toNat * 16 +
    f.ccEof.toNat * 32 + f.ccErr.toNat * 64 + f.ccWarn.toNat * 128)

/-- STATUS of a state. -/
def State.status (s : State) : Word := s.flags.status

/-- HUF_TVALID (R29): bit `4 * class + id` is 1 when slot HT[class][id] holds a table. -/
def State.hufTvalid (s : State) : Byte :=
  BitVec.ofNat 8 (s.ht[0].isSome.toNat + s.ht[1].isSome.toNat * 2 + s.ht[2].isSome.toNat * 4 + s.ht[3].isSome.toNat * 8 +
    s.ht[4].isSome.toNat * 16 + s.ht[5].isSome.toNat * 32 + s.ht[6].isSome.toNat * 64 + s.ht[7].isSome.toNat * 128)

/-- The units with a readiness flag. -/
inductive ReadyUnit where
  | mq
  | br
  | huf
  | ccitt
deriving DecidableEq, Repr

/-- Unit id (00_scope.md R2), the `info` of NOT_INITIALISED and BAD_MODE (60_exceptions.md R371). -/
def ReadyUnit.id : ReadyUnit → Nat
  | .mq => 1
  | .br => 2
  | .huf => 3
  | .ccitt => 4

/-- The flags a command of the unit needs: CCITT.READBYTE needs CC_RDY and BR_RDY (R113 step 3). -/
def ReadyUnit.ready (f : Flags) : ReadyUnit → Bool
  | .mq => f.mqRdy
  | .br => f.brRdy
  | .huf => f.hufRdy
  | .ccitt => f.ccRdy && f.brRdy

/-- R113 step 3: `raise NOT_INITIALISED(unit id)` when the unit is not ready. -/
def needReady (u : ReadyUnit) : Proc Unit := do
  let s ← get
  check (!u.ready s.flags) .notInitialised u.id

/-- `CC_ERR <- 1 ; CC_WARN <- 1` (43_ccitt.md R277). -/
def flagDamaged : Proc Unit := modifyFlags fun f => { f with ccErr := true, ccWarn := true }

/-- `CC_EOF <- 1`. -/
def flagEof : Proc Unit := modifyFlags fun f => { f with ccEof := true }

end Sys2Proof.Machine
end

