-- ==== Sys2Proof/Machine/Br.lean ====
section
/-! DEFINITION. The BR unit (41_bitreader.md). -/

namespace Sys2Proof.Machine

/-- One byte of Fill (R181): in STUFF7 mode the byte after a 0xFF gives its low seven bits. -/
def brFetch : Proc Unit := do
  let s ← get
  let b ← memRead .stream s.br.pos.toNat
  modifyBr fun r =>
    if r.mode = .stuff7 ∧ r.skip = true then
      { r with
        pos := r.pos + 1, buf := (r.buf <<< 7) ||| BitVec.ofNat 32 (b.toNat % 2 ^ 7), cnt := r.cnt + 7
        skip := decide (r.mode = .stuff7 ∧ b.toNat = 0xFF) }
    else
      { r with
        pos := r.pos + 1, buf := (r.buf <<< 8) ||| BitVec.ofNat 32 b.toNat, cnt := r.cnt + 8
        skip := decide (r.mode = .stuff7 ∧ b.toNat = 0xFF) }

/-- The loop of Fill(n); each byte adds at least 7 bits, so `n` rounds are more than enough. -/
def brFillLoop (n : Nat) : Nat → Proc Unit
  | 0 => pure ()
  | k + 1 => do
    let s ← get
    if s.br.cnt.toNat < n ∧ s.br.pos.toNat < s.br.endIdx.toNat then
      brFetch
      brFillLoop n k
    else pure ()

/-- Fill(n) (R181). -/
def brFill (n : Nat) : Proc Unit := brFillLoop n n

/-- Keep the newest `k` buffered bits. -/
def BrUnit.keep (r : BrUnit) (k : Nat) : BrUnit :=
  { r with cnt := BitVec.ofNat 5 k, buf := BitVec.ofNat 32 (r.buf.toNat % 2 ^ k) }

/-- EOFV: the end-of-data value of Peek (R184, 43_ccitt.md R260). -/
def eofv : Nat := 0x80000000

/-- What BR.PEEKBITS N returns on the buffered bits (R184). -/
def BrUnit.peekValue (r : BrUnit) (n : Nat) : Nat :=
  if r.cnt.toNat = 0 then eofv
  else if r.cnt.toNat < n then r.buf.toNat * 2 ^ (n - r.cnt.toNat) % 2 ^ n
  else r.buf.toNat / 2 ^ (r.cnt.toNat - n) % 2 ^ n

/-- The body of BR.PEEKBITS without checks and without the write of RES: Peek(n) of 43_ccitt.md R260. -/
def brPeek (n : Nat) : Proc Nat := do
  brFill n
  let s ← get
  pure (s.br.peekValue n)

/-- The body of BR.SKIPBITS without checks: Skip(n). -/
def brSkip (n : Nat) : Proc Unit := do
  brFill n
  modifyBr fun r => r.keep (r.cnt.toNat - min n r.cnt.toNat)

/-- The PLAIN branch of BR.ALIGN: AlignB(). -/
def brAlignPlain : Proc Unit := modifyBr fun r => r.keep (r.cnt.toNat - r.cnt.toNat % 8)

/-- The STUFF7 branch of BR.ALIGN (R186): step over the stuffing byte after a trailing 0xFF. -/
def brAlignStuff7 : Proc Unit :=
  modifyBr fun r =>
    if r.skip = true then
      { r with cnt := 0, buf := 0, pos := u32 (min (r.pos.toNat + 1) r.endIdx.toNat), skip := false }
    else { r with cnt := 0, buf := 0 }

/-- LPos (R189): index of the byte that holds the next unread bit; BAD_MODE when the reader is not aligned. -/
def brLPos : Proc Nat := do
  let s ← get
  match s.br.mode with
  | .plain =>
    check (decide (s.br.cnt.toNat % 8 ≠ 0)) .badMode ReadyUnit.br.id
    pure (s.br.pos.toNat - s.br.cnt.toNat / 8)
  | .stuff7 =>
    check (decide (s.br.cnt.toNat ≠ 0) || s.br.skip) .badMode ReadyUnit.br.id
    pure s.br.pos.toNat

/-- BR.INIT on the window ARG0, ARG1; also the first part of CCITT.INIT (43_ccitt.md R272). -/
def brOpen (mode : BrMode) : Proc Unit := do
  let s ← get
  modifyBr fun _ => { pos := s.arg0, endIdx := s.arg1, buf := 0, cnt := 0, mode := mode, skip := false }
  modifyFlags fun f => { f with brRdy := true }

/-- BR.INIT (R182). -/
def brInitBody (mode : BrMode) : Proc Unit := do
  checkWindow
  brOpen mode

def execBrInit (mode : BrMode) (s : State) : Host.Outcome State Fault Refusal := runCommand (brInitBody mode) s

/-- N of 1 to 16 (R183 to R185). -/
def checkBitCount (n : Nat) : Proc Unit := check (decide (n = 0 ∨ 16 < n)) .badOperand n

/-- PEEKBITS and SKIPBITS exist only in PLAIN mode. -/
def checkPlain : Proc Unit := do
  let s ← get
  check (decide (s.br.mode ≠ .plain)) .badMode ReadyUnit.br.id

/-- BR.READBITS (R183). -/
def brReadbitsBody (n : Nat) : Proc Unit := do
  needReady .br
  checkBitCount n
  brFill n
  let s ← get
  check (decide (s.br.cnt.toNat < n)) .brEof s.br.cnt.toNat
  modifyBr fun r => r.keep (s.br.cnt.toNat - n)
  putRes (u32 (s.br.buf.toNat / 2 ^ (s.br.cnt.toNat - n)))

def execBrReadbits (n : Nat) (s : State) : Host.Outcome State Fault Refusal := runCommand (brReadbitsBody n) s

/-- BR.PEEKBITS (R184). -/
def brPeekbitsBody (n : Nat) : Proc Unit := do
  needReady .br
  checkBitCount n
  checkPlain
  let v ← brPeek n
  putRes (u32 v)

def execBrPeekbits (n : Nat) (s : State) : Host.Outcome State Fault Refusal := runCommand (brPeekbitsBody n) s

/-- BR.SKIPBITS (R185). -/
def brSkipbitsBody (n : Nat) : Proc Unit := do
  needReady .br
  checkBitCount n
  checkPlain
  brSkip n

def execBrSkipbits (n : Nat) (s : State) : Host.Outcome State Fault Refusal := runCommand (brSkipbitsBody n) s

/-- BR.ALIGN (R186). -/
def brAlignBody : Proc Unit := do
  needReady .br
  let s ← get
  match s.br.mode with
  | .plain => brAlignPlain
  | .stuff7 => brAlignStuff7

def execBrAlign (s : State) : Host.Outcome State Fault Refusal := runCommand brAlignBody s

/-- The test of BR.PEEKMARKER at byte `l` (R187): left to right, stopping at the first false condition. -/
def brMarkerAt (l : Nat) (mark : Byte) : Proc Bool := do
  let s ← get
  if l + 1 < s.br.endIdx.toNat then
    let b : Byte ← memRead .stream l
    if b = 0xFF then
      let nb : Byte ← memRead .stream (l + 1)
      pure (decide (nb = mark))
    else pure false
  else pure false

/-- BR.PEEKMARKER (R187). -/
def brPeekmarkerBody (mark : Byte) : Proc Unit := do
  needReady .br
  let l ← brLPos
  let hit ← brMarkerAt l mark
  putRes (u32 hit.toNat)

def execBrPeekmarker (mark : Byte) (s : State) : Host.Outcome State Fault Refusal := runCommand (brPeekmarkerBody mark) s

/-- BR.SKIPBYTES (R188). -/
def brSkipbytesBody : Proc Unit := do
  needReady .br
  let l ← brLPos
  let s ← get
  modifyBr fun r =>
    { r with pos := u32 (min (l + s.arg0.toNat) r.endIdx.toNat), cnt := 0, buf := 0, skip := false }

def execBrSkipbytes (s : State) : Host.Outcome State Fault Refusal := runCommand brSkipbytesBody s

end Sys2Proof.Machine
end

