-- ==== Sys2Proof/Machine/Ccitt.lean ====
section
/-! DEFINITION. The CCITT unit (43_ccitt.md). It reads bits through the BR registers (R260). Every loop of the spec that
consumes a bit or moves an index is bounded here by the bits left in the window or by the size of the line arrays; the bound
is never met in PLAIN mode (R278 (c)), and meeting it is a refusal, not a behaviour. -/

namespace Sys2Proof.Machine

/-- Unread bits left in the window, PLAIN mode (41_bitreader.md R190). -/
def State.bitsLeft (s : State) : Nat := 8 * (s.br.endIdx.toNat - s.br.pos.toNat) + s.br.cnt.toNat

/-! ## Lines -/

def readCline (i : Nat) : Proc Int := do
  let v : Word ← memRead .cline i
  pure v.toNat

def writeCline (i : Nat) (v : Int) : Proc Unit := memWrite .cline i (word32 v)

def writeRline (i : Nat) (v : Int) : Proc Unit := memWrite .rline i (word32 v)

/-- `CLINE[CC_CPOS]`. -/
def lineEnd : Proc Int := do
  let s ← get
  readCline s.cc.cpos.toNat

def putCpos (p : Nat) : Proc Unit := modifyCc fun c => { c with cpos := u32 p }

/-- CC_COLS as a number. -/
def State.columns (s : State) : Int := s.cc.cols.toNat

/-- Ref(i) (R270). -/
def refLine (i : Nat) : Proc Int := do
  let s ← get
  if i ≤ s.cc.cols.toNat + 1 then
    let v : Word ← memRead .rline i
    pure v.toNat
  else pure s.columns

/-- Clamp a position to Columns, a damaged row when it was beyond (R268). -/
def clampColumns (a1 : Int) : Proc Int := do
  let s ← get
  if s.columns < a1 then
    flagDamaged
    pure s.columns
  else pure a1

/-- The branch of AddPix in which `a1` lies beyond `CLINE[p]`; the answer is the new `p` (R268). -/
def extendLine (p : Nat) (a1 : Int) (colour : Nat) : Proc Nat := do
  let a ← clampColumns a1
  let s ← get
  if p % 2 ≠ colour then
    if p = s.cc.cols.toNat then
      flagDamaged
      writeCline p s.columns
      pure p
    else
      writeCline (p + 1) a
      pure (p + 1)
  else
    writeCline p a
    pure p

/-- AddPix(a1, colour), colour 0 white, 1 black (R268). -/
def addPix (a1 : Int) (colour : Nat) : Proc Unit := do
  let s ← get
  let e ← lineEnd
  if e < a1 then
    let p ← extendLine s.cc.cpos.toNat a1 colour
    putCpos p
  else pure ()

/-- `while p > 0 and a1 < CLINE[p - 1] do p <- p - 1` (R269). -/
def backUp (a1 : Int) : Nat → Proc Nat
  | 0 => pure 0
  | p + 1 => do
    let e ← readCline p
    if a1 < e then backUp a1 p else pure (p + 1)

/-- A position before pixel 0 is clamped to 0, a damaged row (R269). -/
def clampZero (a1 : Int) : Proc Int := do
  if a1 < 0 then
    flagDamaged
    pure 0
  else pure a1

/-- AddPixNeg(a1, colour) (R269). -/
def addPixNeg (a1 : Int) (colour : Nat) : Proc Unit := do
  let s ← get
  let e ← lineEnd
  if e < a1 then
    let p ← extendLine s.cc.cpos.toNat a1 colour
    putCpos p
  else if a1 < e then
    let a ← clampZero a1
    let p ← backUp a s.cc.cpos.toNat
    writeCline p a
    putCpos p
  else pure ()

/-- Fill the rest of the row white: AddPix(CC_COLS, 0) (R271). -/
def fillRow : Proc Unit := do
  let s ← get
  addPix s.columns 0

/-! ## Codes -/

/-- What Match returns (R267). -/
inductive Matched (α : Type) where
  | eof
  | bad
  | ok (v : α)
deriving DecidableEq, Repr

/-- The entry whose code is a prefix of the 13-bit look-ahead, with its length. -/
def matchRun (t : List RunCode) (look : Nat) : Option RunCode :=
  t.find? fun c => decide (look / 2 ^ (13 - c.len) = c.code)

def matchMode (look : Nat) : Option ModeCode :=
  modeCodes.find? fun c => decide (look / 2 ^ (13 - c.len) = c.code)

/-- The table of a colour. -/
def runCodes (colour : Nat) : List RunCode := if colour = 1 then blackCodes else whiteCodes

/-- Match(WHITE) or Match(BLACK) (R267). -/
def matchRunCode (colour : Nat) : Proc (Matched Nat) := do
  let look ← brPeek 13
  if look = eofv then pure .eof
  else
    match matchRun (runCodes colour) look with
    | some c => do
      brSkip c.len
      pure (.ok c.run)
    | none => pure .bad

/-- Match(MODES) (R267). -/
def matchModeCode : Proc (Matched Mode2D) := do
  let look ← brPeek 13
  if look = eofv then pure .eof
  else
    match matchMode look with
    | some c => do
      brSkip c.len
      pure (.ok c.mode)
    | none => pure .bad

/-- Premature end of data inside a row (R271, R274). -/
def rowEof : Proc Unit := do
  fillRow
  flagEof

/-- An invalid code inside a row (R271, R274). -/
def rowBad : Proc Unit := do
  flagDamaged
  fillRow
  brSkip 1

/-- The loop of RunLen after `total` (R271); `none` is (stop). -/
def runLenFrom (colour : Nat) : Nat → Nat → Proc (Option Nat)
  | 0, _ => refuse .loopBound
  | fuel + 1, total => do
    let r ← matchRunCode colour
    match r with
    | .eof => do
      rowEof
      pure none
    | .bad => do
      rowBad
      pure none
    | .ok v => if v < 64 then pure (some (total + v)) else runLenFrom colour fuel (total + v)

/-- RunLen(colour) (R271): every code consumes a bit. -/
def runLen (colour : Nat) : Proc (Option Nat) := do
  let s ← get
  runLenFrom colour (s.bitsLeft + 1) 0

/-! ## One-dimensional rows (R273) -/

def row1DLoop : Nat → Nat → Proc Unit
  | 0, _ => refuse .loopBound
  | fuel + 1, colour => do
    let s ← get
    let e ← lineEnd
    if e < s.columns then
      let r ← runLen colour
      match r with
      | none => pure ()
      | some total => do
        let e' ← lineEnd
        addPix (e' + total) colour
        row1DLoop fuel (1 - colour)
    else pure ()

/-- DecodeRow1D (R273). -/
def decodeRow1D : Proc Unit := do
  writeCline 0 0
  putCpos 0
  let s ← get
  row1DLoop (s.bitsLeft + 2) 0

/-! ## Two-dimensional rows (R274) -/

/-- The loop that copies the coding line into the reference line; the answer is the first index not copied. -/
def copyLine : Nat → Nat → Proc Nat
  | 0, _ => refuse .loopBound
  | fuel + 1, i => do
    let s ← get
    let v ← readCline i
    if v < s.columns then
      writeRline i v
      copyLine fuel (i + 1)
    else pure i

/-- `for j <- i to CC_COLS + 1 do RLINE[j] <- CC_COLS`; the count is how many are left. -/
def terminateLine : Nat → Nat → Proc Unit
  | 0, _ => pure ()
  | n + 1, j => do
    let s ← get
    writeRline j s.columns
    terminateLine n (j + 1)

/-- Adv() (R274); the answer is the new `rp`. -/
def advanceRef : Nat → Nat → Proc Nat
  | 0, _ => refuse .loopBound
  | fuel + 1, rp => do
    let s ← get
    let b ← refLine rp
    let e ← lineEnd
    if b ≤ e ∧ b < s.columns then advanceRef fuel (rp + 2) else pure rp

/-- Adv() with its bound: `Ref` answers CC_COLS beyond the line. -/
def adv (rp : Nat) : Proc Nat := do
  let s ← get
  advanceRef (s.cc.cols.toNat + 3) rp

/-- The coding line is not yet full: `CLINE[CC_CPOS] < CC_COLS`. -/
def rowOpen : Proc Bool := do
  let s ← get
  let e ← lineEnd
  pure (decide (e < s.columns))

/-- Mode P; the answer is the new `rp`. -/
def modePass (rp colour : Nat) : Proc Nat := do
  let s ← get
  let b2 ← refLine (rp + 1)
  addPix b2 colour
  pure (if b2 < s.columns then rp + 2 else rp)

/-- Mode H: both runs are read before either is added; `none` when a run stopped. -/
def modeHorizontal (rp colour : Nat) : Proc (Option Nat) := do
  let r1 ← runLen colour
  match r1 with
  | none => pure none
  | some t1 => do
    let r2 ← runLen (1 - colour)
    match r2 with
    | none => pure none
    | some t2 => do
      let e ← lineEnd
      addPix (e + t1) colour
      let more ← rowOpen
      (if more then do
        let e' ← lineEnd
        addPix (e' + t2) (1 - colour)
      else pure ())
      let rp' ← adv rp
      pure (some rp')

/-- Modes V0, VR1, VR2, VR3. -/
def modeRight (d rp colour : Nat) : Proc Nat := do
  let b1 ← refLine rp
  addPix (b1 + d) colour
  let more ← rowOpen
  if more then adv (rp + 1) else pure rp

/-- Modes VL1, VL2, VL3. -/
def modeLeft (d rp colour : Nat) : Proc Nat := do
  let b1 ← refLine rp
  addPixNeg (b1 - d) colour
  let more ← rowOpen
  if more then adv (if 0 < rp then rp - 1 else rp + 1) else pure rp

def row2DLoop : Nat → Nat → Nat → Proc Unit
  | 0, _, _ => refuse .loopBound
  | fuel + 1, rp, colour => do
    let more ← rowOpen
    if more then
      let m ← matchModeCode
      match m with
      | .eof => rowEof
      | .bad => rowBad
      | .ok .pass => do
        let rp' ← modePass rp colour
        row2DLoop fuel rp' colour
      | .ok .horizontal => do
        let r ← modeHorizontal rp colour
        match r with
        | none => pure ()
        | some rp' => row2DLoop fuel rp' colour
      | .ok (.right d) => do
        let rp' ← modeRight d rp colour
        row2DLoop fuel rp' (1 - colour)
      | .ok (.left d) => do
        let rp' ← modeLeft d rp colour
        row2DLoop fuel rp' (1 - colour)
    else pure ()

/-- DecodeRow2D (R274). -/
def decodeRow2D : Proc Unit := do
  let s ← get
  let i ← copyLine (s.params.colsMax + 2) 0
  terminateLine (s.cc.cols.toNat + 2 - i) i
  writeCline 0 0
  putCpos 0
  row2DLoop (s.bitsLeft + 2) 0 0

/-! ## Between rows -/

/-- NextRun's loop (R279). -/
def nextRunLoop : Nat → Proc Unit
  | 0 => refuse .loopBound
  | fuel + 1 => do
    let s ← get
    if s.cc.outbits = 0 then
      let e ← lineEnd
      if e < s.columns then
        putCpos (s.cc.cpos.toNat + 1)
        let e' ← lineEnd
        modifyCc fun c => { c with outbits := word32 (e' - e) }
        nextRunLoop fuel
      else pure ()
    else pure ()

/-- NextRun (R279): CC_CPOS stays inside the coding line. -/
def nextRun : Proc Unit := do
  let s ← get
  nextRunLoop (s.params.colsMax + 2)

/-- `while Peek(12) = 0 do Skip(1)`; the answer is the value that ended it. -/
def skipZeros : Nat → Proc Nat
  | 0 => refuse .loopBound
  | fuel + 1 => do
    let v ← brPeek 12
    if v = 0 then
      brSkip 1
      skipZeros fuel
    else pure v

/-- `while code != EOFV and code != 1 do Skip(1)`; the answer is the value that ended it. -/
def huntEol : Nat → Proc Nat
  | 0 => refuse .loopBound
  | fuel + 1 => do
    let v ← brPeek 12
    if v ≠ eofv ∧ v ≠ 1 then
      brSkip 1
      huntEol fuel
    else pure v

/-- `CC_NEXT2D <- 1 if v = 0 else 0`. -/
def putNext2d (v : Nat) : Proc Unit := modifyCc fun c => { c with next2d := decide (v = 0) }

/-- The tag bit that says how the next row is coded: 1 means one-dimensional. -/
def readTag : Proc Unit := do
  let v ← brPeek 1
  putNext2d v
  brSkip 1

/-- Skip the tag bit after an EOL when KMODE = 1. -/
def skipTag : Proc Unit := do
  let s ← get
  if s.cc.kmode = 1 then brSkip 1 else pure ()

/-- The look-ahead at which PostRow's search for an EOL ends: with EOLINE = 1 it hunts for one, otherwise it skips fill
(R275). -/
def eolCode : Proc Nat := do
  let s ← get
  if s.cc.eoline then huntEol (s.bitsLeft + 1) else skipZeros (s.bitsLeft + 1)

/-- The part of PostRow that looks for an EOL; the answer is `got_eol` (R275). -/
def findEol : Proc Bool := do
  let code ← eolCode
  if code = 1 then
    brSkip 12
    pure true
  else if code = eofv then
    flagEof
    pure false
  else pure false

/-- `repeat 4 times: Skip(12) ; if KMODE = 1 then Skip(1)`. -/
def skipEols : Nat → Proc Unit
  | 0 => pure ()
  | n + 1 => do
    brSkip 12
    skipTag
    skipEols n

/-- A second EOL right after the first: RTC or EOFB (R275). -/
def endOfBlock : Proc Unit := do
  let s ← get
  let v ← brPeek 12
  if v = 1 then
    brSkip 12
    skipTag
    (if s.cc.kmode ≠ 2 then skipEols 4 else pure ())
    flagEof
  else pure ()

/-- The hunt of a damaged row: stop before the next EOL, answering the 13-bit look-ahead, or at the end of the data (R275). -/
def resyncLoop : Nat → Proc (Option Nat)
  | 0 => refuse .loopBound
  | fuel + 1 => do
    let code ← brPeek 13
    if code = eofv then
      flagEof
      pure none
    else if code / 2 = 1 then pure (some code)
    else
      brSkip 1
      resyncLoop fuel

/-- Resynchronise after a damaged row (R275). `CC_EOF` may have been set before the hunt. -/
def resync : Proc Unit := do
  let s ← get
  let r ← resyncLoop (s.bitsLeft + 1)
  let t ← get
  match r with
  | none => pure ()
  | some code =>
    if t.flags.ccEof then pure ()
    else do
      brSkip 12
      (if t.cc.kmode = 1 then do
        brSkip 1
        putNext2d (code % 2)
      else pure ())

/-- The row count ends the data: EOBLOCK = 0 and CC_ROW = CC_ROWS - 1, in unbounded integers (R275). -/
def lastRow (s : State) : Bool := !s.cc.eoblock && decide ((s.cc.row.toNat : Int) = (s.cc.rows.toNat : Int) - 1)

/-- The row count ends the data, or an EOL is looked for; the answer is `got_eol` (R275). -/
def rowEnd : Proc Bool := do
  let s ← get
  if lastRow s then
    flagEof
    pure false
  else findEol

/-- PostRow (R275). -/
def postRow : Proc Unit := do
  let s ← get
  (if s.cc.balign then brAlignPlain else pure ())
  let gotEol ← rowEnd
  let t ← get
  (if !t.flags.ccEof && decide (s.cc.kmode = 1) then readTag else pure ())
  (if s.cc.eoblock && gotEol then endOfBlock
  else if t.flags.ccErr && s.cc.eoline then resync
  else pure ())
  putCpos 0
  let e ← readCline 0
  modifyCc fun c => { c with outbits := word32 e }
  nextRun
  modifyCc fun c => { c with row := u32 (min (c.row.toNat + 1) (2 ^ 32 - 1)) }

/-! ## CCITT.INIT (R272) -/

/-- CC_FLAGS from the IMM sub-fields. -/
def ccFlagsOf (kmode : Nat) (eoline balign eoblock black1 : Bool) : BitVec 6 :=
  BitVec.ofNat 6 (kmode + eoline.toNat * 4 + balign.toNat * 8 + eoblock.toNat * 16 + black1.toNat * 32)

/-- The stream part of CCITT.INIT: leading fill, an optional EOL, end of data or the first tag bit. -/
def openRows (kmode : Nat) : Proc Unit := do
  let s ← get
  let code ← skipZeros (s.bitsLeft + 1)
  (if code = 1 then brSkip 12 else pure ())
  let v ← brPeek 1
  if v = eofv then flagEof
  else if kmode = 1 then readTag
  else pure ()

def ccittInitBody (kmode : Nat) (eoline balign eoblock black1 : Bool) : Proc Unit := do
  check (decide (kmode = 3)) .badOperand 3
  checkWindow
  let s ← get
  check (decide (s.arg2.toNat < 1 ∨ s.params.colsMax < s.arg2.toNat)) .badOperand s.arg2.toNat
  brOpen .plain
  modifyCc fun _ =>
    { cols := s.arg2, rows := s.arg3, flags := ccFlagsOf kmode eoline balign eoblock black1, row := 0,
      next2d := decide (kmode = 2), outbits := 0, cpos := 0 }
  modifyFlags fun f => { f with ccEof := false, ccErr := false, ccWarn := false }
  writeCline 0 s.arg2.toNat
  openRows kmode
  modifyFlags fun f => { f with ccRdy := true }

def execCcittInit (kmode : Nat) (eoline balign eoblock black1 : Bool) (s : State) :
    Host.Outcome State Fault Refusal :=
  runCommand (ccittInitBody kmode eoline balign eoblock black1) s

/-! ## CCITT.READBYTE (R276) -/

/-- Decode the next row and what follows it in the stream. -/
def decodeRow : Proc Unit := do
  modifyFlags fun f => { f with ccErr := false }
  let s ← get
  (if s.cc.next2d then decodeRow2D else decodeRow1D)
  postRow

/-- The byte `b` with `k` pixels of the current run shifted in, white 1 (R276). -/
def shiftInPixels (b k cpos : Nat) : Nat := b * 2 ^ k % 256 + (if cpos % 2 = 0 then 2 ^ k - 1 else 0)

/-- The loop that collects a byte from runs shorter than it; each round takes a pixel or ends, or steps onto a run, so 9
rounds are enough. -/
def serveBits : Nat → Nat → Nat → Proc Nat
  | 0, _, b => pure b
  | fuel + 1, bits, b => do
    if bits = 0 then pure b
    else
      let s ← get
      let k := min s.cc.outbits.toNat bits
      let b' := shiftInPixels b k s.cc.cpos.toNat
      modifyCc fun c => { c with outbits := u32 (c.outbits.toNat - k) }
      if s.cc.outbits.toNat - k = 0 then
        nextRun
        let t ← get
        if t.cc.outbits = 0 then pure (b' * 2 ^ (bits - k) % 256)
        else serveBits fuel (bits - k) b'
      else serveBits fuel (bits - k) b'

/-- Eight pixels of the pending row, before the final inversion. -/
def servePixels : Proc Nat := do
  let s ← get
  if 8 ≤ s.cc.outbits.toNat then
    modifyCc fun c => { c with outbits := u32 (c.outbits.toNat - 8) }
    nextRun
    pure (if s.cc.cpos.toNat % 2 = 1 then 0x00 else 0xFF)
  else serveBits 9 8 0

/-- Serve a byte: BLACK1 inverts it last. -/
def serveByte : Proc Unit := do
  let b ← servePixels
  let s ← get
  putRes (u32 (if s.cc.black1 then b ^^^ 0xFF else b))

/-- CCITT.READBYTE (R276). -/
def ccittReadbyteBody : Proc Unit := do
  needReady .ccitt
  let s ← get
  check (decide (s.br.mode ≠ .plain)) .badMode ReadyUnit.ccitt.id
  if s.cc.outbits = 0 then
    if s.flags.ccEof then putRes 0xFFFFFFFF
    else
      decodeRow
      serveByte
  else serveByte

def execCcittReadbyte (s : State) : Host.Outcome State Fault Refusal := runCommand ccittReadbyteBody s

end Sys2Proof.Machine
end

