-- ==== Sys2Proof/Machine/Huf.lean ====
section
/-! DEFINITION. The HUF unit (42_huffman_jpeg.md): bit fetch, tables, set-up and primitive commands. The block commands are in
HufBlock.lean. -/

namespace Sys2Proof.Machine

/-! ## Bit fetch (R211) -/

/-- Fetch the byte at HUF_POS and move past it. -/
def hufFetch : Proc Byte := do
  let s ← get
  let b ← memRead .stream s.huf.pos.toNat
  modifyHuf fun h => { h with pos := h.pos + 1 }
  pure b

/-- HUF_POS is at the end of the window: HUF_EOF. -/
def hufNeedByte (info : Nat) : Proc Unit := do
  let s ← get
  check (decide (s.huf.endIdx.toNat ≤ s.huf.pos.toNat)) .hufEof info

/-- The fault of a marker `FF nb` in the data. -/
def hufMarkerFault (nb : Nat) : FaultName :=
  if nb = 0xD9 then .hufEoiInScan else if nb = 0xDC then .hufDnlInScan else .hufUnexpectedMarker

/-- The companion of a 0xFF byte: 0x00 stands for a data byte 0xFF, anything else is a marker. -/
def hufCompanion : Proc Unit := do
  hufNeedByte 1
  let nb ← hufFetch
  check (decide (nb.toNat ≠ 0)) (hufMarkerFault nb.toNat) (0xFF00 + nb.toNat)

/-- HufBit (R211): the next bit of the entropy-coded segment. -/
def hufBit : Proc Bool := do
  let s ← get
  if 0 < s.huf.bitcnt.toNat then
    modifyHuf fun h => { h with bitcnt := h.bitcnt - 1 }
    pure (s.huf.bits.getLsbD (s.huf.bitcnt.toNat - 1))
  else
    hufNeedByte 0
    let b ← hufFetch
    (if b.toNat = 0xFF then hufCompanion else pure ())
    modifyHuf fun h => { h with bits := b, bitcnt := 7 }
    pure (b.getLsbD 7)

/-! ## Tables (R213, R214) -/

/-- A code of a table: its length, its value and its symbol. -/
structure HufCode where
  len : Nat
  code : Nat
  sym : Byte
deriving DecidableEq, Repr

/-- The symbols of one code length get consecutive codes. -/
def codesOfLength (len : Nat) : Nat → List Byte → List HufCode
  | _, [] => []
  | code, v :: vs => ⟨len, code, v⟩ :: codesOfLength len (code + 1) vs

/-- Codes(T) of R213, from code length `len` on, `counts` being the remaining lengths and `vals` the remaining symbols. -/
def codesFrom : List Byte → Nat → Nat → List Byte → List HufCode
  | [], _, _, _ => []
  | n :: ns, len, code, vals =>
    codesOfLength len code (vals.take n.toNat) ++ codesFrom ns (len + 1) ((code + n.toNat) * 2) (vals.drop n.toNat)

/-- Codes(T) (R213). -/
def HufTable.codes (t : HufTable) : List HufCode := codesFrom t.count.toList 1 0 t.val

/-- The first length at which the histogram has more codes than fit (R213); `code` is the first code of length `len`. -/
def overfullAt : List Byte → Nat → Nat → Option Nat
  | [], _, _ => none
  | n :: ns, len, code => if 2 ^ len < code + n.toNat then some len else overfullAt ns (len + 1) ((code + n.toNat) * 2)

/-- Some code of `cs` of length `len` equals `code`. -/
def codeFound (cs : List HufCode) (len code : Nat) : Option HufCode :=
  cs.find? fun c => decide (c.len = len ∧ c.code = code)

/-- Some code of `cs` longer than `len` begins with `code`. -/
def codeContinues (cs : List HufCode) (len code : Nat) : Bool :=
  cs.any fun c => decide (len < c.len ∧ c.code / 2 ^ (c.len - len) = code)

/-- The walk of HufDecode (R214) after `len` bits that read `code`; the first argument is how many bits may still come. -/
def hufWalk (cs : List HufCode) : Nat → Nat → Nat → Proc Nat
  | 0, _, _ => refuse .loopBound
  | k + 1, len, code => do
    let b ← hufBit
    let code' := code * 2 + b.toNat
    match codeFound cs (len + 1) code' with
    | some c => pure c.sym.toNat
    | none =>
      if codeContinues cs (len + 1) code' then hufWalk cs k (len + 1) code'
      else raise .hufInvalidSequence (len + 1)

/-- HufDecode(class, id) (R214). -/
def hufDecode (c : TClass) (id : Fin 4) : Proc Nat := do
  let s ← get
  match s.ht[slotOf c id] with
  | some t => hufWalk t.codes 16 0 0
  | none => raise .hufNoTable (slotOf c id).val

/-- The step 4 check of a command that names a table slot (R214). -/
def needTable (c : TClass) (id : Fin 4) : Proc Unit := do
  let s ← get
  check s.ht[slotOf c id].isNone .hufNoTable (slotOf c id).val

/-! ## Receive and Extend (R215) -/

/-- The loop of Receive: `n` more bits after `v`. -/
def receiveFrom : Nat → Nat → Proc Nat
  | 0, v => pure v
  | n + 1, v => do
    let b ← hufBit
    receiveFrom n (v * 2 + b.toNat)

/-- Receive(n). -/
def receive (n : Nat) : Proc Nat := receiveFrom n 0

/-- The signed value of the `n`-bit number `v` (EXTEND). -/
def extendValue (n v : Nat) : Int := if n = 0 then 0 else if 2 ^ (n - 1) ≤ v then v else (v : Int) - 2 ^ n + 1

/-- Extend(n). -/
def extend (n : Nat) : Proc Int := do
  let v ← receive n
  pure (extendValue n v)

/-! ## Set-up commands -/

/-- What HUF.INIT and HUF.RESTART clear. -/
def HufUnit.fresh (h : HufUnit) : HufUnit :=
  { h with bits := 0, bitcnt := 0, pred := #v[0, 0, 0, 0], eobrun := 0, acstate := 0, acnext := 0 }

/-- HUF.INIT (R212). -/
def hufInitBody : Proc Unit := do
  checkWindow
  let s ← get
  modifyHuf fun h => { h.fresh with pos := s.arg0, endIdx := s.arg1 }
  modifyFlags fun f => { f with hufRdy := true }

def execHufInit (s : State) : Host.Outcome State Fault Refusal := runCommand hufInitBody s

/-- Sum of the code-length histogram. -/
def histogramSum : List Byte → Nat
  | [] => 0
  | n :: ns => n.toNat + histogramSum ns

/-- The histogram as the sixteen counts of a slot. -/
def countVector (cnt : List Byte) : Vector Byte 16 := Vector.ofFn fun i => cnt.getD i.val 0

/-- HUF.LOADTABLE (R213). -/
def hufLoadtableBody (c : TClass) (id : Fin 4) : Proc Unit := do
  let s ← get
  check (decide (s.params.tblSize < s.arg0.toNat + 16)) .badOperand s.arg0.toNat
  let cnt ← memReadRun .tbl (tblIndex s 0) 1 16
  let n := histogramSum cnt
  check (decide (256 < n)) .hufBadTable 0
  check (decide (s.params.tblSize < s.arg0.toNat + 16 + n)) .badOperand s.arg0.toNat
  check (overfullAt cnt 1 0).isSome .hufBadTable ((overfullAt cnt 1 0).getD 0)
  let val ← memReadRun .tbl (tblIndex s 16) 1 n
  modify fun s => s.setHt (s.ht.set (slotOf c id) (some { count := countVector cnt, val := val }))

def execHufLoadtable (c : TClass) (id : Fin 4) (s : State) : Host.Outcome State Fault Refusal :=
  runCommand (hufLoadtableBody c id) s

/-- HUF.SCANCFG (R216); the info of its BAD_OPERAND is IMM. -/
def hufScancfgBody (ss se al : Nat) : Proc Unit := do
  check (decide (se < ss ∨ 13 < al)) .badOperand (al * 2 ^ 12 + se * 2 ^ 6 + ss)
  modifyHuf fun h => { h with scan := BitVec.ofNat 16 (al * 2 ^ 12 + se * 2 ^ 6 + ss) }

def execHufScancfg (ss se al : Nat) (s : State) : Host.Outcome State Fault Refusal :=
  runCommand (hufScancfgBody ss se al) s

/-- HUF.RESTART (R217). -/
def hufRestartBody : Proc Unit := do
  needReady .huf
  let s ← get
  check (decide (s.huf.endIdx.toNat < s.arg0.toNat)) .badOperand s.arg0.toNat
  modifyHuf fun h => { h.fresh with pos := s.arg0 }

def execHufRestart (s : State) : Host.Outcome State Fault Refusal := runCommand hufRestartBody s

/-! ## Primitive commands -/

/-- HUF.DECODE (R218). -/
def hufDecodeBody (c : TClass) (id : Fin 4) : Proc Unit := do
  needReady .huf
  needTable c id
  let v ← hufDecode c id
  putRes (u32 v)

def execHufDecode (c : TClass) (id : Fin 4) (s : State) : Host.Outcome State Fault Refusal :=
  runCommand (hufDecodeBody c id) s

/-- N of 0 to 16 (R219, R220). -/
def checkReceiveCount (n : Nat) : Proc Unit := check (decide (16 < n)) .badOperand n

/-- HUF.RECEIVE (R219). -/
def hufReceiveBody (n : Nat) : Proc Unit := do
  needReady .huf
  checkReceiveCount n
  let v ← receive n
  putRes (u32 v)

def execHufReceive (n : Nat) (s : State) : Host.Outcome State Fault Refusal := runCommand (hufReceiveBody n) s

/-- HUF.EXTEND (R220). -/
def hufExtendBody (n : Nat) : Proc Unit := do
  needReady .huf
  checkReceiveCount n
  let v ← extend n
  putRes (word32 v)

def execHufExtend (n : Nat) (s : State) : Host.Outcome State Fault Refusal := runCommand (hufExtendBody n) s

end Sys2Proof.Machine
end

