-- ==== Sys2Proof/Machine/HufBlock.lean ====
section
/-! DEFINITION. The block commands of the HUF unit (42_huffman_jpeg.md R221 to R226). -/

namespace Sys2Proof.Machine

/-- ZZ (R221): natural position of the k-th coefficient in coded order. -/
def zigzag : List Nat :=
  [0, 1, 8, 16, 9, 2, 3, 10, 17, 24, 32, 25, 18, 11, 4, 5] ++
  [12, 19, 26, 33, 40, 48, 41, 34, 27, 20, 13, 6, 7, 14, 21, 28] ++
  [35, 42, 49, 56, 57, 50, 43, 36, 29, 22, 15, 23, 30, 37, 44, 51] ++
  [58, 59, 52, 45, 38, 31, 39, 46, 53, 60, 61, 54, 47, 55, 62, 63]

/-- Element of COEF that holds coefficient `k` of the block ARG0 names. -/
def coefIndex (s : State) (k : Nat) : Nat := blockBase s + zigzag.getD k 0

/-- Write coefficient `k` of the block, narrowed by wrap16. -/
def putCoef (k : Nat) (v : Int) : Proc Unit := do
  let s ← get
  memWrite .coef (coefIndex s k) (half16 v)

/-- `HUF_PRED[COMP] <- wrap32(HUF_PRED[COMP] + diff) ; COEF[base] <- wrap16(HUF_PRED[COMP])` (R222, R223). -/
def putDc (comp : Fin 4) (diff : Int) : Proc Unit := do
  modifyHuf fun h => { h with pred := h.pred.set comp (word32 (h.pred[comp].toInt + diff)) }
  let s ← get
  putCoef 0 s.huf.pred[comp].toInt

/-- The DC symbol of a block: a category above 16 raises HUF_BAD_CATEGORY. -/
def dcCategory (dct : Fin 4) : Proc Nat := do
  let t ← hufDecode .dc dct
  check (decide (16 < t)) .hufBadCategory t
  pure t

/-- An AC run/size coefficient: move `k` past the run; beyond 63 raises HUF_COEF_OVERRUN; then write the value. -/
def acCoef (k size al : Nat) : Proc Unit := do
  check (decide (63 < k)) .hufCoefOverrun k
  let v ← extend size
  putCoef k (v * 2 ^ al)

/-- The AC loop of R222 from coefficient `k`; each round raises `k`, so 64 rounds are enough. -/
def baselineAc (act : Fin 4) : Nat → Nat → Proc Unit
  | 0, _ => pure ()
  | fuel + 1, k => do
    if k < 64 then
      let rs ← hufDecode .ac act
      if rs % 16 = 0 then
        if rs / 16 < 15 then pure ()
        else baselineAc act fuel (k + 16)
      else
        acCoef (k + rs / 16) (rs % 16) 0
        baselineAc act fuel (k + rs / 16 + 1)
    else pure ()

/-- HUF.BLOCK_BASELINE (R222). -/
def hufBlockBaselineBody (dct act comp : Fin 4) : Proc Unit := do
  needReady .huf
  checkBlock
  needTable .dc dct
  needTable .ac act
  let t ← dcCategory dct
  let diff ← extend t
  putDc comp diff
  baselineAc act 64 1

def execHufBlockBaseline (dct act comp : Fin 4) (s : State) : Host.Outcome State Fault Refusal :=
  runCommand (hufBlockBaselineBody dct act comp) s

/-- HUF.DC_FIRST (R223). -/
def hufDcFirstBody (dct comp : Fin 4) : Proc Unit := do
  needReady .huf
  checkBlock
  needTable .dc dct
  let t ← dcCategory dct
  let v ← extend t
  let s ← get
  putDc comp (shl32 v s.huf.al)

def execHufDcFirst (dct comp : Fin 4) (s : State) : Host.Outcome State Fault Refusal :=
  runCommand (hufDcFirstBody dct comp) s

/-- HUF.DC_REFINE (R224). -/
def hufDcRefineBody : Proc Unit := do
  needReady .huf
  checkBlock
  let s ← get
  let c ← memRead .coef (blockBase s)
  let b ← hufBit
  memWrite .coef (blockBase s) (c ||| (BitVec.ofNat 16 b.toNat <<< s.huf.al))

def execHufDcRefine (s : State) : Host.Outcome State Fault Refusal := runCommand hufDcRefineBody s

/-- `HUF_EOBRUN <- v`. -/
def putEobrun (v : Nat) : Proc Unit := modifyHuf fun h => { h with eobrun := BitVec.ofNat 16 v }

/-- The loop of R225 from coefficient `k` up to `e`. -/
def acFirstLoop (act : Fin 4) (e al : Nat) : Nat → Nat → Proc Unit
  | 0, _ => pure ()
  | fuel + 1, k => do
    if k ≤ e then
      let rs ← hufDecode .ac act
      if rs % 16 = 0 then
        if rs / 16 < 15 then
          let v ← receive (rs / 16)
          putEobrun (v + 2 ^ (rs / 16) - 1)
        else acFirstLoop act e al fuel (k + 16)
      else
        acCoef (k + rs / 16) (rs % 16) al
        acFirstLoop act e al fuel (k + rs / 16 + 1)
    else pure ()

/-- HUF.AC_FIRST (R225). -/
def hufAcFirstBody (act : Fin 4) : Proc Unit := do
  needReady .huf
  checkBlock
  needTable .ac act
  let s ← get
  if 0 < s.huf.eobrun.toNat then putEobrun (s.huf.eobrun.toNat - 1)
  else acFirstLoop act s.huf.se s.huf.al 64 s.huf.ss

def execHufAcFirst (act : Fin 4) (s : State) : Host.Outcome State Fault Refusal := runCommand (hufAcFirstBody act) s

/-- `HUF_ACSTATE <- v`. -/
def putAcstate (v : Nat) : Proc Unit := modifyHuf fun h => { h with acstate := BitVec.ofNat 3 v }

/-- State 0 of the refinement machine: decode the next symbol; the answer is the run count `r` (R226). -/
def refineSymbol (act : Fin 4) : Proc Int := do
  let rs ← hufDecode .ac act
  if rs % 16 = 0 then
    if rs / 16 < 15 then
      let v ← receive (rs / 16)
      putEobrun (v + 2 ^ (rs / 16))
      putAcstate 4
      pure (rs / 16 : Nat)
    else
      putAcstate 1
      pure 16
  else
    check (decide (rs % 16 ≠ 1)) .hufInvalidAcn rs
    let v ← extend 1
    modifyHuf fun h => { h with acnext := word32 v }
    putAcstate (if rs / 16 ≠ 0 then 2 else 3)
    pure (rs / 16 : Nat)

/-- A correction bit for the non-zero coefficient `c` at element `z`: `c + sign * HufBit() * p`. -/
def refineNonzero (z : Nat) (c p : Int) : Proc Unit := do
  let b ← hufBit
  memWrite .coef z (half16 (c + (if c < 0 then -1 else 1) * b.toNat * p))

/-- States 1 to 4 at a zero coefficient of element `z`; the answer is the new run count. -/
def refineZero (acstate z : Nat) (r p : Int) : Proc Int := do
  if acstate = 1 ∨ acstate = 2 then
    (if r - 1 = 0 then putAcstate (if acstate = 2 then 3 else 0) else pure ())
    pure (r - 1)
  else if acstate = 3 then
    let s ← get
    memWrite .coef z (half16 (s.huf.acnext.toInt * p))
    putAcstate 0
    pure r
  else pure r

/-- States 1 to 4 at coefficient value `c`; state values 5 to 7, which no run reaches, only move on. -/
def refineAt (acstate z : Nat) (c r p : Int) : Proc Int := do
  if 1 ≤ acstate ∧ acstate ≤ 4 then
    if c ≠ 0 then
      refineNonzero z c p
      pure r
    else refineZero acstate z r p
  else pure r

/-- The loop of R226. A position is visited at most twice, so 128 rounds are enough. -/
def refineLoop (act : Fin 4) (e : Nat) (p : Int) : Nat → Nat → Int → Proc Unit
  | 0, _, _ => pure ()
  | fuel + 1, k, r => do
    if k ≤ e then
      let s ← get
      let c ← memRead .coef (coefIndex s k)
      if s.huf.acstate = 0 then
        let r' ← refineSymbol act
        refineLoop act e p fuel k r'
      else
        let r' ← refineAt s.huf.acstate.toNat (coefIndex s k) c.toInt r p
        refineLoop act e p fuel (k + 1) r'
    else pure ()

/-- `HUF_EOBRUN <- HUF_EOBRUN - 1`. R226 states no result for 0 - 1 in the 16-bit register: that value is free (log 11). -/
def countDownEobrun : Proc Unit := do
  let s ← get
  if s.huf.eobrun = 0 then
    modify fun s => s.setFreeCtr (s.freeCtr + 1)
    putEobrun (Config.freeEobrun s.freeCtr).toNat
  else putEobrun (s.huf.eobrun.toNat - 1)

/-- The end of R226, after the band. -/
def refineEnd : Proc Unit := do
  let s ← get
  if s.huf.acstate = 4 then
    countDownEobrun
    let t ← get
    if t.huf.eobrun = 0 then putAcstate 0 else pure ()
  else check (decide (s.huf.acstate ≠ 0)) .hufRunOverrun s.huf.acstate.toNat

/-- HUF.AC_REFINE (R226). -/
def hufAcRefineBody (act : Fin 4) : Proc Unit := do
  needReady .huf
  checkBlock
  needTable .ac act
  let s ← get
  refineLoop act s.huf.se (2 ^ s.huf.al) 128 s.huf.ss 0
  refineEnd

def execHufAcRefine (act : Fin 4) (s : State) : Host.Outcome State Fault Refusal := runCommand (hufAcRefineBody act) s

end Sys2Proof.Machine
end

