-- ==== Sys2Proof/Machine/Idct.lean ====
section
/-! DEFINITION. The IDCT unit (44_idct.md). -/

namespace Sys2Proof.Machine

/-- Eight values: a row of coefficients, quantisation steps or workspace, or a column. -/
structure Oct where
  x0 : Int
  x1 : Int
  x2 : Int
  x3 : Int
  x4 : Int
  x5 : Int
  x6 : Int
  x7 : Int
deriving DecidableEq, Repr

/-- Elements `start`, `start + stride`, ... of a block. -/
def Oct.ofBlock (b : List Int) (start stride : Nat) : Oct :=
  { x0 := b.getD start 0, x1 := b.getD (start + stride) 0, x2 := b.getD (start + 2 * stride) 0,
    x3 := b.getD (start + 3 * stride) 0, x4 := b.getD (start + 4 * stride) 0, x5 := b.getD (start + 5 * stride) 0,
    x6 := b.getD (start + 6 * stride) 0, x7 := b.getD (start + 7 * stride) 0 }

def Oct.toList (v : Oct) : List Int := [v.x0, v.x1, v.x2, v.x3, v.x4, v.x5, v.x6, v.x7]

def Oct.map (f : Int → Int) (v : Oct) : Oct := ⟨f v.x0, f v.x1, f v.x2, f v.x3, f v.x4, f v.x5, f v.x6, f v.x7⟩

def Oct.const (x : Int) : Oct := ⟨x, x, x, x, x, x, x, x⟩

/-- Elementwise product: dequantisation. -/
def Oct.mul (v w : Oct) : Oct :=
  ⟨v.x0 * w.x0, v.x1 * w.x1, v.x2 * w.x2, v.x3 * w.x3, v.x4 * w.x4, v.x5 * w.x5, v.x6 * w.x6, v.x7 * w.x7⟩

/-- The all-zero-AC test of both fast paths. -/
def Oct.acZero (v : Oct) : Bool :=
  decide (v.x1 = 0 ∧ v.x2 = 0 ∧ v.x3 = 0 ∧ v.x4 = 0 ∧ v.x5 = 0 ∧ v.x6 = 0 ∧ v.x7 = 0)

/-! The butterfly constants (R321). -/

def dctCos1 : Int := 4017
def dctSin1 : Int := 799
def dctCos3 : Int := 3406
def dctSin3 : Int := 2276
def dctCos6 : Int := 1567
def dctSin6 : Int := 3784
def dctSqrt2 : Int := 5793
def dctSqrt1d2 : Int := 2896

/-- `asr32(x + y + 1, 1)`, the first half of a butterfly pair; the second is `x' - y` with the new `x'`. -/
def halfSum (x y : Int) : Int := asr32 (x + y + 1) 1

/-- Stage 2 of both passes, then the sums and differences of stage 1, on the values `v0 ... v7` that stage 3 left (R323,
R324). -/
def stages21 (v0 v1 v2 v3 v4 v5 v6 v7 : Int) : Oct :=
  let w0 := halfSum v0 v3
  let w3 := w0 - v3
  let w1 := halfSum v1 v2
  let w2 := w1 - v2
  let w7 := asr32 (v4 * dctSin3 + v7 * dctCos3 + 2048) 12
  let w4 := asr32 (v4 * dctCos3 - v7 * dctSin3 + 2048) 12
  let w6 := asr32 (v5 * dctSin1 + v6 * dctCos1 + 2048) 12
  let w5 := asr32 (v5 * dctCos1 - v6 * dctSin1 + 2048) 12
  ⟨w0 + w7, w1 + w6, w2 + w5, w3 + w4, w3 - w4, w2 - w5, w1 - w6, w0 - w7⟩

/-- Stage 3, parametrised by the two places where the passes differ: the rotation's rounding (`rnd`, `sh`) and the constant
added to `v0`; then stages 2 and 1. -/
def stages321 (rnd : Int) (sh : Nat) (bias v0 v1 v2 v3 v4 v5 v6 v7 : Int) : Oct :=
  let w0 := halfSum v0 v1 + bias
  let w1 := w0 - v1
  let w3 := asr32 (v2 * dctSin6 + v3 * dctCos6 + rnd) sh
  let w2 := asr32 (v2 * dctCos6 - v3 * dctSin6 + rnd) sh
  let w4 := halfSum v4 v6
  let w6 := w4 - v6
  let w7 := halfSum v7 v5
  let w5 := w7 - v5
  stages21 w0 w1 w2 w3 w4 w5 w6 w7

/-- The general path of RowPass on dequantised coefficients (R323). -/
def rowGeneral (p : Oct) : Oct :=
  (stages321 128 8 0
    (asr32 (dctSqrt2 * p.x0 + 128) 8) (asr32 (dctSqrt2 * p.x4 + 128) 8) p.x2 p.x6
    (asr32 (dctSqrt1d2 * (p.x1 - p.x7) + 128) 8) (shl32 p.x3 4) (shl32 p.x5 4)
    (asr32 (dctSqrt1d2 * (p.x1 + p.x7) + 128) 8)).map wrap16

/-- RowPass (R323): the fast-path test looks at the coefficients, before dequantisation. -/
def rowPass (c q : Oct) : Oct :=
  if c.acZero then Oct.const (wrap16 (asr32 (dctSqrt2 * (c.x0 * q.x0) + 512) 10)) else rowGeneral (c.mul q)

/-- The fast path's scale and clamp (R324). -/
def clampFast (t : Int) : Int := if t < -2040 then 0 else if 2024 ≤ t then 255 else (t + 2056) / 2 ^ 4

/-- The general path's scale and clamp (R324). -/
def clampSample (q : Int) : Int := if q < 16 then 0 else if 4080 ≤ q then 255 else q / 2 ^ 4

/-- The general path of ColPass (R324); 4112 carries the level shift and the final rounding. -/
def colGeneral (p : Oct) : Oct :=
  (stages321 2048 12 4112
    (asr32 (dctSqrt2 * p.x0 + 2048) 12) (asr32 (dctSqrt2 * p.x4 + 2048) 12) p.x2 p.x6
    (asr32 (dctSqrt1d2 * (p.x1 - p.x7) + 2048) 12) p.x3 p.x5
    (asr32 (dctSqrt1d2 * (p.x1 + p.x7) + 2048) 12)).map clampSample

/-- ColPass (R324). -/
def colPass (p : Oct) : Oct :=
  if p.acZero then Oct.const (clampFast (asr32 (dctSqrt2 * p.x0 + 8192) 14)) else colGeneral p

/-- The row passes of a block: workspace P (R322). -/
def idctRows (c q : List Int) : List Int :=
  (List.range 8).flatMap fun r => (rowPass (Oct.ofBlock c (8 * r) 1) (Oct.ofBlock q (8 * r) 1)).toList

/-- The column passes: column by column. -/
def idctCols (p : List Int) : List Int := (List.range 8).flatMap fun c => (colPass (Oct.ofBlock p c 8)).toList

/-- From column order to natural order. -/
def transpose8 (s : List Int) : List Int :=
  (List.range 64).map fun i => s.getD (8 * (i % 8) + i / 8) 0

/-- The 64 samples of a block (R322). -/
def idctBlock (c q : List Int) : List Int := transpose8 (idctCols (idctRows c q))

/-- IDCT.BLOCK (R322): 128 reads, the transform, 64 writes. -/
def idctBlockBody (qti : Fin 4) : Proc Unit := do
  checkBlock
  let s ← get
  let c ← memReadRun .coef (blockBase s) 1 64
  let q ← memReadRun .qt (qtIndex qti 0) 1 64
  memWriteRun .coef (blockBase s) 1
    ((idctBlock (c.map fun v => v.toInt) (q.map fun v => (v.toNat : Int))).map half16)

def execIdctBlock (qti : Fin 4) (s : State) : Host.Outcome State Fault Refusal := runCommand (idctBlockBody qti) s

end Sys2Proof.Machine
end

