-- ==== Sys2Proof/Machine/Iwt.lean ====
section
/-! DEFINITION. The IWT unit (45_wavelet_lifting.md). -/

namespace Sys2Proof.Machine

/-- PSE (R341): periodic symmetric extension. -/
def pse (i : Int) (n : Nat) : Nat :=
  if n = 1 then 0
  else
    let per : Int := 2 * ((n : Int) - 1)
    let m := i % per
    if m < n then m.toNat else (per - m).toNat

/-! ## The reversible 5/3 filter (R343) -/

/-- Ye(i). -/
def extended (y : List Int) (i : Int) : Int := y.getD (pse i y.length) 0

/-- E(i), `i` even: the update step undone. -/
def sr53Even (y : List Int) (i : Int) : Int :=
  wrap32 (extended y i - asr32 (extended y (i - 1) + extended y (i + 1) + 2) 2)

/-- X[i]: the predict step undone at odd positions. -/
def sr53At (y : List Int) (i : Int) : Int :=
  if i % 2 = 0 then sr53Even y i
  else wrap32 (extended y i + asr32 (sr53Even y (i - 1) + sr53Even y (i + 1)) 1)

/-- SR53 (R343). -/
def sr53 (y : List Int) : List Int := (List.range y.length).map fun i : Nat => sr53At y i

/-! ## The irreversible 9/7 filter (R351) -/

/-- One step of SR97: the positions of the given parity with `lo ≤ i ≤ hi` get a new value, the others keep theirs. -/
def liftStep {α : Type} (parity : Int) (lo hi : Int) (f : (Int → α) → Int → α) (x : Int → α) : Int → α :=
  fun i => if i % 2 = parity ∧ lo ≤ i ∧ i ≤ hi then f x i else x i

/-- `st`: the rounding a value suffers when it is stored. -/
def storeRound (N : Numerics) (v : N.T) : N.T := N.dec (N.enc v)

/-- S3, S4, S5: `st( x[i] - (c * x[i-1] + c * x[i+1]) )`. -/
def undoStep (N : Numerics) (c : N.T) (x : Int → N.T) (i : Int) : N.T :=
  storeRound N (N.sub (x i) (N.add (N.mul c (x (i - 1))) (N.mul c (x (i + 1)))))

/-- S1. -/
def scaleOdd (N : Numerics) (x : Int → N.T) (i : Int) : N.T := storeRound N (N.mul N.Kinv (x i))

/-- S2. -/
def scaleEven (N : Numerics) (x : Int → N.T) (i : Int) : N.T :=
  storeRound N (N.sub (N.sub (N.mul N.K (x i)) (N.mul N.delta (x (i - 1)))) (N.mul N.delta (x (i + 1))))

/-- The extended window and the five steps (R351). -/
def sr97At (N : Numerics) (w : List Word) : Int → N.T :=
  let n : Int := w.length
  let x0 : Int → N.T := fun i => N.dec (w.getD (pse i w.length) 0)
  let x1 := liftStep 1 (-3) (n + 3) (scaleOdd N) x0
  let x2 := liftStep 0 (-2) (n + 2) (scaleEven N) x1
  let x3 := liftStep 1 (-1) (n + 1) (undoStep N N.gamma) x2
  let x4 := liftStep 0 0 n (undoStep N N.beta) x3
  liftStep 1 1 (n - 1) (undoStep N N.alpha) x4

/-- SR97 (R351) over a numerics record. -/
def sr97 (N : Numerics) (w : List Word) : List Word := (List.range w.length).map fun i : Nat => N.enc (sr97At N w i)

/-! ## Lines (R344, R353) -/

/-- A one-element line (R353). -/
def oneElement (N : Numerics) (f : Filter) (phase : Bool) (w : Word) : Word :=
  if phase then
    match f with
    | .rev53 => word32 (asr32 w.toInt 1)
    | .irr97 => N.enc (N.mul N.half (N.dec w))
  else w

/-- What a line becomes. -/
def lineResult (N : Numerics) (f : Filter) (phase : Bool) (w : List Word) : List Word :=
  match w with
  | [x] => [oneElement N f phase x]
  | _ =>
    match f with
    | .rev53 => (sr53 (w.map fun v => v.toInt)).map word32
    | .irr97 => sr97 N w

/-- Line(a, n, s, f, ph) (R344): all reads, then all writes, with the block's own numerics. -/
def iwtLine (a n s : Nat) (f : Filter) (phase : Bool) : Proc Unit := do
  let w ← memReadRun .plane a s n
  memWriteRun .plane a s (lineResult Config.iwt97Num f phase w)

/-- IWT.SR1D (R344). -/
def iwtSr1dBody (f : Filter) (phase : Bool) : Proc Unit := do
  let s ← get
  let n := s.arg1.toNat
  check (decide (n = 0 ∨ s.arg2.toNat = 0)) .badOperand 0
  check (decide (s.params.planeWords ≤ strided s.arg0.toNat s.arg2.toNat (n - 1))) .badOperand s.arg0.toNat
  check (phase && decide (1 < n)) .iwtUnsupportedPhase 0
  iwtLine s.arg0.toNat n s.arg2.toNat f phase

def execIwtSr1d (f : Filter) (phase : Bool) (s : State) : Host.Outcome State Fault Refusal :=
  runCommand (iwtSr1dBody f phase) s

/-- `count` lines, the first at `a`, each next one `step` words on. -/
def iwtLines (n stride : Nat) (f : Filter) (phase : Bool) (step : Nat) : Nat → Nat → Proc Unit
  | 0, _ => pure ()
  | count + 1, a => do
    iwtLine a n stride f phase
    iwtLines n stride f phase step count (a + step)

/-- IWT.SR2D (R345): the rows in order, then the columns in order. -/
def iwtSr2dBody (f : Filter) (phaseu phasev : Bool) : Proc Unit := do
  let s ← get
  let w := s.arg1.toNat
  let h := s.arg2.toNat
  check (decide (w = 0 ∨ h = 0)) .badOperand 0
  check (decide (s.params.planeWords < s.arg0.toNat + w * h)) .badOperand s.arg0.toNat
  check ((phaseu && decide (1 < w)) || (phasev && decide (1 < h))) .iwtUnsupportedPhase 0
  iwtLines w 1 f phaseu w h s.arg0.toNat
  iwtLines h w f phasev 1 w s.arg0.toNat

def execIwtSr2d (f : Filter) (phaseu phasev : Bool) (s : State) : Host.Outcome State Fault Refusal :=
  runCommand (iwtSr2dBody f phaseu phasev) s

end Sys2Proof.Machine
end

