-- ==== Sys2Proof/Machine/Mq.lean ====
section
/-! DEFINITION. The MQ unit (40_mq_decoder.md). -/

namespace Sys2Proof.Machine

/-- A row of the probability-state table. -/
structure MqRow where
  qe : Nat
  nmps : Nat
  nlps : Nat
  switch : Bool
deriving DecidableEq, Repr

/-- The 47 rows of R141. -/
def mqTable : List MqRow :=
  [⟨0x5601, 1, 1, true⟩, ⟨0x3401, 2, 6, false⟩, ⟨0x1801, 3, 9, false⟩, ⟨0x0AC1, 4, 12, false⟩,
   ⟨0x0521, 5, 29, false⟩, ⟨0x0221, 38, 33, false⟩, ⟨0x5601, 7, 6, true⟩, ⟨0x5401, 8, 14, false⟩,
   ⟨0x4801, 9, 14, false⟩, ⟨0x3801, 10, 14, false⟩, ⟨0x3001, 11, 17, false⟩, ⟨0x2401, 12, 18, false⟩,
   ⟨0x1C01, 13, 20, false⟩, ⟨0x1601, 29, 21, false⟩, ⟨0x5601, 15, 14, true⟩, ⟨0x5401, 16, 14, false⟩] ++
  [⟨0x5101, 17, 15, false⟩, ⟨0x4801, 18, 16, false⟩, ⟨0x3801, 19, 17, false⟩, ⟨0x3401, 20, 18, false⟩,
   ⟨0x3001, 21, 19, false⟩, ⟨0x2801, 22, 19, false⟩, ⟨0x2401, 23, 20, false⟩, ⟨0x2201, 24, 21, false⟩,
   ⟨0x1C01, 25, 22, false⟩, ⟨0x1801, 26, 23, false⟩, ⟨0x1601, 27, 24, false⟩, ⟨0x1401, 28, 25, false⟩,
   ⟨0x1201, 29, 26, false⟩, ⟨0x1101, 30, 27, false⟩, ⟨0x0AC1, 31, 28, false⟩, ⟨0x09C1, 32, 29, false⟩] ++
  [⟨0x08A1, 33, 30, false⟩, ⟨0x0521, 34, 31, false⟩, ⟨0x0441, 35, 32, false⟩, ⟨0x02A1, 36, 33, false⟩,
   ⟨0x0221, 37, 34, false⟩, ⟨0x0141, 38, 35, false⟩, ⟨0x0111, 39, 36, false⟩, ⟨0x0085, 40, 37, false⟩,
   ⟨0x0049, 41, 38, false⟩, ⟨0x0025, 42, 39, false⟩, ⟨0x0015, 43, 40, false⟩, ⟨0x0009, 44, 41, false⟩,
   ⟨0x0005, 45, 42, false⟩, ⟨0x0001, 45, 43, false⟩, ⟨0x5601, 46, 46, false⟩]

/-- Row `idx` (the caller has checked `idx <= 46`, R145). -/
def mqRow (idx : Nat) : MqRow := mqTable.getD idx ⟨0x5601, 46, 46, false⟩

/-- MqByte (R142): 0xFF at or beyond MQ_END. -/
def mqByte (i : Nat) : Proc Nat := do
  let s ← get
  if i < s.mq.endIdx.toNat then
    let b ← memRead .stream i
    pure b.toNat
  else pure 0xFF

/-- MQ_BP <- MQ_BP + 1. -/
def mqAdvance : Proc Unit := modifyMq fun m => { m with bp := m.bp + 1 }

/-- The tail of BYTEIN (R143): `t` is MQ_CLOW plus `add`; its upper half carries into MQ_CHIGH. -/
def mqMerge (add ct : Nat) : Proc Unit :=
  modifyMq fun m =>
    { m with
      ct := BitVec.ofNat 4 ct
      chigh := BitVec.ofNat 16 (m.chigh.toNat + (m.clow.toNat + add) / 2 ^ 16)
      clow := BitVec.ofNat 16 (m.clow.toNat + add) }

/-- BYTEIN (R143). -/
def byteIn : Proc Unit := do
  let s ← get
  let b ← mqByte s.mq.bp.toNat
  if b = 0xFF then
    let nb ← mqByte (s.mq.bp.toNat + 1)
    if 0x8F < nb then mqMerge 0xFF00 8
    else
      mqAdvance
      let v ← mqByte (s.mq.bp.toNat + 1)
      mqMerge (v * 2 ^ 9) 7
  else
    mqAdvance
    let v ← mqByte (s.mq.bp.toNat + 1)
    mqMerge (v * 2 ^ 8) 8

/-- MQ.INIT (R144). -/
def mqInitBody : Proc Unit := do
  checkWindow
  let s ← get
  modifyMq fun m => { m with endIdx := s.arg1 }
  modifyMq fun m => { m with bp := s.arg0 }
  let b ← mqByte s.arg0.toNat
  modifyMq fun m => { m with chigh := BitVec.ofNat 16 b, clow := 0 }
  byteIn
  modifyMq fun m =>
    { m with chigh := (m.chigh <<< 7) ||| (m.clow >>> 9), clow := m.clow <<< 7, ct := m.ct - 7, a := 0x8000 }
  modifyFlags fun f => { f with mqRdy := true }

def execMqInit (s : State) : Host.Outcome State Fault Refusal := runCommand mqInitBody s

/-- RENORMD (R146); the loop runs at most 15 times when `1 <= a`. -/
def renormD : Nat → Nat → Proc Unit
  | 0, _ => refuse .loopBound
  | k + 1, a => do
    let s ← get
    (if s.mq.ct = 0 then byteIn else pure ())
    modifyMq fun m => { m with chigh := (m.chigh <<< 1) ||| (m.clow >>> 15), clow := m.clow <<< 1, ct := m.ct - 1 }
    let a' := a * 2 % 2 ^ 16
    if 2 ^ 15 ≤ a' then modifyMq fun m => { m with a := BitVec.ofNat 16 a' } else renormD k a'

/-- The decision `d` and the entry's new fields. -/
structure MqDecision where
  d : Bool
  idx : Nat
  mps : Bool
deriving DecidableEq, Repr

/-- A more probable symbol was decoded. -/
def mpsDecision (row : MqRow) (mps : Bool) : MqDecision := ⟨mps, row.nmps, mps⟩

/-- A less probable symbol was decoded: MPS flips when SWITCH is 1. -/
def lpsDecision (row : MqRow) (mps : Bool) : MqDecision := ⟨!mps, row.nlps, if row.switch then !mps else mps⟩

/-- A context entry from its fields (10_state.md R36). -/
def cxEntry (idx : Nat) (mps : Bool) : Byte := BitVec.ofNat 8 (idx * 2 + mps.toNat)

/-- The renormalising end of MQ.READBIT: RENORMD, then the entry, then RES. -/
def mqFinish (cxi a : Nat) (o : MqDecision) : Proc Unit := do
  renormD 15 a
  memWrite .cx cxi (cxEntry o.idx o.mps)
  putRes (u32 o.d.toNat)

/-- DECODE (R145) on entry `e` of context `cxi`. -/
def mqDecode (cxi : Nat) (e : Byte) : Proc Unit := do
  let s ← get
  let row := mqRow (e.toNat / 2)
  let mps := e.getLsbD 0
  let a := s.mq.a.toNat - row.qe
  if s.mq.chigh.toNat < row.qe then
    mqFinish cxi row.qe (if a < row.qe then mpsDecision row mps else lpsDecision row mps)
  else
    modifyMq fun m => { m with chigh := m.chigh - BitVec.ofNat 16 row.qe }
    if 2 ^ 15 ≤ a then
      modifyMq fun m => { m with a := BitVec.ofNat 16 a }
      putRes (u32 mps.toNat)
    else mqFinish cxi a (if a < row.qe then lpsDecision row mps else mpsDecision row mps)

/-- MQ.READBIT (R145). -/
def mqReadbitBody (cxi : Nat) : Proc Unit := do
  needReady .mq
  let s ← get
  check (decide (s.params.cxEntries ≤ cxi)) .badOperand cxi
  let e ← memRead .cx cxi
  check (decide (46 < e.toNat / 2)) .badContextState e.toNat
  mqDecode cxi e

def execMqReadbit (cxi : Nat) (s : State) : Host.Outcome State Fault Refusal := runCommand (mqReadbitBody cxi) s

end Sys2Proof.Machine
end

