-- ==== Sys2Proof/Machine/Sys.lean ====
section
/-! DEFINITION. The SYS commands (30_encoding.md R111, R112). -/

namespace Sys2Proof.Machine

/-- SYS.NOP (R111): no effect. -/
def execSysNop (s : State) : Host.Outcome State Fault Refusal := runCommand (pure ()) s

/-- SYS.RESET (R112): the return from the fault state. It needs no readiness and has no fault. -/
def execSysReset (s : State) : Host.Outcome State Fault Refusal := runCommand (modify resetRegisters) s

end Sys2Proof.Machine
end

