-- ==== Sys2Proof/Machine/Dispatch.lean ====
section
/-! DEFINITION. One arm per command: what it does once FAULT is clear and the word is decoded (30_encoding.md R113 steps 3
to 5). -/

namespace Sys2Proof.Machine

def exec (i : Instr) (s : State) : Host.Outcome State Fault Refusal :=
  match i with
  | .sysNop => Sys2Proof.Machine.execSysNop s
  | .sysReset => Sys2Proof.Machine.execSysReset s
  | .mqInit => Sys2Proof.Machine.execMqInit s
  | .mqReadbit cxi => Sys2Proof.Machine.execMqReadbit cxi s
  | .brInit mode => Sys2Proof.Machine.execBrInit mode s
  | .brReadbits n => Sys2Proof.Machine.execBrReadbits n s
  | .brPeekbits n => Sys2Proof.Machine.execBrPeekbits n s
  | .brSkipbits n => Sys2Proof.Machine.execBrSkipbits n s
  | .brAlign => Sys2Proof.Machine.execBrAlign s
  | .brPeekmarker mark => Sys2Proof.Machine.execBrPeekmarker mark s
  | .brSkipbytes => Sys2Proof.Machine.execBrSkipbytes s
  | .hufInit => Sys2Proof.Machine.execHufInit s
  | .hufLoadtable tclass tid => Sys2Proof.Machine.execHufLoadtable tclass tid s
  | .hufScancfg ss se al => Sys2Proof.Machine.execHufScancfg ss se al s
  | .hufRestart => Sys2Proof.Machine.execHufRestart s
  | .hufDecode tclass tid => Sys2Proof.Machine.execHufDecode tclass tid s
  | .hufReceive n => Sys2Proof.Machine.execHufReceive n s
  | .hufExtend n => Sys2Proof.Machine.execHufExtend n s
  | .hufBlockBaseline dct act comp => Sys2Proof.Machine.execHufBlockBaseline dct act comp s
  | .hufDcFirst dct comp => Sys2Proof.Machine.execHufDcFirst dct comp s
  | .hufDcRefine => Sys2Proof.Machine.execHufDcRefine s
  | .hufAcFirst act => Sys2Proof.Machine.execHufAcFirst act s
  | .hufAcRefine act => Sys2Proof.Machine.execHufAcRefine act s
  | .ccittInit kmode eoline balign eoblock black1 => Sys2Proof.Machine.execCcittInit kmode eoline balign eoblock black1 s
  | .ccittReadbyte => Sys2Proof.Machine.execCcittReadbyte s
  | .idctBlock qti => Sys2Proof.Machine.execIdctBlock qti s
  | .iwtSr1d filter phase => Sys2Proof.Machine.execIwtSr1d filter phase s
  | .iwtSr2d filter phaseu phasev => Sys2Proof.Machine.execIwtSr2d filter phaseu phasev s

end Sys2Proof.Machine
end

