-- ==== Sys2Proof/Machine/Port.lean ====
section
/-! DEFINITION. The host port (10_state.md R20) and the issue of a command word (30_encoding.md R113). -/

namespace Sys2Proof.Machine

/-! ## Issuing a command -/

/-- The word of SYS.RESET, the only one that executes in the fault state. -/
def resetWord : Word := 0x01000000

/-- A RegWrite to CMD: the word is latched; while FAULT = 1 every word but SYS.RESET stops here (R113 step 1,
60_exceptions.md R375); then it is decoded (step 2) and executed (steps 3 to 5). -/
def issueCommand (w : Word) (s : State) : Host.Outcome State Fault Refusal :=
  let t := { s with cmd := w }
  if s.flags.fault = true ∧ w ≠ resetWord then .next t
  else
    match decode w with
    | none => .next (takeFault .illegalCommand w.toNat t)
    | some i => exec i t

/-! ## Registers as the host reads them -/

/-- RegRead(r) (R20, R21, R25, R27, R29, R32): zero-extended; an unlisted number reads 0. -/
def regRead (s : State) (r : Nat) : Word :=
  match r with
  | 0x00 => s.cmd
  | 0x01 => s.arg0
  | 0x02 => s.arg1
  | 0x03 => s.arg2
  | 0x04 => s.arg3
  | 0x05 => s.res
  | 0x06 => s.status
  | 0x07 => s.faultRec.info
  | 0x08 => s.faultRec.arg
  | 0x09 => s.faultRec.cmd
  | 0x10 => u32 s.mq.a.toNat
  | 0x11 => u32 s.mq.chigh.toNat
  | 0x12 => u32 s.mq.clow.toNat
  | 0x13 => u32 s.mq.ct.toNat
  | 0x14 => s.mq.bp
  | 0x15 => s.mq.endIdx
  | 0x20 => s.br.pos
  | 0x21 => s.br.endIdx
  | 0x22 => s.br.buf
  | 0x23 => u32 s.br.cnt.toNat
  | 0x24 => u32 (brModeBit s.br.mode)
  | 0x25 => u32 s.br.skip.toNat
  | 0x30 => s.huf.pos
  | 0x31 => s.huf.endIdx
  | 0x32 => u32 s.huf.bits.toNat
  | 0x33 => u32 s.huf.bitcnt.toNat
  | 0x34 => s.huf.pred[0]
  | 0x35 => s.huf.pred[1]
  | 0x36 => s.huf.pred[2]
  | 0x37 => s.huf.pred[3]
  | 0x38 => u32 s.huf.eobrun.toNat
  | 0x39 => u32 s.huf.acstate.toNat
  | 0x3A => s.huf.acnext
  | 0x3B => u32 s.huf.scan.toNat
  | 0x3C => u32 s.hufTvalid.toNat
  | 0x40 => s.cc.cols
  | 0x41 => s.cc.rows
  | 0x42 => u32 s.cc.flags.toNat
  | 0x43 => s.cc.row
  | 0x44 => u32 s.cc.next2d.toNat
  | 0x45 => s.cc.outbits
  | 0x46 => s.cc.cpos
  | _ => 0

/-- RegWrite(r, v): CMD issues a command, ARG0 to ARG3 are stored, every other number is ignored (R20, R21). -/
def regWrite (r : Nat) (v : Word) (s : State) : Host.Outcome State Fault Refusal :=
  match r with
  | 0 => issueCommand v s
  | 1 => .next { s with arg0 := v }
  | 2 => .next { s with arg1 := v }
  | 3 => .next { s with arg2 := v }
  | 4 => .next { s with arg3 := v }
  | _ => .next s

/-! ## Memory elements as the host sees them -/

/-- An element as a port word: sign-extended where the element is signed, else zero-extended (R35, log 8). -/
def portWord (sp : Space) (v : BitVec sp.width) : Word :=
  if sp.signedElement then v.signExtend 32 else v.setWidth 32

/-- HostMemRead(S:a): an unwritten element gives an unspecified value and no fault (20_memory.md R76). -/
def hostMemRead (sp : Space) (a : Nat) (s : State) : Host.Outcome State Fault Refusal :=
  if s.sizeOf sp ≤ a then .fault .hostIndexOutOfRange
  else
    match s.elem sp a with
    | some v => .next { s with portData := portWord sp v }
    | none => .next { s with portData := Config.freeHostRead s.freeCtr, freeCtr := s.freeCtr + 1 }

/-- HostMemWrite(S:a, v): the low bits of `v` that fit the element (log 8). -/
def hostMemWrite (sp : Space) (a : Nat) (v : Word) (s : State) : Host.Outcome State Fault Refusal :=
  if sp.hostWritable = false then .refused .hostWriteReadOnly
  else if s.sizeOf sp ≤ a then .fault .hostIndexOutOfRange
  else .next (s.setMem sp ((s.mem sp).write a (v.setWidth sp.width)))

/-- Power-on reset (70_reset_and_hazards.md R410 to R412): the block keeps its sizes, and the model its queue and the count
of free values drawn. -/
def powerOnReset (s : State) : State := { State.powerOn s.params with pending := s.pending, freeCtr := s.freeCtr }

/-- One operation of the host. -/
def hostStep (op : HostOp) (s : State) : Host.Outcome State Fault Refusal :=
  match op with
  | .regRead r => .next { s with portData := regRead s r }
  | .regWrite r v => regWrite r v s
  | .memRead sp a => hostMemRead sp a s
  | .memWrite sp a v => hostMemWrite sp a v s
  | .powerOn => .next (powerOnReset s)

/-! ## Host macros (30_encoding.md R108): each is a list of port operations -/

/-- The host writes the command word of `i` to CMD. -/
def issueOp (i : Instr) : HostOp := .regWrite 0x00 (encode i)

/-- The host issues `i` and reads RES, `n` times. -/
def repeatAndRead (i : Instr) (n : Nat) : List HostOp := (List.replicate n [issueOp i, .regRead 0x05]).flatten

/-- BR.READBIT. -/
def brReadbitOps : List HostOp := [issueOp (.brReadbits 1)]

/-- MQ.READN CXI=c, n (40_mq_decoder.md R151). -/
def mqReadnOps (cxi n : Nat) : List HostOp := repeatAndRead (.mqReadbit cxi) n

/-- The number the host forms from the decisions MQ.READN read, the first the most significant. -/
def mqReadnValue (res : List Word) : Nat := res.foldl (fun v r => v * 2 + r.toNat) 0

/-- CCITT.READROW: one row of `columns` pixels. -/
def ccittReadrowOps (columns : Nat) : List HostOp := repeatAndRead .ccittReadbyte ((columns + 7) / 8)

/-- MQ.OPEN, BR.OPEN and HUF.OPEN: the window, then the unit's INIT. -/
def openOps (i : Instr) (first past : Word) : List HostOp := [.regWrite 0x01 first, .regWrite 0x02 past, issueOp i]

end Sys2Proof.Machine
end

