-- ==== Sys2Proof/Machine/Step.lean ====
section
/-! DEFINITION. One step: the host's oldest pending operation (10_state.md R22: the block fetches nothing, the host supplies
each command). -/

namespace Sys2Proof.Machine

/-- The host's oldest pending operation is performed; with none pending the block is idle and keeps all state
(60_exceptions.md R379). -/
def step (s : State) : Host.Outcome State Fault Refusal :=
  match s.pending with
  | [] => .next s
  | op :: rest => hostStep op { s with pending := rest }

/-- `s` with the host about to write the word `w` to CMD: the very next step issues it (log 3). -/
def State.withFetchWord (s : State) (nbits w : Nat) : State :=
  { s with pending := .regWrite 0 (BitVec.ofNat 32 (w % 2 ^ nbits)) :: s.pending }

end Sys2Proof.Machine
end

