-- ==== Sys2Proof/Safety.lean ====
section
/-! DEFINITION. The terms claims are stated in: the invariants the spec gives the machine, when data is readable, the fault
words, the bit strings the stream units read and what they code, and the transforms, written from the rules a second time in
a form of their own (whole bit strings, whole rows, one sample at a time). None of it is used by the machine. -/

namespace Sys2Proof.Machine

/-! ## Invariants -/

/-- Every space is in its canonical form and lists only elements it has (20_memory.md R70, R75). -/
abbrev MemoriesCanonical (s : State) : Prop :=
  ∀ sp : Space, (s.mem sp).wf ∧ ∀ x ∈ s.mem sp, x.1 < s.sizeOf sp

/-- 10_state.md R26, with 40_mq_decoder.md R147 (iv). -/
abbrev MqInv (s : State) : Prop :=
  s.flags.mqRdy = true →
    0x8000 ≤ s.mq.a.toNat ∧ s.mq.a.toNat ≤ 0xFFFF ∧ s.mq.ct.toNat ≤ 8 ∧ s.mq.bp.toNat ≤ s.mq.endIdx.toNat ∧
    s.mq.endIdx.toNat ≤ s.params.streamSize ∧ s.mq.clow.toNat % 2 ^ (16 - s.mq.ct.toNat) = 0

/-- 10_state.md R28, but for its last clause, which speaks of the start of the window, a value the block does not keep. -/
abbrev BrInv (s : State) : Prop :=
  s.flags.brRdy = true →
    s.br.buf.toNat < 2 ^ s.br.cnt.toNat ∧ s.br.cnt.toNat ≤ 23 ∧ s.br.pos.toNat ≤ s.br.endIdx.toNat ∧
    s.br.endIdx.toNat ≤ s.params.streamSize ∧ (s.br.mode = .plain → s.br.skip = false)

/-- The part of 10_state.md R31 about HUF_SCAN, which needs no HUF.INIT. -/
abbrev ScanInv (s : State) : Prop := s.huf.ss ≤ s.huf.se ∧ s.huf.se ≤ 63 ∧ s.huf.al ≤ 13

/-- 10_state.md R31. -/
abbrev HufInv (s : State) : Prop :=
  s.flags.hufRdy = true →
    s.huf.pos.toNat ≤ s.huf.endIdx.toNat ∧ s.huf.endIdx.toNat ≤ s.params.streamSize ∧ s.huf.bitcnt.toNat ≤ 7 ∧
    s.huf.acstate.toNat ≤ 4 ∧ s.huf.ss ≤ s.huf.se ∧ s.huf.se ≤ 63 ∧ s.huf.al ≤ 13 ∧ s.huf.eobrun.toNat ≤ 32767

/-- How many codes a histogram lists, all lengths together. -/
def codeCount (cnt : List Byte) : Nat := (cnt.map BitVec.toNat).sum

/-- The codes of length `L` that the lengths up to `L` take up: one of length `j` takes `2 ^ (L - j)` (42_huffman_jpeg.md
R213). -/
def codeSpace (cnt : List Byte) (L : Nat) : Nat :=
  ((List.range L).map fun i => (cnt.getD i 0).toNat * 2 ^ (L - (i + 1))).sum

/-- No length up to `L` has more codes than fit. -/
abbrev CodesFit (cnt : List Byte) (L : Nat) : Prop := ∀ j ∈ List.range (L + 1), codeSpace cnt j ≤ 2 ^ j

/-- A table that HUF.LOADTABLE accepts: as many symbols as codes, at most 256, and no length with more codes than fit
(42_huffman_jpeg.md R213). -/
abbrev TableOk (t : HufTable) : Prop :=
  t.val.length = codeCount t.count.toList ∧ codeCount t.count.toList ≤ 256 ∧ CodesFit t.count.toList 16

/-- Every loaded slot of the table store holds such a table. -/
abbrev TablesInv (s : State) : Prop := ∀ (k : Fin 8) (t : HufTable), s.ht[k] = some t → TableOk t

/-- Element `i` of the coding line. -/
def State.clineAt (s : State) (i : Nat) : Option Nat := (s.elem .cline i).map BitVec.toNat

/-- CLINE[0 .. n] is a decoded row: non-decreasing, its last element CC_COLS, every earlier one below (43_ccitt.md
R278 (a)). -/
abbrev RowLine (s : State) (n : Nat) : Prop :=
  n ≤ s.cc.cols.toNat ∧ s.clineAt n = some s.cc.cols.toNat ∧
  ∀ i, i < n → ∃ v w, s.clineAt i = some v ∧ s.clineAt (i + 1) = some w ∧ v ≤ w ∧ v < s.cc.cols.toNat

/-- Where the current run starts: the end of the run before it. -/
def State.runStart (s : State) : Nat := if s.cc.cpos.toNat = 0 then 0 else (s.clineAt (s.cc.cpos.toNat - 1)).getD 0

/-- Between CCITT commands, while no fault has stopped a row half way: the image is as wide as an INIT allows, and CC_CPOS
and CC_OUTBITS point into a decoded row (10_state.md R32, R33; 43_ccitt.md R278 (a)). -/
abbrev CcInv (s : State) : Prop :=
  s.flags.ccRdy = true → s.flags.fault = false →
    1 ≤ s.cc.cols.toNat ∧ s.cc.cols.toNat ≤ s.params.colsMax ∧
    (∃ n, s.cc.cpos.toNat ≤ n ∧ RowLine s n) ∧
    (∃ e, s.clineAt s.cc.cpos.toNat = some e ∧ s.runStart + s.cc.outbits.toNat ≤ e)

/-- Everything above, and the sizes R6 allows. -/
abbrev Inv (s : State) : Prop :=
  s.params.valid ∧ MemoriesCanonical s ∧ MqInv s ∧ BrInv s ∧ ScanInv s ∧ HufInv s ∧ TablesInv s ∧ CcInv s

/-! ## Fault words (60_exceptions.md R371) -/

/-- Each fault with the FAULTINFO word it records: CODE in bits 7:0, CLASS in bits 11:8 (10_state.md R24). -/
def faultWords : List (FaultName × Word) :=
  [(.illegalCommand, 0x401), (.notInitialised, 0x402), (.badOperand, 0x403), (.badContextState, 0x404), (.badMode, 0x405),
   (.unwrittenRead, 0x406), (.hufInvalidSequence, 0x110), (.hufUnexpectedMarker, 0x111), (.hufEoiInScan, 0x312),
   (.hufEof, 0x313), (.hufBadTable, 0x114), (.hufInvalidAcn, 0x115), (.hufDnlInScan, 0x317), (.hufBadCategory, 0x118),
   (.hufCoefOverrun, 0x119), (.hufRunOverrun, 0x11A), (.hufNoTable, 0x11B), (.brEof, 0x320), (.iwtUnsupportedPhase, 0x230)]

/-! ## The register space (10_state.md R21, R23, R25, R27, R29, R32) -/

/-- The flags of STATUS, bit 0 first. -/
def State.statusBits (s : State) : List Bool :=
  [s.flags.fault, s.flags.mqRdy, s.flags.brRdy, s.flags.hufRdy, s.flags.ccRdy, s.flags.ccEof, s.flags.ccErr, s.flags.ccWarn]

/-- What each register but STATUS and HUF_TVALID reads, by its number. HUF_SCAN and CC_FLAGS are given by their fields. -/
def State.registerMap (s : State) : List (Nat × Word) :=
  [(0x00, s.cmd), (0x01, s.arg0), (0x02, s.arg1), (0x03, s.arg2), (0x04, s.arg3), (0x05, s.res),
   (0x07, s.faultRec.info), (0x08, s.faultRec.arg), (0x09, s.faultRec.cmd)] ++
  [(0x10, s.mq.a.setWidth 32), (0x11, s.mq.chigh.setWidth 32), (0x12, s.mq.clow.setWidth 32), (0x13, s.mq.ct.setWidth 32),
   (0x14, s.mq.bp), (0x15, s.mq.endIdx)] ++
  [(0x20, s.br.pos), (0x21, s.br.endIdx), (0x22, s.br.buf), (0x23, s.br.cnt.setWidth 32),
   (0x24, if s.br.mode = .stuff7 then 1 else 0), (0x25, if s.br.skip then 1 else 0)] ++
  [(0x30, s.huf.pos), (0x31, s.huf.endIdx), (0x32, s.huf.bits.setWidth 32), (0x33, s.huf.bitcnt.setWidth 32),
   (0x34, s.huf.pred[0]), (0x35, s.huf.pred[1]), (0x36, s.huf.pred[2]), (0x37, s.huf.pred[3]),
   (0x38, s.huf.eobrun.setWidth 32), (0x39, s.huf.acstate.setWidth 32), (0x3A, s.huf.acnext),
   (0x3B, BitVec.ofNat 32 (s.huf.ss + s.huf.se * 2 ^ 6 + s.huf.al * 2 ^ 12))] ++
  [(0x40, s.cc.cols), (0x41, s.cc.rows),
   (0x42, BitVec.ofNat 32 (s.cc.kmode + s.cc.eoline.toNat * 2 ^ 2 + s.cc.balign.toNat * 2 ^ 3 + s.cc.eoblock.toNat * 2 ^ 4 +
     s.cc.black1.toNat * 2 ^ 5)),
   (0x43, s.cc.row), (0x44, if s.cc.next2d then 1 else 0), (0x45, s.cc.outbits), (0x46, s.cc.cpos)]

/-! ## Readable data (20_memory.md R76) -/

/-- `n` elements from `base` in steps of `stride` have been written. -/
abbrev Written (s : State) (sp : Space) (base stride n : Nat) : Prop :=
  ∀ i, i < n → (s.elem sp (base + i * stride)).isSome = true

/-- Element `j` of such a run is the first that has not been written. -/
abbrev FirstUnwritten (s : State) (sp : Space) (base stride n j : Nat) : Prop :=
  j < n ∧ Written s sp base stride j ∧ s.elem sp (base + j * stride) = none

/-- The bytes of STREAM from `lo` up to, and not with, `hi` have been written. -/
abbrev WindowWritten (s : State) (lo hi : Nat) : Prop := Written s .stream lo 1 (hi - lo)

/-- The value of an element that is written. -/
def State.value (s : State) (sp : Space) (a : Nat) : BitVec sp.width := (s.elem sp a).getD 0

/-- A run of element values. -/
def State.values (s : State) (sp : Space) (base stride n : Nat) : List (BitVec sp.width) :=
  (List.range n).map fun i => s.value sp (base + i * stride)

/-- The byte at index `i` of a window that ends at `e`, 0xFF at or beyond the end (40_mq_decoder.md R142). -/
def State.byteAt (s : State) (e i : Nat) : Nat := if i < e then (s.value .stream i).toNat else 0xFF

/-! ## The MQ code register (40_mq_decoder.md R141, R143, R146) -/

/-- The rows of R141, index 0 to 46: Qe, NMPS, NLPS, and whether SWITCH is 1. -/
def probRows : List MqRow :=
  [⟨0x5601, 1, 1, true⟩, ⟨0x3401, 2, 6, false⟩, ⟨0x1801, 3, 9, false⟩, ⟨0x0AC1, 4, 12, false⟩,
    ⟨0x0521, 5, 29, false⟩, ⟨0x0221, 38, 33, false⟩, ⟨0x5601, 7, 6, true⟩, ⟨0x5401, 8, 14, false⟩,
    ⟨0x4801, 9, 14, false⟩, ⟨0x3801, 10, 14, false⟩, ⟨0x3001, 11, 17, false⟩, ⟨0x2401, 12, 18, false⟩,
    ⟨0x1C01, 13, 20, false⟩, ⟨0x1601, 29, 21, false⟩, ⟨0x5601, 15, 14, true⟩, ⟨0x5401, 16, 14, false⟩] ++
  [⟨0x5101, 17, 15, false⟩, ⟨0x4801, 18, 16, false⟩, ⟨0x3801, 19, 17, false⟩, ⟨0x3401, 20, 18, false⟩,
    ⟨0x3001, 21, 19, false⟩, ⟨0x2801, 22, 19, false⟩, ⟨0x2401, 23, 20, false⟩, ⟨0x2201, 24, 21, false⟩,
    ⟨0x1C01, 25, 22, false⟩, ⟨0x1801, 26, 23, false⟩, ⟨0x1601, 27, 24, false⟩, ⟨0x1401, 28, 25, false⟩,
    ⟨0x1201, 29, 26, false⟩, ⟨0x1101, 30, 27, false⟩, ⟨0x0AC1, 31, 28, false⟩, ⟨0x09C1, 32, 29, false⟩] ++
  [⟨0x08A1, 33, 30, false⟩, ⟨0x0521, 34, 31, false⟩, ⟨0x0441, 35, 32, false⟩, ⟨0x02A1, 36, 33, false⟩,
    ⟨0x0221, 37, 34, false⟩, ⟨0x0141, 38, 35, false⟩, ⟨0x0111, 39, 36, false⟩, ⟨0x0085, 40, 37, false⟩,
    ⟨0x0049, 41, 38, false⟩, ⟨0x0025, 42, 39, false⟩, ⟨0x0015, 43, 40, false⟩, ⟨0x0009, 44, 41, false⟩,
    ⟨0x0005, 45, 42, false⟩, ⟨0x0001, 45, 43, false⟩, ⟨0x5601, 46, 46, false⟩]

/-- Row `idx` of R141, for the indices it has. -/
def probRow (idx : Nat) : MqRow := probRows.getD idx ⟨0, 0, 0, false⟩

/-- MQ_CHIGH:MQ_CLOW as one 32-bit number, MQ_CT and MQ_BP. -/
structure MqCode where
  c : Nat
  ct : Nat
  bp : Nat
deriving DecidableEq, Repr

/-- The code register of a state. -/
def State.mqCode (s : State) : MqCode :=
  { c := s.mq.chigh.toNat * 2 ^ 16 + s.mq.clow.toNat, ct := s.mq.ct.toNat, bp := s.mq.bp.toNat }

/-- BYTEIN: a marker feeds 1-bits and stays, the byte after a 0xFF gives seven bits, any other eight. -/
def State.mqBytein (s : State) (m : MqCode) : MqCode :=
  let e := s.mq.endIdx.toNat
  let next := s.byteAt e (m.bp + 1)
  if s.byteAt e m.bp ≠ 0xFF then { c := (m.c + next * 2 ^ 8) % 2 ^ 32, ct := 8, bp := m.bp + 1 }
  else if 0x8F < next then { c := (m.c + 0xFF00) % 2 ^ 32, ct := 8, bp := m.bp }
  else { c := (m.c + next * 2 ^ 9) % 2 ^ 32, ct := 7, bp := m.bp + 1 }

/-- `n` rounds of RENORMD: a byte when no bit is left, then one place to the left. -/
def State.mqShifts (s : State) : Nat → MqCode → MqCode
  | 0, m => m
  | n + 1, m =>
    let b := if m.ct = 0 then s.mqBytein m else m
    s.mqShifts n { b with c := b.c * 2 % 2 ^ 32, ct := b.ct - 1 }

/-- The interval after the comparison of R145 with `qe`, and the code register, before any renormalisation. -/
def State.mqInterval (s : State) (qe : Nat) : Nat := if s.mq.chigh.toNat < qe then qe else s.mq.a.toNat - qe
def State.mqReduced (s : State) (qe : Nat) : MqCode :=
  if s.mq.chigh.toNat < qe then s.mqCode else { s.mqCode with c := s.mqCode.c - qe * 2 ^ 16 }

/-- The bytes of the window that BYTEIN looks at from `bp` are written: the one there and the one after it. -/
abbrev MqPairWritten (s : State) (bp : Nat) : Prop := WindowWritten s bp (min s.mq.endIdx.toNat (bp + 2))

/-- So are those that the renormalisation of the interval `a` asks for: one pair at each round that finds no bit left. -/
abbrev MqReadable (s : State) (a : Nat) (m : MqCode) : Prop :=
  ∀ j, j < 15 → a * 2 ^ j < 0x8000 → (s.mqShifts j m).ct = 0 → MqPairWritten s (s.mqShifts j m).bp

/-! ## Bit strings (20_memory.md R72) -/

/-- The low `k` bits of `v`, most significant first. -/
def bitsMsb (k v : Nat) : List Bool := (List.range k).map fun i => v.testBit (k - 1 - i)

/-- The number whose bits, most significant first, are `l`. -/
def numOf (l : List Bool) : Nat := l.foldl (fun v b => v * 2 + b.toNat) 0

/-- The first `n` bits of `l` as a number, and the bits after them. -/
def takeNum (n : Nat) (l : List Bool) : Option (Nat × List Bool) :=
  if n ≤ l.length then some (numOf (l.take n), l.drop n) else none

/-- The bits that `n` bytes of STREAM from `a` give the BR unit; `skip` says that the byte before was 0xFF in STUFF7 mode,
whose successor gives only its low seven bits (41_bitreader.md R180). -/
def brBytes (s : State) : Nat → Nat → Bool → List Bool
  | 0, _, _ => []
  | n + 1, a, skip =>
    let b := (s.value .stream a).toNat
    (if skip then bitsMsb 7 b else bitsMsb 8 b) ++
      brBytes s n (a + 1) (decide (s.br.mode = .stuff7 ∧ b = 0xFF))

/-- The unread bits of the BR window: those buffered, then those of the bytes not fetched yet. -/
def State.brUnread (s : State) : List Bool :=
  bitsMsb s.br.cnt.toNat s.br.buf.toNat ++ brBytes s (s.br.endIdx.toNat - s.br.pos.toNat) s.br.pos.toNat s.br.skip

/-- The bits BR has buffered once Fill has fetched `j` more bytes (41_bitreader.md R181). -/
def State.brBits (s : State) (j : Nat) : List Bool :=
  bitsMsb s.br.cnt.toNat s.br.buf.toNat ++ brBytes s j s.br.pos.toNat s.br.skip

/-- Fill(n) fetches `j` bytes, all of them written: with fewer there are not `n` bits yet, and with `j` there are, or the window
is used up (R181). -/
abbrev BrFills (s : State) (n j : Nat) : Prop :=
  j ≤ s.br.endIdx.toNat - s.br.pos.toNat ∧ Written s .stream s.br.pos.toNat 1 j ∧ (∀ i, i < j → (s.brBits i).length < n) ∧
  (n ≤ (s.brBits j).length ∨ s.br.pos.toNat + j = s.br.endIdx.toNat)

/-- The BR registers once `j` bytes are fetched and the first `n` of the buffered bits are taken, or all of them when there are
fewer. BR_SKIP tells whether the last byte fetched was a 0xFF, in STUFF7 mode. -/
def State.brAfter (s : State) (j n : Nat) : BrUnit :=
  let l := (s.brBits j).drop n
  { s.br with
    pos := BitVec.ofNat 32 (s.br.pos.toNat + j), cnt := BitVec.ofNat 5 l.length, buf := BitVec.ofNat 32 (numOf l)
    skip := if j = 0 then s.br.skip
      else decide (s.br.mode = .stuff7 ∧ s.value .stream (s.br.pos.toNat + (j - 1)) = 0xFF#8) }

/-- The bytes that BR may have fetched in PLAIN mode once `k` more bits are taken are written: it buffers at most 23 bits
(10_state.md R28). -/
abbrev BrAhead (s : State) (k : Nat) : Prop :=
  WindowWritten s s.br.pos.toNat (min s.br.endIdx.toNat (s.br.pos.toNat + (k + 23 - s.br.cnt.toNat) / 8))

/-- How a read beyond the last bit of the segment ends (42_huffman_jpeg.md R211): the bits before it, the fault with its info,
and the HUF_POS and HUF_BITS it leaves; HUF_BITCNT is then 0. -/
structure SegmentEnd where
  bits : List Bool
  fault : FaultName
  info : Nat
  pos : Nat
  byte : Byte
deriving DecidableEq, Repr

/-- More bits before the end. -/
def SegmentEnd.after (l : List Bool) (e : SegmentEnd) : SegmentEnd := { e with bits := l ++ e.bits }

/-- The end that `n` bytes of STREAM from `a` lead to, `b` being the byte the bits before came from: the end of the window,
before a byte or after a lone 0xFF; an unwritten byte (20_memory.md R76); or a marker, FF D9 and FF DC by names of their own. -/
def State.segmentFrom (s : State) : Nat → Nat → Byte → SegmentEnd
  | 0, a, b => { bits := [], fault := .hufEof, info := 0, pos := a, byte := b }
  | n + 1, a, b =>
    match s.elem .stream a with
    | none => { bits := [], fault := .unwrittenRead, info := 2 ^ 28 + a % 2 ^ 28, pos := a, byte := b }
    | some v =>
      if v ≠ 0xFF#8 then (s.segmentFrom n (a + 1) v).after (bitsMsb 8 v.toNat)
      else
        match n with
        | 0 => { bits := [], fault := .hufEof, info := 1, pos := a + 1, byte := b }
        | m + 1 =>
          match s.elem .stream (a + 1) with
          | none => { bits := [], fault := .unwrittenRead, info := 2 ^ 28 + (a + 1) % 2 ^ 28, pos := a + 1, byte := b }
          | some nb =>
            if nb = 0#8 then (s.segmentFrom m (a + 2) 0xFF#8).after (bitsMsb 8 0xFF)
            else
              { bits := []
                fault := if nb = 0xD9#8 then .hufEoiInScan else if nb = 0xDC#8 then .hufDnlInScan else .hufUnexpectedMarker
                info := 0xFF00 + nb.toNat, pos := a + 2, byte := b }

/-- The end of the segment as it lies before the unit. -/
def State.segmentEnd (s : State) : SegmentEnd :=
  (s.segmentFrom (s.huf.endIdx.toNat - s.huf.pos.toNat) s.huf.pos.toNat s.huf.bits).after
    (bitsMsb s.huf.bitcnt.toNat s.huf.bits.toNat)

/-- The HUF registers once HufBit has given a bit (42_huffman_jpeg.md R211): a buffered one, or the first of the byte at HUF_POS,
which is buffered then; a 0xFF takes the 0x00 after it along. -/
def State.hufNext (s : State) : HufUnit :=
  if 0 < s.huf.bitcnt.toNat then { s.huf with bitcnt := BitVec.ofNat 3 (s.huf.bitcnt.toNat - 1) }
  else
    let b : Byte := s.value .stream s.huf.pos.toNat
    { s.huf with
      pos := BitVec.ofNat 32 (s.huf.pos.toNat + if b = 0xFF#8 then 2 else 1), bits := b, bitcnt := 7 }

/-- The HUF registers once it has given `n` bits. -/
def State.hufAfter (s : State) : Nat → HufUnit
  | 0 => s.huf
  | n + 1 => (s.setHuf s.hufNext).hufAfter n

/-- The HUF registers once the bits of the segment are taken but for `rest`. -/
def State.hufLeft (s : State) (rest : List Bool) : HufUnit := s.hufAfter (s.segmentEnd.bits.length - rest.length)

/-- The look-ahead of `n` bits on a bit string: zero-padded when short, 0x80000000 when there is none (41_bitreader.md
R184). -/
def lookAhead (n : Nat) (l : List Bool) : Nat :=
  if l = [] then eofv else numOf ((l ++ List.replicate n false).take n)

/-- The bits left when CCITT.INIT has skipped the leading fill: bits are dropped while the next 12 are 0 (43_ccitt.md
R272). -/
def dropFill : List Bool → List Bool
  | [] => []
  | b :: l => if lookAhead 12 (b :: l) = 0 then dropFill l else b :: l

/-- The bits left when bits are dropped until `stop` holds of those that remain, or none remains. -/
def dropUntil (stop : List Bool → Bool) : List Bool → List Bool
  | [] => []
  | b :: l => if stop (b :: l) then b :: l else dropUntil stop l

/-! ## Reading symbols from a bit string -/

/-- The symbol whose code begins `l`, and the bits after it. -/
def takeSymbol (t : HufTable) (l : List Bool) : Option (Nat × List Bool) :=
  match t.codes.find? fun c => (bitsMsb c.len c.code).isPrefixOf l with
  | some c => some (c.sym.toNat, l.drop c.len)
  | none => none

/-- Extend(n) on a bit string. -/
def takeExtend (n : Nat) (l : List Bool) : Option (Int × List Bool) :=
  (takeNum n l).map fun x => (extendValue n x.1, x.2)

/-- The AC coefficients of a block as a bit string codes them, from position `k` up to `e`: pairs of position and value
before the shift by AL, and the bits after them. A size of 0 with a run below 15 ends the block when `run` is false
(42_huffman_jpeg.md R222) and starts a run of end-of-band blocks when it is true (R225); the third component is that run. -/
def takeAc (t : HufTable) (run : Bool) (e : Nat) : Nat → Nat → List Bool → Option (List (Nat × Int) × Nat × List Bool)
  | 0, _, l => some ([], 0, l)
  | fuel + 1, k, l =>
    if e < k then some ([], 0, l)
    else
      (takeSymbol t l).bind fun (rs, l) =>
        if rs % 16 = 0 then
          if rs / 16 < 15 then
            if run then (takeNum (rs / 16) l).map fun (v, l) => ([], v + 2 ^ (rs / 16) - 1, l)
            else some ([], 0, l)
          else takeAc t run e fuel (k + 16) l
        else if 63 < k + rs / 16 then none
        else
          (takeExtend (rs % 16) l).bind fun (v, l) =>
            (takeAc t run e fuel (k + rs / 16 + 1) l).map fun (cs, r, l) => ((k + rs / 16, v) :: cs, r, l)

/-- AC coefficients as a bit string codes them, `takeAc`'s way, up to a run that carries the position beyond 63: the pairs
before it, that position, and the bits after its symbol (HUF_COEF_OVERRUN of R222 and R225). -/
def takeAcOverrun (t : HufTable) (e : Nat) : Nat → Nat → List Bool → Option (List (Nat × Int) × Nat × List Bool)
  | 0, _, _ => none
  | fuel + 1, k, l =>
    if e < k then none
    else
      (takeSymbol t l).bind fun (rs, l) =>
        if rs % 16 = 0 then if rs / 16 < 15 then none else takeAcOverrun t e fuel (k + 16) l
        else if 63 < k + rs / 16 then some ([], k + rs / 16, l)
        else
          (takeExtend (rs % 16) l).bind fun (v, l) =>
            (takeAcOverrun t e fuel (k + rs / 16 + 1) l).map fun (cs, p, l) => ((k + rs / 16, v) :: cs, p, l)

/-- ZZ (42_huffman_jpeg.md R221): the natural position of the coefficient in each place of the coded order. -/
def zzOrder : List Nat :=
  [0, 1, 8, 16, 9, 2, 3, 10, 17, 24, 32, 25, 18, 11, 4, 5] ++
  [12, 19, 26, 33, 40, 48, 41, 34, 27, 20, 13, 6, 7, 14, 21, 28] ++
  [35, 42, 49, 56, 57, 50, 43, 36, 29, 22, 15, 23, 30, 37, 44, 51] ++
  [58, 59, 52, 45, 38, 31, 39, 46, 53, 60, 61, 54, 47, 55, 62, 63]

/-- ZZ[k]. -/
def zz (k : Nat) : Nat := zzOrder.getD k 0

/-- The value coefficient `z` gets from a list of coded coefficients shifted by `al`; `none` when none of them is it. -/
def codedAt (cs : List (Nat × Int)) (al z : Nat) : Option Half :=
  (cs.find? fun c => decide (zz c.1 = z)).map fun c => half16 (c.2 * 2 ^ al)

/-- The correction bits of a refinement pass over a band: each non-zero coefficient takes one bit
(42_huffman_jpeg.md R226). -/
def refineCoefs (p : Int) : List Int → List Bool → Option (List Int × List Bool)
  | [], l => some ([], l)
  | c :: cs, l =>
    if c = 0 then (refineCoefs p cs l).map fun (ds, l) => (0 :: ds, l)
    else
      match l with
      | [] => none
      | b :: l =>
        (refineCoefs p cs l).map fun (ds, l) => (wrap16 (c + (if c < 0 then -1 else 1) * b.toNat * p) :: ds, l)

/-- Pass over coefficients until `n` zeros are behind, a correction bit for each that is not 0 on the way; what is left
comes after (R226, states 1 and 2). -/
def refineSkip (p : Int) : Nat → List Int → List Bool → Option (List Int × List Int × List Bool)
  | 0, cs, l => some ([], cs, l)
  | _ + 1, [], _ => none
  | n + 1, c :: cs, l =>
    (refineCoefs p [c] l).bind fun (ds, l) =>
      (refineSkip p (if c = 0 then n else n + 1) cs l).map fun (es, cs, l) => (ds ++ es, cs, l)

/-- Put `v` at the first zero, a correction bit for each coefficient before it (R226, state 3). -/
def refinePut (p v : Int) : List Int → List Bool → Option (List Int × List Int × List Bool)
  | [], _ => none
  | c :: cs, l =>
    if c = 0 then some ([wrap16 v], cs, l)
    else (refineCoefs p [c] l).bind fun (ds, l) => (refinePut p v cs l).map fun (es, cs, l) => (ds ++ es, cs, l)

/-- A band as R226 refines it from state 0: the new coefficients, the end-of-band run an EOBn symbol started (0 when none did),
HUF_ACNEXT, which is `nx` before the band and the value of Extend(1) after each symbol of size 1, and the bits after them. -/
def takeRefine (t : HufTable) (p : Int) : Nat → Word → List Int → List Bool → Option (List Int × Nat × Word × List Bool)
  | 0, _, _, _ => none
  | _ + 1, nx, [], l => some ([], 0, nx, l)
  | fuel + 1, nx, c :: cs, l =>
    (takeSymbol t l).bind fun (rs, l) =>
      if rs % 16 = 0 then
        if rs / 16 < 15 then
          (takeNum (rs / 16) l).bind fun (v, l) =>
            (refineCoefs p (c :: cs) l).map fun (ds, l) => (ds, v + 2 ^ (rs / 16), nx, l)
        else
          (refineSkip p 16 (c :: cs) l).bind fun (ds, cs, l) =>
            (takeRefine t p fuel nx cs l).map fun (es, run, l) => (ds ++ es, run, l)
      else if rs % 16 = 1 then
        (takeExtend 1 l).bind fun (v, l) =>
          (refineSkip p (rs / 16) (c :: cs) l).bind fun (ds, cs, l) =>
            (refinePut p (v * p) cs l).bind fun (es, cs, l) =>
              (takeRefine t p fuel (BitVec.ofInt 32 v) cs l).map fun (fs, run, l) => (ds ++ es ++ fs, run, l)
      else none

/-- A band on which R226 stops from state 0: the coefficients it leaves, the fault with its info, the state it leaves, HUF_ACNEXT
(`nx` before the band), and the bits not read. A symbol of size 2 or more stops at once (HUF_INVALID_ACN); a band with too few
zeros for a run of zeros (state 1, or 2 before a new coefficient) or with none left for the new coefficient (state 3) takes the
correction bits of what is left of it and then stops (HUF_RUN_OVERRUN). -/
def takeRefineFault (t : HufTable) (p : Int) :
    Nat → Word → List Int → List Bool → Option (List Int × (FaultName × Nat) × Nat × Word × List Bool)
  | 0, _, _, _ => none
  | _ + 1, _, [], _ => none
  | fuel + 1, nx, c :: cs, l =>
    (takeSymbol t l).bind fun (rs, l) =>
      let zeros := (c :: cs).count 0
      let overrun (state : Nat) (nx : Word) (l : List Bool) :=
        (refineCoefs p (c :: cs) l).map fun (ds, l) => (ds, (FaultName.hufRunOverrun, state), state, nx, l)
      if rs % 16 = 0 then
        if rs / 16 < 15 then none
        else if zeros < 16 then overrun 1 nx l
        else
          (refineSkip p 16 (c :: cs) l).bind fun (ds, cs, l) =>
            (takeRefineFault t p fuel nx cs l).map fun (es, f, l) => (ds ++ es, f, l)
      else if rs % 16 = 1 then
        (takeExtend 1 l).bind fun (v, l) =>
          let nx' : Word := BitVec.ofInt 32 v
          if zeros < rs / 16 then overrun 2 nx' l
          else if zeros = rs / 16 then overrun 3 nx' l
          else
            (refineSkip p (rs / 16) (c :: cs) l).bind fun (ds, cs, l) =>
              (refinePut p (v * p) cs l).bind fun (es, cs, l) =>
                (takeRefineFault t p fuel nx' cs l).map fun (fs, f, l) => (ds ++ es ++ fs, f, l)
      else some (c :: cs, (.hufInvalidAcn, rs), 0, nx, l)

/-! ## Symbols and bits cut short (42_huffman_jpeg.md R211, R214) -/

/-- Why bits that code something do not code all of it: they end, or the next `n` begin no code, with the bits after those. -/
inductive BitStop where
  | ended
  | invalid (n : Nat) (rest : List Bool)
deriving DecidableEq, Repr

/-- Why `l` begins with no code of the table: after the first bits that no code begins with, or because it ends before. -/
def symbolStop (t : HufTable) (l : List Bool) : BitStop :=
  match (List.range l.length).find? fun n => !t.codes.any fun c => (l.take (n + 1)).isPrefixOf (bitsMsb c.len c.code) with
  | some n => .invalid (n + 1) (l.drop (n + 1))
  | none => .ended

/-- Why `l` codes no DC difference of a category up to 16. -/
def takeDcStop (t : HufTable) (l : List Bool) : Option BitStop :=
  match takeSymbol t l with
  | none => some (symbolStop t l)
  | some (cat, l) => if cat ≤ 16 ∧ l.length < cat then some .ended else none

/-- AC coefficients as a bit string codes them, `takeAc`'s way, up to where the bits stop. -/
def takeAcStop (t : HufTable) (run : Bool) (e : Nat) : Nat → Nat → List Bool → Option (List (Nat × Int) × BitStop)
  | 0, _, _ => none
  | fuel + 1, k, l =>
    if e < k then none
    else
      match takeSymbol t l with
      | none => some ([], symbolStop t l)
      | some (rs, l) =>
        if rs % 16 = 0 then
          if rs / 16 < 15 then if run ∧ l.length < rs / 16 then some ([], .ended) else none
          else takeAcStop t run e fuel (k + 16) l
        else if 63 < k + rs / 16 then none
        else
          match takeExtend (rs % 16) l with
          | none => some ([], .ended)
          | some (v, l) => (takeAcStop t run e fuel (k + rs / 16 + 1) l).map fun (cs, stop) => ((k + rs / 16, v) :: cs, stop)

/-- The coefficients when the correction bits end before `refineCoefs` is through: those without a bit stay. -/
def refineCut (p : Int) : List Int → List Bool → List Int
  | [], _ => []
  | c :: cs, l =>
    if c = 0 then 0 :: refineCut p cs l
    else
      match l with
      | [] => c :: cs
      | b :: l => wrap16 (c + (if c < 0 then -1 else 1) * b.toNat * p) :: refineCut p cs l

/-- The coefficients up to the `n`-th zero, or all when there are fewer zeros. -/
def uptoZeros : Nat → List Int → List Int
  | 0, _ => []
  | _ + 1, [] => []
  | n + 1, c :: cs => c :: uptoZeros (if c = 0 then n else n + 1) cs

/-- `head` of the coefficients `cs` needs more correction bits than `l` has: what that leaves of them. -/
def cutIn (p : Int) (head cs : List Int) (l : List Bool) : Option (List Int) :=
  if refineCoefs p head l = none then some (refineCut p head l ++ cs.drop head.length) else none

/-- A band as R226 refines it from state 0, up to where the bits stop: the coefficients it leaves, the state, and the end-of-band
run an EOBn symbol started (in state 4), HUF_ACNEXT (`nx` before the band), and why they stop. -/
def takeRefineStop (t : HufTable) (p : Int) :
    Nat → Word → List Int → List Bool → Option (List Int × Nat × Nat × Word × BitStop)
  | 0, _, _, _ => none
  | _ + 1, _, [], _ => none
  | fuel + 1, nx, c :: cs, l =>
    match takeSymbol t l with
    | none => some (c :: cs, 0, 0, nx, symbolStop t l)
    | some (rs, l) =>
      if rs % 16 = 0 then
        if rs / 16 < 15 then
          match takeNum (rs / 16) l with
          | none => some (c :: cs, 0, 0, nx, .ended)
          | some (v, l) => (cutIn p (c :: cs) (c :: cs) l).map fun ds => (ds, 4, v + 2 ^ (rs / 16), nx, .ended)
        else
          match cutIn p (uptoZeros 16 (c :: cs)) (c :: cs) l with
          | some ds => some (ds, 1, 0, nx, .ended)
          | none =>
            (refineSkip p 16 (c :: cs) l).bind fun (ds, cs, l) =>
              (takeRefineStop t p fuel nx cs l).map fun (es, stop) => (ds ++ es, stop)
      else if rs % 16 = 1 then
        match takeExtend 1 l with
        | none => some (c :: cs, 0, 0, nx, .ended)
        | some (v, l) =>
          match cutIn p (uptoZeros (rs / 16) (c :: cs)) (c :: cs) l with
          | some ds => some (ds, 2, 0, BitVec.ofInt 32 v, .ended)
          | none =>
            (refineSkip p (rs / 16) (c :: cs) l).bind fun (ds, cs, l) =>
              match cutIn p (cs.takeWhile (· ≠ 0)) cs l with
              | some es => some (ds ++ es, 3, 0, BitVec.ofInt 32 v, .ended)
              | none =>
                (refinePut p (v * p) cs l).bind fun (es, cs, l) =>
                  (takeRefineStop t p fuel (BitVec.ofInt 32 v) cs l).map fun (fs, stop) => (ds ++ es ++ fs, stop)
      else none

/-- State `t` is what a command leaves whose bits stop: `s` is the state with the rest of what it wrote. Bits that end give the
fault of the segment's end; bits no code begins with give HUF_INVALID_SEQUENCE with their number, and are taken. -/
abbrev BitsStopped (e : SegmentEnd) (s : State) (t : State) : BitStop → Prop
  | .ended => t = takeFault e.fault e.info
      (s.setHuf { s.huf with pos := BitVec.ofNat 32 e.pos, bits := e.byte, bitcnt := 0 })
  | .invalid n rest => t.segmentEnd = { e with bits := rest } ∧
      t = takeFault .hufInvalidSequence n (s.setHuf (s.hufLeft rest))

/-! ## CCITT codes on bit strings (43_ccitt.md R261 to R267, R271) -/

/-- R261: white runs of 0 to 63 pixels, in this order. -/
def whiteTermCodes : List String :=
  ["00110101", "000111", "0111", "1000", "1011", "1100", "1110", "1111", "10011", "10100", "00111", "01000",
   "001000", "000011", "110100", "110101", "101010", "101011", "0100111", "0001100", "0001000", "0010111",
   "0000011", "0000100", "0101000", "0101011", "0010011", "0100100", "0011000", "00000010", "00000011", "00011010"] ++
  ["00011011", "00010010", "00010011", "00010100", "00010101", "00010110", "00010111", "00101000", "00101001",
   "00101010", "00101011", "00101100", "00101101", "00000100", "00000101", "00001010", "00001011", "01010010",
   "01010011", "01010100", "01010101", "00100100", "00100101", "01011000", "01011001", "01011010", "01011011",
   "01001010", "01001011", "00110010", "00110011", "00110100"]

/-- R262: white runs of 64, 128, ..., 1728. -/
def whiteMakeUpCodes : List String :=
  ["11011", "10010", "010111", "0110111", "00110110", "00110111", "01100100", "01100101", "01101000", "01100111",
   "011001100", "011001101", "011010010", "011010011", "011010100", "011010101", "011010110", "011010111",
   "011011000", "011011001", "011011010", "011011011", "010011000", "010011001", "010011010", "011000", "010011011"]

/-- R263: black runs of 0 to 63. -/
def blackTermCodes : List String :=
  ["0000110111", "010", "11", "10", "011", "0011", "0010", "00011", "000101", "000100", "0000100", "0000101",
   "0000111", "00000100", "00000111", "000011000", "0000010111", "0000011000", "0000001000", "00001100111",
   "00001101000", "00001101100", "00000110111", "00000101000", "00000010111", "00000011000", "000011001010",
   "000011001011", "000011001100", "000011001101", "000001101000", "000001101001"] ++
  ["000001101010", "000001101011", "000011010010", "000011010011", "000011010100", "000011010101", "000011010110",
   "000011010111", "000001101100", "000001101101", "000011011010", "000011011011", "000001010100", "000001010101",
   "000001010110", "000001010111", "000001100100", "000001100101", "000001010010", "000001010011", "000000100100",
   "000000110111", "000000111000", "000000100111", "000000101000", "000001011000", "000001011001", "000000101011",
   "000000101100", "000001011010", "000001100110", "000001100111"]

/-- R264: black runs of 64, 128, ..., 1728. -/
def blackMakeUpCodes : List String :=
  ["0000001111", "000011001000", "000011001001", "000001011011", "000000110011", "000000110100", "000000110101",
   "0000001101100", "0000001101101", "0000001001010", "0000001001011", "0000001001100", "0000001001101",
   "0000001110010", "0000001110011", "0000001110100", "0000001110101", "0000001110110", "0000001110111",
   "0000001010010", "0000001010011", "0000001010100", "0000001010101", "0000001011010", "0000001011011",
   "0000001100100", "0000001100101"]

/-- R265: runs of 1792, 1856, ..., 2560 of either colour. -/
def longMakeUpCodes : List String :=
  ["00000001000", "00000001100", "00000001101", "000000010010", "000000010011", "000000010100", "000000010101",
   "000000010110", "000000010111", "000000011100", "000000011101", "000000011110", "000000011111"]

/-- The bits of a code that is written in stream order, and codes for the values `start`, `start + step`, ... -/
def codeBits (c : String) : List Bool := c.toList.map (· == '1')

def codeTable (start step : Nat) (codes : List String) : List (List Bool × Nat) :=
  codes.zipIdx.map fun (c, i) => (codeBits c, start + step * i)

/-- WHITE (colour 0) or BLACK (colour 1): each code with its run length. -/
def runTable (colour : Nat) : List (List Bool × Nat) :=
  (if colour = 0 then codeTable 0 1 whiteTermCodes ++ codeTable 64 64 whiteMakeUpCodes
    else codeTable 0 1 blackTermCodes ++ codeTable 64 64 blackMakeUpCodes) ++ codeTable 1792 64 longMakeUpCodes

/-- MODES (R266). -/
def modeTable : List (List Bool × Mode2D) :=
  [("0001", .pass), ("001", .horizontal), ("1", .right 0), ("011", .right 1), ("000011", .right 2), ("0000011", .right 3),
   ("010", .left 1), ("000010", .left 2), ("0000010", .left 3)].map fun (c, m) => (codeBits c, m)

/-- The end-of-line code (R265). -/
def eolBits : List Bool := codeBits "000000000001"

/-- What the head of a bit string reads as: nothing when there is none, no code, or a value; with the bits not read. -/
inductive BitRead (α : Type) where
  | eof
  | bad (rest : List Bool)
  | ok (v : α) (rest : List Bool)
deriving DecidableEq, Repr

/-- Match(T) (R267): a code may end beyond the data, where the bits are 0. -/
def readCode {α : Type} (t : List (List Bool × α)) (l : List Bool) : BitRead α :=
  if l = [] then .eof
  else
    match t.find? fun c => c.1.isPrefixOf (l ++ List.replicate 13 false) with
    | some c => .ok c.2 (l.drop c.1.length)
    | none => .bad l

/-- RunLen (R271) after `total` pixels: make-up codes, then a terminating code. -/
def readRun (t : List (List Bool × Nat)) : Nat → Nat → List Bool → BitRead Nat
  | 0, _, _ => .eof
  | fuel + 1, total, l =>
    match readCode t l with
    | .eof => .eof
    | .bad rest => .bad rest
    | .ok v rest => if v < 64 then .ok (total + v) rest else readRun t fuel (total + v) rest

/-! ## CCITT rows on bit strings (43_ccitt.md R268 to R275) -/

/-- A row being read: the ends of its runs, the last one first (CLINE from CC_CPOS down to 0), whether it is damaged (CC_ERR),
whether the data ended in it (CC_EOF), and the unread bits. -/
structure RowRead where
  ends : List Nat
  err : Bool
  eof : Bool
  rest : List Bool
deriving DecidableEq, Repr

/-- Where the row has got to. -/
def RowRead.here (r : RowRead) : Nat := r.ends.headD 0

/-- AddPix (R268): the run of the given colour ends at `a1`, no further than the row. -/
def RowRead.addPix (cols a1 colour : Nat) (r : RowRead) : RowRead :=
  match r.ends with
  | [] => r
  | e :: es =>
    if a1 ≤ e then r
    else if es.length % 2 = colour then { r with ends := min a1 cols :: es, err := r.err || decide (cols < a1) }
    else if es.length = cols then { r with ends := cols :: es, err := true }
    else { r with ends := min a1 cols :: e :: es, err := r.err || decide (cols < a1) }

/-- AddPixNeg (R269): `a1` may lie to the left, and then runs that end beyond it go. -/
def RowRead.addPixNeg (cols : Nat) (a1 : Int) (colour : Nat) (r : RowRead) : RowRead :=
  match r.ends with
  | [] => r
  | e :: es =>
    if (e : Int) ≤ a1 then r.addPix cols a1.toNat colour
    else { r with ends := a1.toNat :: es.dropWhile (fun e' => a1.toNat < e'), err := r.err || decide (a1 < 0) }

/-- The row ends white where the data ends, or at an invalid code, of which one bit is consumed (R271, R274, R277). -/
def RowRead.cut (cols : Nat) (r : RowRead) : RowRead := { r with eof := true, rest := [] }.addPix cols cols 0

def RowRead.spoil (cols : Nat) (rest : List Bool) (r : RowRead) : RowRead :=
  { r with err := true, rest := rest.drop 1 }.addPix cols cols 0

/-- DecodeRow1D (R273): runs of alternating colour, each no longer than the row. -/
def readRow1D (cols : Nat) : Nat → Nat → RowRead → RowRead
  | 0, _, r => r
  | fuel + 1, colour, r =>
    if r.here < cols then
      match readRun (runTable colour) (r.rest.length + 1) 0 r.rest with
      | .eof => r.cut cols
      | .bad rest => r.spoil cols rest
      | .ok n rest => readRow1D cols fuel (1 - colour) ({ r with rest := rest }.addPix cols (r.here + n) colour)
    else r

/-- Ref(i) (R270) when `prev` are the run ends of the row before that lie inside it. -/
def refEnd (cols : Nat) (prev : List Nat) (i : Nat) : Nat := prev.getD i cols

/-- Adv() (R274): the first of `rp`, `rp + 2`, ... whose element lies beyond `here`, or at the end of the row. -/
def nextRef (cols : Nat) (prev : List Nat) (here rp : Nat) : Nat :=
  rp + 2 * ((List.range (prev.length + 1)).find? fun j =>
    decide (here < refEnd cols prev (rp + 2 * j) ∨ cols ≤ refEnd cols prev (rp + 2 * j))).getD 0

/-- DecodeRow2D (R274) from reference index `rp` on. -/
def readRow2D (cols : Nat) (prev : List Nat) : Nat → Nat → Nat → RowRead → RowRead
  | 0, _, _, r => r
  | fuel + 1, rp, colour, r =>
    if r.here < cols then
      match readCode modeTable r.rest with
      | .eof => r.cut cols
      | .bad rest => r.spoil cols rest
      | .ok .pass rest =>
        readRow2D cols prev fuel (if refEnd cols prev (rp + 1) < cols then rp + 2 else rp) colour
          ({ r with rest := rest }.addPix cols (refEnd cols prev (rp + 1)) colour)
      | .ok .horizontal rest =>
        match readRun (runTable colour) (rest.length + 1) 0 rest with
        | .eof => r.cut cols
        | .bad rest => r.spoil cols rest
        | .ok n rest =>
          match readRun (runTable (1 - colour)) (rest.length + 1) 0 rest with
          | .eof => r.cut cols
          | .bad rest => r.spoil cols rest
          | .ok m rest =>
            let r1 := { r with rest := rest }.addPix cols (r.here + n) colour
            let r2 := if r1.here < cols then r1.addPix cols (r1.here + m) (1 - colour) else r1
            readRow2D cols prev fuel (nextRef cols prev r2.here rp) colour r2
      | .ok (.right d) rest =>
        let r1 := { r with rest := rest }.addPix cols (refEnd cols prev rp + d) colour
        readRow2D cols prev fuel (if r1.here < cols then nextRef cols prev r1.here (rp + 1) else rp) (1 - colour) r1
      | .ok (.left d) rest =>
        let r1 := { r with rest := rest }.addPixNeg cols (refEnd cols prev rp - d) colour
        readRow2D cols prev fuel
          (if r1.here < cols then nextRef cols prev r1.here (if 0 < rp then rp - 1 else rp + 1) else rp) (1 - colour) r1
    else r

/-- The run ends of the row in CLINE that lie inside it. -/
def State.lineEnds (s : State) : List Nat :=
  ((List.range (s.cc.cols.toNat + 1)).map fun i => (s.clineAt i).getD 0).takeWhile fun e => decide (e < s.cc.cols.toNat)

/-- The next row, as the unread bits and the row before code it: 2-D when CC_NEXT2D = 1. -/
def State.nextRow (s : State) : RowRead :=
  let l := s.brUnread
  let r : RowRead := { ends := [0], err := false, eof := false, rest := l }
  if s.cc.next2d then readRow2D s.cc.cols.toNat s.lineEnds (l.length + 1) 0 0 r
  else readRow1D s.cc.cols.toNat (l.length + 1) 0 r

/-- What PostRow leaves: the unread bits, CC_EOF and CC_NEXT2D. -/
structure RowGap where
  rest : List Bool
  eof : Bool
  next2d : Bool
deriving DecidableEq, Repr

/-- PostRow (R275) after a row `r`: alignment, the row count or the search for an EOL, the tag bit, then a second EOL ends the
data, or a damaged row hunts for the next EOL. (The scope of R275's two ifs that share a line with what follows is log 16's.) -/
def CcUnit.gapAfter (c : CcUnit) (r : RowRead) : RowGap :=
  let l0 := if c.balign then r.rest.drop (r.rest.length % 8) else r.rest
  let last := !c.eoblock && decide (c.row.toNat + 1 = c.rows.toNat)
  let l1 :=
    if last then l0
    else if c.eoline then dropUntil (fun l => decide (lookAhead 12 l = 1)) l0
    else dropUntil (fun l => decide (lookAhead 12 l ≠ 0)) l0
  let eol := !last && decide (lookAhead 12 l1 = 1)
  let l2 := if eol then l1.drop 12 else l1
  let eof := r.eof || last || decide (l1 = [])
  let tag := !eof && decide (c.kmode = 1)
  let l3 := if tag then l2.drop 1 else l2
  let next2d := if tag then decide (lookAhead 1 l2 = 0) else c.next2d
  if c.eoblock && eol then
    if lookAhead 12 l3 = 1 then
      { rest := l3.drop (if c.kmode = 2 then 12 else if c.kmode = 1 then 65 else 60), eof := true, next2d := next2d }
    else { rest := l3, eof := eof, next2d := next2d }
  else if r.err && c.eoline then
    let l4 := dropUntil (fun l => decide (lookAhead 13 l / 2 = 1)) l3
    if eof || decide (l4 = []) then { rest := l4, eof := true, next2d := next2d }
    else if c.kmode = 1 then { rest := l4.drop 13, eof := false, next2d := decide (lookAhead 13 l4 % 2 = 0) }
    else { rest := l4.drop 12, eof := false, next2d := next2d }
  else { rest := l3, eof := eof, next2d := next2d }

/-- How many bits the next row and PostRow take. -/
def State.rowBits (s : State) : Nat := s.brUnread.length - (s.cc.gapAfter s.nextRow).rest.length

/-! ## Pixels of a decoded CCITT row (10_state.md R33, 43_ccitt.md R276) -/

/-- Pixel `x` of the row in CLINE is white: it lies in a run of even index. There are no pixels from CC_COLS on, and those
places are not white. -/
def State.whiteAt (s : State) (x : Nat) : Bool :=
  decide (x < s.cc.cols.toNat) &&
    match (List.range (s.cc.cols.toNat + 1)).find? fun i => decide (x < (s.clineAt i).getD 0) with
    | some i => decide (i % 2 = 0)
    | none => false

/-- The first pixel not output yet. -/
def State.nextPixel (s : State) : Nat := (s.clineAt s.cc.cpos.toNat).getD 0 - s.cc.outbits.toNat

/-- Eight places of the row from `x` on as a byte, white 1, inverted when BLACK1 = 1. -/
def State.rowByte (s : State) (x : Nat) : Nat :=
  let b := numOf ((List.range 8).map fun j => s.whiteAt (x + j))
  if s.cc.black1 then b ^^^ 0xFF else b

/-- The next eight places of the row. -/
def State.nextByte (s : State) : Nat := s.rowByte s.nextPixel

/-! ## The inverse DCT, one sample at a time (44_idct.md R321, R323, R324) -/

/-- Value `k` of a row of coefficients `c` with steps `q` after RowPass. -/
def idctRow (c q : Nat → Int) (k : Nat) : Int :=
  let p := fun j => c j * q j
  if c 1 = 0 ∧ c 2 = 0 ∧ c 3 = 0 ∧ c 4 = 0 ∧ c 5 = 0 ∧ c 6 = 0 ∧ c 7 = 0 then wrap16 (asr32 (5793 * p 0 + 512) 10)
  else
    let v0 := asr32 (5793 * p 0 + 128) 8
    let v1 := asr32 (5793 * p 4 + 128) 8
    let v2 := p 2
    let v3 := p 6
    let v4 := asr32 (2896 * (p 1 - p 7) + 128) 8
    let v7 := asr32 (2896 * (p 1 + p 7) + 128) 8
    let v5 := shl32 (p 3) 4
    let v6 := shl32 (p 5) 4
    let v0 := asr32 (v0 + v1 + 1) 1
    let v1 := v0 - v1
    let t := asr32 (v2 * 3784 + v3 * 1567 + 128) 8
    let v2 := asr32 (v2 * 1567 - v3 * 3784 + 128) 8
    let v3 := t
    let v4 := asr32 (v4 + v6 + 1) 1
    let v6 := v4 - v6
    let v7 := asr32 (v7 + v5 + 1) 1
    let v5 := v7 - v5
    let v0 := asr32 (v0 + v3 + 1) 1
    let v3 := v0 - v3
    let v1 := asr32 (v1 + v2 + 1) 1
    let v2 := v1 - v2
    let t := asr32 (v4 * 2276 + v7 * 3406 + 2048) 12
    let v4 := asr32 (v4 * 3406 - v7 * 2276 + 2048) 12
    let v7 := t
    let t := asr32 (v5 * 799 + v6 * 4017 + 2048) 12
    let v5 := asr32 (v5 * 4017 - v6 * 799 + 2048) 12
    let v6 := t
    wrap16 ([v0 + v7, v1 + v6, v2 + v5, v3 + v4, v3 - v4, v2 - v5, v1 - v6, v0 - v7].getD k 0)

/-- Sample `k` of a column `p` of the workspace after ColPass. -/
def idctCol (p : Nat → Int) (k : Nat) : Int :=
  if p 1 = 0 ∧ p 2 = 0 ∧ p 3 = 0 ∧ p 4 = 0 ∧ p 5 = 0 ∧ p 6 = 0 ∧ p 7 = 0 then
    let t := asr32 (5793 * p 0 + 8192) 14
    if t < -2040 then 0 else if 2024 ≤ t then 255 else (t + 2056) / 16
  else
    let v0 := asr32 (5793 * p 0 + 2048) 12
    let v1 := asr32 (5793 * p 4 + 2048) 12
    let v2 := p 2
    let v3 := p 6
    let v4 := asr32 (2896 * (p 1 - p 7) + 2048) 12
    let v7 := asr32 (2896 * (p 1 + p 7) + 2048) 12
    let v5 := p 3
    let v6 := p 5
    let v0 := asr32 (v0 + v1 + 1) 1 + 4112
    let v1 := v0 - v1
    let t := asr32 (v2 * 3784 + v3 * 1567 + 2048) 12
    let v2 := asr32 (v2 * 1567 - v3 * 3784 + 2048) 12
    let v3 := t
    let v4 := asr32 (v4 + v6 + 1) 1
    let v6 := v4 - v6
    let v7 := asr32 (v7 + v5 + 1) 1
    let v5 := v7 - v5
    let v0 := asr32 (v0 + v3 + 1) 1
    let v3 := v0 - v3
    let v1 := asr32 (v1 + v2 + 1) 1
    let v2 := v1 - v2
    let t := asr32 (v4 * 2276 + v7 * 3406 + 2048) 12
    let v4 := asr32 (v4 * 3406 - v7 * 2276 + 2048) 12
    let v7 := t
    let t := asr32 (v5 * 799 + v6 * 4017 + 2048) 12
    let v5 := asr32 (v5 * 4017 - v6 * 799 + 2048) 12
    let v6 := t
    let q := [v0 + v7, v1 + v6, v2 + v5, v3 + v4, v3 - v4, v2 - v5, v1 - v6, v0 - v7].getD k 0
    if q < 16 then 0 else if 4080 ≤ q then 255 else q / 16

/-- Sample `i` (row `i / 8`, column `i % 8`) of a block: the rows first, then the columns (R322). -/
def idctSample (c q : Nat → Int) (i : Nat) : Int :=
  idctCol (fun r => idctRow (fun k => c (8 * r + k)) (fun k => q (8 * r + k)) (i % 8)) (i / 8)

/-! ## Inverse lifting, one sample at a time (45_wavelet_lifting.md R341, R343, R351, R353) -/

/-- The index of 0 to n - 1 that an index reflects to at both ends of a signal. -/
def reflect (n : Nat) (i : Int) : Nat :=
  let m := i.natAbs % (2 * (n - 1))
  min m (2 * (n - 1) - m)

/-- Sample `i` of the 5/3 filter: the even ones first. -/
def lift53 (n : Nat) (w : Nat → Word) (i : Nat) : Word :=
  let y : Int → Int := fun j => (w (reflect n j)).toInt
  let even : Int → Int := fun j => wrap32 (y j - asr32 (y (j - 1) + y (j + 1) + 2) 2)
  BitVec.ofInt 32 (if i % 2 = 0 then even i else wrap32 (y i + asr32 (even (i - 1) + even (i + 1)) 1))

/-- Sample `i` of the 9/7 filter: each step at the positions of its parity, of the signal extended without end. -/
def lift97 (N : Numerics) (n : Nat) (w : Nat → Word) (i : Nat) : Word :=
  let st : N.T → N.T := fun v => N.dec (N.enc v)
  let x : Int → N.T := fun j => N.dec (w (reflect n j))
  let x1 : Int → N.T := fun j => st (N.mul N.Kinv (x j))
  let x2 : Int → N.T := fun j =>
    st (N.sub (N.sub (N.mul N.K (x j)) (N.mul N.delta (x1 (j - 1)))) (N.mul N.delta (x1 (j + 1))))
  let x3 : Int → N.T := fun j => st (N.sub (x1 j) (N.add (N.mul N.gamma (x2 (j - 1))) (N.mul N.gamma (x2 (j + 1)))))
  let x4 : Int → N.T := fun j => st (N.sub (x2 j) (N.add (N.mul N.beta (x3 (j - 1))) (N.mul N.beta (x3 (j + 1)))))
  let x5 : Int → N.T := fun j => st (N.sub (x3 j) (N.add (N.mul N.alpha (x4 (j - 1))) (N.mul N.alpha (x4 (j + 1)))))
  N.enc (if i % 2 = 0 then x4 i else x5 i)

/-- Word `i` of what a line of `n` words becomes, with the block's own numerics. -/
def lineWord (f : Filter) (phase : Bool) (n : Nat) (w : Nat → Word) (i : Nat) : Word :=
  if n = 1 then
    if phase then
      match f with
      | .rev53 => (w 0).sshiftRight 1
      | .irr97 => Config.iwt97Enc (Config.iwt97Mul Config.iwt97Half (Config.iwt97Dec (w 0)))
    else w 0
  else
    match f with
    | .rev53 => lift53 n w i
    | .irr97 => lift97 Config.iwt97Num n w i

/-! ## Wavelet laws (45_wavelet_lifting.md R354) -/

/-- D(i) of FWD53, `i` odd. -/
def fwd53Odd (x : List Int) (i : Int) : Int :=
  wrap32 (extended x i - asr32 (extended x (i - 1) + extended x (i + 1)) 1)

/-- FWD53 (R354 (a)): the forward 5/3 transform, a test harness of the spec and no command. -/
def fwd53 (x : List Int) : List Int :=
  (List.range x.length).map fun i : Nat =>
    if i % 2 = 1 then fwd53Odd x i
    else wrap32 (extended x i + asr32 (fwd53Odd x (i - 1) + fwd53Odd x (i + 1) + 2) 2)

/-- What the horizontal pass of IWT.SR2D makes of an array `img` (row, column) of width `w` (R345). -/
def rowsPass (f : Filter) (phase : Bool) (w : Nat) (img : Nat → Nat → Word) : Nat → Nat → Word :=
  fun v u => lineWord f phase w (img v) u

/-- What the vertical pass makes of an array of height `h`. -/
def columnsPass (f : Filter) (phase : Bool) (h : Nat) (img : Nat → Nat → Word) : Nat → Nat → Word :=
  fun v u => lineWord f phase h (fun v => img v u) v

/-! ## Who may write what -/

/-- The unit of a command (00_scope.md R2), SYS as 0. -/
def unitOfInstr : Instr → Nat
  | .sysNop => 0
  | .sysReset => 0
  | .mqInit => 1
  | .mqReadbit _ => 1
  | .brInit _ => 2
  | .brReadbits _ => 2
  | .brPeekbits _ => 2
  | .brSkipbits _ => 2
  | .brAlign => 2
  | .brPeekmarker _ => 2
  | .brSkipbytes => 2
  | .hufInit => 3
  | .hufLoadtable _ _ => 3
  | .hufScancfg _ _ _ => 3
  | .hufRestart => 3
  | .hufDecode _ _ => 3
  | .hufReceive _ => 3
  | .hufExtend _ => 3
  | .hufBlockBaseline _ _ _ => 3
  | .hufDcFirst _ _ => 3
  | .hufDcRefine => 3
  | .hufAcFirst _ => 3
  | .hufAcRefine _ => 3
  | .ccittInit _ _ _ _ _ => 4
  | .ccittReadbyte => 4
  | .idctBlock _ => 5
  | .iwtSr1d _ _ => 6
  | .iwtSr2d _ _ _ => 6

/-- The commands that write RES (30_encoding.md R114). -/
def writesRes : Instr → Bool
  | .mqReadbit _ => true
  | .brReadbits _ => true
  | .brPeekbits _ => true
  | .brPeekmarker _ => true
  | .hufDecode _ _ => true
  | .hufReceive _ => true
  | .hufExtend _ => true
  | .ccittReadbyte => true
  | .sysNop => false
  | .sysReset => false
  | .mqInit => false
  | .brInit _ => false
  | .brSkipbits _ => false
  | .brAlign => false
  | .brSkipbytes => false
  | .hufInit => false
  | .hufLoadtable _ _ => false
  | .hufScancfg _ _ _ => false
  | .hufRestart => false
  | .hufBlockBaseline _ _ _ => false
  | .hufDcFirst _ _ => false
  | .hufDcRefine => false
  | .hufAcFirst _ => false
  | .hufAcRefine _ => false
  | .ccittInit _ _ _ _ _ => false
  | .idctBlock _ => false
  | .iwtSr1d _ _ => false
  | .iwtSr2d _ _ _ => false

/-- A command's access to a space: none, reads, writes, or both. -/
inductive Access where
  | none
  | r
  | w
  | rw
deriving DecidableEq, Repr

/-- A row of R86 with one accessed space. -/
def onlySpace (sp : Space) (a : Access) (sp' : Space) : Access := if sp' = sp then a else .none

/-- A row of R86 with STREAM read and another space accessed. -/
def streamAnd (sp : Space) (a : Access) (sp' : Space) : Access :=
  if sp' = .stream then .r else if sp' = sp then a else .none

/-- The access summary of 20_memory.md R86, row by row. -/
def accessOf : Instr → Space → Access
  | .sysNop => fun _ => .none
  | .sysReset => fun _ => .none
  | .mqInit => onlySpace .stream .r
  | .mqReadbit _ => streamAnd .cx .rw
  | .brInit _ => fun _ => .none
  | .brAlign => fun _ => .none
  | .brReadbits _ => onlySpace .stream .r
  | .brPeekbits _ => onlySpace .stream .r
  | .brSkipbits _ => onlySpace .stream .r
  | .brPeekmarker _ => onlySpace .stream .r
  | .brSkipbytes => fun _ => .none
  | .hufInit => fun _ => .none
  | .hufScancfg _ _ _ => fun _ => .none
  | .hufRestart => fun _ => .none
  | .hufLoadtable _ _ => onlySpace .tbl .r
  | .hufDecode _ _ => onlySpace .stream .r
  | .hufReceive _ => onlySpace .stream .r
  | .hufExtend _ => onlySpace .stream .r
  | .hufBlockBaseline _ _ _ => streamAnd .coef .w
  | .hufDcFirst _ _ => streamAnd .coef .w
  | .hufAcFirst _ => streamAnd .coef .w
  | .hufDcRefine => streamAnd .coef .rw
  | .hufAcRefine _ => streamAnd .coef .rw
  | .ccittInit _ _ _ _ _ => fun sp => if sp = .rline then .w else streamAnd .cline .w sp
  | .ccittReadbyte => fun sp => if sp = .rline then .rw else streamAnd .cline .rw sp
  | .idctBlock _ => fun sp => if sp = .qt then .r else onlySpace .coef .rw sp
  | .iwtSr1d _ _ => onlySpace .plane .rw
  | .iwtSr2d _ _ _ => onlySpace .plane .rw

end Sys2Proof.Machine
end

