-- ==== Sys2Proof/Certificates/Slice0/Obligations.lean ====
section
/-! DEFINITION. The statements for the provers. Where a statement says `t = { s with f := t.f }`, nothing but the named
fields changes; the reads of memory are spelled out beside it. -/

open Sys2Proof Sys2Proof.Machine

/-! ## Encoding -/

/-- R102, R103: the word of each of the 28 commands, its UNIT and OP as the map's row has them and every IMM sub-field at its
bits, at every value they hold, with words of 95_test_vectors.md written out and three words that select no row. -/
def Obligations.DecodeSpecWords : Prop :=
  (decode 0x00000000#32 = some .sysNop ∧ decode 0x01000000#32 = some .sysReset ∧ decode 0x10000000#32 = some .mqInit ∧
    decode 0x24000000#32 = some .brAlign ∧ decode 0x26000000#32 = some .brSkipbytes ∧ decode 0x30000000#32 = some .hufInit ∧
    decode 0x33000000#32 = some .hufRestart ∧ decode 0x39000000#32 = some .hufDcRefine ∧
    decode 0x41000000#32 = some .ccittReadbyte) ∧
  (∀ cxi, cxi < 2 ^ 24 → decode (BitVec.ofNat 32 (0x11000000 + cxi)) = some (.mqReadbit cxi)) ∧
  (∀ mark : Byte, decode (BitVec.ofNat 32 (0x25000000 + mark.toNat)) = some (.brPeekmarker mark)) ∧
  (decode 0x20000000#32 = some (.brInit .plain) ∧ decode 0x20000001#32 = some (.brInit .stuff7)) ∧
  (∀ n, n < 32 →
    decode (BitVec.ofNat 32 (0x21000000 + n)) = some (.brReadbits n) ∧
    decode (BitVec.ofNat 32 (0x22000000 + n)) = some (.brPeekbits n) ∧
    decode (BitVec.ofNat 32 (0x23000000 + n)) = some (.brSkipbits n) ∧
    decode (BitVec.ofNat 32 (0x35000000 + n)) = some (.hufReceive n) ∧
    decode (BitVec.ofNat 32 (0x36000000 + n)) = some (.hufExtend n)) ∧
  (∀ tid : Fin 4,
    decode (BitVec.ofNat 32 (0x31000000 + tid.val * 2)) = some (.hufLoadtable .dc tid) ∧
    decode (BitVec.ofNat 32 (0x31000001 + tid.val * 2)) = some (.hufLoadtable .ac tid) ∧
    decode (BitVec.ofNat 32 (0x34000000 + tid.val * 2)) = some (.hufDecode .dc tid) ∧
    decode (BitVec.ofNat 32 (0x34000001 + tid.val * 2)) = some (.hufDecode .ac tid)) ∧
  (∀ ss se al, ss < 64 → se < 64 → al < 16 →
    decode (BitVec.ofNat 32 (0x32000000 + ss + se * 2 ^ 6 + al * 2 ^ 12)) = some (.hufScancfg ss se al)) ∧
  (∀ dct act comp : Fin 4,
    decode (BitVec.ofNat 32 (0x37000000 + dct.val + act.val * 2 ^ 2 + comp.val * 2 ^ 4)) =
      some (.hufBlockBaseline dct act comp) ∧
    decode (BitVec.ofNat 32 (0x38000000 + dct.val + comp.val * 2 ^ 4)) = some (.hufDcFirst dct comp) ∧
    decode (BitVec.ofNat 32 (0x3A000000 + act.val * 2 ^ 2)) = some (.hufAcFirst act) ∧
    decode (BitVec.ofNat 32 (0x3B000000 + act.val * 2 ^ 2)) = some (.hufAcRefine act)) ∧
  (∀ (kmode : Fin 4) (eoline balign eoblock black1 : Bool),
    decode (BitVec.ofNat 32 (0x40000000 + kmode.val + eoline.toNat * 2 ^ 2 + balign.toNat * 2 ^ 3 + eoblock.toNat * 2 ^ 4 +
      black1.toNat * 2 ^ 5)) = some (.ccittInit kmode.val eoline balign eoblock black1)) ∧
  (∀ qti : Fin 4, decode (BitVec.ofNat 32 (0x50000000 + qti.val)) = some (.idctBlock qti)) ∧
  (∀ u v : Bool,
    decode (BitVec.ofNat 32 (0x60000000 + u.toNat * 2)) = some (.iwtSr1d .rev53 u) ∧
    decode (BitVec.ofNat 32 (0x60000001 + u.toNat * 2)) = some (.iwtSr1d .irr97 u) ∧
    decode (BitVec.ofNat 32 (0x61000000 + u.toNat * 2 + v.toNat * 2 ^ 2)) = some (.iwtSr2d .rev53 u v) ∧
    decode (BitVec.ofNat 32 (0x61000001 + u.toNat * 2 + v.toNat * 2 ^ 2)) = some (.iwtSr2d .irr97 u v)) ∧
  decode 0x11010000#32 = some (.mqReadbit 65536) ∧ decode 0x21000010#32 = some (.brReadbits 16) ∧
  decode 0x25000091#32 = some (.brPeekmarker 0x91#8) ∧ decode 0x31000003#32 = some (.hufLoadtable .ac 1) ∧
  decode 0x32001141#32 = some (.hufScancfg 1 5 1) ∧ decode 0x3A000004#32 = some (.hufAcFirst 1) ∧
  decode 0x40000012#32 = some (.ccittInit 2 false false true false) ∧ decode 0x50000001#32 = some (.idctBlock 1) ∧
  decode 0x60000002#32 = some (.iwtSr1d .rev53 true) ∧ decode 0x61000004#32 = some (.iwtSr2d .rev53 false true) ∧
  decode 0x70000000#32 = none ∧ decode 0x21000020#32 = none ∧ decode 0x38000004#32 = none

/-- The word of a well-formed command decodes to that command, with every sub-field at every value its bits admit. -/
def Obligations.DecodeEncode : Prop :=
  ∀ i : Instr, i.wellFormed = true → decode (encode i) = some i

/-- A legal word is the word of the command it decodes to, so a command has one word, and every sub-field fits its bits. -/
def Obligations.EncodeDecode : Prop :=
  ∀ (w : Word) (i : Instr), decode w = some i → encode i = w ∧ i.wellFormed = true

/-- R103: a word is legal exactly when it selects a row of the map, and it selects at most one. -/
def Obligations.OpcodeMapDecides : Prop :=
  ∀ w : Word,
    ((decode w).isSome = true ↔ ∃ r ∈ opcodeMap, w &&& r.2 = r.1) ∧
    ∀ r ∈ opcodeMap, ∀ r' ∈ opcodeMap, w &&& r.2 = r.1 → w &&& r'.2 = r'.1 → r = r'

/-! ## The step, the fault state, reset, the host port -/

/-- R113: a legal word the host writes to CMD while FAULT = 0, and SYS.RESET at any time, is executed by the very next step:
`step` is `exec` of the decoded command on the state that has latched the word. -/
def Obligations.StepRunsDecoded : Prop :=
  ∀ (s : State) (w : Word) (rest : List HostOp) (i : Instr),
    s.pending = .regWrite 0 w :: rest → (s.flags.fault = false ∨ w = 0x01000000#32) → decode w = some i →
      step s = exec i { s with pending := rest, cmd := w }

/-- The words that are not executed. R375, R113 step 1: in the fault state every word but SYS.RESET only reaches CMD. R106:
outside it an illegal word takes ILLEGAL_COMMAND with the word as FAULTARG and changes no other state. -/
def Obligations.WordsNotExecuted : Prop :=
  ∀ (s : State) (w : Word) (rest : List HostOp), s.pending = .regWrite 0 w :: rest →
    (s.flags.fault = true → w ≠ 0x01000000#32 → step s = .next { s with pending := rest, cmd := w }) ∧
    (s.flags.fault = false → decode w = none →
      step s = .next { s with
        pending := rest, cmd := w, faultRec := { info := 0x401, arg := w, cmd := w }
        flags := { s.flags with fault := true } })

/-- R111: SYS.NOP leaves every register and memory element unchanged. R112: SYS.RESET clears every register but CMD, every
flag, the fault record and the table store, in any state, and keeps the memory spaces. The last line names the model's own
fields (log 1, 3, 4, 5). -/
def Obligations.SysCommands : Prop :=
  ∀ s : State, exec .sysNop s = .next s ∧
    ∃ t, exec .sysReset s = .next t ∧
      (∀ r, r ≠ 0x00 → regRead t r = if r = 0x3B then 0x0FC0#32 else 0#32) ∧
      t.flags = .clear ∧ (∀ k : Fin 8, t.ht[k] = none) ∧ t.cmd = s.cmd ∧
      (∀ sp a, t.elem sp a = s.elem sp a) ∧
      t.params = s.params ∧ t.pending = s.pending ∧ t.portData = s.portData ∧ t.freeCtr = s.freeCtr

/-- R411, R412: after power-on reset every register reads 0 but HUF_SCAN, which reads 0x0FC0, every slot is empty and every
memory element is unwritten, whatever the sizes. That State.reset is this state with the sizes `Params.suggested` is the model's
choice (log 1): 00_scope.md R6 leaves the sizes OPEN. -/
def Obligations.PowerOnState : Prop :=
  ∀ p : Params,
    (∀ r, regRead (State.powerOn p) r = if r = 0x3B then 0x0FC0#32 else 0#32) ∧
    (∀ k : Fin 8, (State.powerOn p).ht[k] = none) ∧ (∀ sp a, (State.powerOn p).elem sp a = none) ∧
    State.reset = State.powerOn Params.suggested

/-- An element the host writes is read back by the host, cut to the element's width and extended as R85 says; no other
element and no register changes. That the write keeps the low bits is the model's reading of the port (log 8). -/
def Obligations.HostWritesAndReadsBack : Prop :=
  ∀ (s : State) (sp : Space) (a : Nat) (v : Word) (rest : List HostOp),
    s.pending = .memWrite sp a v :: .memRead sp a :: rest → sp ≠ .cline → sp ≠ .rline → a < s.sizeOf sp →
      ∃ t u, step s = .next t ∧ step t = .next u ∧
        t.elem sp a = some (v.setWidth sp.width) ∧
        u.portData = (if sp = .coef then (v.setWidth 16).signExtend 32 else (v.setWidth sp.width).setWidth 32) ∧
        (∀ sp' b, (sp' ≠ sp ∨ b ≠ a) → u.elem sp' b = s.elem sp' b) ∧ u.elem sp a = t.elem sp a ∧
        (∀ r, regRead u r = regRead s r) ∧ u.pending = rest

/-- R20, R21, R25, R27, R29, R32: what a RegRead of each number reads, every register at the number its table gives it
(`State.registerMap`), a number of no table 0. R23: STATUS is the eight flags at bits 0 to 7 and 0 above; R29: HUF_TVALID has
bit `4 * class + id` set when that slot holds a table. A RegRead changes no state but the port's own result (log 4). A RegWrite to
ARG0 to ARG3 stores the word; to any register but CMD and those it changes nothing (a write to CMD is `StepRunsDecoded`'s and
`WordsNotExecuted`'s). -/
def Obligations.HostRegisterPort : Prop :=
  ∀ (s : State) (r : Nat) (v : Word),
    (∀ p ∈ s.registerMap, regRead s p.1 = p.2) ∧
    (∀ k, (regRead s 0x06).getLsbD k = s.statusBits.getD k false) ∧
    (∀ k, (regRead s 0x3C).getLsbD k = (s.ht.toList.getD k none).isSome) ∧
    (∀ id : Fin 4, (slotOf .dc id).val = id.val ∧ (slotOf .ac id).val = 4 + id.val) ∧
    (r ≠ 0x06 → r ≠ 0x3C → (∀ p ∈ s.registerMap, r ≠ p.1) → regRead s r = 0) ∧
    (∀ rest, s.pending = .regRead r :: rest → step s = .next { s with pending := rest, portData := regRead s r }) ∧
    regWrite 1 v s = .next { s with arg0 := v } ∧ regWrite 2 v s = .next { s with arg1 := v } ∧
    regWrite 3 v s = .next { s with arg2 := v } ∧ regWrite 4 v s = .next { s with arg3 := v } ∧
    (4 < r → regWrite r v s = .next s) ∧
    ∀ rest, s.pending = .regWrite r v :: rest → step s = regWrite r v { s with pending := rest }

/-! ## Rules about every command -/

/-- R114: RES changes only in the eight commands that write it (and in SYS.RESET), and never in a command that faults. -/
def Obligations.ResWritersOnly : Prop :=
  ∀ (i : Instr) (s t : State), exec i s = .next t →
    (writesRes i = false → i ≠ .sysReset → t.res = s.res) ∧
    (s.flags.fault = false → t.flags.fault = true → t.res = s.res)

/-- R86, the writes: a command changes no element of a space the summary does not let it write. -/
def Obligations.SpacesWrittenOnlyAsListed : Prop :=
  ∀ (i : Instr) (s t : State), exec i s = .next t →
    ∀ sp, accessOf i sp = .none ∨ accessOf i sp = .r → ∀ a, t.elem sp a = s.elem sp a

/-- R86, the reads: a command is blind to a space the summary gives it no access to. With other contents there it does
exactly the same, and leaves those contents alone. -/
def Obligations.BlindToOtherSpaces : Prop :=
  ∀ (i : Instr) (sp : Space) (m : Memory sp.width) (s : State), accessOf i sp = .none →
    exec i (s.setMem sp m) =
      match exec i s with
      | .next t => .next (t.setMem sp m)
      | .fault f => .fault f
      | .refused r => .refused r

/-- The registers of a unit are changed by that unit's commands and SYS.RESET only; the CCITT unit reads its bits through the
BR registers (10_state.md sections 2 to 5, 43_ccitt.md R260). -/
def Obligations.UnitRegistersOwned : Prop :=
  ∀ (i : Instr) (s t : State), exec i s = .next t → i ≠ .sysReset →
    (unitOfInstr i ≠ 1 → t.mq = s.mq) ∧ (unitOfInstr i ≠ 2 → unitOfInstr i ≠ 4 → t.br = s.br) ∧
    (unitOfInstr i ≠ 3 → t.huf = s.huf ∧ t.ht = s.ht) ∧ (unitOfInstr i ≠ 4 → t.cc = s.cc)

/-- R101: no command writes CMD, and none but SYS.RESET writes ARG0 to ARG3. Of the model's own fields none writes the sizes
(log 1), the host's operations to come (log 3) or the port's last result (log 4). `freeCtr` is not among them: HUF.AC_REFINE
counts the free values it draws there (log 11). -/
def Obligations.OperandsKept : Prop :=
  ∀ (i : Instr) (s t : State), exec i s = .next t →
    t.cmd = s.cmd ∧ t.params = s.params ∧ t.pending = s.pending ∧ t.portData = s.portData ∧
    (i ≠ .sysReset → t.arg0 = s.arg0 ∧ t.arg1 = s.arg1 ∧ t.arg2 = s.arg2 ∧ t.arg3 = s.arg3)

/-- R371 to R373. A command but SYS.RESET either leaves FAULT and the fault record as they were, or has set FAULT and recorded
the word being executed with one of the nineteen FAULTINFO words of R371, which `faultWords` writes out as numbers. And
`takeFault`, in which the other statements say where a command traps, sets FAULT, records the fault's number of that list, its
info and CMD, and changes nothing else. -/
def Obligations.FaultRecordWritten : Prop :=
  (∀ (i : Instr) (s t : State), exec i s = .next t → i ≠ .sysReset →
    (t.flags.fault = s.flags.fault ∧ t.faultRec = s.faultRec) ∨
    (t.flags.fault = true ∧ t.faultRec.cmd = s.cmd ∧ ∃ p ∈ faultWords, t.faultRec.info = p.2)) ∧
  ∀ f : FaultName, ∃ w, (f, w) ∈ faultWords ∧ (∀ w', (f, w') ∈ faultWords → w' = w) ∧
    ∀ (info : Nat) (s : State), takeFault f info s = { s with
      faultRec := { info := w, arg := BitVec.ofNat 32 info, cmd := s.cmd }, flags := { s.flags with fault := true } }

/-! ## Invariants -/

/-- Every space stays in its canonical form, with no element beyond its size. -/
def Obligations.StepKeepsMemories : Prop :=
  ∀ s t : State, MemoriesCanonical s → step s = .next t → MemoriesCanonical t

/-- R26, with R147 (iv): what holds of the MQ registers while MQ_RDY = 1 is kept by every step. -/
def Obligations.StepKeepsMq : Prop :=
  ∀ s t : State, MqInv s → step s = .next t → MqInv t

/-- R28: what holds of the BR registers while BR_RDY = 1 is kept by every step. -/
def Obligations.StepKeepsBr : Prop :=
  ∀ s t : State, BrInv s → step s = .next t → BrInv t

/-- R31, R213: what holds of the HUF registers while HUF_RDY = 1 is kept by every step, with the part about HUF_SCAN, which
HUF.SCANCFG may write before HUF.INIT, and the tables, which HUF.LOADTABLE may load before it, kept at all times. That
HUF_EOBRUN stays at most 32767 when HUF.AC_REFINE meets state 4 with HUF_EOBRUN = 0 is the model's choice (log 11): R226 states
no result there, and the model's free value has 15 bits. -/
def Obligations.StepKeepsHuf : Prop :=
  ∀ s t : State, ScanInv s → HufInv s → TablesInv s → step s = .next t → ScanInv t ∧ HufInv t ∧ TablesInv t

/-- R278 (a), between commands: CC_CPOS and CC_OUTBITS stay inside a decoded row in CLINE, whatever the stream holds. -/
def Obligations.StepKeepsCcitt : Prop :=
  ∀ s t : State, CcInv s → step s = .next t → CcInv t

/-- All of these hold after power-on reset, for every choice of sizes that R6 allows. -/
def Obligations.PowerOnInv : Prop :=
  ∀ p : Params, p.valid → Inv (State.powerOn p)

/-- R10, R75, R432: from every state with the invariants every command completes or takes a fault of R371; none reaches an
element outside its space and none runs on for ever (in the model: none is refused; the two refusals are log 9's). -/
def Obligations.EveryCommandEnds : Prop :=
  ∀ (i : Instr) (s : State), Inv s → s.flags.fault = false → ∃ t, exec i s = .next t

/-! ## Where commands trap -/

/-- What a command needs and does not find, each fault with its FAULTARG and nothing else changed. R113 step 3, R374: the unit
ready, else NOT_INITIALISED, whatever the operands; that CCITT.READBYTE with CC_RDY = 1 and BR_RDY = 0, which no run reaches,
takes it too, with unit id 4, is the model's reading (log 13, DEDUCED). R184, R185, R187 to R189, R276: the mode and the byte
boundary of the BR unit, else BAD_MODE. R214, R221: the table slot loaded, the DC slot looked at first, else HUF_NO_TABLE with
the slot's number. -/
def Obligations.NotAvailableFaults : Prop :=
  ∀ s : State,
    (s.flags.mqRdy = false → ∀ cxi, exec (.mqReadbit cxi) s = .next (takeFault .notInitialised 1 s)) ∧
    (s.flags.brRdy = false → ∀ i, i = .brAlign ∨ i = .brSkipbytes ∨ (∃ n, i = .brReadbits n) ∨ (∃ n, i = .brPeekbits n) ∨
      (∃ n, i = .brSkipbits n) ∨ (∃ m, i = .brPeekmarker m) → exec i s = .next (takeFault .notInitialised 2 s)) ∧
    (s.flags.hufRdy = false → ∀ i, i = .hufRestart ∨ i = .hufDcRefine ∨ (∃ c d, i = .hufDecode c d) ∨
      (∃ n, i = .hufReceive n) ∨ (∃ n, i = .hufExtend n) ∨ (∃ d a c, i = .hufBlockBaseline d a c) ∨
      (∃ d c, i = .hufDcFirst d c) ∨ (∃ a, i = .hufAcFirst a) ∨ (∃ a, i = .hufAcRefine a) →
        exec i s = .next (takeFault .notInitialised 3 s)) ∧
    (s.flags.ccRdy = false ∨ s.flags.brRdy = false → exec .ccittReadbyte s = .next (takeFault .notInitialised 4 s)) ∧
    (s.flags.brRdy = true →
      (s.br.mode = .stuff7 →
        (∀ n, 1 ≤ n → n ≤ 16 → exec (.brPeekbits n) s = .next (takeFault .badMode 2 s) ∧
          exec (.brSkipbits n) s = .next (takeFault .badMode 2 s)) ∧
        (s.flags.ccRdy = true → exec .ccittReadbyte s = .next (takeFault .badMode 4 s))) ∧
      ((s.br.mode = .plain ∧ s.br.cnt.toNat % 8 ≠ 0) ∨ (s.br.mode = .stuff7 ∧ (s.br.cnt.toNat ≠ 0 ∨ s.br.skip = true)) →
        (∀ m, exec (.brPeekmarker m) s = .next (takeFault .badMode 2 s)) ∧
        exec .brSkipbytes s = .next (takeFault .badMode 2 s))) ∧
    ∀ dct act comp : Fin 4, s.flags.hufRdy = true →
      (∀ c id, s.ht[slotOf c id] = none → exec (.hufDecode c id) s = .next (takeFault .hufNoTable (slotOf c id).val s)) ∧
      (s.arg0.toNat < s.params.coefBlocks →
        (s.ht[slotOf .dc dct] = none →
          exec (.hufBlockBaseline dct act comp) s = .next (takeFault .hufNoTable dct.val s) ∧
          exec (.hufDcFirst dct comp) s = .next (takeFault .hufNoTable dct.val s)) ∧
        (s.ht[slotOf .ac act] = none →
          (s.ht[slotOf .dc dct] ≠ none →
            exec (.hufBlockBaseline dct act comp) s = .next (takeFault .hufNoTable (4 + act.val) s)) ∧
          exec (.hufAcFirst act) s = .next (takeFault .hufNoTable (4 + act.val) s) ∧
          exec (.hufAcRefine act) s = .next (takeFault .hufNoTable (4 + act.val) s)))

/-- The operand checks that raise BAD_OPERAND, but those of the IWT unit (`IwtChecksInOrder`): windows (R144, R182, R212,
R272), blocks (R221, R322), bit counts (R183 to R185, R219, R220), HUF.SCANCFG (R216), HUF.RESTART (R217), HUF.LOADTABLE's
definition outside TBL, its counts or, after they are read, its symbols (R213), CXI (R145), CCITT widths (R272). -/
def Obligations.BadOperandFaults : Prop :=
  ∀ s : State,
    (s.arg1.toNat < s.arg0.toNat ∨ s.params.streamSize < s.arg1.toNat →
      exec .mqInit s = .next (takeFault .badOperand 0 s) ∧ (∀ m, exec (.brInit m) s = .next (takeFault .badOperand 0 s)) ∧
      exec .hufInit s = .next (takeFault .badOperand 0 s) ∧
      ∀ k a b c d, k ≠ 3 → exec (.ccittInit k a b c d) s = .next (takeFault .badOperand 0 s)) ∧
    (∀ a b c d, exec (.ccittInit 3 a b c d) s = .next (takeFault .badOperand 3 s)) ∧
    (s.arg0.toNat ≤ s.arg1.toNat → s.arg1.toNat ≤ s.params.streamSize →
      s.arg2.toNat = 0 ∨ s.params.colsMax < s.arg2.toNat →
        ∀ k a b c d, k ≠ 3 → exec (.ccittInit k a b c d) s = .next (takeFault .badOperand s.arg2.toNat s)) ∧
    (s.params.coefBlocks ≤ s.arg0.toNat →
      (∀ q, exec (.idctBlock q) s = .next (takeFault .badOperand s.arg0.toNat s)) ∧
      (s.flags.hufRdy = true → ∀ i, i = .hufDcRefine ∨ (∃ d a c, i = .hufBlockBaseline d a c) ∨
        (∃ d c, i = .hufDcFirst d c) ∨ (∃ a, i = .hufAcFirst a) ∨ (∃ a, i = .hufAcRefine a) →
          exec i s = .next (takeFault .badOperand s.arg0.toNat s))) ∧
    (s.flags.brRdy = true → ∀ n, n = 0 ∨ 16 < n →
      exec (.brReadbits n) s = .next (takeFault .badOperand n s) ∧
      exec (.brPeekbits n) s = .next (takeFault .badOperand n s) ∧
      exec (.brSkipbits n) s = .next (takeFault .badOperand n s)) ∧
    (s.flags.hufRdy = true → ∀ n, 16 < n →
      exec (.hufReceive n) s = .next (takeFault .badOperand n s) ∧
      exec (.hufExtend n) s = .next (takeFault .badOperand n s)) ∧
    (∀ ss se al, se < ss ∨ 13 < al →
      exec (.hufScancfg ss se al) s = .next (takeFault .badOperand (al * 4096 + se * 64 + ss) s)) ∧
    (s.flags.hufRdy = true → s.huf.endIdx.toNat < s.arg0.toNat →
      exec .hufRestart s = .next (takeFault .badOperand s.arg0.toNat s)) ∧
    (∀ c id,
      (s.params.tblSize < s.arg0.toNat + 16 →
        exec (.hufLoadtable c id) s = .next (takeFault .badOperand s.arg0.toNat s)) ∧
      (s.arg0.toNat + 16 ≤ s.params.tblSize → Written s .tbl s.arg0.toNat 1 16 →
        let n := ((s.values .tbl s.arg0.toNat 1 16).map BitVec.toNat).sum
        n ≤ 256 → s.params.tblSize < s.arg0.toNat + 16 + n →
          exec (.hufLoadtable c id) s = .next (takeFault .badOperand s.arg0.toNat s))) ∧
    (s.flags.mqRdy = true → ∀ cxi, s.params.cxEntries ≤ cxi →
      exec (.mqReadbit cxi) s = .next (takeFault .badOperand cxi s))

/-- R344, R345: the checks of the IWT commands in their order: zero sizes, an array beyond PLANE, an odd phase on more than one
element. -/
def Obligations.IwtChecksInOrder : Prop :=
  ∀ (s : State) (f : Filter) (pu pv : Bool),
    (s.arg1.toNat = 0 ∨ s.arg2.toNat = 0 →
      exec (.iwtSr1d f pu) s = .next (takeFault .badOperand 0 s) ∧
      exec (.iwtSr2d f pu pv) s = .next (takeFault .badOperand 0 s)) ∧
    (0 < s.arg1.toNat → 0 < s.arg2.toNat → s.params.planeWords ≤ s.arg0.toNat + (s.arg1.toNat - 1) * s.arg2.toNat →
      exec (.iwtSr1d f pu) s = .next (takeFault .badOperand s.arg0.toNat s)) ∧
    (0 < s.arg1.toNat → 0 < s.arg2.toNat → s.params.planeWords < s.arg0.toNat + s.arg1.toNat * s.arg2.toNat →
      exec (.iwtSr2d f pu pv) s = .next (takeFault .badOperand s.arg0.toNat s)) ∧
    (1 < s.arg1.toNat → 0 < s.arg2.toNat → s.arg0.toNat + (s.arg1.toNat - 1) * s.arg2.toNat < s.params.planeWords →
      exec (.iwtSr1d f true) s = .next (takeFault .iwtUnsupportedPhase 0 s)) ∧
    (0 < s.arg1.toNat → 0 < s.arg2.toNat → s.arg0.toNat + s.arg1.toNat * s.arg2.toNat ≤ s.params.planeWords →
      (pu = true ∧ 1 < s.arg1.toNat) ∨ (pv = true ∧ 1 < s.arg2.toNat) →
        exec (.iwtSr2d f pu pv) s = .next (takeFault .iwtUnsupportedPhase 0 s))

/-- R211: the end of the segment, wherever a command that reads it stands, with bits buffered or not. `State.segmentEnd` says from
the bytes which bits come before the end and what ends them: the end of the window, a marker, or an unwritten byte (R76). The
commands stop there with that fault and FAULTARG, HUF_POS past the bytes examined, the bits before all taken, and what they had
written before (R373): HUF.RECEIVE and HUF.EXTEND of more bits than come, HUF.DECODE and HUF.DC_REFINE, HUF.DC_FIRST and
HUF.BLOCK_BASELINE in the DC difference, HUF.BLOCK_BASELINE after it, HUF.AC_FIRST, and HUF.AC_REFINE from state 0 and inside an
end-of-band run. Bits that begin no code (R214) stop the commands that decode with HUF_INVALID_SEQUENCE the same way. The last
clause spells the ends out where no bit is buffered. -/
def Obligations.SegmentEndFaults : Prop :=
  ∀ s : State, s.flags.hufRdy = true → HufInv s →
    let e := s.segmentEnd
    let base := 64 * s.arg0.toNat
    (∀ n, n ≤ 16 → e.bits.length < n → ∀ i, i = .hufReceive n ∨ i = .hufExtend n →
      ∃ t, exec i s = .next t ∧ BitsStopped e s t .ended) ∧
    (∀ c id tab, s.ht[slotOf c id] = some tab → TableOk tab → takeSymbol tab e.bits = none →
      ∃ t, exec (.hufDecode c id) s = .next t ∧ BitsStopped e s t (symbolStop tab e.bits)) ∧
    (s.arg0.toNat < s.params.coefBlocks →
      ((s.elem .coef base).isSome = true → e.bits = [] → ∃ t, exec .hufDcRefine s = .next t ∧ BitsStopped e s t .ended) ∧
      (∀ (dct act comp : Fin 4) (dc : HufTable), s.ht[slotOf .dc dct] = some dc → TableOk dc →
        (∀ stop, takeDcStop dc e.bits = some stop →
          ∀ i, i = .hufDcFirst dct comp ∨ (i = .hufBlockBaseline dct act comp ∧ s.ht[slotOf .ac act] ≠ none) →
            ∃ t, exec i s = .next t ∧ BitsStopped e s t stop) ∧
        ∀ (ac : HufTable) (cat : Nat) (diff : Int) (cs : List (Nat × Int)) (stop : BitStop) (l1 l2 : List Bool),
          s.ht[slotOf .ac act] = some ac → TableOk ac → takeSymbol dc e.bits = some (cat, l1) → cat ≤ 16 →
          takeExtend cat l1 = some (diff, l2) → takeAcStop ac false 63 64 1 l2 = some (cs, stop) →
            let p := wrap32 (s.huf.pred[comp].toInt + diff)
            ∃ t, exec (.hufBlockBaseline dct act comp) s = .next t ∧
              BitsStopped e
                { s with coef := t.coef, huf := { s.huf with pred := s.huf.pred.set comp (BitVec.ofInt 32 p) } } t stop ∧
              t.elem .coef base = some (half16 p) ∧
              (∀ z, 0 < z → z < 64 → t.elem .coef (base + z) = (codedAt cs 0 z).orElse fun _ => s.elem .coef (base + z)) ∧
              ∀ sp a, (sp ≠ .coef ∨ a < base ∨ base + 64 ≤ a) → t.elem sp a = s.elem sp a) ∧
      ∀ (act : Fin 4) (ac : HufTable), s.ht[slotOf .ac act] = some ac → TableOk ac →
        (∀ (cs : List (Nat × Int)) (stop : BitStop), s.huf.eobrun = 0 →
          takeAcStop ac true s.huf.se 64 s.huf.ss e.bits = some (cs, stop) →
            ∃ t, exec (.hufAcFirst act) s = .next t ∧ BitsStopped e { s with coef := t.coef } t stop ∧
              (∀ z, z < 64 → t.elem .coef (base + z) = (codedAt cs s.huf.al z).orElse fun _ => s.elem .coef (base + z)) ∧
              ∀ sp a, (sp ≠ .coef ∨ a < base ∨ base + 64 ≤ a) → t.elem sp a = s.elem sp a) ∧
        ((∀ k, s.huf.ss ≤ k → k ≤ s.huf.se → (s.elem .coef (base + zz k)).isSome = true) →
          let band := (List.range (s.huf.se + 1 - s.huf.ss)).map fun j => (s.value .coef (base + zz (s.huf.ss + j))).toInt
          ∀ (ds : List Int) (state run : Nat) (nx : Word) (stop : BitStop),
            (s.huf.acstate = 0 ∧
                takeRefineStop ac (2 ^ s.huf.al) 65 s.huf.acnext band e.bits = some (ds, state, run, nx, stop)) ∨
              (s.huf.acstate = 4 ∧ state = 4 ∧ run = s.huf.eobrun.toNat ∧ nx = s.huf.acnext ∧ stop = .ended ∧
                cutIn (2 ^ s.huf.al) band band e.bits = some ds) →
              ∃ t, exec (.hufAcRefine act) s = .next t ∧
                BitsStopped e { s with
                  coef := t.coef
                  huf := { s.huf with
                    acnext := nx, acstate := BitVec.ofNat 3 state
                    eobrun := if state = 4 then BitVec.ofNat 16 run else s.huf.eobrun } } t stop ∧
                (∀ j, j < s.huf.se + 1 - s.huf.ss →
                  t.elem .coef (base + zz (s.huf.ss + j)) = some (BitVec.ofInt 16 (ds.getD j 0))) ∧
                ∀ sp a, (sp ≠ .coef ∨ ∀ k, s.huf.ss ≤ k → k ≤ s.huf.se → a ≠ base + zz k) → t.elem sp a = s.elem sp a)) ∧
    ∀ n, s.huf.bitcnt = 0 → 1 ≤ n → n ≤ 16 → ∀ i, i = .hufReceive n ∨ i = .hufExtend n →
      (s.huf.pos = s.huf.endIdx → exec i s = .next (takeFault .hufEof 0 s)) ∧
      (∀ nb : Byte, s.huf.pos.toNat + 2 ≤ s.huf.endIdx.toNat → nb ≠ 0 →
        s.elem .stream s.huf.pos.toNat = some 0xFF#8 → s.elem .stream (s.huf.pos.toNat + 1) = some nb →
          exec i s = .next (takeFault
            (if nb = 0xD9#8 then .hufEoiInScan else if nb = 0xDC#8 then .hufDnlInScan else .hufUnexpectedMarker)
            (0xFF00 + nb.toNat) (s.setHuf { s.huf with pos := s.huf.pos + 2 }))) ∧
      (s.huf.pos.toNat + 1 = s.huf.endIdx.toNat → s.elem .stream s.huf.pos.toNat = some 0xFF#8 →
        exec i s = .next (takeFault .hufEof 1 (s.setHuf { s.huf with pos := s.huf.pos + 1 })))

/-- Faults the data causes before a block is touched: an entry of CX with an index above 46 (R145), bits no code of the table
begins with (R214: the fault counts the bits read), and a DC category above 16, in a baseline block (R222) and in a first DC
pass (R223). (Unwritten elements are `UnwrittenElements`'s and `UnwrittenStream`'s.) -/
def Obligations.DataFaults : Prop :=
  ∀ s : State,
    (s.flags.mqRdy = true → ∀ cxi (e : Byte), cxi < s.params.cxEntries → s.elem .cx cxi = some e → 46 < e.toNat / 2 →
      exec (.mqReadbit cxi) s = .next (takeFault .badContextState e.toNat s)) ∧
    (s.flags.hufRdy = true → HufInv s → ∀ c id tab, s.ht[slotOf c id] = some tab → TableOk tab →
      let e := s.segmentEnd
      (∀ n, 1 ≤ n → n ≤ 16 → n ≤ e.bits.length → (∀ d ∈ tab.codes, ¬ e.bits.take n <+: bitsMsb d.len d.code) →
        (∀ m, 1 ≤ m → m < n → ∃ d ∈ tab.codes, e.bits.take m <+: bitsMsb d.len d.code ∧ m < d.len) →
        ∃ t, exec (.hufDecode c id) s = .next t ∧ t.segmentEnd = { e with bits := e.bits.drop n } ∧
          t = takeFault .hufInvalidSequence n (s.setHuf (s.hufAfter n))) ∧
      (∀ v rest, c = .dc → takeSymbol tab e.bits = some (v, rest) → 16 < v → s.arg0.toNat < s.params.coefBlocks →
        ∀ comp i, i = .hufDcFirst id comp ∨ (∃ act, i = .hufBlockBaseline id act comp ∧ s.ht[slotOf .ac act] ≠ none) →
          ∃ t, exec i s = .next t ∧ t.segmentEnd = { e with bits := rest } ∧
            t = takeFault .hufBadCategory v (s.setHuf (s.hufLeft rest))))

/-- R76: UNWRITTEN_READ at the first unwritten element a command reads of CX (space 2), TBL (3), QT (4), COEF (5) or PLANE (6),
with `space * 2^28 + index` as FAULTARG, and what was written before it (R373). MQ.READBIT and HUF.DC_REFINE: nothing.
HUF.LOADTABLE: nothing, in the counts and, when they pass R213's checks, in the symbols. IDCT.BLOCK (R322): nothing, the 64
coefficients being read before the steps. IWT.SR1D (R344): nothing, so the line is untouched. IWT.SR2D (R345): the rows above
the one with the unwritten word are through the horizontal pass, all else is untouched. HUF.AC_REFINE (R226): the band before
the element is refined, and HUF_ACSTATE, HUF_ACNEXT and the bits left are as there, from state 0 and inside an end-of-band run. -/
def Obligations.UnwrittenElements : Prop :=
  ∀ s : State,
    (s.flags.mqRdy = true → ∀ cxi, cxi < s.params.cxEntries → s.elem .cx cxi = none →
      exec (.mqReadbit cxi) s = .next (takeFault .unwrittenRead (2 * 2 ^ 28 + cxi % 2 ^ 28) s)) ∧
    (∀ c id j, s.arg0.toNat + 16 ≤ s.params.tblSize →
      (FirstUnwritten s .tbl s.arg0.toNat 1 16 j →
        exec (.hufLoadtable c id) s = .next (takeFault .unwrittenRead (3 * 2 ^ 28 + (s.arg0.toNat + j) % 2 ^ 28) s)) ∧
      (Written s .tbl s.arg0.toNat 1 16 →
        let cnt : List Byte := s.values .tbl s.arg0.toNat 1 16
        codeCount cnt ≤ 256 → s.arg0.toNat + 16 + codeCount cnt ≤ s.params.tblSize → CodesFit cnt 16 →
        FirstUnwritten s .tbl (s.arg0.toNat + 16) 1 (codeCount cnt) j →
          exec (.hufLoadtable c id) s =
            .next (takeFault .unwrittenRead (3 * 2 ^ 28 + (s.arg0.toNat + 16 + j) % 2 ^ 28) s))) ∧
    (s.arg0.toNat < s.params.coefBlocks → ∀ (qti : Fin 4) (j : Nat),
      (FirstUnwritten s .coef (64 * s.arg0.toNat) 1 64 j →
        exec (.idctBlock qti) s = .next (takeFault .unwrittenRead (5 * 2 ^ 28 + (64 * s.arg0.toNat + j) % 2 ^ 28) s)) ∧
      (Written s .coef (64 * s.arg0.toNat) 1 64 → FirstUnwritten s .qt (64 * qti.val) 1 64 j →
        exec (.idctBlock qti) s = .next (takeFault .unwrittenRead (4 * 2 ^ 28 + (64 * qti.val + j)) s))) ∧
    (∀ (f : Filter) (ph : Bool) (j : Nat), 0 < s.arg2.toNat →
      s.arg0.toNat + (s.arg1.toNat - 1) * s.arg2.toNat < s.params.planeWords → (ph = true → s.arg1.toNat = 1) →
      FirstUnwritten s .plane s.arg0.toNat s.arg2.toNat s.arg1.toNat j →
        exec (.iwtSr1d f ph) s =
          .next (takeFault .unwrittenRead (6 * 2 ^ 28 + (s.arg0.toNat + j * s.arg2.toNat) % 2 ^ 28) s)) ∧
    (∀ (f : Filter) (pu pv : Bool) (j : Nat), s.arg0.toNat + s.arg1.toNat * s.arg2.toNat ≤ s.params.planeWords →
      (pu = true → s.arg1.toNat = 1) → (pv = true → s.arg2.toNat = 1) →
      FirstUnwritten s .plane s.arg0.toNat 1 (s.arg1.toNat * s.arg2.toNat) j →
        let img : Nat → Nat → Word := fun v u => s.value .plane (s.arg0.toNat + v * s.arg1.toNat + u)
        ∃ t, exec (.iwtSr2d f pu pv) s = .next t ∧
          t = takeFault .unwrittenRead (6 * 2 ^ 28 + (s.arg0.toNat + j) % 2 ^ 28) { s with plane := t.plane } ∧
          (∀ v u, v < j / s.arg1.toNat → u < s.arg1.toNat → t.elem .plane (s.arg0.toNat + v * s.arg1.toNat + u) =
            some (rowsPass f pu s.arg1.toNat img v u)) ∧
          ∀ sp a, (sp ≠ .plane ∨ a < s.arg0.toNat ∨ s.arg0.toNat + j / s.arg1.toNat * s.arg1.toNat ≤ a) →
            t.elem sp a = s.elem sp a) ∧
    (s.flags.hufRdy = true → s.arg0.toNat < s.params.coefBlocks → s.elem .coef (64 * s.arg0.toNat) = none →
      exec .hufDcRefine s = .next (takeFault .unwrittenRead (5 * 2 ^ 28 + 64 * s.arg0.toNat % 2 ^ 28) s)) ∧
    ∀ (act : Fin 4) (ac : HufTable) (j : Nat) (ds : List Int) (state run : Nat) (nx : Word) (rest : List Bool),
      s.flags.hufRdy = true → HufInv s → s.arg0.toNat < s.params.coefBlocks → s.ht[slotOf .ac act] = some ac → TableOk ac →
      let base := 64 * s.arg0.toNat
      s.huf.ss + j ≤ s.huf.se → (∀ k, k < j → (s.elem .coef (base + zz (s.huf.ss + k))).isSome = true) →
      s.elem .coef (base + zz (s.huf.ss + j)) = none →
      let head := (List.range j).map fun k => (s.value .coef (base + zz (s.huf.ss + k))).toInt
      (s.huf.acstate = 0 ∧ takeRefine ac (2 ^ s.huf.al) 65 s.huf.acnext head s.segmentEnd.bits = some (ds, run, nx, rest) ∧
          state = (if run = 0 then 0 else 4)) ∨
        (s.huf.acstate = 0 ∧ run = 0 ∧
          takeRefineFault ac (2 ^ s.huf.al) 65 s.huf.acnext head s.segmentEnd.bits =
            some (ds, (.hufRunOverrun, state), state, nx, rest)) ∨
        (s.huf.acstate = 4 ∧ state = 4 ∧ run = 0 ∧ nx = s.huf.acnext ∧
          refineCoefs (2 ^ s.huf.al) head s.segmentEnd.bits = some (ds, rest)) →
        ∃ t, exec (.hufAcRefine act) s = .next t ∧ t.segmentEnd = { s.segmentEnd with bits := rest } ∧
          t = takeFault .unwrittenRead (5 * 2 ^ 28 + (base + zz (s.huf.ss + j)) % 2 ^ 28) { s with
            coef := t.coef
            huf := { s.hufLeft rest with
              acnext := nx, acstate := BitVec.ofNat 3 state
              eobrun := if run = 0 then s.huf.eobrun else BitVec.ofNat 16 run } } ∧
          (∀ k, k < j → t.elem .coef (base + zz (s.huf.ss + k)) = some (BitVec.ofInt 16 (ds.getD k 0))) ∧
          ∀ sp a, (sp ≠ .coef ∨ ∀ k, k < j → a ≠ base + zz (s.huf.ss + k)) → t.elem sp a = s.elem sp a

/-- R76: UNWRITTEN_READ on STREAM (space 1) in the units that read it byte by byte, with `2^28 + index` as FAULTARG, and the
registers as they are when the byte is asked for (R373). MQ.INIT (R144) has set MQ_END and MQ_BP and, at the second byte, the
first one's code bits. MQ.READBIT (R145) stops in BYTEIN (R143), when no bit is left to shift, at the byte at MQ_BP (the
first clause) or the one after it (the second; MQ_BP has moved on when the byte before is not 0xFF); MQ_A, the context
entry and RES are not written. BR.READBITS, BR.PEEKBITS and BR.SKIPBITS (R181) keep the bits filled in so far, and none is lost;
BR.PEEKMARKER (R187) changes nothing. CCITT.INIT (R272) stops so in its first look-ahead, its registers set and CC_RDY as it
was, and CCITT.READBYTE in the look-ahead of a row's first code, the row opened (R273, R274). (The HUF unit's are
`SegmentEndFaults`'s.) -/
def Obligations.UnwrittenStream : Prop :=
  ∀ s : State,
    (s.arg0.toNat < s.arg1.toNat → s.arg1.toNat ≤ s.params.streamSize →
      (s.elem .stream s.arg0.toNat = none →
        exec .mqInit s = .next (takeFault .unwrittenRead (2 ^ 28 + s.arg0.toNat % 2 ^ 28)
          (s.setMq { s.mq with endIdx := s.arg1, bp := s.arg0 }))) ∧
      (∀ b : Byte, s.elem .stream s.arg0.toNat = some b → s.arg0.toNat + 1 < s.arg1.toNat →
        s.elem .stream (s.arg0.toNat + 1) = none →
          exec .mqInit s = .next (takeFault .unwrittenRead (2 ^ 28 + (s.arg0.toNat + 1) % 2 ^ 28)
            (s.setMq { s.mq with
              endIdx := s.arg1, bp := if b = 0xFF#8 then s.arg0 else s.arg0 + 1, chigh := b.setWidth 16, clow := 0 })))) ∧
    (∀ (cxi : Nat) (e : Byte) (n : Nat), s.flags.mqRdy = true → MqInv s → cxi < s.params.cxEntries →
      s.elem .cx cxi = some e → e.toNat / 2 ≤ 46 →
      let qe := (probRow (e.toNat / 2)).qe
      let m := s.mqShifts n (s.mqReduced qe)
      s.mqInterval qe * 2 ^ n < 0x8000 → m.ct = 0 →
        (n = s.mqCode.ct → m.bp < s.mq.endIdx.toNat → s.elem .stream m.bp = none →
          exec (.mqReadbit cxi) s = .next (takeFault .unwrittenRead (2 ^ 28 + m.bp % 2 ^ 28)
            (s.setMq { s.mq with chigh := BitVec.ofNat 16 (m.c / 2 ^ 16), clow := BitVec.ofNat 16 m.c, ct := 0 }))) ∧
        (WindowWritten s s.mq.bp.toNat (m.bp + 1) → m.bp + 1 < s.mq.endIdx.toNat → s.elem .stream (m.bp + 1) = none →
          exec (.mqReadbit cxi) s = .next (takeFault .unwrittenRead (2 ^ 28 + (m.bp + 1) % 2 ^ 28)
            (s.setMq { s.mq with
              chigh := BitVec.ofNat 16 (m.c / 2 ^ 16), clow := BitVec.ofNat 16 m.c, ct := 0
              bp := BitVec.ofNat 32 (if s.value .stream m.bp = 0xFF#8 then m.bp else m.bp + 1) })))) ∧
    (s.flags.brRdy = true → BrInv s →
      (∀ n j, 1 ≤ n → n ≤ 16 →
        FirstUnwritten s .stream s.br.pos.toNat 1 (s.br.endIdx.toNat - s.br.pos.toNat) j →
        (s.brBits j).length < n →
        ∀ i, i = .brReadbits n ∨ (s.br.mode = .plain ∧ (i = .brPeekbits n ∨ i = .brSkipbits n)) →
          ∃ t, exec i s = .next t ∧ t.brUnread = s.brUnread ∧
            t = takeFault .unwrittenRead (2 ^ 28 + (s.br.pos.toNat + j) % 2 ^ 28) (s.setBr (s.brAfter j 0))) ∧
      ∀ (mark : Byte) (l : Nat),
        (s.br.mode = .plain ∧ s.br.cnt.toNat % 8 = 0 ∧ l = s.br.pos.toNat - s.br.cnt.toNat / 8) ∨
          (s.br.mode = .stuff7 ∧ s.br.cnt.toNat = 0 ∧ s.br.skip = false ∧ l = s.br.pos.toNat) →
        l + 1 < s.br.endIdx.toNat →
          (s.elem .stream l = none →
            exec (.brPeekmarker mark) s = .next (takeFault .unwrittenRead (2 ^ 28 + l % 2 ^ 28) s)) ∧
          (s.elem .stream l = some 0xFF#8 → s.elem .stream (l + 1) = none →
            exec (.brPeekmarker mark) s = .next (takeFault .unwrittenRead (2 ^ 28 + (l + 1) % 2 ^ 28) s))) ∧
    (∀ (kmode : Nat) (eoline balign eoblock black1 : Bool) (j : Nat), kmode < 3 →
      s.arg0.toNat ≤ s.arg1.toNat → s.arg1.toNat ≤ s.params.streamSize → 1 ≤ s.arg2.toNat →
      s.arg2.toNat ≤ s.params.colsMax → j < 2 →
      FirstUnwritten s .stream s.arg0.toNat 1 (s.arg1.toNat - s.arg0.toNat) j →
        ∃ t, exec (.ccittInit kmode eoline balign eoblock black1) s = .next t ∧
          t = takeFault .unwrittenRead (2 ^ 28 + (s.arg0.toNat + j) % 2 ^ 28) { s with
            br := {
              pos := BitVec.ofNat 32 (s.arg0.toNat + j), endIdx := s.arg1, cnt := BitVec.ofNat 5 (8 * j)
              buf := if j = 0 then 0 else (s.value .stream s.arg0.toNat).setWidth 32, mode := .plain, skip := false }
            cline := t.cline
            cc := {
              cols := s.arg2, rows := s.arg3, flags := t.cc.flags, row := 0, next2d := decide (kmode = 2), outbits := 0, cpos := 0 }
            flags := { s.flags with brRdy := true, ccEof := false, ccErr := false, ccWarn := false } } ∧
          t.cc.kmode = kmode ∧ t.cc.eoline = eoline ∧ t.cc.balign = balign ∧ t.cc.eoblock = eoblock ∧ t.cc.black1 = black1 ∧
          t.elem .cline 0 = some s.arg2 ∧ ∀ sp a, sp ≠ .cline ∨ a ≠ 0 → t.elem sp a = s.elem sp a) ∧
    ∀ j, s.flags.ccRdy = true → s.flags.brRdy = true → s.flags.fault = false → s.br.mode = .plain → CcInv s → BrInv s →
      s.cc.outbits = 0 → s.flags.ccEof = false →
      FirstUnwritten s .stream s.br.pos.toNat 1 (s.br.endIdx.toNat - s.br.pos.toNat) j →
      (s.brBits j).length < 13 →
        ∃ t, exec .ccittReadbyte s = .next t ∧ t.brUnread = s.brUnread ∧
          t = takeFault .unwrittenRead (2 ^ 28 + (s.br.pos.toNat + j) % 2 ^ 28) { s with
            br := s.brAfter j 0
            cline := t.cline, rline := t.rline, cc := { s.cc with cpos := 0 }, flags := { s.flags with ccErr := false } } ∧
          t.elem .cline 0 = some 0#32 ∧
          (s.cc.next2d = true → ∀ i, i ≤ s.cc.cols.toNat + 1 →
            t.elem .rline i = some (BitVec.ofNat 32 (refEnd s.cc.cols.toNat s.lineEnds i))) ∧
          (s.cc.next2d = false → ∀ i, t.elem .rline i = s.elem .rline i) ∧
          ∀ sp a, (sp ≠ .cline ∨ a ≠ 0) → sp ≠ .rline → t.elem sp a = s.elem sp a

/-- Faults in the middle of a block, with what was written before them (R373). A zero run that carries the position beyond 63
takes HUF_COEF_OVERRUN with that position, in a baseline block (R222) after the DC coefficient and in a first AC pass (R225);
the coefficients before it stay. In a refinement pass (R226) a symbol of size 2 or more takes HUF_INVALID_ACN with the symbol,
and a band that ends in state 1, 2 or 3 takes HUF_RUN_OVERRUN with the state; the corrections before it and HUF_ACNEXT stay. -/
def Obligations.BlockFaults : Prop :=
  ∀ (s : State) (act : Fin 4) (ac : HufTable),
    s.flags.hufRdy = true → HufInv s → s.arg0.toNat < s.params.coefBlocks →
    s.ht[slotOf .ac act] = some ac → TableOk ac →
      let base := 64 * s.arg0.toNat
      (∀ (dct comp : Fin 4) (dc : HufTable) (cat : Nat) (diff : Int) (cs : List (Nat × Int)) (k : Nat) (l1 l2 rest : List Bool),
        s.ht[slotOf .dc dct] = some dc → TableOk dc → takeSymbol dc s.segmentEnd.bits = some (cat, l1) → cat ≤ 16 →
        takeExtend cat l1 = some (diff, l2) → takeAcOverrun ac 63 64 1 l2 = some (cs, k, rest) →
          let p := wrap32 (s.huf.pred[comp].toInt + diff)
          ∃ t, exec (.hufBlockBaseline dct act comp) s = .next t ∧ t.segmentEnd = { s.segmentEnd with bits := rest } ∧
            t = takeFault .hufCoefOverrun k { s with
              coef := t.coef
              huf := { s.hufLeft rest with pred := s.huf.pred.set comp (BitVec.ofInt 32 p) } } ∧
            t.elem .coef base = some (half16 p) ∧
            (∀ z, 0 < z → z < 64 → t.elem .coef (base + z) = (codedAt cs 0 z).orElse fun _ => s.elem .coef (base + z)) ∧
            ∀ sp a, (sp ≠ .coef ∨ a < base ∨ base + 64 ≤ a) → t.elem sp a = s.elem sp a) ∧
      (∀ (cs : List (Nat × Int)) (k : Nat) (rest : List Bool), s.huf.eobrun = 0 →
        takeAcOverrun ac s.huf.se 64 s.huf.ss s.segmentEnd.bits = some (cs, k, rest) →
          ∃ t, exec (.hufAcFirst act) s = .next t ∧ t.segmentEnd = { s.segmentEnd with bits := rest } ∧
            t = takeFault .hufCoefOverrun k { s with
              coef := t.coef, huf := s.hufLeft rest } ∧
            (∀ z, z < 64 → t.elem .coef (base + z) = (codedAt cs s.huf.al z).orElse fun _ => s.elem .coef (base + z)) ∧
            ∀ sp a, (sp ≠ .coef ∨ a < base ∨ base + 64 ≤ a) → t.elem sp a = s.elem sp a) ∧
      (∀ (ds : List Int) (f : FaultName × Nat) (state : Nat) (nx : Word) (rest : List Bool), s.huf.acstate = 0 →
        (∀ k, s.huf.ss ≤ k → k ≤ s.huf.se → (s.elem .coef (base + zz k)).isSome = true) →
        takeRefineFault ac (2 ^ s.huf.al) 65 s.huf.acnext
            ((List.range (s.huf.se + 1 - s.huf.ss)).map fun j =>
              (s.value .coef (base + zz (s.huf.ss + j))).toInt) s.segmentEnd.bits = some (ds, f, state, nx, rest) →
          ∃ t, exec (.hufAcRefine act) s = .next t ∧ t.segmentEnd = { s.segmentEnd with bits := rest } ∧
            t = takeFault f.1 f.2 { s with
              coef := t.coef
              huf := { s.hufLeft rest with
                acnext := nx, acstate := BitVec.ofNat 3 state } } ∧
            (∀ j, j < s.huf.se + 1 - s.huf.ss →
              t.elem .coef (base + zz (s.huf.ss + j)) = some (BitVec.ofInt 16 (ds.getD j 0))) ∧
            ∀ sp a, (sp ≠ .coef ∨ ∀ k, s.huf.ss ≤ k → k ≤ s.huf.se → a ≠ base + zz k) →
              t.elem sp a = s.elem sp a)

/-! ## MQ -/

/-- R144: MQ.INIT on a window whose first two bytes are written, those of them that it has: it reads no other. With `b0`, `b1`
these bytes (0xFF beyond the end), the 32-bit code register CHIGH:CLOW is `(b0 * 2^16 + b1 * 2^8) * 2^7` with one bit left
(MQ_CT = 1) when `b0` is not 0xFF, 0xFF and a tail of 1-bits when `b0 b1` is a marker, and `b0` with the seven bits of a stuffed
`b1` (MQ_CT = 0) otherwise. -/
def Obligations.MqInitLoadsCode : Prop :=
  ∀ s : State, s.arg0.toNat ≤ s.arg1.toNat → s.arg1.toNat ≤ s.params.streamSize →
    WindowWritten s s.arg0.toNat (min s.arg1.toNat (s.arg0.toNat + 2)) →
      let b0 := s.byteAt s.arg1.toNat s.arg0.toNat
      let b1 := s.byteAt s.arg1.toNat (s.arg0.toNat + 1)
      ∃ t, exec .mqInit s = .next t ∧ t = { s with mq := t.mq, flags := { s.flags with mqRdy := true } } ∧
        (∀ sp a, t.elem sp a = s.elem sp a) ∧ t.mq.a = 0x8000#16 ∧ t.mq.endIdx = s.arg1 ∧ MqInv t ∧
        (t.mq.chigh.toNat * 2 ^ 16 + t.mq.clow.toNat, t.mq.ct.toNat, t.mq.bp.toNat) =
          if b0 ≠ 0xFF then ((b0 * 2 ^ 16 + b1 * 2 ^ 8) * 2 ^ 7, 1, s.arg0.toNat + 1)
          else if 0x8F < b1 then ((0xFF * 2 ^ 16 + 0xFF00) * 2 ^ 7, 1, s.arg0.toNat)
          else ((0xFF * 2 ^ 16 + b1 * 2 ^ 9) * 2 ^ 7, 0, s.arg0.toNat + 1)

/-- R145, R148: from any state with the invariants, a legal context entry and the bytes that its rounds of R146 ask for written
(`MqReadable`; none is asked for when there is no round, or bits enough are left), MQ.READBIT completes, also past the end of the data, and leaves a state from which it does so again. It changes the MQ registers, one
context entry and RES. -/
def Obligations.MqReadbitCompletes : Prop :=
  ∀ (s : State) (cxi : Nat) (e : Byte), s.flags.mqRdy = true → MqInv s → cxi < s.params.cxEntries →
    s.elem .cx cxi = some e → e.toNat / 2 ≤ 46 →
    MqReadable s (s.mqInterval (probRow (e.toNat / 2)).qe) (s.mqReduced (probRow (e.toNat / 2)).qe) →
      ∃ t, exec (.mqReadbit cxi) s = .next t ∧ t = { s with mq := t.mq, cx := t.cx, res := t.res } ∧
        (∀ sp a, sp ≠ .cx ∨ a ≠ cxi → t.elem sp a = s.elem sp a) ∧ (t.res = 0 ∨ t.res = 1) ∧
        (∃ e' : Byte, t.elem .cx cxi = some e' ∧ e'.toNat / 2 ≤ 46) ∧ MqInv t ∧ t.mq.endIdx = s.mq.endIdx ∧
        s.mq.bp.toNat ≤ t.mq.bp.toNat ∧ (s.mq.bp = s.mq.endIdx → t.mq.bp = s.mq.bp)

/-- R145: which decision MQ.READBIT returns and what the context entry becomes, by the two comparisons of the rule, with the
row (Qe, NMPS, NLPS, SWITCH) of R141 at the entry's index, whose 47 rows `probRows` writes out as numbers. On the path without
renormalisation this is the whole next state. On the others the interval is Qe or MQ_A - Qe, moved `k` places to the left until its
top bit is 1 (R146), and the code register, MQ_CT and MQ_BP are what `k` rounds of R146, with R143's bytes, make of them. The
bytes those rounds ask for must be written (`MqReadable`). -/
def Obligations.MqReadbitDecides : Prop :=
  ∀ (s : State) (cxi : Nat) (e : Byte), s.flags.mqRdy = true → MqInv s → cxi < s.params.cxEntries →
    s.elem .cx cxi = some e → e.toNat / 2 ≤ 46 →
    let row := probRow (e.toNat / 2)
    MqReadable s (s.mqInterval row.qe) (s.mqReduced row.qe) →
      let mps := e.getLsbD 0
      let a := s.mq.a.toNat - row.qe
      let lps : Bool := (decide (s.mq.chigh.toNat < row.qe) != decide (a < row.qe))
      ∃ t, exec (.mqReadbit cxi) s = .next t ∧
        (row.qe ≤ s.mq.chigh.toNat ∧ 0x8000 ≤ a →
          t = { s with
            mq := { s.mq with a := BitVec.ofNat 16 a, chigh := BitVec.ofNat 16 (s.mq.chigh.toNat - row.qe) }
            res := if mps then 1 else 0 }) ∧
        (s.mq.chigh.toNat < row.qe ∨ a < 0x8000 →
          (∃ k, 1 ≤ k ∧ k ≤ 15 ∧ 0x8000 ≤ t.mq.a.toNat ∧
            t.mq.a.toNat = s.mqInterval row.qe * 2 ^ k ∧ t.mqCode = s.mqShifts k (s.mqReduced row.qe)) ∧
          t.res = (if mps != lps then 1 else 0) ∧
          t.elem .cx cxi = some (
            if lps then BitVec.ofNat 8 (row.nlps * 2 + (if row.switch != mps then 1 else 0))
            else BitVec.ofNat 8 (row.nmps * 2 + (if mps then 1 else 0))))

/-- R142, R77: the MQ commands look at STREAM only inside their window: with any other contents outside it they do the same. -/
def Obligations.MqReadsOnlyItsWindow : Prop :=
  ∀ (s : State) (m : Memory 8),
    ((∀ a, s.mq.bp.toNat ≤ a → a < s.mq.endIdx.toNat → m.read? a = s.stream.read? a) →
      ∀ cxi t, exec (.mqReadbit cxi) s = .next t →
        exec (.mqReadbit cxi) { s with stream := m } = .next { t with stream := m }) ∧
    ((∀ a, s.arg0.toNat ≤ a → a < s.arg1.toNat → m.read? a = s.stream.read? a) →
      ∀ t, exec .mqInit s = .next t → exec .mqInit { s with stream := m } = .next { t with stream := m })

/-! ## BR -/

/-- R182: the word of BR.INIT, its check, and on a valid window the whole next state. -/
def Obligations.BrInitOpens : Prop :=
  ∀ (s : State) (mode : BrMode),
    decode (0x20000000#32 ||| BitVec.ofNat 32 (brModeBit mode)) = some (.brInit mode) ∧
    (s.arg1.toNat < s.arg0.toNat ∨ s.params.streamSize < s.arg1.toNat →
      exec (.brInit mode) s = .next (takeFault .badOperand 0 s)) ∧
    (s.arg0.toNat ≤ s.arg1.toNat → s.arg1.toNat ≤ s.params.streamSize →
      exec (.brInit mode) s = .next { s with
        br := { pos := s.arg0, endIdx := s.arg1, buf := 0, cnt := 0, mode := mode, skip := false }
        flags := { s.flags with brRdy := true } })

/-- R181, R183, R190 (a), both modes: BR.READBITS N fetches bytes until N bits are buffered, and no more (`j` of them, which must be
written), returns the first N unread bits of the window and takes them away; when the window is used up with fewer buffered it
takes BR_EOF with their number, BR_POS = BR_END, and no bit is lost. `State.brAfter` gives the BR registers. -/
def Obligations.BrReadbitsReads : Prop :=
  ∀ (s : State) (n j : Nat), s.flags.brRdy = true → BrInv s → 1 ≤ n → n ≤ 16 → BrFills s n j →
    let l := s.brBits j
    (n ≤ l.length → ∃ t, exec (.brReadbits n) s = .next t ∧
      t = { s with br := s.brAfter j n, res := BitVec.ofNat 32 (numOf (l.take n)) } ∧
      (∀ sp a, t.elem sp a = s.elem sp a) ∧ l.take n = s.brUnread.take n ∧ t.brUnread = s.brUnread.drop n ∧
      t.br.pos.toNat = s.br.pos.toNat + j ∧ t.br.cnt.toNat = l.length - n ∧ BrInv t) ∧
    (l.length < n → ∃ t, exec (.brReadbits n) s = .next t ∧
      t = { s with
        br := s.brAfter j 0, faultRec := { info := 0x320, arg := BitVec.ofNat 32 l.length, cmd := s.cmd }
        flags := { s.flags with fault := true } } ∧
      (∀ sp a, t.elem sp a = s.elem sp a) ∧ l = s.brUnread ∧ t.brUnread = s.brUnread ∧ t.br.pos = s.br.endIdx ∧
      t.br.cnt.toNat = l.length ∧ BrInv t)

/-- R181, R184, R185, R190 (c): in PLAIN mode BR.PEEKBITS N and BR.SKIPBITS N fetch bytes until N bits are buffered, and no more (`j`
of them, which must be written). BR.PEEKBITS returns the next N unread bits, zero-padded, or 0x80000000 when there is none, and
takes none away; BR.SKIPBITS takes N away, or all there are, and returns nothing. `State.brAfter` gives the BR registers. -/
def Obligations.BrPeekAndSkip : Prop :=
  ∀ (s : State) (n j : Nat), s.flags.brRdy = true → BrInv s → 1 ≤ n → n ≤ 16 → s.br.mode = .plain → BrFills s n j →
    let l := s.brBits j
    (∃ t, exec (.brPeekbits n) s = .next t ∧
      t = { s with
        br := s.brAfter j 0
        res := if l = [] then 0x80000000#32 else BitVec.ofNat 32 (numOf ((l ++ List.replicate n false).take n)) } ∧
      (∀ sp a, t.elem sp a = s.elem sp a) ∧ l.take n = s.brUnread.take n ∧ t.brUnread = s.brUnread ∧
      t.br.pos.toNat = s.br.pos.toNat + j ∧ t.br.cnt.toNat = l.length ∧ t.br.skip = false ∧ BrInv t) ∧
    (∃ t, exec (.brSkipbits n) s = .next t ∧ t = { s with br := s.brAfter j n } ∧
      (∀ sp a, t.elem sp a = s.elem sp a) ∧ t.brUnread = s.brUnread.drop n ∧ t.br.pos.toNat = s.br.pos.toNat + j ∧
      t.br.cnt.toNat = l.length - n ∧ t.br.skip = false ∧ BrInv t)

/-- R186: BR.ALIGN in PLAIN mode drops the unread bits of the current byte; in STUFF7 mode it drops what is buffered and steps
over the stuffing byte after a trailing 0xFF. -/
def Obligations.BrAlignAligns : Prop :=
  ∀ s : State, s.flags.brRdy = true → BrInv s →
    (s.br.mode = .plain → ∃ t, exec .brAlign s = .next t ∧ t.brUnread = s.brUnread.drop (s.br.cnt.toNat % 8) ∧
      t.br.cnt.toNat = s.br.cnt.toNat - s.br.cnt.toNat % 8 ∧
      t = { s with br := { s.br with buf := t.br.buf, cnt := t.br.cnt } } ∧ (∀ sp a, t.elem sp a = s.elem sp a) ∧ BrInv t) ∧
    (s.br.mode = .stuff7 → exec .brAlign s = .next { s with
      br := { s.br with
        pos := if s.br.skip then BitVec.ofNat 32 (min (s.br.pos.toNat + 1) s.br.endIdx.toNat) else s.br.pos
        cnt := 0, buf := 0, skip := false } })

/-- R187 to R189: at a byte boundary, with `l` the index of the byte that holds the next unread bit, BR.PEEKMARKER tests for FF MARK
inside the window and changes only RES, and BR.SKIPBYTES moves ARG0 bytes on from `l`, no further than the end of the window. -/
def Obligations.BrMarkerCommands : Prop :=
  ∀ (s : State) (mark : Byte) (l : Nat), s.flags.brRdy = true → BrInv s →
    (s.br.mode = .plain ∧ s.br.cnt.toNat % 8 = 0 ∧ l = s.br.pos.toNat - s.br.cnt.toNat / 8) ∨
      (s.br.mode = .stuff7 ∧ s.br.cnt.toNat = 0 ∧ s.br.skip = false ∧ l = s.br.pos.toNat) →
    (WindowWritten s l s.br.endIdx.toNat →
      exec (.brPeekmarker mark) s = .next { s with
        res := if l + 1 < s.br.endIdx.toNat ∧ s.value .stream l = 0xFF#8 ∧ s.value .stream (l + 1) = mark then 1 else 0 }) ∧
    exec .brSkipbytes s = .next { s with
      br := { s.br with
        pos := BitVec.ofNat 32 (min (l + s.arg0.toNat) s.br.endIdx.toNat), cnt := 0, buf := 0, skip := false } }

/-! ## HUF

The bits of the segment are `s.segmentEnd.bits`, those before its end, an unwritten byte included: a command that needs no more
of them completes, whatever lies beyond. `s.hufLeft rest` and `s.hufAfter n` are the HUF registers when R211 has given the bits
but for `rest`, or `n` of them. -/

/-- R212, R216, R217: the words of HUF.INIT, HUF.SCANCFG and HUF.RESTART, the checks of each, and on operands that pass them the
whole next state. -/
def Obligations.HufSetUp : Prop :=
  decode 0x30000000#32 = some .hufInit ∧ decode 0x33000000#32 = some .hufRestart ∧
  ∀ s : State,
    (s.arg1.toNat < s.arg0.toNat ∨ s.params.streamSize < s.arg1.toNat →
      exec .hufInit s = .next (takeFault .badOperand 0 s)) ∧
    (s.arg0.toNat ≤ s.arg1.toNat → s.arg1.toNat ≤ s.params.streamSize →
      exec .hufInit s = .next { s with
        huf := {
          pos := s.arg0, endIdx := s.arg1, bits := 0, bitcnt := 0, pred := #v[0, 0, 0, 0], eobrun := 0, acstate := 0
          acnext := 0, scan := s.huf.scan }
        flags := { s.flags with hufRdy := true } }) ∧
    (∀ ss se al, ss < 64 → se < 64 → al < 16 →
      decode (0x32000000#32 ||| BitVec.ofNat 32 (al * 4096 + se * 64 + ss)) = some (.hufScancfg ss se al) ∧
      (se < ss ∨ 13 < al → exec (.hufScancfg ss se al) s = .next (takeFault .badOperand (al * 4096 + se * 64 + ss) s))) ∧
    (∀ ss se al, ss ≤ se → se ≤ 63 → al ≤ 13 → ∃ t, exec (.hufScancfg ss se al) s = .next t ∧
      t = { s with huf := { s.huf with scan := t.huf.scan } } ∧ t.huf.ss = ss ∧ t.huf.se = se ∧ t.huf.al = al ∧
      t.huf.scan = BitVec.ofNat 16 (al * 4096 + se * 64 + ss)) ∧
    (s.flags.hufRdy = false → exec .hufRestart s = .next (takeFault .notInitialised 3 s)) ∧
    (s.flags.hufRdy = true → s.huf.endIdx.toNat < s.arg0.toNat →
      exec .hufRestart s = .next (takeFault .badOperand s.arg0.toNat s)) ∧
    (s.flags.hufRdy = true → s.arg0.toNat ≤ s.huf.endIdx.toNat →
      exec .hufRestart s = .next { s with
        huf := {
          pos := s.arg0, endIdx := s.huf.endIdx, bits := 0, bitcnt := 0, pred := #v[0, 0, 0, 0], eobrun := 0
          acstate := 0, acnext := 0, scan := s.huf.scan } })

/-- R213: HUF.LOADTABLE on a readable definition. More than 256 codes take HUF_BAD_TABLE(0), and the first length L at which the
codes of up to L bits, one of `j` bits taking `2^(L-j)`, take up more than `2^L`, takes HUF_BAD_TABLE(L); the slot stays. When there
is no such length the sixteen counts and the symbols are copied into the slot and nothing else changes. -/
def Obligations.HufLoadtableLoads : Prop :=
  ∀ (s : State) (c : TClass) (id : Fin 4),
    s.arg0.toNat + 16 ≤ s.params.tblSize → Written s .tbl s.arg0.toNat 1 16 →
      let cnt : List Byte := s.values .tbl s.arg0.toNat 1 16
      let n := (cnt.map BitVec.toNat).sum
      let space := fun L => ((List.range L).map fun i => (cnt.getD i 0).toNat * 2 ^ (L - (i + 1))).sum
      (256 < n → exec (.hufLoadtable c id) s = .next (takeFault .hufBadTable 0 s)) ∧
      (n ≤ 256 → s.arg0.toNat + 16 + n ≤ s.params.tblSize →
        (∀ L, 1 ≤ L → L ≤ 16 → 2 ^ L < space L → (∀ j, 1 ≤ j → j < L → space j ≤ 2 ^ j) →
          exec (.hufLoadtable c id) s = .next (takeFault .hufBadTable L s)) ∧
        ((∀ j, 1 ≤ j → j ≤ 16 → space j ≤ 2 ^ j) → Written s .tbl (s.arg0.toNat + 16) 1 n →
          ∃ t tab, exec (.hufLoadtable c id) s = .next t ∧ t = { s with ht := t.ht } ∧
            t.ht[slotOf c id] = some tab ∧ (∀ k : Fin 8, k ≠ slotOf c id → t.ht[k] = s.ht[k]) ∧
            tab.count.toList = cnt ∧ tab.val = s.values .tbl (s.arg0.toNat + 16) 1 n ∧
            t.hufTvalid.getLsbD (slotOf c id).val = true))

/-- R228: the codes of a loaded table stand for its symbols in order, as many of each length as its histogram says; the first is
all zeros, the next is the last one plus 1, shifted to its own length, none reaches two to its length, and none is a prefix of
another. -/
def Obligations.CodesCanonical : Prop :=
  ∀ t : HufTable, TableOk t →
    t.codes.map HufCode.sym = t.val ∧
    (∀ L : Fin 16, (t.codes.filter fun c => c.len = L.val + 1).length = t.count[L].toNat) ∧
    (∀ c, t.codes.head? = some c → c.code = 0) ∧ (∀ c ∈ t.codes, 1 ≤ c.len ∧ c.len ≤ 16 ∧ c.code < 2 ^ c.len) ∧
    (∀ (i : Nat) (c d : HufCode), t.codes[i]? = some c → t.codes[i + 1]? = some d →
      c.len ≤ d.len ∧ d.code = (c.code + 1) * 2 ^ (d.len - c.len)) ∧
    ∀ (i j : Nat) (c d : HufCode), t.codes[i]? = some c → t.codes[j]? = some d → bitsMsb c.len c.code <+: bitsMsb d.len d.code → i = j

/-- R211, R214, R218: when the bits of the segment begin with a code of the table, HUF.DECODE returns its symbol and takes its bits
away. -/
def Obligations.HufDecodeReads : Prop :=
  ∀ (s : State) (c : TClass) (id : Fin 4) (tab : HufTable) (v : Nat) (rest : List Bool),
    s.flags.hufRdy = true → HufInv s → s.ht[slotOf c id] = some tab → TableOk tab →
    takeSymbol tab s.segmentEnd.bits = some (v, rest) →
      ∃ t, exec (.hufDecode c id) s = .next t ∧ t.segmentEnd = { s.segmentEnd with bits := rest } ∧
        t = { s with res := BitVec.ofNat 32 v, huf := s.hufLeft rest } ∧ ∀ sp a, t.elem sp a = s.elem sp a

/-- R211, R215, R219, R220: HUF.RECEIVE N returns the next N bits of the segment as a number, HUF.EXTEND N the signed value they
code, and both take them away. -/
def Obligations.HufReceiveReads : Prop :=
  ∀ (s : State) (n : Nat), s.flags.hufRdy = true → HufInv s →
    let e := s.segmentEnd
    n ≤ 16 → n ≤ e.bits.length →
      let v := numOf (e.bits.take n)
      (∃ t, exec (.hufReceive n) s = .next t ∧ t.segmentEnd = { e with bits := e.bits.drop n } ∧
        t = { s with res := BitVec.ofNat 32 v, huf := s.hufAfter n } ∧ ∀ sp a, t.elem sp a = s.elem sp a) ∧
      (∃ t, exec (.hufExtend n) s = .next t ∧ t.segmentEnd = { e with bits := e.bits.drop n } ∧
        t = { s with res := t.res, huf := s.hufAfter n } ∧ (∀ sp a, t.elem sp a = s.elem sp a) ∧
        t.res.toInt = (if n = 0 then 0 else if 2 ^ (n - 1) ≤ v then (v : Int) else v - 2 ^ n + 1))

/-- R222: a sequential block. When the bits of the segment code a DC category up to 16, its difference, and AC coefficients up to
an end of block or position 63 (`takeAc`), HUF.BLOCK_BASELINE writes exactly those coefficients, each at its zig-zag place of block ARG0,
moves the predictor, and takes the bits away. -/
def Obligations.HufBaselineBlock : Prop :=
  ∀ (s : State) (dct act comp : Fin 4) (dc ac : HufTable) (cat : Nat) (diff : Int) (cs : List (Nat × Int)) (run : Nat)
    (l1 l2 rest : List Bool),
    s.flags.hufRdy = true → HufInv s → s.arg0.toNat < s.params.coefBlocks →
    s.ht[slotOf .dc dct] = some dc → TableOk dc → s.ht[slotOf .ac act] = some ac → TableOk ac →
    takeSymbol dc s.segmentEnd.bits = some (cat, l1) → cat ≤ 16 → takeExtend cat l1 = some (diff, l2) →
    takeAc ac false 63 64 1 l2 = some (cs, run, rest) →
      let p := wrap32 (s.huf.pred[comp].toInt + diff)
      ∃ t, exec (.hufBlockBaseline dct act comp) s = .next t ∧ t.segmentEnd = { s.segmentEnd with bits := rest } ∧
        t = { s with
          coef := t.coef, huf := { s.hufLeft rest with pred := s.huf.pred.set comp (BitVec.ofInt 32 p) } } ∧
        t.elem .coef (64 * s.arg0.toNat) = some (half16 p) ∧
        (∀ z, 0 < z → z < 64 → t.elem .coef (64 * s.arg0.toNat + z) =
          (codedAt cs 0 z).orElse fun _ => s.elem .coef (64 * s.arg0.toNat + z)) ∧
        ∀ sp a, (sp ≠ .coef ∨ a < 64 * s.arg0.toNat ∨ 64 * s.arg0.toNat + 64 ≤ a) → t.elem sp a = s.elem sp a

/-- R223: HUF.DC_FIRST adds the decoded difference, shifted by AL, to the predictor and writes the DC coefficient. -/
def Obligations.HufDcFirstBlock : Prop :=
  ∀ (s : State) (dct comp : Fin 4) (dc : HufTable) (cat : Nat) (diff : Int) (l1 rest : List Bool),
    s.flags.hufRdy = true → HufInv s → s.arg0.toNat < s.params.coefBlocks → s.ht[slotOf .dc dct] = some dc → TableOk dc →
    takeSymbol dc s.segmentEnd.bits = some (cat, l1) → cat ≤ 16 → takeExtend cat l1 = some (diff, rest) →
      let p := wrap32 (s.huf.pred[comp].toInt + wrap32 (diff * 2 ^ s.huf.al))
      ∃ t, exec (.hufDcFirst dct comp) s = .next t ∧ t.segmentEnd = { s.segmentEnd with bits := rest } ∧
        t = { s with
          coef := t.coef, huf := { s.hufLeft rest with pred := s.huf.pred.set comp (BitVec.ofInt 32 p) } } ∧
        t.elem .coef (64 * s.arg0.toNat) = some (half16 p) ∧
        ∀ sp a, sp ≠ .coef ∨ a ≠ 64 * s.arg0.toNat → t.elem sp a = s.elem sp a

/-- R224: HUF.DC_REFINE sets bit AL of the DC coefficient when the next bit is 1. -/
def Obligations.HufDcRefineBlock : Prop :=
  ∀ (s : State) (c : Half) (b : Bool) (rest : List Bool),
    s.flags.hufRdy = true → HufInv s → s.arg0.toNat < s.params.coefBlocks → s.elem .coef (64 * s.arg0.toNat) = some c →
    s.segmentEnd.bits = b :: rest →
      ∃ t, exec .hufDcRefine s = .next t ∧ t.segmentEnd = { s.segmentEnd with bits := rest } ∧
        t = { s with coef := t.coef, huf := s.hufLeft rest } ∧
        t.elem .coef (64 * s.arg0.toNat) = some (if b then c ||| BitVec.ofNat 16 (2 ^ s.huf.al) else c) ∧
        ∀ sp a, sp ≠ .coef ∨ a ≠ 64 * s.arg0.toNat → t.elem sp a = s.elem sp a

/-- R225: HUF.AC_FIRST inside an end-of-band run only counts it down; otherwise it writes the coefficients the bits of the segment
code between SS and SE, shifted by AL, and starts the run they end with. -/
def Obligations.HufAcFirstBlock : Prop :=
  ∀ (s : State) (act : Fin 4) (ac : HufTable),
    s.flags.hufRdy = true → HufInv s → s.arg0.toNat < s.params.coefBlocks →
    s.ht[slotOf .ac act] = some ac → TableOk ac →
      (0 < s.huf.eobrun.toNat →
        exec (.hufAcFirst act) s = .next { s with huf := { s.huf with eobrun := s.huf.eobrun - 1 } }) ∧
      (∀ cs run rest, s.huf.eobrun.toNat = 0 →
        takeAc ac true s.huf.se 64 s.huf.ss s.segmentEnd.bits = some (cs, run, rest) →
          ∃ t, exec (.hufAcFirst act) s = .next t ∧ t.segmentEnd = { s.segmentEnd with bits := rest } ∧
            t = { s with coef := t.coef, huf := { s.hufLeft rest with eobrun := BitVec.ofNat 16 run } } ∧
            (∀ z, z < 64 → t.elem .coef (64 * s.arg0.toNat + z) =
              (codedAt cs s.huf.al z).orElse fun _ => s.elem .coef (64 * s.arg0.toNat + z)) ∧
            ∀ sp a, (sp ≠ .coef ∨ a < 64 * s.arg0.toNat ∨ 64 * s.arg0.toNat + 64 ≤ a) → t.elem sp a = s.elem sp a)

/-- R226: HUF.AC_REFINE refines the band SS to SE of block ARG0 as the bits of the segment say. Inside an end-of-band run
(HUF_ACSTATE = 4) every coefficient that is not 0 takes a correction bit and the run counts down. Otherwise (HUF_ACSTATE = 0)
`takeRefine` gives the new coefficients, HUF_ACNEXT, which is the sign of the last new coefficient if there is one, and the run an
EOBn symbol starts, the first block of which this one is. No element outside the band changes. -/
def Obligations.HufAcRefineBlock : Prop :=
  ∀ (s : State) (act : Fin 4) (ac : HufTable) (ds : List Int) (run : Nat) (nx : Word) (rest : List Bool),
    s.flags.hufRdy = true → HufInv s → s.arg0.toNat < s.params.coefBlocks → s.ht[slotOf .ac act] = some ac → TableOk ac →
    (∀ k, s.huf.ss ≤ k → k ≤ s.huf.se → (s.elem .coef (64 * s.arg0.toNat + zz k)).isSome = true) →
    let band := (List.range (s.huf.se + 1 - s.huf.ss)).map fun j =>
      (s.value .coef (64 * s.arg0.toNat + zz (s.huf.ss + j))).toInt
    (s.huf.acstate = 4 ∧ 0 < s.huf.eobrun.toNat ∧ run = s.huf.eobrun.toNat ∧ nx = s.huf.acnext ∧
        refineCoefs (2 ^ s.huf.al) band s.segmentEnd.bits = some (ds, rest)) ∨
      (s.huf.acstate = 0 ∧
        takeRefine ac (2 ^ s.huf.al) 65 s.huf.acnext band s.segmentEnd.bits = some (ds, run, nx, rest)) →
      ∃ t, exec (.hufAcRefine act) s = .next t ∧ t.segmentEnd = { s.segmentEnd with bits := rest } ∧
        t = { s with
          coef := t.coef
          huf := { s.hufLeft rest with
            acnext := nx
            eobrun := if run = 0 then s.huf.eobrun else BitVec.ofNat 16 (run - 1)
            acstate := if run ≤ 1 then 0 else 4 } } ∧
        (∀ j, j < s.huf.se + 1 - s.huf.ss →
          t.elem .coef (64 * s.arg0.toNat + zz (s.huf.ss + j)) = some (BitVec.ofInt 16 (ds.getD j 0))) ∧
        ∀ sp a, (sp ≠ .coef ∨ ∀ k, s.huf.ss ≤ k → k ≤ s.huf.se → a ≠ 64 * s.arg0.toNat + zz k) →
          t.elem sp a = s.elem sp a

/-! ## CCITT -/

/-- R272: CCITT.INIT on a legal width and a window whose bytes are written as far as it may fetch them (`BrAhead`). It opens the
window in PLAIN mode, skips the leading fill and one EOL, and then the data is at its end (CC_EOF) or, when KMODE = 1, one tag bit
says how the first row is coded. -/
def Obligations.CcittInitOpens : Prop :=
  ∀ (s : State) (kmode : Nat) (eoline balign eoblock black1 : Bool), kmode < 3 →
    s.arg0.toNat ≤ s.arg1.toNat → s.arg1.toNat ≤ s.params.streamSize → 1 ≤ s.arg2.toNat →
    s.arg2.toNat ≤ s.params.colsMax →
      let u := s.setBr { pos := s.arg0, endIdx := s.arg1, buf := 0, cnt := 0, mode := .plain, skip := false }
      let l0 := dropFill u.brUnread
      let l := if lookAhead 12 l0 = 1 then l0.drop 12 else l0
      let rest := if kmode = 1 then l.drop 1 else l
      BrAhead u (u.brUnread.length - rest.length) → ∃ t, exec (.ccittInit kmode eoline balign eoblock black1) s = .next t ∧
        t = { s with
          br := t.br, cline := t.cline
          cc := { cols := s.arg2, rows := s.arg3, flags := t.cc.flags, row := 0, next2d := t.cc.next2d, outbits := 0, cpos := 0 }
          flags := { s.flags with
            brRdy := true, ccRdy := true, ccEof := decide (l = []), ccErr := false, ccWarn := false } } ∧
        t.cc.kmode = kmode ∧ t.cc.eoline = eoline ∧ t.cc.balign = balign ∧ t.cc.eoblock = eoblock ∧ t.cc.black1 = black1 ∧
        t.cc.next2d = (if kmode = 1 then decide (l ≠ [] ∧ l.head? = some false) else decide (kmode = 2)) ∧
        t.brUnread = rest ∧
        t.elem .cline 0 = some s.arg2 ∧ (∀ sp a, sp ≠ .cline ∨ a ≠ 0 → t.elem sp a = s.elem sp a) ∧
        BrInv t ∧ CcInv t

/-- R276, R278 (d): while pixels of a row are pending, CCITT.READBYTE returns the next eight places of that row as a byte
(`nextByte`), moves past them, no further than the end of the row, and reads no bit; after the end of the data, with no pixel
pending, it returns 0xFFFFFFFF and changes nothing else, so it does so for ever. -/
def Obligations.CcittReadbyteServes : Prop :=
  ∀ s : State, s.flags.ccRdy = true → s.flags.brRdy = true → s.br.mode = .plain →
    (s.cc.outbits = 0 → s.flags.ccEof = true → exec .ccittReadbyte s = .next { s with res := 0xFFFFFFFF#32 }) ∧
    (s.cc.outbits ≠ 0 → s.flags.fault = false → CcInv s →
      ∃ t, exec .ccittReadbyte s = .next t ∧ t.res = BitVec.ofNat 32 s.nextByte ∧
        t = { s with res := t.res, cc := { s.cc with outbits := t.cc.outbits, cpos := t.cc.cpos } } ∧
        (∀ sp a, t.elem sp a = s.elem sp a) ∧ CcInv t ∧ t.nextPixel = min (s.nextPixel + 8) s.cc.cols.toNat)

/-- R277, R278 (c), (e): CCITT.READBYTE completes on every stream: whatever bits the window holds, it raises no fault, it returns a
byte or 0xFFFFFFFF, and it leaves a state in which it completes again. It gives back no bit. When it reads a row, the bytes it may
fetch for it must be written (`BrAhead`). -/
def Obligations.CcittReadbyteCompletes : Prop :=
  ∀ s : State, s.flags.ccRdy = true → s.flags.brRdy = true → s.flags.fault = false → s.br.mode = .plain → CcInv s → BrInv s →
    (s.cc.outbits = 0 → s.flags.ccEof = false → BrAhead s s.rowBits) →
      ∃ t, exec .ccittReadbyte s = .next t ∧ (t.res.toNat < 256 ∨ t.res = 0xFFFFFFFF#32) ∧
        t = { s with
          res := t.res, br := t.br, cline := t.cline, rline := t.rline
          cc := { s.cc with row := t.cc.row, next2d := t.cc.next2d, outbits := t.cc.outbits, cpos := t.cc.cpos }
          flags := { s.flags with ccEof := t.flags.ccEof, ccErr := t.flags.ccErr, ccWarn := t.flags.ccWarn } } ∧
        (∀ sp a, sp ≠ .cline → sp ≠ .rline → t.elem sp a = s.elem sp a) ∧ t.br.mode = .plain ∧
        t.br.endIdx = s.br.endIdx ∧ BrInv t ∧ CcInv t ∧ t.brUnread <:+ s.brUnread

/-- R261 to R275: which row CCITT.READBYTE decodes. With no pixel pending and the data not at its end it reads the next row off the
unread bits: in one dimension, runs of alternating colour in the codes of WHITE and BLACK, in two, modes against the row before
(`State.nextRow`, damaged rows and rows cut by the end of the data included). CLINE then holds the ends of its runs, CC_ERR and
CC_WARN tell a damaged row, and what PostRow makes of the bits after it gives CC_EOF, CC_NEXT2D and the bits left
(`CcUnit.gapAfter`; its reading of two lines of R275 is log 16, DEDUCED). RES is the row's first eight places. A two-dimensional
row leaves the row before in RLINE, closed by CC_COLS. The tables that rows are read by are those of the spec, in which no code,
EOL included, is a prefix of another (R266). The bytes it may fetch must be written (`BrAhead`). -/
def Obligations.CcittReadbyteDecodes : Prop :=
  (∀ cs ∈ [eolBits :: (runTable 0).map Prod.fst, eolBits :: (runTable 1).map Prod.fst, modeTable.map Prod.fst],
    cs.Pairwise fun c d => ¬ c <+: d ∧ ¬ d <+: c) ∧
  ∀ s : State, s.flags.ccRdy = true → s.flags.brRdy = true → s.flags.fault = false → s.br.mode = .plain → CcInv s → BrInv s →
    s.cc.outbits = 0 → s.flags.ccEof = false → BrAhead s s.rowBits →
      let row := s.nextRow
      let gap := s.cc.gapAfter row
      ∃ t, exec .ccittReadbyte s = .next t ∧
        (∀ i, i < row.ends.length → t.clineAt i = row.ends.reverse[i]?) ∧ row.here = s.cc.cols.toNat ∧
        t.flags.ccErr = row.err ∧ t.flags.ccWarn = (s.flags.ccWarn || row.err) ∧ t.flags.ccEof = gap.eof ∧
        t.cc.next2d = gap.next2d ∧ t.brUnread = gap.rest ∧ t.cc.row.toNat = min (s.cc.row.toNat + 1) (2 ^ 32 - 1) ∧
        t.res = BitVec.ofNat 32 (t.rowByte 0) ∧ t.nextPixel = min 8 s.cc.cols.toNat ∧
        (s.cc.next2d = true → ∀ j, j ≤ s.cc.cols.toNat + 1 →
          t.elem .rline j = some (BitVec.ofNat 32 (refEnd s.cc.cols.toNat s.lineEnds j))) ∧
        (s.cc.next2d = false → ∀ j, t.elem .rline j = s.elem .rline j)

/-! ## IDCT -/

/-- R322 to R324, R325 (d): IDCT.BLOCK on a readable block and table replaces the 64 coefficients by the 64 samples of the
transform, the general path and both fast paths (`idctSample`, the pseudocode of R323 and R324 with its numbers), each sample in 0
to 255, and changes nothing else. -/
def Obligations.IdctBlockTransforms : Prop :=
  ∀ (s : State) (qti : Fin 4), s.arg0.toNat < s.params.coefBlocks → Written s .coef (64 * s.arg0.toNat) 1 64 →
    Written s .qt (64 * qti.val) 1 64 →
      let c : Nat → Int := fun j => (s.value .coef (64 * s.arg0.toNat + j)).toInt
      let q : Nat → Int := fun j => (s.value .qt (64 * qti.val + j)).toNat
      ∃ t, exec (.idctBlock qti) s = .next t ∧ t = { s with coef := t.coef } ∧
        (∀ i, i < 64 → ∃ v : Half, t.elem .coef (64 * s.arg0.toNat + i) = some v ∧ v.toInt = idctSample c q i ∧
          0 ≤ v.toInt ∧ v.toInt ≤ 255) ∧
        ∀ sp a, (sp ≠ .coef ∨ a < 64 * s.arg0.toNat ∨ 64 * s.arg0.toNat + 64 ≤ a) → t.elem sp a = s.elem sp a

/-- R325 (a), (b): for every table a block of zeros becomes 64 samples of 128, and a block whose only non-zero coefficient is the DC
term becomes a uniform block. -/
def Obligations.IdctDcOnlyUniform : Prop :=
  ∀ (q : List Int) (d : Int),
    idctBlock (List.replicate 64 0) q = List.replicate 64 128 ∧
    ∃ v, idctBlock (d :: List.replicate 63 0) q = List.replicate 64 v ∧
      v = clampFast (asr32 (5793 * wrap16 (asr32 (5793 * (d * q.getD 0 0) + 512) 10) + 8192) 14)

/-! ## IWT -/

/-- R341, R343, R344, R351, R353: IWT.SR1D on operands that pass its checks and a readable line writes to the words `a + i * s` the
samples that `lineWord` gives one by one: for one word R353, for more the lifting steps of the 5/3 or the 9/7 filter in their
order, on the line reflected at both ends; it changes nothing else (R354 (f)). The operations and constants of the 9/7 filter are
the block's own, which the spec leaves OPEN (log 2). -/
def Obligations.IwtSr1dTransforms : Prop :=
  ∀ (s : State) (f : Filter) (ph : Bool), 0 < s.arg1.toNat → 0 < s.arg2.toNat →
    s.arg0.toNat + (s.arg1.toNat - 1) * s.arg2.toNat < s.params.planeWords → (ph = true → s.arg1.toNat = 1) →
    Written s .plane s.arg0.toNat s.arg2.toNat s.arg1.toNat →
      ∃ t, exec (.iwtSr1d f ph) s = .next t ∧ t = { s with plane := t.plane } ∧
        (∀ i, i < s.arg1.toNat → t.elem .plane (s.arg0.toNat + i * s.arg2.toNat) =
          some (lineWord f ph s.arg1.toNat (fun j => s.value .plane (s.arg0.toNat + j * s.arg2.toNat)) i)) ∧
        ∀ sp a, (sp ≠ .plane ∨ ∀ i, i < s.arg1.toNat → a ≠ s.arg0.toNat + i * s.arg2.toNat) → t.elem sp a = s.elem sp a

/-- R354 (a): IWT.SR1D with the 5/3 filter undoes the forward transform: a line that holds FWD53 of any 32-bit signal of two or more
words holds that signal afterwards, overflowing ones included. -/
def Obligations.Iwt53Reversible : Prop :=
  ∀ (s : State) (x : List Word), 2 ≤ x.length → s.arg1.toNat = x.length → 0 < s.arg2.toNat →
    s.arg0.toNat + (x.length - 1) * s.arg2.toNat < s.params.planeWords →
    (∀ i, i < x.length → s.elem .plane (s.arg0.toNat + i * s.arg2.toNat) =
      some (BitVec.ofInt 32 ((fwd53 (x.map BitVec.toInt)).getD i 0))) →
      ∃ t, exec (.iwtSr1d .rev53 false) s = .next t ∧
        ∀ i, i < x.length → t.elem .plane (s.arg0.toNat + i * s.arg2.toNat) = some (x.getD i 0)

/-- R354 (b), (c): a low-pass of constant `c` with a zero high-pass reconstructs to the constant, for `|c| < 2^30`, and an output of the
5/3 filter depends only on its two nearest neighbours on each side, of the extended signal. -/
def Obligations.Iwt53ConstantAndLocal : Prop :=
  (∀ (n : Nat) (c : Int), 2 ≤ n → -(2 ^ 30) < c → c < 2 ^ 30 →
    sr53 ((List.range n).map fun i => if i % 2 = 0 then c else 0) = List.replicate n c) ∧
  ∀ (y z : List Int) (i : Nat), y.length = z.length → 2 ≤ y.length → i < y.length →
    (∀ j : Int, (i : Int) - (if i % 2 = 0 then 1 else 2) ≤ j → j ≤ (i : Int) + (if i % 2 = 0 then 1 else 2) →
      extended y j = extended z j) →
    (sr53 y)[i]? = (sr53 z)[i]?

/-- R345: IWT.SR2D on operands that pass its checks and a readable array transforms all rows, then all columns (`lineWord` for each
line), and changes nothing outside the array. The numerics of the 9/7 filter are the block's own (log 2). -/
def Obligations.IwtSr2dTransforms : Prop :=
  ∀ (s : State) (f : Filter) (pu pv : Bool), 0 < s.arg1.toNat → 0 < s.arg2.toNat →
    s.arg0.toNat + s.arg1.toNat * s.arg2.toNat ≤ s.params.planeWords → (pu = true → s.arg1.toNat = 1) →
    (pv = true → s.arg2.toNat = 1) → Written s .plane s.arg0.toNat 1 (s.arg1.toNat * s.arg2.toNat) →
      let img : Nat → Nat → Word := fun v u => s.value .plane (s.arg0.toNat + v * s.arg1.toNat + u)
      ∃ t, exec (.iwtSr2d f pu pv) s = .next t ∧ t = { s with plane := t.plane } ∧
        (∀ v u, v < s.arg2.toNat → u < s.arg1.toNat → t.elem .plane (s.arg0.toNat + v * s.arg1.toNat + u) =
          some (columnsPass f pv s.arg2.toNat (rowsPass f pu s.arg1.toNat img) v u)) ∧
        ∀ sp a, (sp ≠ .plane ∨ a < s.arg0.toNat ∨ s.arg0.toNat + s.arg1.toNat * s.arg2.toNat ≤ a) →
          t.elem sp a = s.elem sp a
end

