-- ==== Sys2Proof/Laws/Bits.lean ====
section
/-! SUPPORT. Laws of the bit strings of Safety.lean. -/

namespace Sys2Proof.Machine

@[simp] theorem bitsMsb_length (k v : Nat) : (bitsMsb k v).length = k := by simp [bitsMsb]

@[simp] theorem bitsMsb_zero (v : Nat) : bitsMsb 0 v = [] := rfl

theorem bitsMsb_getElem {k v i : Nat} (h : i < (bitsMsb k v).length) : (bitsMsb k v)[i] = v.testBit (k - 1 - i) := by
  simp [bitsMsb]

/-- Only the low `k` bits matter. -/
theorem bitsMsb_mod (k v : Nat) : bitsMsb k (v % 2 ^ k) = bitsMsb k v := by
  apply List.ext_getElem (by simp)
  intro i h1 h2
  simp only [bitsMsb_length] at h1
  simp only [bitsMsb_getElem, Nat.testBit_mod_two_pow]
  simp; omega

/-- Bits of a value put together from two fields. -/
theorem bitsMsb_append (k m v u : Nat) (h : u < 2 ^ m) :
    bitsMsb (k + m) (v * 2 ^ m + u) = bitsMsb k v ++ bitsMsb m u := by
  apply List.ext_getElem (by simp)
  intro i h1 h2
  simp only [bitsMsb_length] at h1
  rw [bitsMsb_getElem, List.getElem_append, Nat.mul_comm, Nat.testBit_two_pow_mul_add v h]
  simp only [bitsMsb_length]
  split
  · next h3 =>
    rw [dif_neg (by omega), bitsMsb_getElem]
    congr 1
    omega
  · next h3 =>
    rw [dif_pos (by omega), bitsMsb_getElem]
    congr 1
    omega

theorem bitsMsb_take {k n : Nat} (v : Nat) (h : n ≤ k) : (bitsMsb k v).take n = bitsMsb n (v / 2 ^ (k - n)) := by
  apply List.ext_getElem (by simp; omega)
  intro i h1 h2
  simp only [bitsMsb_length] at h2
  rw [List.getElem_take, bitsMsb_getElem, bitsMsb_getElem, Nat.testBit_div_two_pow]
  congr 1
  omega

theorem bitsMsb_drop {k n : Nat} (v : Nat) (_h : n ≤ k) : (bitsMsb k v).drop n = bitsMsb (k - n) v := by
  apply List.ext_getElem (by simp)
  intro i h1 h2
  simp only [bitsMsb_length] at h2
  rw [List.getElem_drop, bitsMsb_getElem, bitsMsb_getElem]
  congr 1
  omega

theorem bitsMsb_succ (k v : Nat) : bitsMsb (k + 1) v = v.testBit k :: bitsMsb k v := by
  apply List.ext_getElem (by simp)
  intro i h1 h2
  rw [bitsMsb_getElem]
  cases i with
  | zero => simp
  | succ i => simp [bitsMsb_getElem]; congr 1; omega

@[simp] theorem numOf_nil : numOf [] = 0 := rfl

theorem numOf_foldl (l : List Bool) (v : Nat) :
    l.foldl (fun v b => v * 2 + b.toNat) v = v * 2 ^ l.length + numOf l := by
  induction l generalizing v with
  | nil => simp
  | cons b l ih =>
    simp only [numOf, List.foldl_cons, List.length_cons]
    rw [ih, ih (0 * 2 + b.toNat)]
    ring

theorem numOf_cons (b : Bool) (l : List Bool) : numOf (b :: l) = b.toNat * 2 ^ l.length + numOf l := by
  have := numOf_foldl l b.toNat
  simpa [numOf] using this

theorem numOf_append (l m : List Bool) : numOf (l ++ m) = numOf l * 2 ^ m.length + numOf m := by
  simp only [numOf, List.foldl_append]
  exact numOf_foldl m _

theorem numOf_lt (l : List Bool) : numOf l < 2 ^ l.length := by
  induction l with
  | nil => simp
  | cons b l ih =>
    rw [numOf_cons, List.length_cons, pow_succ]
    cases b <;> simp <;> omega

theorem numOf_bitsMsb (k v : Nat) : numOf (bitsMsb k v) = v % 2 ^ k := by
  induction k with
  | zero => simp [Nat.mod_one]
  | succ k ih =>
    rw [bitsMsb_succ, numOf_cons, ih, bitsMsb_length, Nat.mod_pow_succ]
    have : (v.testBit k).toNat = v / 2 ^ k % 2 := by
      rw [Nat.testBit_eq_decide_div_mod_eq]
      rcases Nat.mod_two_eq_zero_or_one (v / 2 ^ k) with h | h <;> simp [h]
    rw [this]
    ring

theorem numOf_replicate_false (n : Nat) : numOf (List.replicate n false) = 0 := by
  induction n with
  | zero => rfl
  | succ n ih => rw [List.replicate_succ, numOf_cons, ih]; simp

/-- The bits of the number a bit string stands for are that string. -/
theorem bitsMsb_numOf (l : List Bool) : bitsMsb l.length (numOf l) = l := by
  induction l with
  | nil => rfl
  | cons b m ih =>
    rw [List.length_cons, bitsMsb_succ, numOf_cons]
    have hlt := numOf_lt m
    congr 1
    · rw [Nat.mul_comm, Nat.testBit_two_pow_mul_add _ hlt]
      cases b <;> simp
    · rw [← bitsMsb_mod, Nat.mul_comm, Nat.mul_add_mod, bitsMsb_mod, ih]

end Sys2Proof.Machine
end

