-- ==== Sys2Proof/Laws/State.lean ====
section
/-! SUPPORT. One lemma per field per register update, so that no proof unfolds a record update. -/

namespace Sys2Proof.Machine

variable (s : State)

/-! ## setRes -/

@[simp] theorem State.setRes_cmd (v : Word) : (s.setRes v).cmd = s.cmd := rfl
@[simp] theorem State.setRes_arg0 (v : Word) : (s.setRes v).arg0 = s.arg0 := rfl
@[simp] theorem State.setRes_arg1 (v : Word) : (s.setRes v).arg1 = s.arg1 := rfl
@[simp] theorem State.setRes_arg2 (v : Word) : (s.setRes v).arg2 = s.arg2 := rfl
@[simp] theorem State.setRes_arg3 (v : Word) : (s.setRes v).arg3 = s.arg3 := rfl
@[simp] theorem State.setRes_res (v : Word) : (s.setRes v).res = v := rfl
@[simp] theorem State.setRes_flags (v : Word) : (s.setRes v).flags = s.flags := rfl
@[simp] theorem State.setRes_faultRec (v : Word) : (s.setRes v).faultRec = s.faultRec := rfl
@[simp] theorem State.setRes_mq (v : Word) : (s.setRes v).mq = s.mq := rfl
@[simp] theorem State.setRes_br (v : Word) : (s.setRes v).br = s.br := rfl
@[simp] theorem State.setRes_huf (v : Word) : (s.setRes v).huf = s.huf := rfl
@[simp] theorem State.setRes_ht (v : Word) : (s.setRes v).ht = s.ht := rfl
@[simp] theorem State.setRes_cc (v : Word) : (s.setRes v).cc = s.cc := rfl
@[simp] theorem State.setRes_stream (v : Word) : (s.setRes v).stream = s.stream := rfl
@[simp] theorem State.setRes_cx (v : Word) : (s.setRes v).cx = s.cx := rfl
@[simp] theorem State.setRes_tbl (v : Word) : (s.setRes v).tbl = s.tbl := rfl
@[simp] theorem State.setRes_qt (v : Word) : (s.setRes v).qt = s.qt := rfl
@[simp] theorem State.setRes_coef (v : Word) : (s.setRes v).coef = s.coef := rfl
@[simp] theorem State.setRes_plane (v : Word) : (s.setRes v).plane = s.plane := rfl
@[simp] theorem State.setRes_cline (v : Word) : (s.setRes v).cline = s.cline := rfl
@[simp] theorem State.setRes_rline (v : Word) : (s.setRes v).rline = s.rline := rfl
@[simp] theorem State.setRes_params (v : Word) : (s.setRes v).params = s.params := rfl
@[simp] theorem State.setRes_pending (v : Word) : (s.setRes v).pending = s.pending := rfl
@[simp] theorem State.setRes_portData (v : Word) : (s.setRes v).portData = s.portData := rfl
@[simp] theorem State.setRes_freeCtr (v : Word) : (s.setRes v).freeCtr = s.freeCtr := rfl
@[simp] theorem State.setRes_mem (v : Word) (sp : Space) : (s.setRes v).mem sp = s.mem sp := by cases sp <;> rfl
@[simp] theorem State.setRes_elem (v : Word) (sp : Space) (a : Nat) : (s.setRes v).elem sp a = s.elem sp a := by
  simp [State.elem]
@[simp] theorem State.setRes_sizeOf (v : Word) (sp : Space) : (s.setRes v).sizeOf sp = s.sizeOf sp := rfl
@[simp] theorem State.setRes_setRes (v w : Word) : (s.setRes v).setRes w = s.setRes w := rfl
@[simp] theorem State.setRes_self : s.setRes s.res = s := rfl

/-! ## setFlags -/

@[simp] theorem State.setFlags_cmd (v : Flags) : (s.setFlags v).cmd = s.cmd := rfl
@[simp] theorem State.setFlags_arg0 (v : Flags) : (s.setFlags v).arg0 = s.arg0 := rfl
@[simp] theorem State.setFlags_arg1 (v : Flags) : (s.setFlags v).arg1 = s.arg1 := rfl
@[simp] theorem State.setFlags_arg2 (v : Flags) : (s.setFlags v).arg2 = s.arg2 := rfl
@[simp] theorem State.setFlags_arg3 (v : Flags) : (s.setFlags v).arg3 = s.arg3 := rfl
@[simp] theorem State.setFlags_res (v : Flags) : (s.setFlags v).res = s.res := rfl
@[simp] theorem State.setFlags_flags (v : Flags) : (s.setFlags v).flags = v := rfl
@[simp] theorem State.setFlags_faultRec (v : Flags) : (s.setFlags v).faultRec = s.faultRec := rfl
@[simp] theorem State.setFlags_mq (v : Flags) : (s.setFlags v).mq = s.mq := rfl
@[simp] theorem State.setFlags_br (v : Flags) : (s.setFlags v).br = s.br := rfl
@[simp] theorem State.setFlags_huf (v : Flags) : (s.setFlags v).huf = s.huf := rfl
@[simp] theorem State.setFlags_ht (v : Flags) : (s.setFlags v).ht = s.ht := rfl
@[simp] theorem State.setFlags_cc (v : Flags) : (s.setFlags v).cc = s.cc := rfl
@[simp] theorem State.setFlags_stream (v : Flags) : (s.setFlags v).stream = s.stream := rfl
@[simp] theorem State.setFlags_cx (v : Flags) : (s.setFlags v).cx = s.cx := rfl
@[simp] theorem State.setFlags_tbl (v : Flags) : (s.setFlags v).tbl = s.tbl := rfl
@[simp] theorem State.setFlags_qt (v : Flags) : (s.setFlags v).qt = s.qt := rfl
@[simp] theorem State.setFlags_coef (v : Flags) : (s.setFlags v).coef = s.coef := rfl
@[simp] theorem State.setFlags_plane (v : Flags) : (s.setFlags v).plane = s.plane := rfl
@[simp] theorem State.setFlags_cline (v : Flags) : (s.setFlags v).cline = s.cline := rfl
@[simp] theorem State.setFlags_rline (v : Flags) : (s.setFlags v).rline = s.rline := rfl
@[simp] theorem State.setFlags_params (v : Flags) : (s.setFlags v).params = s.params := rfl
@[simp] theorem State.setFlags_pending (v : Flags) : (s.setFlags v).pending = s.pending := rfl
@[simp] theorem State.setFlags_portData (v : Flags) : (s.setFlags v).portData = s.portData := rfl
@[simp] theorem State.setFlags_freeCtr (v : Flags) : (s.setFlags v).freeCtr = s.freeCtr := rfl
@[simp] theorem State.setFlags_mem (v : Flags) (sp : Space) : (s.setFlags v).mem sp = s.mem sp := by cases sp <;> rfl
@[simp] theorem State.setFlags_elem (v : Flags) (sp : Space) (a : Nat) : (s.setFlags v).elem sp a = s.elem sp a := by
  simp [State.elem]
@[simp] theorem State.setFlags_sizeOf (v : Flags) (sp : Space) : (s.setFlags v).sizeOf sp = s.sizeOf sp := rfl
@[simp] theorem State.setFlags_setFlags (v w : Flags) : (s.setFlags v).setFlags w = s.setFlags w := rfl
@[simp] theorem State.setFlags_self : s.setFlags s.flags = s := rfl

/-! ## setMq -/

@[simp] theorem State.setMq_cmd (v : MqUnit) : (s.setMq v).cmd = s.cmd := rfl
@[simp] theorem State.setMq_arg0 (v : MqUnit) : (s.setMq v).arg0 = s.arg0 := rfl
@[simp] theorem State.setMq_arg1 (v : MqUnit) : (s.setMq v).arg1 = s.arg1 := rfl
@[simp] theorem State.setMq_arg2 (v : MqUnit) : (s.setMq v).arg2 = s.arg2 := rfl
@[simp] theorem State.setMq_arg3 (v : MqUnit) : (s.setMq v).arg3 = s.arg3 := rfl
@[simp] theorem State.setMq_res (v : MqUnit) : (s.setMq v).res = s.res := rfl
@[simp] theorem State.setMq_flags (v : MqUnit) : (s.setMq v).flags = s.flags := rfl
@[simp] theorem State.setMq_faultRec (v : MqUnit) : (s.setMq v).faultRec = s.faultRec := rfl
@[simp] theorem State.setMq_mq (v : MqUnit) : (s.setMq v).mq = v := rfl
@[simp] theorem State.setMq_br (v : MqUnit) : (s.setMq v).br = s.br := rfl
@[simp] theorem State.setMq_huf (v : MqUnit) : (s.setMq v).huf = s.huf := rfl
@[simp] theorem State.setMq_ht (v : MqUnit) : (s.setMq v).ht = s.ht := rfl
@[simp] theorem State.setMq_cc (v : MqUnit) : (s.setMq v).cc = s.cc := rfl
@[simp] theorem State.setMq_stream (v : MqUnit) : (s.setMq v).stream = s.stream := rfl
@[simp] theorem State.setMq_cx (v : MqUnit) : (s.setMq v).cx = s.cx := rfl
@[simp] theorem State.setMq_tbl (v : MqUnit) : (s.setMq v).tbl = s.tbl := rfl
@[simp] theorem State.setMq_qt (v : MqUnit) : (s.setMq v).qt = s.qt := rfl
@[simp] theorem State.setMq_coef (v : MqUnit) : (s.setMq v).coef = s.coef := rfl
@[simp] theorem State.setMq_plane (v : MqUnit) : (s.setMq v).plane = s.plane := rfl
@[simp] theorem State.setMq_cline (v : MqUnit) : (s.setMq v).cline = s.cline := rfl
@[simp] theorem State.setMq_rline (v : MqUnit) : (s.setMq v).rline = s.rline := rfl
@[simp] theorem State.setMq_params (v : MqUnit) : (s.setMq v).params = s.params := rfl
@[simp] theorem State.setMq_pending (v : MqUnit) : (s.setMq v).pending = s.pending := rfl
@[simp] theorem State.setMq_portData (v : MqUnit) : (s.setMq v).portData = s.portData := rfl
@[simp] theorem State.setMq_freeCtr (v : MqUnit) : (s.setMq v).freeCtr = s.freeCtr := rfl
@[simp] theorem State.setMq_mem (v : MqUnit) (sp : Space) : (s.setMq v).mem sp = s.mem sp := by cases sp <;> rfl
@[simp] theorem State.setMq_elem (v : MqUnit) (sp : Space) (a : Nat) : (s.setMq v).elem sp a = s.elem sp a := by
  simp [State.elem]
@[simp] theorem State.setMq_sizeOf (v : MqUnit) (sp : Space) : (s.setMq v).sizeOf sp = s.sizeOf sp := rfl
@[simp] theorem State.setMq_setMq (v w : MqUnit) : (s.setMq v).setMq w = s.setMq w := rfl
@[simp] theorem State.setMq_self : s.setMq s.mq = s := rfl

/-! ## setBr -/

@[simp] theorem State.setBr_cmd (v : BrUnit) : (s.setBr v).cmd = s.cmd := rfl
@[simp] theorem State.setBr_arg0 (v : BrUnit) : (s.setBr v).arg0 = s.arg0 := rfl
@[simp] theorem State.setBr_arg1 (v : BrUnit) : (s.setBr v).arg1 = s.arg1 := rfl
@[simp] theorem State.setBr_arg2 (v : BrUnit) : (s.setBr v).arg2 = s.arg2 := rfl
@[simp] theorem State.setBr_arg3 (v : BrUnit) : (s.setBr v).arg3 = s.arg3 := rfl
@[simp] theorem State.setBr_res (v : BrUnit) : (s.setBr v).res = s.res := rfl
@[simp] theorem State.setBr_flags (v : BrUnit) : (s.setBr v).flags = s.flags := rfl
@[simp] theorem State.setBr_faultRec (v : BrUnit) : (s.setBr v).faultRec = s.faultRec := rfl
@[simp] theorem State.setBr_mq (v : BrUnit) : (s.setBr v).mq = s.mq := rfl
@[simp] theorem State.setBr_br (v : BrUnit) : (s.setBr v).br = v := rfl
@[simp] theorem State.setBr_huf (v : BrUnit) : (s.setBr v).huf = s.huf := rfl
@[simp] theorem State.setBr_ht (v : BrUnit) : (s.setBr v).ht = s.ht := rfl
@[simp] theorem State.setBr_cc (v : BrUnit) : (s.setBr v).cc = s.cc := rfl
@[simp] theorem State.setBr_stream (v : BrUnit) : (s.setBr v).stream = s.stream := rfl
@[simp] theorem State.setBr_cx (v : BrUnit) : (s.setBr v).cx = s.cx := rfl
@[simp] theorem State.setBr_tbl (v : BrUnit) : (s.setBr v).tbl = s.tbl := rfl
@[simp] theorem State.setBr_qt (v : BrUnit) : (s.setBr v).qt = s.qt := rfl
@[simp] theorem State.setBr_coef (v : BrUnit) : (s.setBr v).coef = s.coef := rfl
@[simp] theorem State.setBr_plane (v : BrUnit) : (s.setBr v).plane = s.plane := rfl
@[simp] theorem State.setBr_cline (v : BrUnit) : (s.setBr v).cline = s.cline := rfl
@[simp] theorem State.setBr_rline (v : BrUnit) : (s.setBr v).rline = s.rline := rfl
@[simp] theorem State.setBr_params (v : BrUnit) : (s.setBr v).params = s.params := rfl
@[simp] theorem State.setBr_pending (v : BrUnit) : (s.setBr v).pending = s.pending := rfl
@[simp] theorem State.setBr_portData (v : BrUnit) : (s.setBr v).portData = s.portData := rfl
@[simp] theorem State.setBr_freeCtr (v : BrUnit) : (s.setBr v).freeCtr = s.freeCtr := rfl
@[simp] theorem State.setBr_mem (v : BrUnit) (sp : Space) : (s.setBr v).mem sp = s.mem sp := by cases sp <;> rfl
@[simp] theorem State.setBr_elem (v : BrUnit) (sp : Space) (a : Nat) : (s.setBr v).elem sp a = s.elem sp a := by
  simp [State.elem]
@[simp] theorem State.setBr_sizeOf (v : BrUnit) (sp : Space) : (s.setBr v).sizeOf sp = s.sizeOf sp := rfl
@[simp] theorem State.setBr_setBr (v w : BrUnit) : (s.setBr v).setBr w = s.setBr w := rfl
@[simp] theorem State.setBr_self : s.setBr s.br = s := rfl

/-! ## setHuf -/

@[simp] theorem State.setHuf_cmd (v : HufUnit) : (s.setHuf v).cmd = s.cmd := rfl
@[simp] theorem State.setHuf_arg0 (v : HufUnit) : (s.setHuf v).arg0 = s.arg0 := rfl
@[simp] theorem State.setHuf_arg1 (v : HufUnit) : (s.setHuf v).arg1 = s.arg1 := rfl
@[simp] theorem State.setHuf_arg2 (v : HufUnit) : (s.setHuf v).arg2 = s.arg2 := rfl
@[simp] theorem State.setHuf_arg3 (v : HufUnit) : (s.setHuf v).arg3 = s.arg3 := rfl
@[simp] theorem State.setHuf_res (v : HufUnit) : (s.setHuf v).res = s.res := rfl
@[simp] theorem State.setHuf_flags (v : HufUnit) : (s.setHuf v).flags = s.flags := rfl
@[simp] theorem State.setHuf_faultRec (v : HufUnit) : (s.setHuf v).faultRec = s.faultRec := rfl
@[simp] theorem State.setHuf_mq (v : HufUnit) : (s.setHuf v).mq = s.mq := rfl
@[simp] theorem State.setHuf_br (v : HufUnit) : (s.setHuf v).br = s.br := rfl
@[simp] theorem State.setHuf_huf (v : HufUnit) : (s.setHuf v).huf = v := rfl
@[simp] theorem State.setHuf_ht (v : HufUnit) : (s.setHuf v).ht = s.ht := rfl
@[simp] theorem State.setHuf_cc (v : HufUnit) : (s.setHuf v).cc = s.cc := rfl
@[simp] theorem State.setHuf_stream (v : HufUnit) : (s.setHuf v).stream = s.stream := rfl
@[simp] theorem State.setHuf_cx (v : HufUnit) : (s.setHuf v).cx = s.cx := rfl
@[simp] theorem State.setHuf_tbl (v : HufUnit) : (s.setHuf v).tbl = s.tbl := rfl
@[simp] theorem State.setHuf_qt (v : HufUnit) : (s.setHuf v).qt = s.qt := rfl
@[simp] theorem State.setHuf_coef (v : HufUnit) : (s.setHuf v).coef = s.coef := rfl
@[simp] theorem State.setHuf_plane (v : HufUnit) : (s.setHuf v).plane = s.plane := rfl
@[simp] theorem State.setHuf_cline (v : HufUnit) : (s.setHuf v).cline = s.cline := rfl
@[simp] theorem State.setHuf_rline (v : HufUnit) : (s.setHuf v).rline = s.rline := rfl
@[simp] theorem State.setHuf_params (v : HufUnit) : (s.setHuf v).params = s.params := rfl
@[simp] theorem State.setHuf_pending (v : HufUnit) : (s.setHuf v).pending = s.pending := rfl
@[simp] theorem State.setHuf_portData (v : HufUnit) : (s.setHuf v).portData = s.portData := rfl
@[simp] theorem State.setHuf_freeCtr (v : HufUnit) : (s.setHuf v).freeCtr = s.freeCtr := rfl
@[simp] theorem State.setHuf_mem (v : HufUnit) (sp : Space) : (s.setHuf v).mem sp = s.mem sp := by cases sp <;> rfl
@[simp] theorem State.setHuf_elem (v : HufUnit) (sp : Space) (a : Nat) : (s.setHuf v).elem sp a = s.elem sp a := by
  simp [State.elem]
@[simp] theorem State.setHuf_sizeOf (v : HufUnit) (sp : Space) : (s.setHuf v).sizeOf sp = s.sizeOf sp := rfl
@[simp] theorem State.setHuf_setHuf (v w : HufUnit) : (s.setHuf v).setHuf w = s.setHuf w := rfl
@[simp] theorem State.setHuf_self : s.setHuf s.huf = s := rfl

/-! ## setHt -/

@[simp] theorem State.setHt_cmd (v : Vector (Option HufTable) 8) : (s.setHt v).cmd = s.cmd := rfl
@[simp] theorem State.setHt_arg0 (v : Vector (Option HufTable) 8) : (s.setHt v).arg0 = s.arg0 := rfl
@[simp] theorem State.setHt_arg1 (v : Vector (Option HufTable) 8) : (s.setHt v).arg1 = s.arg1 := rfl
@[simp] theorem State.setHt_arg2 (v : Vector (Option HufTable) 8) : (s.setHt v).arg2 = s.arg2 := rfl
@[simp] theorem State.setHt_arg3 (v : Vector (Option HufTable) 8) : (s.setHt v).arg3 = s.arg3 := rfl
@[simp] theorem State.setHt_res (v : Vector (Option HufTable) 8) : (s.setHt v).res = s.res := rfl
@[simp] theorem State.setHt_flags (v : Vector (Option HufTable) 8) : (s.setHt v).flags = s.flags := rfl
@[simp] theorem State.setHt_faultRec (v : Vector (Option HufTable) 8) : (s.setHt v).faultRec = s.faultRec := rfl
@[simp] theorem State.setHt_mq (v : Vector (Option HufTable) 8) : (s.setHt v).mq = s.mq := rfl
@[simp] theorem State.setHt_br (v : Vector (Option HufTable) 8) : (s.setHt v).br = s.br := rfl
@[simp] theorem State.setHt_huf (v : Vector (Option HufTable) 8) : (s.setHt v).huf = s.huf := rfl
@[simp] theorem State.setHt_ht (v : Vector (Option HufTable) 8) : (s.setHt v).ht = v := rfl
@[simp] theorem State.setHt_cc (v : Vector (Option HufTable) 8) : (s.setHt v).cc = s.cc := rfl
@[simp] theorem State.setHt_stream (v : Vector (Option HufTable) 8) : (s.setHt v).stream = s.stream := rfl
@[simp] theorem State.setHt_cx (v : Vector (Option HufTable) 8) : (s.setHt v).cx = s.cx := rfl
@[simp] theorem State.setHt_tbl (v : Vector (Option HufTable) 8) : (s.setHt v).tbl = s.tbl := rfl
@[simp] theorem State.setHt_qt (v : Vector (Option HufTable) 8) : (s.setHt v).qt = s.qt := rfl
@[simp] theorem State.setHt_coef (v : Vector (Option HufTable) 8) : (s.setHt v).coef = s.coef := rfl
@[simp] theorem State.setHt_plane (v : Vector (Option HufTable) 8) : (s.setHt v).plane = s.plane := rfl
@[simp] theorem State.setHt_cline (v : Vector (Option HufTable) 8) : (s.setHt v).cline = s.cline := rfl
@[simp] theorem State.setHt_rline (v : Vector (Option HufTable) 8) : (s.setHt v).rline = s.rline := rfl
@[simp] theorem State.setHt_params (v : Vector (Option HufTable) 8) : (s.setHt v).params = s.params := rfl
@[simp] theorem State.setHt_pending (v : Vector (Option HufTable) 8) : (s.setHt v).pending = s.pending := rfl
@[simp] theorem State.setHt_portData (v : Vector (Option HufTable) 8) : (s.setHt v).portData = s.portData := rfl
@[simp] theorem State.setHt_freeCtr (v : Vector (Option HufTable) 8) : (s.setHt v).freeCtr = s.freeCtr := rfl
@[simp] theorem State.setHt_mem (v : Vector (Option HufTable) 8) (sp : Space) : (s.setHt v).mem sp = s.mem sp := by cases sp <;> rfl
@[simp] theorem State.setHt_elem (v : Vector (Option HufTable) 8) (sp : Space) (a : Nat) : (s.setHt v).elem sp a = s.elem sp a := by
  simp [State.elem]
@[simp] theorem State.setHt_sizeOf (v : Vector (Option HufTable) 8) (sp : Space) : (s.setHt v).sizeOf sp = s.sizeOf sp := rfl
@[simp] theorem State.setHt_setHt (v w : Vector (Option HufTable) 8) : (s.setHt v).setHt w = s.setHt w := rfl
@[simp] theorem State.setHt_self : s.setHt s.ht = s := rfl

/-! ## setCc -/

@[simp] theorem State.setCc_cmd (v : CcUnit) : (s.setCc v).cmd = s.cmd := rfl
@[simp] theorem State.setCc_arg0 (v : CcUnit) : (s.setCc v).arg0 = s.arg0 := rfl
@[simp] theorem State.setCc_arg1 (v : CcUnit) : (s.setCc v).arg1 = s.arg1 := rfl
@[simp] theorem State.setCc_arg2 (v : CcUnit) : (s.setCc v).arg2 = s.arg2 := rfl
@[simp] theorem State.setCc_arg3 (v : CcUnit) : (s.setCc v).arg3 = s.arg3 := rfl
@[simp] theorem State.setCc_res (v : CcUnit) : (s.setCc v).res = s.res := rfl
@[simp] theorem State.setCc_flags (v : CcUnit) : (s.setCc v).flags = s.flags := rfl
@[simp] theorem State.setCc_faultRec (v : CcUnit) : (s.setCc v).faultRec = s.faultRec := rfl
@[simp] theorem State.setCc_mq (v : CcUnit) : (s.setCc v).mq = s.mq := rfl
@[simp] theorem State.setCc_br (v : CcUnit) : (s.setCc v).br = s.br := rfl
@[simp] theorem State.setCc_huf (v : CcUnit) : (s.setCc v).huf = s.huf := rfl
@[simp] theorem State.setCc_ht (v : CcUnit) : (s.setCc v).ht = s.ht := rfl
@[simp] theorem State.setCc_cc (v : CcUnit) : (s.setCc v).cc = v := rfl
@[simp] theorem State.setCc_stream (v : CcUnit) : (s.setCc v).stream = s.stream := rfl
@[simp] theorem State.setCc_cx (v : CcUnit) : (s.setCc v).cx = s.cx := rfl
@[simp] theorem State.setCc_tbl (v : CcUnit) : (s.setCc v).tbl = s.tbl := rfl
@[simp] theorem State.setCc_qt (v : CcUnit) : (s.setCc v).qt = s.qt := rfl
@[simp] theorem State.setCc_coef (v : CcUnit) : (s.setCc v).coef = s.coef := rfl
@[simp] theorem State.setCc_plane (v : CcUnit) : (s.setCc v).plane = s.plane := rfl
@[simp] theorem State.setCc_cline (v : CcUnit) : (s.setCc v).cline = s.cline := rfl
@[simp] theorem State.setCc_rline (v : CcUnit) : (s.setCc v).rline = s.rline := rfl
@[simp] theorem State.setCc_params (v : CcUnit) : (s.setCc v).params = s.params := rfl
@[simp] theorem State.setCc_pending (v : CcUnit) : (s.setCc v).pending = s.pending := rfl
@[simp] theorem State.setCc_portData (v : CcUnit) : (s.setCc v).portData = s.portData := rfl
@[simp] theorem State.setCc_freeCtr (v : CcUnit) : (s.setCc v).freeCtr = s.freeCtr := rfl
@[simp] theorem State.setCc_mem (v : CcUnit) (sp : Space) : (s.setCc v).mem sp = s.mem sp := by cases sp <;> rfl
@[simp] theorem State.setCc_elem (v : CcUnit) (sp : Space) (a : Nat) : (s.setCc v).elem sp a = s.elem sp a := by
  simp [State.elem]
@[simp] theorem State.setCc_sizeOf (v : CcUnit) (sp : Space) : (s.setCc v).sizeOf sp = s.sizeOf sp := rfl
@[simp] theorem State.setCc_setCc (v w : CcUnit) : (s.setCc v).setCc w = s.setCc w := rfl
@[simp] theorem State.setCc_self : s.setCc s.cc = s := rfl

/-! ## setFreeCtr -/

@[simp] theorem State.setFreeCtr_cmd (v : Nat) : (s.setFreeCtr v).cmd = s.cmd := rfl
@[simp] theorem State.setFreeCtr_arg0 (v : Nat) : (s.setFreeCtr v).arg0 = s.arg0 := rfl
@[simp] theorem State.setFreeCtr_arg1 (v : Nat) : (s.setFreeCtr v).arg1 = s.arg1 := rfl
@[simp] theorem State.setFreeCtr_arg2 (v : Nat) : (s.setFreeCtr v).arg2 = s.arg2 := rfl
@[simp] theorem State.setFreeCtr_arg3 (v : Nat) : (s.setFreeCtr v).arg3 = s.arg3 := rfl
@[simp] theorem State.setFreeCtr_res (v : Nat) : (s.setFreeCtr v).res = s.res := rfl
@[simp] theorem State.setFreeCtr_flags (v : Nat) : (s.setFreeCtr v).flags = s.flags := rfl
@[simp] theorem State.setFreeCtr_faultRec (v : Nat) : (s.setFreeCtr v).faultRec = s.faultRec := rfl
@[simp] theorem State.setFreeCtr_mq (v : Nat) : (s.setFreeCtr v).mq = s.mq := rfl
@[simp] theorem State.setFreeCtr_br (v : Nat) : (s.setFreeCtr v).br = s.br := rfl
@[simp] theorem State.setFreeCtr_huf (v : Nat) : (s.setFreeCtr v).huf = s.huf := rfl
@[simp] theorem State.setFreeCtr_ht (v : Nat) : (s.setFreeCtr v).ht = s.ht := rfl
@[simp] theorem State.setFreeCtr_cc (v : Nat) : (s.setFreeCtr v).cc = s.cc := rfl
@[simp] theorem State.setFreeCtr_stream (v : Nat) : (s.setFreeCtr v).stream = s.stream := rfl
@[simp] theorem State.setFreeCtr_cx (v : Nat) : (s.setFreeCtr v).cx = s.cx := rfl
@[simp] theorem State.setFreeCtr_tbl (v : Nat) : (s.setFreeCtr v).tbl = s.tbl := rfl
@[simp] theorem State.setFreeCtr_qt (v : Nat) : (s.setFreeCtr v).qt = s.qt := rfl
@[simp] theorem State.setFreeCtr_coef (v : Nat) : (s.setFreeCtr v).coef = s.coef := rfl
@[simp] theorem State.setFreeCtr_plane (v : Nat) : (s.setFreeCtr v).plane = s.plane := rfl
@[simp] theorem State.setFreeCtr_cline (v : Nat) : (s.setFreeCtr v).cline = s.cline := rfl
@[simp] theorem State.setFreeCtr_rline (v : Nat) : (s.setFreeCtr v).rline = s.rline := rfl
@[simp] theorem State.setFreeCtr_params (v : Nat) : (s.setFreeCtr v).params = s.params := rfl
@[simp] theorem State.setFreeCtr_pending (v : Nat) : (s.setFreeCtr v).pending = s.pending := rfl
@[simp] theorem State.setFreeCtr_portData (v : Nat) : (s.setFreeCtr v).portData = s.portData := rfl
@[simp] theorem State.setFreeCtr_freeCtr (v : Nat) : (s.setFreeCtr v).freeCtr = v := rfl
@[simp] theorem State.setFreeCtr_mem (v : Nat) (sp : Space) : (s.setFreeCtr v).mem sp = s.mem sp := by cases sp <;> rfl
@[simp] theorem State.setFreeCtr_elem (v : Nat) (sp : Space) (a : Nat) : (s.setFreeCtr v).elem sp a = s.elem sp a := by
  simp [State.elem]
@[simp] theorem State.setFreeCtr_sizeOf (v : Nat) (sp : Space) : (s.setFreeCtr v).sizeOf sp = s.sizeOf sp := rfl
@[simp] theorem State.setFreeCtr_setFreeCtr (v w : Nat) : (s.setFreeCtr v).setFreeCtr w = s.setFreeCtr w := rfl
@[simp] theorem State.setFreeCtr_self : s.setFreeCtr s.freeCtr = s := rfl

/-! ## setMem -/

@[simp] theorem State.setMem_cmd (sp : Space) (m : Memory sp.width) : (s.setMem sp m).cmd = s.cmd := by cases sp <;> rfl
@[simp] theorem State.setMem_arg0 (sp : Space) (m : Memory sp.width) : (s.setMem sp m).arg0 = s.arg0 := by cases sp <;> rfl
@[simp] theorem State.setMem_arg1 (sp : Space) (m : Memory sp.width) : (s.setMem sp m).arg1 = s.arg1 := by cases sp <;> rfl
@[simp] theorem State.setMem_arg2 (sp : Space) (m : Memory sp.width) : (s.setMem sp m).arg2 = s.arg2 := by cases sp <;> rfl
@[simp] theorem State.setMem_arg3 (sp : Space) (m : Memory sp.width) : (s.setMem sp m).arg3 = s.arg3 := by cases sp <;> rfl
@[simp] theorem State.setMem_res (sp : Space) (m : Memory sp.width) : (s.setMem sp m).res = s.res := by cases sp <;> rfl
@[simp] theorem State.setMem_flags (sp : Space) (m : Memory sp.width) : (s.setMem sp m).flags = s.flags := by cases sp <;> rfl
@[simp] theorem State.setMem_faultRec (sp : Space) (m : Memory sp.width) : (s.setMem sp m).faultRec = s.faultRec := by cases sp <;> rfl
@[simp] theorem State.setMem_mq (sp : Space) (m : Memory sp.width) : (s.setMem sp m).mq = s.mq := by cases sp <;> rfl
@[simp] theorem State.setMem_br (sp : Space) (m : Memory sp.width) : (s.setMem sp m).br = s.br := by cases sp <;> rfl
@[simp] theorem State.setMem_huf (sp : Space) (m : Memory sp.width) : (s.setMem sp m).huf = s.huf := by cases sp <;> rfl
@[simp] theorem State.setMem_ht (sp : Space) (m : Memory sp.width) : (s.setMem sp m).ht = s.ht := by cases sp <;> rfl
@[simp] theorem State.setMem_cc (sp : Space) (m : Memory sp.width) : (s.setMem sp m).cc = s.cc := by cases sp <;> rfl
@[simp] theorem State.setMem_params (sp : Space) (m : Memory sp.width) : (s.setMem sp m).params = s.params := by cases sp <;> rfl
@[simp] theorem State.setMem_pending (sp : Space) (m : Memory sp.width) : (s.setMem sp m).pending = s.pending := by cases sp <;> rfl
@[simp] theorem State.setMem_portData (sp : Space) (m : Memory sp.width) : (s.setMem sp m).portData = s.portData := by cases sp <;> rfl
@[simp] theorem State.setMem_freeCtr (sp : Space) (m : Memory sp.width) : (s.setMem sp m).freeCtr = s.freeCtr := by cases sp <;> rfl
@[simp] theorem State.setMem_sizeOf (sp sp' : Space) (m : Memory sp.width) : (s.setMem sp m).sizeOf sp' = s.sizeOf sp' := by
  simp [State.sizeOf]
@[simp] theorem State.setMem_mem_same (sp : Space) (m : Memory sp.width) : (s.setMem sp m).mem sp = m := by cases sp <;> rfl
theorem State.setMem_mem_other {sp sp' : Space} (m : Memory sp.width) (h : sp' ≠ sp) :
    (s.setMem sp m).mem sp' = s.mem sp' := by
  cases sp <;> cases sp' <;> first | rfl | exact absurd rfl h
@[simp] theorem State.setMem_setMem (sp : Space) (m n : Memory sp.width) : (s.setMem sp m).setMem sp n = s.setMem sp n := by
  cases sp <;> rfl
@[simp] theorem State.setMem_self (sp : Space) : s.setMem sp (s.mem sp) = s := by cases sp <;> rfl
@[simp] theorem State.setMem_stream_stream (m : Memory (Space.width .stream)) : (s.setMem .stream m).stream = m := rfl
@[simp] theorem State.setMem_stream_cx (m : Memory (Space.width .stream)) : (s.setMem .stream m).cx = s.cx := rfl
@[simp] theorem State.setMem_stream_tbl (m : Memory (Space.width .stream)) : (s.setMem .stream m).tbl = s.tbl := rfl
@[simp] theorem State.setMem_stream_qt (m : Memory (Space.width .stream)) : (s.setMem .stream m).qt = s.qt := rfl
@[simp] theorem State.setMem_stream_coef (m : Memory (Space.width .stream)) : (s.setMem .stream m).coef = s.coef := rfl
@[simp] theorem State.setMem_stream_plane (m : Memory (Space.width .stream)) : (s.setMem .stream m).plane = s.plane := rfl
@[simp] theorem State.setMem_stream_cline (m : Memory (Space.width .stream)) : (s.setMem .stream m).cline = s.cline := rfl
@[simp] theorem State.setMem_stream_rline (m : Memory (Space.width .stream)) : (s.setMem .stream m).rline = s.rline := rfl
@[simp] theorem State.setMem_cx_stream (m : Memory (Space.width .cx)) : (s.setMem .cx m).stream = s.stream := rfl
@[simp] theorem State.setMem_cx_cx (m : Memory (Space.width .cx)) : (s.setMem .cx m).cx = m := rfl
@[simp] theorem State.setMem_cx_tbl (m : Memory (Space.width .cx)) : (s.setMem .cx m).tbl = s.tbl := rfl
@[simp] theorem State.setMem_cx_qt (m : Memory (Space.width .cx)) : (s.setMem .cx m).qt = s.qt := rfl
@[simp] theorem State.setMem_cx_coef (m : Memory (Space.width .cx)) : (s.setMem .cx m).coef = s.coef := rfl
@[simp] theorem State.setMem_cx_plane (m : Memory (Space.width .cx)) : (s.setMem .cx m).plane = s.plane := rfl
@[simp] theorem State.setMem_cx_cline (m : Memory (Space.width .cx)) : (s.setMem .cx m).cline = s.cline := rfl
@[simp] theorem State.setMem_cx_rline (m : Memory (Space.width .cx)) : (s.setMem .cx m).rline = s.rline := rfl
@[simp] theorem State.setMem_tbl_stream (m : Memory (Space.width .tbl)) : (s.setMem .tbl m).stream = s.stream := rfl
@[simp] theorem State.setMem_tbl_cx (m : Memory (Space.width .tbl)) : (s.setMem .tbl m).cx = s.cx := rfl
@[simp] theorem State.setMem_tbl_tbl (m : Memory (Space.width .tbl)) : (s.setMem .tbl m).tbl = m := rfl
@[simp] theorem State.setMem_tbl_qt (m : Memory (Space.width .tbl)) : (s.setMem .tbl m).qt = s.qt := rfl
@[simp] theorem State.setMem_tbl_coef (m : Memory (Space.width .tbl)) : (s.setMem .tbl m).coef = s.coef := rfl
@[simp] theorem State.setMem_tbl_plane (m : Memory (Space.width .tbl)) : (s.setMem .tbl m).plane = s.plane := rfl
@[simp] theorem State.setMem_tbl_cline (m : Memory (Space.width .tbl)) : (s.setMem .tbl m).cline = s.cline := rfl
@[simp] theorem State.setMem_tbl_rline (m : Memory (Space.width .tbl)) : (s.setMem .tbl m).rline = s.rline := rfl
@[simp] theorem State.setMem_qt_stream (m : Memory (Space.width .qt)) : (s.setMem .qt m).stream = s.stream := rfl
@[simp] theorem State.setMem_qt_cx (m : Memory (Space.width .qt)) : (s.setMem .qt m).cx = s.cx := rfl
@[simp] theorem State.setMem_qt_tbl (m : Memory (Space.width .qt)) : (s.setMem .qt m).tbl = s.tbl := rfl
@[simp] theorem State.setMem_qt_qt (m : Memory (Space.width .qt)) : (s.setMem .qt m).qt = m := rfl
@[simp] theorem State.setMem_qt_coef (m : Memory (Space.width .qt)) : (s.setMem .qt m).coef = s.coef := rfl
@[simp] theorem State.setMem_qt_plane (m : Memory (Space.width .qt)) : (s.setMem .qt m).plane = s.plane := rfl
@[simp] theorem State.setMem_qt_cline (m : Memory (Space.width .qt)) : (s.setMem .qt m).cline = s.cline := rfl
@[simp] theorem State.setMem_qt_rline (m : Memory (Space.width .qt)) : (s.setMem .qt m).rline = s.rline := rfl
@[simp] theorem State.setMem_coef_stream (m : Memory (Space.width .coef)) : (s.setMem .coef m).stream = s.stream := rfl
@[simp] theorem State.setMem_coef_cx (m : Memory (Space.width .coef)) : (s.setMem .coef m).cx = s.cx := rfl
@[simp] theorem State.setMem_coef_tbl (m : Memory (Space.width .coef)) : (s.setMem .coef m).tbl = s.tbl := rfl
@[simp] theorem State.setMem_coef_qt (m : Memory (Space.width .coef)) : (s.setMem .coef m).qt = s.qt := rfl
@[simp] theorem State.setMem_coef_coef (m : Memory (Space.width .coef)) : (s.setMem .coef m).coef = m := rfl
@[simp] theorem State.setMem_coef_plane (m : Memory (Space.width .coef)) : (s.setMem .coef m).plane = s.plane := rfl
@[simp] theorem State.setMem_coef_cline (m : Memory (Space.width .coef)) : (s.setMem .coef m).cline = s.cline := rfl
@[simp] theorem State.setMem_coef_rline (m : Memory (Space.width .coef)) : (s.setMem .coef m).rline = s.rline := rfl
@[simp] theorem State.setMem_plane_stream (m : Memory (Space.width .plane)) : (s.setMem .plane m).stream = s.stream := rfl
@[simp] theorem State.setMem_plane_cx (m : Memory (Space.width .plane)) : (s.setMem .plane m).cx = s.cx := rfl
@[simp] theorem State.setMem_plane_tbl (m : Memory (Space.width .plane)) : (s.setMem .plane m).tbl = s.tbl := rfl
@[simp] theorem State.setMem_plane_qt (m : Memory (Space.width .plane)) : (s.setMem .plane m).qt = s.qt := rfl
@[simp] theorem State.setMem_plane_coef (m : Memory (Space.width .plane)) : (s.setMem .plane m).coef = s.coef := rfl
@[simp] theorem State.setMem_plane_plane (m : Memory (Space.width .plane)) : (s.setMem .plane m).plane = m := rfl
@[simp] theorem State.setMem_plane_cline (m : Memory (Space.width .plane)) : (s.setMem .plane m).cline = s.cline := rfl
@[simp] theorem State.setMem_plane_rline (m : Memory (Space.width .plane)) : (s.setMem .plane m).rline = s.rline := rfl
@[simp] theorem State.setMem_cline_stream (m : Memory (Space.width .cline)) : (s.setMem .cline m).stream = s.stream := rfl
@[simp] theorem State.setMem_cline_cx (m : Memory (Space.width .cline)) : (s.setMem .cline m).cx = s.cx := rfl
@[simp] theorem State.setMem_cline_tbl (m : Memory (Space.width .cline)) : (s.setMem .cline m).tbl = s.tbl := rfl
@[simp] theorem State.setMem_cline_qt (m : Memory (Space.width .cline)) : (s.setMem .cline m).qt = s.qt := rfl
@[simp] theorem State.setMem_cline_coef (m : Memory (Space.width .cline)) : (s.setMem .cline m).coef = s.coef := rfl
@[simp] theorem State.setMem_cline_plane (m : Memory (Space.width .cline)) : (s.setMem .cline m).plane = s.plane := rfl
@[simp] theorem State.setMem_cline_cline (m : Memory (Space.width .cline)) : (s.setMem .cline m).cline = m := rfl
@[simp] theorem State.setMem_cline_rline (m : Memory (Space.width .cline)) : (s.setMem .cline m).rline = s.rline := rfl
@[simp] theorem State.setMem_rline_stream (m : Memory (Space.width .rline)) : (s.setMem .rline m).stream = s.stream := rfl
@[simp] theorem State.setMem_rline_cx (m : Memory (Space.width .rline)) : (s.setMem .rline m).cx = s.cx := rfl
@[simp] theorem State.setMem_rline_tbl (m : Memory (Space.width .rline)) : (s.setMem .rline m).tbl = s.tbl := rfl
@[simp] theorem State.setMem_rline_qt (m : Memory (Space.width .rline)) : (s.setMem .rline m).qt = s.qt := rfl
@[simp] theorem State.setMem_rline_coef (m : Memory (Space.width .rline)) : (s.setMem .rline m).coef = s.coef := rfl
@[simp] theorem State.setMem_rline_plane (m : Memory (Space.width .rline)) : (s.setMem .rline m).plane = s.plane := rfl
@[simp] theorem State.setMem_rline_cline (m : Memory (Space.width .rline)) : (s.setMem .rline m).cline = s.cline := rfl
@[simp] theorem State.setMem_rline_rline (m : Memory (Space.width .rline)) : (s.setMem .rline m).rline = m := rfl

/-! ## takeFault -/

variable (f : FaultName) (info : Nat)

@[simp] theorem takeFault_cmd : (takeFault f info s).cmd = s.cmd := rfl
@[simp] theorem takeFault_arg0 : (takeFault f info s).arg0 = s.arg0 := rfl
@[simp] theorem takeFault_arg1 : (takeFault f info s).arg1 = s.arg1 := rfl
@[simp] theorem takeFault_arg2 : (takeFault f info s).arg2 = s.arg2 := rfl
@[simp] theorem takeFault_arg3 : (takeFault f info s).arg3 = s.arg3 := rfl
@[simp] theorem takeFault_res : (takeFault f info s).res = s.res := rfl
@[simp] theorem takeFault_flags : (takeFault f info s).flags = { s.flags with fault := true } := rfl
@[simp] theorem takeFault_faultRec : (takeFault f info s).faultRec = { info := f.infoWord, arg := u32 info, cmd := s.cmd } := rfl
@[simp] theorem takeFault_mq : (takeFault f info s).mq = s.mq := rfl
@[simp] theorem takeFault_br : (takeFault f info s).br = s.br := rfl
@[simp] theorem takeFault_huf : (takeFault f info s).huf = s.huf := rfl
@[simp] theorem takeFault_ht : (takeFault f info s).ht = s.ht := rfl
@[simp] theorem takeFault_cc : (takeFault f info s).cc = s.cc := rfl
@[simp] theorem takeFault_stream : (takeFault f info s).stream = s.stream := rfl
@[simp] theorem takeFault_cx : (takeFault f info s).cx = s.cx := rfl
@[simp] theorem takeFault_tbl : (takeFault f info s).tbl = s.tbl := rfl
@[simp] theorem takeFault_qt : (takeFault f info s).qt = s.qt := rfl
@[simp] theorem takeFault_coef : (takeFault f info s).coef = s.coef := rfl
@[simp] theorem takeFault_plane : (takeFault f info s).plane = s.plane := rfl
@[simp] theorem takeFault_cline : (takeFault f info s).cline = s.cline := rfl
@[simp] theorem takeFault_rline : (takeFault f info s).rline = s.rline := rfl
@[simp] theorem takeFault_params : (takeFault f info s).params = s.params := rfl
@[simp] theorem takeFault_pending : (takeFault f info s).pending = s.pending := rfl
@[simp] theorem takeFault_portData : (takeFault f info s).portData = s.portData := rfl
@[simp] theorem takeFault_freeCtr : (takeFault f info s).freeCtr = s.freeCtr := rfl
@[simp] theorem takeFault_mem (sp : Space) : (takeFault f info s).mem sp = s.mem sp := by cases sp <;> rfl
@[simp] theorem takeFault_elem (sp : Space) (a : Nat) : (takeFault f info s).elem sp a = s.elem sp a := by simp [State.elem]
@[simp] theorem takeFault_sizeOf (sp : Space) : (takeFault f info s).sizeOf sp = s.sizeOf sp := rfl

/-! ## resetRegisters -/

@[simp] theorem resetRegisters_cmd : (resetRegisters s).cmd = s.cmd := rfl
@[simp] theorem resetRegisters_arg0 : (resetRegisters s).arg0 = 0 := rfl
@[simp] theorem resetRegisters_arg1 : (resetRegisters s).arg1 = 0 := rfl
@[simp] theorem resetRegisters_arg2 : (resetRegisters s).arg2 = 0 := rfl
@[simp] theorem resetRegisters_arg3 : (resetRegisters s).arg3 = 0 := rfl
@[simp] theorem resetRegisters_res : (resetRegisters s).res = 0 := rfl
@[simp] theorem resetRegisters_flags : (resetRegisters s).flags = .clear := rfl
@[simp] theorem resetRegisters_faultRec : (resetRegisters s).faultRec = .clear := rfl
@[simp] theorem resetRegisters_mq : (resetRegisters s).mq = .clear := rfl
@[simp] theorem resetRegisters_br : (resetRegisters s).br = .clear := rfl
@[simp] theorem resetRegisters_huf : (resetRegisters s).huf = .clear := rfl
@[simp] theorem resetRegisters_ht : (resetRegisters s).ht = #v[none, none, none, none, none, none, none, none] := rfl
@[simp] theorem resetRegisters_cc : (resetRegisters s).cc = .clear := rfl
@[simp] theorem resetRegisters_stream : (resetRegisters s).stream = s.stream := rfl
@[simp] theorem resetRegisters_cx : (resetRegisters s).cx = s.cx := rfl
@[simp] theorem resetRegisters_tbl : (resetRegisters s).tbl = s.tbl := rfl
@[simp] theorem resetRegisters_qt : (resetRegisters s).qt = s.qt := rfl
@[simp] theorem resetRegisters_coef : (resetRegisters s).coef = s.coef := rfl
@[simp] theorem resetRegisters_plane : (resetRegisters s).plane = s.plane := rfl
@[simp] theorem resetRegisters_cline : (resetRegisters s).cline = s.cline := rfl
@[simp] theorem resetRegisters_rline : (resetRegisters s).rline = s.rline := rfl
@[simp] theorem resetRegisters_params : (resetRegisters s).params = s.params := rfl
@[simp] theorem resetRegisters_pending : (resetRegisters s).pending = s.pending := rfl
@[simp] theorem resetRegisters_portData : (resetRegisters s).portData = s.portData := rfl
@[simp] theorem resetRegisters_freeCtr : (resetRegisters s).freeCtr = s.freeCtr := rfl
@[simp] theorem resetRegisters_mem (sp : Space) : (resetRegisters s).mem sp = s.mem sp := by cases sp <;> rfl
@[simp] theorem resetRegisters_elem (sp : Space) (a : Nat) : (resetRegisters s).elem sp a = s.elem sp a := by simp [State.elem]
@[simp] theorem resetRegisters_sizeOf (sp : Space) : (resetRegisters s).sizeOf sp = s.sizeOf sp := rfl

end Sys2Proof.Machine
end

