-- ==== Sys2Proof/Laws/Memory.lean ====
section
/-! SUPPORT. The laws of a memory space: a write is read back, leaves every other element alone, and keeps the canonical
form (20_memory.md R70, R76). -/

namespace Sys2Proof.Machine

section Cells

variable {w : Nat}

@[simp] theorem Memory.read?_nil (a : Nat) : Memory.read? ([] : Memory w) a = none := rfl

theorem Memory.read?_cons (b : Nat) (u : BitVec w) (m : Memory w) (a : Nat) :
    Memory.read? ((b, u) :: m) a = if a = b then some u else Memory.read? m a := rfl

theorem Memory.read?_write (m : Memory w) (a : Nat) (v : BitVec w) (b : Nat) :
    (Memory.write m a v).read? b = if b = a then some v else m.read? b := by
  induction m with
  | nil => simp [Memory.write, Memory.read?_cons]
  | cons x m ih =>
    obtain ⟨c, u⟩ := x
    unfold Memory.write
    split
    · simp [Memory.read?_cons]
    · split
      · simp only [Memory.read?_cons]
        split <;> [rfl; (split <;> [omega; rfl])]
      · simp only [Memory.read?_cons, ih]
        split <;> [(split <;> [omega; rfl]); rfl]

theorem Memory.mem_write {m : Memory w} {a : Nat} {v : BitVec w} {x : Nat × BitVec w}
    (h : x ∈ Memory.write m a v) : x = (a, v) ∨ x ∈ m := by
  induction m with
  | nil => simpa [Memory.write] using h
  | cons y m ih =>
    obtain ⟨c, u⟩ := y
    unfold Memory.write at h
    split at h
    · simpa using h
    · split at h
      · simp only [List.mem_cons] at h ⊢
        tauto
      · simp only [List.mem_cons] at h ⊢
        rcases h with h | h
        · exact .inr (.inl h)
        · exact (ih h).imp_right .inr

/-- A write keeps the canonical form. -/
theorem Memory.wf_write {m : Memory w} (h : m.wf) (a : Nat) (v : BitVec w) : (Memory.write m a v).wf := by
  induction m with
  | nil => simp [Memory.write, Memory.wf]
  | cons y m ih =>
    obtain ⟨c, u⟩ := y
    obtain ⟨hc, hm⟩ := List.pairwise_cons.1 h
    unfold Memory.write
    split
    · refine List.pairwise_cons.2 ⟨fun x hx => ?_, h⟩
      rcases List.mem_cons.1 hx with rfl | hx
      · assumption
      · exact Nat.lt_trans ‹a < c› (hc x hx)
    · split
      · exact List.pairwise_cons.2 ⟨fun x hx => by have := hc x hx; omega, hm⟩
      · refine List.pairwise_cons.2 ⟨fun x hx => ?_, ih hm⟩
        rcases Memory.mem_write hx with rfl | hx
        · simp only; omega
        · exact hc x hx

/-- In the canonical form a written element is read as listed: equal readings mean equal memories. -/
theorem Memory.read?_of_mem {m : Memory w} (h : m.wf) {x : Nat × BitVec w} (hx : x ∈ m) : m.read? x.1 = some x.2 := by
  induction m with
  | nil => cases hx
  | cons y m ih =>
    obtain ⟨hy, hm⟩ := List.pairwise_cons.1 h
    obtain ⟨c, u⟩ := y
    rcases List.mem_cons.1 hx with rfl | hx
    · simp [Memory.read?_cons]
    · have := hy x hx
      rw [Memory.read?_cons, if_neg (by simp only at this; omega), ih hm hx]

theorem Memory.mem_of_read? {m : Memory w} {a : Nat} {v : BitVec w} (h : m.read? a = some v) : (a, v) ∈ m := by
  induction m with
  | nil => cases h
  | cons y m ih =>
    obtain ⟨c, u⟩ := y
    rw [Memory.read?_cons] at h
    split at h
    · next e => cases h; subst e; exact List.mem_cons_self
    · exact List.mem_cons_of_mem _ (ih h)

end Cells

/-- Writing one element of one space of a state, read back through `State.elem`. -/
theorem State.elem_setMem_write (s : State) (sp : Space) (a : Nat) (v : BitVec sp.width) (b : Nat) :
    (s.setMem sp ((s.mem sp).write a v)).elem sp b = if b = a then some v else s.elem sp b := by
  simp [State.elem, Memory.read?_write]

theorem State.elem_setMem_other (s : State) {sp sp' : Space} (m : Memory sp.width) (h : sp' ≠ sp) (b : Nat) :
    (s.setMem sp m).elem sp' b = s.elem sp' b := by
  simp [State.elem, State.setMem_mem_other s m h]

end Sys2Proof.Machine
end

