-- ==== Sys2Proof/Laws/Proc.lean ====
section
/-! SUPPORT. How a command's pseudocode is reasoned about: `Ends p s Q E` says that `p`, started in `s`, ends with a value
and state that meet `Q`, or stops with a reason and state that meet `E`. One equation per construct and per shared operation;
later proofs cite these and unfold no operation. -/

namespace Sys2Proof.Machine

variable {α β : Type}

/-- `p` from `s` ends in `Q` or stops in `E`. -/
def Ends (p : Proc α) (s : State) (Q : α → State → Prop) (E : Stop → State → Prop) : Prop :=
  match p s with
  | .ok a t => Q a t
  | .error e t => E e t

section Constructs

variable (s : State) (Q : α → State → Prop) (E : Stop → State → Prop)

@[simp] theorem ends_pure (a : α) : Ends (pure a) s Q E ↔ Q a s := Iff.rfl

@[simp] theorem ends_bind (p : Proc β) (f : β → Proc α) :
    Ends (p >>= f) s Q E ↔ Ends p s (fun b t => Ends (f b) t Q E) E := by
  have e : (p >>= f) s = EStateM.bind p f s := rfl
  unfold Ends
  rw [e]
  unfold EStateM.bind
  generalize p s = r
  cases r <;> rfl

@[simp] theorem ends_map (p : Proc β) (f : β → α) :
    Ends (f <$> p) s Q E ↔ Ends p s (fun b t => Q (f b) t) E := by
  have e : (f <$> p) s = EStateM.map f p s := rfl
  unfold Ends
  rw [e]
  unfold EStateM.map
  generalize p s = r
  cases r <;> rfl

@[simp] theorem ends_get (Q : State → State → Prop) : Ends get s Q E ↔ Q s s := Iff.rfl

@[simp] theorem ends_set (t : State) (Q : PUnit → State → Prop) : Ends (set t) s Q E ↔ Q ⟨⟩ t := Iff.rfl

@[simp] theorem ends_modify (f : State → State) (Q : PUnit → State → Prop) :
    Ends (modify f) s Q E ↔ Q ⟨⟩ (f s) := Iff.rfl

@[simp] theorem ends_raise (f : FaultName) (info : Nat) : Ends (raise f info) s Q E ↔ E (.raise f info) s := Iff.rfl

@[simp] theorem ends_refuse (r : Refusal) : Ends (refuse r) s Q E ↔ E (.refuse r) s := Iff.rfl

theorem ends_ite (c : Prop) [Decidable c] (p q : Proc α) :
    Ends (if c then p else q) s Q E ↔ (c → Ends p s Q E) ∧ (¬ c → Ends q s Q E) := by
  by_cases h : c <;> simp [h]

theorem ends_check (bad : Bool) (f : FaultName) (info : Nat) (Q : Unit → State → Prop) :
    Ends (check bad f info) s Q E ↔ (bad = true → E (.raise f info) s) ∧ (bad = false → Q () s) := by
  cases bad <;> simp [check]

end Constructs

theorem Ends.mono {p : Proc α} {s : State} {Q Q' : α → State → Prop} {E E' : Stop → State → Prop}
    (h : Ends p s Q E) (hQ : ∀ a t, Q a t → Q' a t) (hE : ∀ e t, E e t → E' e t) : Ends p s Q' E' := by
  unfold Ends at h ⊢
  split at h
  · exact hQ _ _ h
  · exact hE _ _ h

theorem Ends.and {p : Proc α} {s : State} {Q Q' : α → State → Prop} {E E' : Stop → State → Prop}
    (h : Ends p s Q E) (h' : Ends p s Q' E') :
    Ends p s (fun a t => Q a t ∧ Q' a t) (fun e t => E e t ∧ E' e t) := by
  unfold Ends at *
  split <;> simp_all

/-- The command ends with a next state that meets `R` when its body does: a raise takes the fault. -/
theorem runCommand_next {p : Proc Unit} {s : State} {R : State → Prop} :
    (∃ t, runCommand p s = .next t ∧ R t) ↔
      Ends p s (fun _ t => R t) (fun e t => ∃ f info, e = .raise f info ∧ R (takeFault f info t)) := by
  unfold runCommand Ends
  split <;> simp_all

/-- Whatever next state the command answers meets `R`. -/
theorem runCommand_all {p : Proc Unit} {s : State} {R : State → Prop} :
    (∀ t, runCommand p s = .next t → R t) ↔
      Ends p s (fun _ t => R t) (fun e t => ∀ f info, e = .raise f info → R (takeFault f info t)) := by
  unfold runCommand Ends
  split <;> simp_all

/-- A body that ends without a stop gives the command's next state. -/
theorem runCommand_of_ok {p : Proc Unit} {s t : State} (h : Ends p s (fun _ u => u = t) (fun _ _ => False)) :
    runCommand p s = .next t := by
  unfold runCommand
  unfold Ends at h
  split at h
  · simp_all
  · exact h.elim

/-! ## Shared operations -/

section Operations

variable (s : State) (E : Stop → State → Prop)

@[simp] theorem ends_putRes (v : Word) (Q : PUnit → State → Prop) : Ends (putRes v) s Q E ↔ Q ⟨⟩ (s.setRes v) := Iff.rfl

@[simp] theorem ends_modifyFlags (f : Flags → Flags) (Q : PUnit → State → Prop) :
    Ends (modifyFlags f) s Q E ↔ Q ⟨⟩ (s.setFlags (f s.flags)) := Iff.rfl

@[simp] theorem ends_modifyMq (f : MqUnit → MqUnit) (Q : PUnit → State → Prop) :
    Ends (modifyMq f) s Q E ↔ Q ⟨⟩ (s.setMq (f s.mq)) := Iff.rfl

@[simp] theorem ends_modifyBr (f : BrUnit → BrUnit) (Q : PUnit → State → Prop) :
    Ends (modifyBr f) s Q E ↔ Q ⟨⟩ (s.setBr (f s.br)) := Iff.rfl

@[simp] theorem ends_modifyHuf (f : HufUnit → HufUnit) (Q : PUnit → State → Prop) :
    Ends (modifyHuf f) s Q E ↔ Q ⟨⟩ (s.setHuf (f s.huf)) := Iff.rfl

@[simp] theorem ends_modifyCc (f : CcUnit → CcUnit) (Q : PUnit → State → Prop) :
    Ends (modifyCc f) s Q E ↔ Q ⟨⟩ (s.setCc (f s.cc)) := Iff.rfl

/-- MemRead, everything it can do. -/
theorem ends_memRead (sp : Space) (a : Nat) (Q : BitVec sp.width → State → Prop) :
    Ends (memRead sp a) s Q E ↔
      (s.sizeOf sp ≤ a → E (.refuse .blockAccessOutOfRange) s) ∧
      (a < s.sizeOf sp → s.elem sp a = none → E (.raise .unwrittenRead (unwrittenInfo sp a)) s) ∧
      (a < s.sizeOf sp → ∀ v, s.elem sp a = some v → Q v s) := by
  simp only [memRead, ends_bind, ends_get]
  by_cases h : s.sizeOf sp ≤ a
  · simp [h]
  · cases he : s.elem sp a <;> simp [h] <;> omega

/-- MemWrite, everything it can do. -/
theorem ends_memWrite (sp : Space) (a : Nat) (v : BitVec sp.width) (Q : PUnit → State → Prop) :
    Ends (memWrite sp a v) s Q E ↔
      (s.sizeOf sp ≤ a → E (.refuse .blockAccessOutOfRange) s) ∧
      (a < s.sizeOf sp → Q ⟨⟩ (s.setMem sp ((s.mem sp).write a v))) := by
  simp only [memWrite, ends_bind, ends_get]
  by_cases h : s.sizeOf sp ≤ a
  · simp [h]
  · simp [h]; omega

/-- A read of a written element inside its space. -/
theorem ends_memRead_of {sp : Space} {a : Nat} {v : BitVec sp.width} {Q : BitVec sp.width → State → Prop}
    (ha : a < s.sizeOf sp) (hv : s.elem sp a = some v) : Ends (memRead sp a) s Q E ↔ Q v s := by
  simp [ends_memRead, hv, ha]

theorem ends_memWrite_of {sp : Space} {a : Nat} {v : BitVec sp.width} {Q : PUnit → State → Prop}
    (ha : a < s.sizeOf sp) :
    Ends (memWrite sp a v) s Q E ↔ Q ⟨⟩ (s.setMem sp ((s.mem sp).write a v)) := by
  simp [ends_memWrite, ha]

end Operations

/-! ## What a procedure keeps -/

/-- Started in a state that meets `I`, `p` ends or stops in a state that meets `I`. -/
def Keeps (I : State → Prop) (p : Proc α) : Prop := ∀ s, I s → Ends p s (fun _ t => I t) (fun _ t => I t)

section Keeps

variable {I : State → Prop}

theorem keeps_pure (a : α) : Keeps I (pure a) := fun _ h => h

theorem keeps_bind {p : Proc β} {f : β → Proc α} (hp : Keeps I p) (hf : ∀ b, Keeps I (f b)) : Keeps I (p >>= f) :=
  fun s h => (ends_bind ..).2 ((hp s h).mono (fun b t ht => hf b t ht) fun _ _ ht => ht)

/-- A procedure that looks at the state first: what follows is only entered with the state it looked at. -/
theorem keeps_get {f : State → Proc α} (hf : ∀ s, I s → Ends (f s) s (fun _ t => I t) (fun _ t => I t)) :
    Keeps I (get >>= f) := fun s h => (ends_bind ..).2 (hf s h)

/-- The same, when what follows keeps `I` whatever state it is told. -/
theorem keeps_get' {f : State → Proc α} (hf : ∀ s, Keeps I (f s)) : Keeps I (get >>= f) :=
  keeps_get fun s h => hf s s h

theorem keeps_modify {f : State → State} (h : ∀ s, I s → I (f s)) : Keeps I (modify f) := h

theorem keeps_raise (f : FaultName) (info : Nat) : Keeps I (raise f info : Proc α) := fun _ h => h

theorem keeps_refuse (r : Refusal) : Keeps I (refuse r : Proc α) := fun _ h => h

theorem keeps_check (b : Bool) (f : FaultName) (info : Nat) : Keeps I (check b f info) := by
  intro s h
  rw [ends_check]
  exact ⟨fun _ => h, fun _ => h⟩

theorem keeps_ite (c : Prop) [Decidable c] {p q : Proc α} (hp : Keeps I p) (hq : Keeps I q) :
    Keeps I (if c then p else q) := by
  split <;> assumption

theorem keeps_memRead (sp : Space) (a : Nat) : Keeps I (memRead sp a) := by
  intro s h
  rw [ends_memRead]
  exact ⟨fun _ => h, fun _ _ => h, fun _ _ _ => h⟩

theorem keeps_memWrite {sp : Space} {a : Nat} {v : BitVec sp.width}
    (h : ∀ s, I s → a < s.sizeOf sp → I (s.setMem sp ((s.mem sp).write a v))) : Keeps I (memWrite sp a v) := by
  intro s hs
  rw [ends_memWrite]
  exact ⟨fun _ => hs, h s hs⟩

theorem keeps_memReadRun (sp : Space) (stride n : Nat) : ∀ a, Keeps I (memReadRun sp a stride n) := by
  induction n with
  | zero => exact fun a => keeps_pure _
  | succ n ih =>
    exact fun a => keeps_bind (keeps_memRead sp a) fun _ => keeps_bind (ih _) fun _ => keeps_pure _

theorem keeps_memWriteRun {sp : Space} (stride : Nat)
    (h : ∀ s a v, I s → a < s.sizeOf sp → I (s.setMem sp ((s.mem sp).write a v))) (l : List (BitVec sp.width)) :
    ∀ a, Keeps I (memWriteRun sp a stride l) := by
  induction l with
  | nil => exact fun a => keeps_pure _
  | cons v l ih => exact fun a => keeps_bind (keeps_memWrite fun s hs ha => h s a v hs ha) fun _ => ih _

/-- A command whose body keeps `I` keeps it, when taking a fault does. -/
theorem keeps_runCommand {p : Proc Unit} (hp : Keeps I p) (hf : ∀ s f info, I s → I (takeFault f info s)) {s t : State}
    (hs : I s) (h : runCommand p s = .next t) : I t :=
  runCommand_all.2 ((hp s hs).mono (fun _ _ ht => ht) fun _ u hu f info _ => hf u f info hu) t h

end Keeps

end Sys2Proof.Machine
end

