-- ==== Sys2Proof/Laws/Runs.lean ====
section
/-! SUPPORT. Runs of elements: what `memReadRun` answers on written elements and what `memWriteRun` leaves
(20_memory.md R70, R75, R76). -/

namespace Sys2Proof.Machine

/-- A written element, with its value. -/
theorem State.value_of_isSome {s : State} {sp : Space} {a : Nat} (h : (s.elem sp a).isSome = true) :
    s.elem sp a = some (s.value sp a) := by
  unfold State.value
  cases he : s.elem sp a <;> simp_all

@[simp] theorem State.values_zero (s : State) (sp : Space) (a stride : Nat) : s.values sp a stride 0 = [] := rfl

theorem State.values_succ (s : State) (sp : Space) (a stride n : Nat) :
    s.values sp a stride (n + 1) = s.value sp a :: s.values sp (a + stride) stride n := by
  unfold State.values
  rw [List.range_succ_eq_map, List.map_cons, List.map_map]
  simp only [Nat.zero_mul, Nat.add_zero, List.cons.injEq, true_and]
  refine List.map_congr_left fun i _ => ?_
  simp only [Function.comp, Nat.succ_eq_add_one]
  congr 1
  ring

@[simp] theorem State.values_length (s : State) (sp : Space) (a stride n : Nat) : (s.values sp a stride n).length = n := by
  simp [State.values]

theorem State.values_getD (s : State) (sp : Space) (a stride n : Nat) {i : Nat} (hi : i < n) :
    (s.values sp a stride n).getD i 0 = s.value sp (a + i * stride) := by
  rw [List.getD_eq_getElem _ _ (by simpa using hi)]
  simp [State.values]

/-- A run of written elements inside the space reads as its values and changes nothing. -/
theorem ends_memReadRun {s : State} {sp : Space} {stride : Nat} (n : Nat) : ∀ a, Written s sp a stride n →
    (∀ i, i < n → a + i * stride < s.sizeOf sp) →
      Ends (memReadRun sp a stride n) s (fun l t => t = s ∧ l = s.values sp a stride n) (fun _ _ => False) := by
  induction n with
  | zero => exact fun a _ _ => ⟨rfl, rfl⟩
  | succ n ih =>
    intro a hw hs
    have h0 := hw 0 (by omega)
    simp only [Nat.zero_mul, Nat.add_zero] at h0
    have hstep : ∀ i, a + stride + i * stride = a + (i + 1) * stride := fun i => by ring
    rw [memReadRun, ends_bind, ends_memRead_of s _ (by simpa using hs 0 (by omega)) (State.value_of_isSome h0), ends_bind]
    refine (ih (a + stride) (fun i hi => ?_) fun i hi => ?_).mono (fun l t h => ?_) fun _ _ h => h
    · rw [hstep]; exact hw (i + 1) (by omega)
    · rw [hstep]; exact hs (i + 1) (by omega)
    · rw [ends_pure]
      exact ⟨h.1, by rw [h.2, State.values_succ]⟩

/-- What a run of writes leaves: the elements of the run hold the values, everything else is as before. -/
structure RunWritten (s : State) (sp : Space) (a stride : Nat) (l : List (BitVec sp.width)) (t : State) : Prop where
  only : t = s.setMem sp (t.mem sp)
  at_run : ∀ i, i < l.length → t.elem sp (a + i * stride) = some (l.getD i 0)
  off_run : ∀ sp' b, (sp' ≠ sp ∨ ∀ i, i < l.length → b ≠ a + i * stride) → t.elem sp' b = s.elem sp' b

theorem ends_memWriteRun {sp : Space} {stride : Nat} (hst : 0 < stride) (l : List (BitVec sp.width)) :
    ∀ (s : State) (a : Nat), (∀ i, i < l.length → a + i * stride < s.sizeOf sp) →
      Ends (memWriteRun sp a stride l) s (fun _ t => RunWritten s sp a stride l t) (fun _ _ => False) := by
  induction l with
  | nil => exact fun s a _ => ⟨by simp, fun i hi => by simp at hi, fun _ _ _ => rfl⟩
  | cons v l ih =>
    intro s a hs
    have hstep : ∀ i, a + stride + i * stride = a + (i + 1) * stride := fun i => by ring
    rw [memWriteRun, ends_bind, ends_memWrite_of s _ (by simpa using hs 0 (by simp))]
    refine (ih _ (a + stride) fun i hi => ?_).mono (fun _ t h => ?_) fun _ _ h => h
    · rw [hstep, State.setMem_sizeOf]
      exact hs (i + 1) (by simp; omega)
    · have hne : ∀ i, a ≠ a + stride + i * stride := fun i => by have := Nat.le_mul_of_pos_left stride (Nat.succ_pos i); omega
      refine ⟨?_, fun i hi => ?_, fun sp' b hb => ?_⟩
      · rw [h.only]; simp
      · rcases i with _ | i
        · rw [Nat.zero_mul, Nat.add_zero, h.off_run sp a (.inr fun i _ => hne i), State.elem_setMem_write, if_pos rfl]
          simp
        · rw [← hstep, h.at_run i (by simpa using hi)]
          simp
      · rw [h.off_run sp' b]
        · rcases hb with hb | hb
          · exact State.elem_setMem_other s _ hb b
          · by_cases hsp : sp' = sp
            · subst hsp
              rw [State.elem_setMem_write, if_neg (by simpa using hb 0 (by simp))]
            · exact State.elem_setMem_other s _ hsp b
        · refine hb.imp_right fun hb i hi => ?_
          rw [hstep]
          exact hb (i + 1) (by simpa using hi)

end Sys2Proof.Machine
end

