-- ==== Sys2Proof/Laws/Br.lean ====
section
/-! SUPPORT. What the shared operations of the BR unit do: Fill fetches as many bytes as `BrFills` says and leaves the registers
of `State.brAfter`, so it keeps the unread bits and buffers enough of them; Peek reads them, Skip drops them (41_bitreader.md R181,
R184, R185, R190). -/

namespace Sys2Proof.Machine

/-- The BR invariant of R28 without the readiness flag, and the bytes still to come are written. -/
structure BrOk (s : State) : Prop where
  buf : s.br.buf.toNat < 2 ^ s.br.cnt.toNat
  cnt : s.br.cnt.toNat ≤ 23
  pos : s.br.pos.toNat ≤ s.br.endIdx.toNat
  endIdx : s.br.endIdx.toNat ≤ s.params.streamSize
  skip : s.br.mode = .plain → s.br.skip = false
  written : WindowWritten s s.br.pos.toNat s.br.endIdx.toNat

@[simp] theorem State.setBr_value (s : State) (b : BrUnit) (sp : Space) (a : Nat) :
    (s.setBr b).value sp a = s.value sp a := by simp [State.value]

/-- The window bits depend on the mode and on STREAM alone. -/
theorem brBytes_congr {s t : State} (hm : t.br.mode = s.br.mode) (hs : ∀ a, t.value .stream a = s.value .stream a)
    (n : Nat) : ∀ a skip, brBytes t n a skip = brBytes s n a skip := by
  induction n with
  | zero => intros; rfl
  | succ n ih =>
    intro a skip
    simp only [brBytes, hs, hm, ih]

/-- In PLAIN mode the unread bits are those buffered and eight for each byte still to come. -/
theorem brUnread_length {s : State} (hm : s.br.mode = .plain) (hs : s.br.skip = false) :
    s.brUnread.length = 8 * (s.br.endIdx.toNat - s.br.pos.toNat) + s.br.cnt.toNat := by
  have hlen : ∀ n a, (brBytes s n a false).length = 8 * n := by
    intro n
    induction n with
    | zero => intro a; rfl
    | succ n ih =>
      intro a
      simp only [brBytes, hm]
      simp [ih]
      omega
  rw [State.brUnread, hs, List.length_append, hlen, bitsMsb_length]
  omega

/-- What Fill does to a state, whatever it fetched. -/
structure Filled (s t : State) : Prop where
  only : t = s.setBr t.br
  mode : t.br.mode = s.br.mode
  endIdx : t.br.endIdx = s.br.endIdx
  pos : s.br.pos.toNat ≤ t.br.pos.toNat
  cnt : s.br.cnt.toNat ≤ t.br.cnt.toNat
  unread : t.brUnread = s.brUnread
  ok : BrOk t

theorem or_toNat_of_lt {w k : Nat} (x y : BitVec w) (hx : x.toNat * 2 ^ k < 2 ^ w) (hy : y.toNat < 2 ^ k) :
    ((x <<< k) ||| y).toNat = x.toNat * 2 ^ k + y.toNat := by
  rw [BitVec.toNat_or, BitVec.toNat_shiftLeft, Nat.shiftLeft_eq, Nat.mod_eq_of_lt hx, Nat.mul_comm]
  exact (Nat.two_pow_add_eq_or_of_lt hy _).symm

/-- What BR_SKIP is once `j` bytes from `a` are fetched. -/
def brSkipAfter (s : State) (j a : Nat) (skip : Bool) : Bool :=
  if j = 0 then skip else decide (s.br.mode = .stuff7 ∧ s.value .stream (a + (j - 1)) = 0xFF#8)

theorem byte_ff (b : Byte) : b.toNat = 0xFF ↔ b = 0xFF#8 := by rw [← BitVec.toNat_inj]; rfl

/-- The bits of more bytes stand behind. -/
theorem brBytes_add (s : State) (j k : Nat) : ∀ a skip, brBytes s (j + k) a skip =
    brBytes s j a skip ++ brBytes s k (a + j) (brSkipAfter s j a skip) := by
  induction j with
  | zero => intro a skip; simp [brBytes, brSkipAfter]
  | succ j ih =>
    intro a skip
    rw [show j + 1 + k = j + k + 1 by omega, brBytes, ih]
    simp only [brBytes, List.append_assoc]
    congr 2
    rw [show a + 1 + j = a + (j + 1) by omega]
    congr 1
    simp only [brSkipAfter, Nat.add_eq_zero_iff, one_ne_zero, and_false, if_false, Nat.add_sub_cancel]
    by_cases h0 : j = 0
    · subst h0
      exact decide_eq_decide.2 (and_congr_right fun _ => byte_ff _)
    · rw [if_neg h0, show a + 1 + (j - 1) = a + j by omega]

theorem brBytes_succ (s : State) (j a : Nat) (skip : Bool) : brBytes s (j + 1) a skip = brBytes s j a skip ++
    if brSkipAfter s j a skip then bitsMsb 7 (s.value .stream (a + j)).toNat
    else bitsMsb 8 (s.value .stream (a + j)).toNat := by
  rw [brBytes_add]; simp [brBytes]

/-- `t` is `s` with `j` bytes fetched. -/
structure BrFetched (s : State) (j : Nat) (t : State) : Prop where
  only : t = s.setBr t.br
  mode : t.br.mode = s.br.mode
  endIdx : t.br.endIdx = s.br.endIdx
  pos : t.br.pos.toNat = s.br.pos.toNat + j
  bits : bitsMsb t.br.cnt.toNat t.br.buf.toNat = s.brBits j
  buf : t.br.buf.toNat < 2 ^ t.br.cnt.toNat
  most : t.br.cnt.toNat ≤ 23
  skip : t.br.skip = brSkipAfter s j s.br.pos.toNat s.br.skip
  plain : t.br.mode = .plain → t.br.skip = false

theorem BrFetched.cnt {s t : State} {j : Nat} (h : BrFetched s j t) : t.br.cnt.toNat = (s.brBits j).length := by
  rw [← h.bits, bitsMsb_length]

theorem BrFetched.refl {s : State} (hb : s.br.buf.toNat < 2 ^ s.br.cnt.toNat) (hc : s.br.cnt.toNat ≤ 23)
    (hp : s.br.mode = .plain → s.br.skip = false) : BrFetched s 0 s :=
  ⟨by simp, rfl, rfl, rfl, by simp [State.brBits, brBytes], hb, hc, rfl, hp⟩

/-- The registers are those `State.brAfter` writes out. -/
theorem BrFetched.br {s t : State} {j : Nat} (h : BrFetched s j t) : t.br = s.brAfter j 0 := by
  have hn : numOf (s.brBits j) = t.br.buf.toNat := by rw [← h.bits, numOf_bitsMsb, Nat.mod_eq_of_lt h.buf]
  have hs := h.skip
  rw [brSkipAfter, ← h.mode] at hs
  simp only [State.brAfter, List.drop_zero, hn, ← h.cnt, ← h.pos, BitVec.ofNat_toNat, BitVec.setWidth_eq, ← h.mode, ← h.endIdx]
  rw [← hs]

theorem BrFetched.eq {s t : State} {j : Nat} (h : BrFetched s j t) : t = s.setBr (s.brAfter j 0) := h.br ▸ h.only

/-- One byte more. -/
theorem ends_brFetch {s t : State} {j : Nat} (h : BrFetched s j t) (he : s.br.endIdx.toNat ≤ s.params.streamSize)
    (hp : s.br.pos.toNat + j < s.br.endIdx.toNat) (hc : t.br.cnt.toNat < 16)
    (hw : (s.elem .stream (s.br.pos.toNat + j)).isSome = true) :
    Ends brFetch t (fun _ u => BrFetched s (j + 1) u) (fun _ _ => False) := by
  have hpar : t.params = s.params := by rw [h.only]; simp
  have hel : ∀ a, t.elem .stream a = s.elem .stream a := fun a => by rw [h.only]; simp
  have hv : t.elem .stream t.br.pos.toNat = some (s.value .stream (s.br.pos.toNat + j)) := by
    rw [hel, h.pos]; exact State.value_of_isSome hw
  have hsz : t.br.pos.toNat < t.sizeOf .stream := by
    simp only [State.sizeOf, Space.size, hpar, h.pos]; omega
  have hbits : s.brBits (j + 1) = bitsMsb t.br.cnt.toNat t.br.buf.toNat ++
      if t.br.skip then bitsMsb 7 (s.value .stream (s.br.pos.toNat + j)).toNat
      else bitsMsb 8 (s.value .stream (s.br.pos.toNat + j)).toNat := by
    rw [h.bits, h.skip, State.brBits, State.brBits, brBytes_succ, List.append_assoc]
  simp only [brFetch, ends_bind, ends_get]
  rw [ends_memRead_of t _ hsz hv, ends_modifyBr]
  generalize hb : s.value .stream (s.br.pos.toNat + j) = b at hbits
  have hb8 : b.toNat < 2 ^ 8 := b.isLt
  have hpos1 : (t.br.pos + 1).toNat = s.br.pos.toNat + (j + 1) := by
    have := s.br.endIdx.isLt
    rw [BitVec.toNat_add, h.pos]
    simp; omega
  have hpow : (2 : Nat) ^ t.br.cnt.toNat ≤ 2 ^ 15 := Nat.pow_le_pow_right (by norm_num) (by omega)
  have hbuf := h.buf
  have hskip : decide (t.br.mode = .stuff7 ∧ b.toNat = 0xFF) = brSkipAfter s (j + 1) s.br.pos.toNat s.br.skip := by
    rw [brSkipAfter, if_neg (Nat.succ_ne_zero j), Nat.add_sub_cancel, hb, h.mode]
    exact decide_eq_decide.2 (and_congr_right fun _ => byte_ff b)
  have hplain : t.br.mode = .plain → decide (t.br.mode = .stuff7 ∧ b.toNat = 0xFF) = false := fun hm => by simp [hm]
  -- the `m` bits `x` of the byte go behind the buffered ones
  have hset : ∀ (m x : Nat), m ≤ 8 → x < 2 ^ m → s.brBits (j + 1) = bitsMsb t.br.cnt.toNat t.br.buf.toNat ++ bitsMsb m x →
      BrFetched s (j + 1) (t.setBr { t.br with
        pos := t.br.pos + 1, buf := (t.br.buf <<< m) ||| BitVec.ofNat 32 x, cnt := t.br.cnt + BitVec.ofNat 5 m
        skip := decide (t.br.mode = .stuff7 ∧ b.toNat = 0xFF) }) := by
    intro m x hm hx hl
    have hm8 : (2 : Nat) ^ m ≤ 2 ^ 8 := Nat.pow_le_pow_right (by norm_num) hm
    have hcnt : (t.br.cnt + BitVec.ofNat 5 m).toNat = t.br.cnt.toNat + m := by
      rw [BitVec.toNat_add, BitVec.toNat_ofNat]; omega
    have hof : (BitVec.ofNat 32 x).toNat = x := by rw [BitVec.toNat_ofNat]; exact Nat.mod_eq_of_lt (by omega)
    have hlt : t.br.buf.toNat * 2 ^ m < 2 ^ 32 := by
      calc t.br.buf.toNat * 2 ^ m ≤ 2 ^ 15 * 2 ^ 8 := Nat.mul_le_mul (by omega) hm8
        _ < 2 ^ 32 := by norm_num
    have hor : ((t.br.buf <<< m) ||| BitVec.ofNat 32 x).toNat = t.br.buf.toNat * 2 ^ m + x := by
      rw [or_toNat_of_lt _ _ hlt (by rw [hof]; exact hx), hof]
    refine ⟨?_, h.mode, h.endIdx, hpos1, ?_, ?_, by simp only [State.setBr_br, hcnt]; omega, hskip, hplain⟩
    · have hset : ∀ r, t.setBr r = s.setBr r := fun r => by
        conv_lhs => rw [h.only, State.setBr_setBr]
      rw [hset, State.setBr_br]
    · simp only [State.setBr_br, hcnt, hor]
      rw [bitsMsb_append _ _ _ _ hx, hl]
    · simp only [State.setBr_br, hcnt, hor, pow_add]
      have := Nat.mul_le_mul_right (2 ^ m) hbuf
      simp only [Nat.succ_eq_add_one, add_mul] at this
      omega
  by_cases hs : t.br.skip = true
  · have hmode : t.br.mode = .stuff7 := by
      cases hm : t.br.mode
      · have := h.plain hm; simp_all
      · rfl
    rw [if_pos ⟨hmode, hs⟩]
    refine hset 7 (b.toNat % 2 ^ 7) (by norm_num) (Nat.mod_lt _ (by norm_num)) ?_
    rw [hbits, if_pos hs, bitsMsb_mod]
  · rw [if_neg (by simp [hs])]
    refine hset 8 b.toNat le_rfl hb8 ?_
    rw [hbits, if_neg hs]

theorem ends_brFillLoop {n j : Nat} (hn : n ≤ 16) {s : State} (he : s.br.endIdx.toNat ≤ s.params.streamSize)
    (hf : BrFills s n j) (k : Nat) : ∀ (t : State) (i : Nat), BrFetched s i t → i ≤ j →
      n ≤ t.br.cnt.toNat + 7 * k →
      Ends (brFillLoop n k) t (fun _ u => BrFetched s j u) (fun _ _ => False) := by
  obtain ⟨hj, hw, hlt, hge⟩ := hf
  have last : ∀ (t : State) (i : Nat), BrFetched s i t → i ≤ j → ¬ (t.br.cnt.toNat < n ∧ t.br.pos.toNat < t.br.endIdx.toNat) →
      BrFetched s j t := by
    intro t i h hi hc
    rcases Nat.eq_or_lt_of_le hi with rfl | hi
    · exact h
    · have := hlt i hi
      have := h.pos
      have := h.cnt
      rw [h.endIdx] at hc
      omega
  induction k with
  | zero => exact fun t i h hi hk => last t i h hi (by omega)
  | succ k ih =>
    intro t i h hi hk
    simp only [brFillLoop, ends_bind, ends_get]
    split
    · next hc =>
      have hpos := h.pos
      have hcnt := h.cnt
      rw [h.endIdx] at hc
      have hij : i < j := by
        refine Nat.lt_of_le_of_ne hi fun e => ?_
        subst e
        omega
      simp only [ends_bind]
      refine (ends_brFetch h he (by omega) (by omega) (by simpa using hw i hij)).mono (fun _ u hu => ?_) fun _ _ h => h
      refine ih u (i + 1) hu hij ?_
      have := hu.cnt
      have hlen : (s.brBits i).length + 7 ≤ (s.brBits (i + 1)).length := by
        rw [State.brBits, State.brBits, brBytes_succ]
        split <;> simp only [List.length_append, bitsMsb_length] <;> omega
      omega
    · next hc => exact last t i h hi hc

/-- Fill(n) fetches the `j` bytes that `BrFills` tells, and the registers are what `State.brAfter` says (R181). -/
theorem ends_brFill_exact {n j : Nat} (hn : n ≤ 16) {s : State} (hr : s.flags.brRdy = true) (h : BrInv s) (hf : BrFills s n j) :
    Ends (brFill n) s (fun _ t => t = s.setBr (s.brAfter j 0)) (fun _ _ => False) := by
  obtain ⟨hb, hc, -, he, hs⟩ := h hr
  exact (ends_brFillLoop hn he hf n s 0 (BrFetched.refl hb hc hs) (Nat.zero_le _) (by omega)).mono
    (fun _ t ht => ht.eq) fun _ _ h => h

/-- There is a `j` as `BrFills` asks for when the bytes of the window are written. -/
theorem brFills_exists (s : State) (n : Nat) (hp : s.br.pos.toNat ≤ s.br.endIdx.toNat)
    (hw : WindowWritten s s.br.pos.toNat s.br.endIdx.toNat) : ∃ j, BrFills s n j := by
  have hex : ∃ j, n ≤ (s.brBits j).length ∨ s.br.pos.toNat + j = s.br.endIdx.toNat :=
    ⟨s.br.endIdx.toNat - s.br.pos.toNat, .inr (by omega)⟩
  classical
  have hle : Nat.find hex ≤ s.br.endIdx.toNat - s.br.pos.toNat := Nat.find_min' hex (.inr (by omega))
  refine ⟨Nat.find hex, hle, fun i hi => hw i (by omega), fun i hi => ?_, Nat.find_spec hex⟩
  have := Nat.find_min hex hi
  omega

/-- Bytes fetched are no bits lost. -/
theorem BrFetched.filled {s t : State} {j : Nat} (h : BrFetched s j t) (hs : BrOk s)
    (hj : j ≤ s.br.endIdx.toNat - s.br.pos.toNat) : Filled s t := by
  have hpos := h.pos
  have he := hs.pos
  have hval : ∀ a, t.value .stream a = s.value .stream a := fun a => by rw [h.only]; simp
  refine ⟨h.only, h.mode, h.endIdx, by omega, ?_, ?_, h.buf, h.most, ?_, ?_, h.plain, ?_⟩
  · rw [h.cnt, State.brBits]; simp
  · obtain ⟨k, hk⟩ : ∃ k, s.br.endIdx.toNat - s.br.pos.toNat = j + k := ⟨_, (Nat.add_sub_of_le hj).symm⟩
    rw [State.brUnread, h.bits, h.endIdx, hpos, h.skip, brBytes_congr h.mode hval, State.brUnread, hk, brBytes_add, State.brBits,
      show s.br.endIdx.toNat - (s.br.pos.toNat + j) = k by omega, List.append_assoc]
  · rw [h.endIdx]; omega
  · rw [h.only, State.setBr_br, State.setBr_params, h.endIdx]; exact hs.endIdx
  · intro i hi
    rw [h.endIdx] at hi
    have := hs.written (j + i) (by omega)
    rw [h.only]
    simpa [hpos, Nat.add_assoc] using this

/-- Fill(n) keeps the unread bits, and buffers `n` of them or all there are (R181). -/
theorem ends_brFill {n : Nat} (hn : n ≤ 16) {s : State} (h : BrOk s) :
    Ends (brFill n) s
      (fun _ t => Filled s t ∧ (n ≤ t.br.cnt.toNat ∨ t.br.pos.toNat = t.br.endIdx.toNat)) (fun _ _ => False) := by
  obtain ⟨j, hf⟩ := brFills_exists s n h.pos h.written
  refine (ends_brFillLoop hn h.endIdx hf n s 0 (BrFetched.refl h.buf h.cnt h.skip) (Nat.zero_le _) (by omega)).mono
    (fun _ t ht => ⟨ht.filled h hf.1, ?_⟩) fun _ _ h => h
  rw [ht.cnt, ht.pos, ht.endIdx]
  exact hf.2.2.2

/-- After Fill(n): fewer than `n` bits buffered are all that is left. -/
theorem brUnread_of_short {n : Nat} {t : State} (h : n ≤ t.br.cnt.toNat ∨ t.br.pos.toNat = t.br.endIdx.toNat)
    (hn : t.br.cnt.toNat < n) : t.brUnread = bitsMsb t.br.cnt.toNat t.br.buf.toNat := by
  have : t.br.endIdx.toNat - t.br.pos.toNat = 0 := by omega
  simp [State.brUnread, this, brBytes]

theorem cnt_le_length (t : State) : t.br.cnt.toNat ≤ t.brUnread.length := by
  simp [State.brUnread]

/-- Keeping the newest `k` buffered bits drops the others. -/
theorem brUnread_keep {t : State} (h : BrOk t) {k : Nat} (hk : k ≤ t.br.cnt.toNat) :
    (t.setBr (t.br.keep k)).brUnread = t.brUnread.drop (t.br.cnt.toNat - k) ∧ BrOk (t.setBr (t.br.keep k)) ∧
      (t.br.keep k).cnt.toNat = k := by
  have hc : (t.br.keep k).cnt.toNat = k := by
    have := h.cnt
    simp only [BrUnit.keep, BitVec.toNat_ofNat]
    exact Nat.mod_eq_of_lt (by omega)
  have hb : (t.br.keep k).buf.toNat = t.br.buf.toNat % 2 ^ k := by
    simp only [BrUnit.keep, BitVec.toNat_ofNat]
    exact Nat.mod_eq_of_lt (lt_of_le_of_lt (Nat.mod_le _ _) t.br.buf.isLt)
  refine ⟨?_, ⟨?_, ?_, h.pos, h.endIdx, h.skip, ?_⟩, hc⟩
  · simp only [State.brUnread, State.setBr_br, hc, hb, bitsMsb_mod]
    rw [List.drop_append_of_le_length (by simp), bitsMsb_drop _ (Nat.sub_le _ _), Nat.sub_sub_self hk]
    exact congrArg _ (brBytes_congr (by rfl) (by simp) _ _ _)
  · simp only [State.setBr_br, hc, hb]
    exact Nat.mod_lt _ (by positivity)
  · simp only [State.setBr_br, hc]
    exact hk.trans h.cnt
  · intro i hi
    simpa [BrUnit.keep] using h.written i hi

theorem peekValue_eq {n : Nat} {t : State} (hb : t.br.buf.toNat < 2 ^ t.br.cnt.toNat)
    (h : n ≤ t.br.cnt.toNat ∨ t.br.pos.toNat = t.br.endIdx.toNat) (hn : 0 < n) :
    t.br.peekValue n = lookAhead n t.brUnread := by
  unfold BrUnit.peekValue lookAhead
  by_cases h0 : t.br.cnt.toNat = 0
  · rw [if_pos h0, brUnread_of_short h (by omega), h0, bitsMsb_zero, if_pos rfl]
  · have hne : t.brUnread ≠ [] := by
      intro he
      have := cnt_le_length t
      rw [he] at this
      simp at this
      exact h0 (by simpa using this)
    rw [if_neg h0, if_neg hne]
    split
    · next hs =>
      rw [brUnread_of_short h hs, List.take_append, List.take_of_length_le (by simp; omega), List.take_replicate,
        numOf_append, numOf_bitsMsb, numOf_replicate_false, List.length_replicate, bitsMsb_length,
        Nat.mod_eq_of_lt hb, Nat.add_zero, Nat.min_eq_left (Nat.sub_le _ _)]
      refine Nat.mod_eq_of_lt ?_
      calc t.br.buf.toNat * 2 ^ (n - t.br.cnt.toNat)
          < 2 ^ t.br.cnt.toNat * 2 ^ (n - t.br.cnt.toNat) := Nat.mul_lt_mul_of_pos_right hb (by positivity)
        _ = 2 ^ n := by rw [← pow_add]; congr 1; omega
    · next hs =>
      rw [State.brUnread, List.append_assoc, List.take_append_of_le_length (by simp; omega),
        bitsMsb_take _ (by omega), numOf_bitsMsb]

/-- Peek(n) answers the look-ahead and keeps the unread bits. -/
theorem ends_brPeek {n : Nat} (h0 : 0 < n) (hn : n ≤ 16) {s : State} (h : BrOk s) :
    Ends (brPeek n) s (fun v t => v = lookAhead n s.brUnread ∧ Filled s t) (fun _ _ => False) := by
  simp only [brPeek, ends_bind]
  refine (ends_brFill hn h).mono (fun _ t ht => ?_) fun _ _ h => h
  simp only [ends_get, ends_pure]
  exact ⟨by rw [peekValue_eq ht.1.ok.buf ht.2 h0, ht.1.unread], ht.1⟩

/-- What Skip and ALIGN do to a state. -/
structure Skipped (n : Nat) (s t : State) : Prop where
  only : t = s.setBr t.br
  mode : t.br.mode = s.br.mode
  endIdx : t.br.endIdx = s.br.endIdx
  pos : s.br.pos.toNat ≤ t.br.pos.toNat
  unread : t.brUnread = s.brUnread.drop n
  ok : BrOk t

/-- Skip(n) drops `n` unread bits, or all there are. -/
theorem ends_brSkip {n : Nat} (hn : n ≤ 16) {s : State} (h : BrOk s) :
    Ends (brSkip n) s (fun _ t => Skipped n s t) (fun _ _ => False) := by
  simp only [brSkip, ends_bind]
  refine (ends_brFill hn h).mono (fun _ t ht => ?_) fun _ _ h => h
  rw [ends_modifyBr]
  obtain ⟨hf, hs⟩ := ht
  obtain ⟨hu, hok, hc⟩ := brUnread_keep hf.ok (k := t.br.cnt.toNat - min n t.br.cnt.toNat) (Nat.sub_le _ _)
  refine ⟨?_, ?_, ?_, ?_, ?_, hok⟩
  · rw [hf.only]; simp
  · simp [BrUnit.keep, hf.mode]
  · simp [BrUnit.keep, hf.endIdx]
  · simpa [BrUnit.keep] using hf.pos
  · rw [hu, ← hf.unread, Nat.sub_sub_self (Nat.min_le_right _ _)]
    rcases Nat.le_total n t.br.cnt.toNat with hle | hle
    · rw [Nat.min_eq_left hle]
    · rw [Nat.min_eq_right hle]
      rcases Nat.eq_or_lt_of_le hle with he | hlt
      · rw [he]
      · rw [brUnread_of_short hs hlt, List.drop_eq_nil_of_le (by simp), List.drop_eq_nil_of_le (by simp; omega)]

/-- AlignB drops the unread bits of the current byte (PLAIN mode, R186). -/
theorem ends_brAlignPlain {s : State} (h : BrOk s) :
    Ends brAlignPlain s (fun _ t => Skipped (s.br.cnt.toNat % 8) s t) (fun _ _ => False) := by
  rw [brAlignPlain, ends_modifyBr]
  obtain ⟨hu, hok, hc⟩ := brUnread_keep h (k := s.br.cnt.toNat - s.br.cnt.toNat % 8) (Nat.sub_le _ _)
  refine ⟨rfl, rfl, rfl, le_rfl, ?_, hok⟩
  rw [hu, Nat.sub_sub_self (Nat.mod_le _ _)]

end Sys2Proof.Machine
end

