-- ==== Sys2Proof/Laws/CcittWalk.lean ====
section
/-! SUPPORT. What the CCITT procedures are built of: a property of procedures that the constructs, the line accesses and the reads
of bits have, and that sequences pass on, holds of every procedure of the unit. What a procedure keeps (Laws/Keeps.lean) and which
bytes it looks at (Laws/Ahead.lean) are two such properties. -/

namespace Sys2Proof.Machine

/-- What a property of procedures must have for the CCITT procedures to have it. A procedure that looks at the state first does not
look at STREAM there. -/
structure CcittClosed (P : {α : Type} → Proc α → Prop) : Prop where
  pure : ∀ {α : Type} (a : α), P (pure a)
  refuse : ∀ {α : Type} (r : Refusal), P (refuse r : Proc α)
  check : ∀ (b : Bool) (f : FaultName) (info : Nat), P (check b f info)
  bind : ∀ {α β : Type} {p : Proc β} {f : β → Proc α}, P p → (∀ b, P (f b)) → P (p >>= f)
  get : ∀ {α : Type} {f : State → Proc α}, (∀ s m, f (s.setMem .stream m) = f s) → (∀ s, P (f s)) → P (get >>= f)
  readCline : ∀ a, P (memRead .cline a)
  readRline : ∀ a, P (memRead .rline a)
  writeCline : ∀ a v, P (memWrite .cline a v)
  writeRline : ∀ a v, P (memWrite .rline a v)
  cc : ∀ f, P (modifyCc f)
  flags : ∀ f : Flags → Flags, (∀ g, (f g).fault = g.fault) → P (modifyFlags f)
  fill : ∀ n, P (brFill n)
  keep : ∀ f : BrUnit → Nat, P (modifyBr fun r => r.keep (f r))

section

variable {P : {α : Type} → Proc α → Prop} (h : CcittClosed P)
include h

omit h in
theorem CcittClosed.ite (_ : CcittClosed P) (c : Prop) [Decidable c] {α : Type} {p q : Proc α} (hp : P p) (hq : P q) : P (if c then p else q) := by
  split <;> assumption

theorem closed_brPeek (n : Nat) : P (brPeek n) := h.bind (h.fill n) fun _ => h.get (fun _ _ => rfl) fun _ => h.pure _

theorem closed_brSkip (n : Nat) : P (brSkip n) := h.bind (h.fill n) fun _ => h.keep _

theorem closed_needReady (u : ReadyUnit) : P (needReady u) := h.get (fun _ _ => rfl) fun _ => h.check _ _ _

theorem closed_readCline (i : Nat) : P (readCline i) := h.bind (h.readCline _) fun _ => h.pure _

theorem closed_writeCline (i : Nat) (v : Int) : P (writeCline i v) :=
  h.writeCline _ _

theorem closed_writeRline (i : Nat) (v : Int) : P (writeRline i v) :=
  h.writeRline _ _

theorem closed_lineEnd : P lineEnd := h.get (fun _ _ => rfl) fun _ => closed_readCline h _

theorem closed_flagDamaged : P flagDamaged := h.flags _ fun _ => rfl

theorem closed_flagEof : P flagEof := h.flags _ fun _ => rfl

theorem closed_refLine (i : Nat) : P (refLine i) :=
  h.get (fun _ _ => rfl) fun _ => h.ite _ (h.bind (h.readRline _) fun _ => h.pure _) (h.pure _)

theorem closed_extendLine (p : Nat) (a1 : Int) (colour : Nat) : P (extendLine p a1 colour) := by
  refine h.bind (h.get (fun _ _ => rfl) fun _ => h.ite _ (h.bind (closed_flagDamaged h) fun _ => h.pure _)
    (h.pure _)) fun a => h.get (fun _ _ => rfl) fun s => ?_
  refine h.ite _ (h.ite _ ?_ ?_) ?_
  · exact h.bind (closed_flagDamaged h) fun _ => h.bind (closed_writeCline h _ _) fun _ => h.pure _
  · exact h.bind (closed_writeCline h _ _) fun _ => h.pure _
  · exact h.bind (closed_writeCline h _ _) fun _ => h.pure _

theorem closed_addPix (a1 : Int) (colour : Nat) : P (addPix a1 colour) :=
  h.get (fun _ _ => rfl) fun _ => h.bind (closed_lineEnd h) fun _ => h.ite _
    (h.bind (closed_extendLine h _ _ _) fun _ => h.cc _) (h.pure _)

theorem closed_backUp (a1 : Int) (p : Nat) : P (backUp a1 p) := by
  induction p with
  | zero => exact h.pure _
  | succ p ih => exact h.bind (closed_readCline h _) fun _ => h.ite _ ih (h.pure _)

theorem closed_addPixNeg (a1 : Int) (colour : Nat) : P (addPixNeg a1 colour) := by
  refine h.get (fun _ _ => rfl) fun _ => h.bind (closed_lineEnd h) fun _ => h.ite _
    (h.bind (closed_extendLine h _ _ _) fun _ => h.cc _) (h.ite _ ?_ (h.pure _))
  refine h.bind (h.ite _ (h.bind (closed_flagDamaged h) fun _ => h.pure _) (h.pure _)) fun _ => ?_
  exact h.bind (closed_backUp h _ _) fun _ => h.bind (closed_writeCline h _ _) fun _ => h.cc _

theorem closed_fillRow : P fillRow := h.get (fun _ _ => rfl) fun _ => closed_addPix h _ _

theorem closed_rowEof : P rowEof := h.bind (closed_fillRow h) fun _ => closed_flagEof h

theorem closed_rowBad : P rowBad :=
  h.bind (closed_flagDamaged h) fun _ => h.bind (closed_fillRow h) fun _ => closed_brSkip h _

theorem closed_matchRunCode (colour : Nat) : P (matchRunCode colour) := by
  refine h.bind (closed_brPeek h _) fun look => h.ite _ (h.pure _) ?_
  split
  · exact h.bind (closed_brSkip h _) fun _ => h.pure _
  · exact h.pure _

theorem closed_matchModeCode : P matchModeCode := by
  refine h.bind (closed_brPeek h _) fun look => h.ite _ (h.pure _) ?_
  split
  · exact h.bind (closed_brSkip h _) fun _ => h.pure _
  · exact h.pure _

theorem closed_runLenFrom (colour fuel : Nat) : ∀ total, P (runLenFrom colour fuel total) := by
  induction fuel with
  | zero => exact fun _ => h.refuse _
  | succ fuel ih =>
    refine fun total => h.bind (closed_matchRunCode h _) fun r => ?_
    split
    · exact h.bind (closed_rowEof h) fun _ => h.pure _
    · exact h.bind (closed_rowBad h) fun _ => h.pure _
    · exact h.ite _ (h.pure _) (ih _)

theorem closed_runLen (colour : Nat) : P (runLen colour) := h.get (fun _ _ => rfl) fun _ => closed_runLenFrom h _ _ _

theorem closed_row1DLoop (fuel : Nat) : ∀ colour, P (row1DLoop fuel colour) := by
  induction fuel with
  | zero => exact fun _ => h.refuse _
  | succ fuel ih =>
    refine fun colour => h.get (fun _ _ => rfl) fun s => h.bind (closed_lineEnd h) fun e => h.ite _ ?_ (h.pure _)
    refine h.bind (closed_runLen h _) fun r => ?_
    split
    · exact h.pure _
    · exact h.bind (closed_lineEnd h) fun _ => h.bind (closed_addPix h _ _) fun _ => ih _

theorem closed_decodeRow1D : P decodeRow1D :=
  h.bind (closed_writeCline h _ _) fun _ => h.bind (h.cc _) fun _ => h.get (fun _ _ => rfl) fun _ =>
    closed_row1DLoop h _ _

theorem closed_copyLine (fuel : Nat) : ∀ i, P (copyLine fuel i) := by
  induction fuel with
  | zero => exact fun _ => h.refuse _
  | succ fuel ih =>
    exact fun i => h.get (fun _ _ => rfl) fun _ => h.bind (closed_readCline h _) fun _ => h.ite _
      (h.bind (closed_writeRline h _ _) fun _ => ih _) (h.pure _)

theorem closed_terminateLine (n : Nat) : ∀ j, P (terminateLine n j) := by
  induction n with
  | zero => exact fun _ => h.pure _
  | succ n ih => exact fun j => h.get (fun _ _ => rfl) fun _ => h.bind (closed_writeRline h _ _) fun _ => ih _

theorem closed_adv (rp : Nat) : P (adv rp) := by
  suffices ∀ fuel rp, P (advanceRef fuel rp) from h.get (fun _ _ => rfl) fun _ => this _ _
  intro fuel
  induction fuel with
  | zero => exact fun _ => h.refuse _
  | succ fuel ih =>
    exact fun rp => h.get (fun _ _ => rfl) fun _ => h.bind (closed_refLine h _) fun _ => h.bind (closed_lineEnd h) fun _ =>
      h.ite _ (ih _) (h.pure _)

theorem closed_rowOpen : P rowOpen := h.get (fun _ _ => rfl) fun _ => h.bind (closed_lineEnd h) fun _ => h.pure _

theorem closed_modePass (rp colour : Nat) : P (modePass rp colour) :=
  h.get (fun _ _ => rfl) fun _ => h.bind (closed_refLine h _) fun _ => h.bind (closed_addPix h _ _) fun _ => h.pure _

theorem closed_modeHorizontal (rp colour : Nat) : P (modeHorizontal rp colour) := by
  refine h.bind (closed_runLen h _) fun r1 => ?_
  split
  · exact h.pure _
  · refine h.bind (closed_runLen h _) fun r2 => ?_
    split
    · exact h.pure _
    · refine h.bind (closed_lineEnd h) fun _ => h.bind (closed_addPix h _ _) fun _ => h.bind (closed_rowOpen h) fun _ => ?_
      refine h.bind (h.ite _ ?_ (h.pure _)) fun _ => h.bind (closed_adv h _) fun _ => h.pure _
      exact h.bind (closed_lineEnd h) fun _ => closed_addPix h _ _

theorem closed_modeRight (d rp colour : Nat) : P (modeRight d rp colour) :=
  h.bind (closed_refLine h _) fun _ => h.bind (closed_addPix h _ _) fun _ => h.bind (closed_rowOpen h) fun _ =>
    h.ite _ (closed_adv h _) (h.pure _)

theorem closed_modeLeft (d rp colour : Nat) : P (modeLeft d rp colour) :=
  h.bind (closed_refLine h _) fun _ => h.bind (closed_addPixNeg h _ _) fun _ => h.bind (closed_rowOpen h) fun _ =>
    h.ite _ (closed_adv h _) (h.pure _)

theorem closed_row2DLoop (fuel : Nat) : ∀ rp colour, P (row2DLoop fuel rp colour) := by
  induction fuel with
  | zero => exact fun _ _ => h.refuse _
  | succ fuel ih =>
    refine fun rp colour => h.bind (closed_rowOpen h) fun more => h.ite _ ?_ (h.pure _)
    refine h.bind (closed_matchModeCode h) fun m => ?_
    split
    · exact closed_rowEof h
    · exact closed_rowBad h
    · exact h.bind (closed_modePass h _ _) fun _ => ih _ _
    · refine h.bind (closed_modeHorizontal h _ _) fun r => ?_
      split
      · exact h.pure _
      · exact ih _ _
    · exact h.bind (closed_modeRight h _ _ _) fun _ => ih _ _
    · exact h.bind (closed_modeLeft h _ _ _) fun _ => ih _ _

theorem closed_decodeRow2D : P decodeRow2D :=
  h.get (fun _ _ => rfl) fun _ => h.bind (closed_copyLine h _ _) fun _ => h.bind (closed_terminateLine h _ _) fun _ =>
    h.bind (closed_writeCline h _ _) fun _ => h.bind (h.cc _) fun _ => closed_row2DLoop h _ _ _

theorem closed_nextRun : P nextRun := by
  suffices ∀ fuel, P (nextRunLoop fuel) from h.get (fun _ _ => rfl) fun _ => this _
  intro fuel
  induction fuel with
  | zero => exact h.refuse _
  | succ fuel ih =>
    refine h.get (fun _ _ => rfl) fun s => h.ite _ (h.bind (closed_lineEnd h) fun e => h.ite _ ?_ (h.pure _)) (h.pure _)
    exact h.bind (h.cc _) fun _ => h.bind (closed_lineEnd h) fun _ =>
      h.bind (h.cc _) fun _ => ih

theorem closed_skipZeros (fuel : Nat) : P (skipZeros fuel) := by
  induction fuel with
  | zero => exact h.refuse _
  | succ fuel ih =>
    exact h.bind (closed_brPeek h _) fun _ => h.ite _ (h.bind (closed_brSkip h _) fun _ => ih) (h.pure _)

theorem closed_huntEol (fuel : Nat) : P (huntEol fuel) := by
  induction fuel with
  | zero => exact h.refuse _
  | succ fuel ih =>
    exact h.bind (closed_brPeek h _) fun _ => h.ite _ (h.bind (closed_brSkip h _) fun _ => ih) (h.pure _)

theorem closed_readTag : P readTag :=
  h.bind (closed_brPeek h _) fun _ => h.bind (h.cc _) fun _ => closed_brSkip h _

theorem closed_skipTag : P skipTag := h.get (fun _ _ => rfl) fun _ => h.ite _ (closed_brSkip h _) (h.pure _)

theorem closed_findEol : P findEol := by
  refine h.bind (h.get (fun _ _ => rfl) fun s => h.ite _ (closed_huntEol h _) (closed_skipZeros h _)) fun code => ?_
  exact h.ite _ (h.bind (closed_brSkip h _) fun _ => h.pure _)
    (h.ite _ (h.bind (closed_flagEof h) fun _ => h.pure _) (h.pure _))

theorem closed_endOfBlock : P endOfBlock := by
  have hs : ∀ n, P (skipEols n) := by
    intro n
    induction n with
    | zero => exact h.pure _
    | succ n ih => exact h.bind (closed_brSkip h _) fun _ => h.bind (closed_skipTag h) fun _ => ih
  refine h.get (fun _ _ => rfl) fun s => h.bind (closed_brPeek h _) fun v => h.ite _ ?_ (h.pure _)
  refine h.bind (closed_brSkip h _) fun _ => h.bind (closed_skipTag h) fun _ => ?_
  exact h.bind (h.ite _ (hs _) (h.pure _)) fun _ => closed_flagEof h

theorem closed_resync : P resync := by
  have hr : ∀ fuel, P (resyncLoop fuel) := by
    intro fuel
    induction fuel with
    | zero => exact h.refuse _
    | succ fuel ih =>
      refine h.bind (closed_brPeek h _) fun code => h.ite _
        (h.bind (closed_flagEof h) fun _ => h.pure _) (h.ite _ (h.pure _) ?_)
      exact h.bind (closed_brSkip h _) fun _ => ih
  refine h.get (fun _ _ => rfl) fun s => h.bind (hr _) fun r => h.get (fun _ _ => rfl) fun t => ?_
  split
  · exact h.pure _
  · refine h.ite _ (h.pure _) (h.bind (closed_brSkip h _) fun _ => h.ite _ ?_ (h.pure _))
    exact h.bind (closed_brSkip h _) fun _ => h.cc _

theorem closed_postRow : P postRow := by
  refine h.get (fun _ _ => rfl) fun s => h.bind (h.ite _ (h.keep _) (h.pure _)) fun _ => ?_
  refine h.bind (h.get (fun _ _ => rfl) fun s => h.ite _ (h.bind (closed_flagEof h) fun _ => h.pure _)
    (closed_findEol h)) fun gotEol => ?_
  refine h.get (fun _ _ => rfl) fun t => h.bind (h.ite _ (closed_readTag h) (h.pure _)) fun _ => ?_
  refine h.bind (h.ite _ (closed_endOfBlock h) (h.ite _ (closed_resync h) (h.pure _))) fun _ => ?_
  refine h.bind (h.cc _) fun _ => h.bind (closed_readCline h _) fun _ => ?_
  exact h.bind (h.cc _) fun _ => h.bind (closed_nextRun h) fun _ => h.cc _

theorem closed_openRows (kmode : Nat) : P (openRows kmode) := by
  refine h.get (fun _ _ => rfl) fun s => h.bind (closed_skipZeros h _) fun code => ?_
  refine h.bind (h.ite _ (closed_brSkip h _) (h.pure _)) fun _ => h.bind (closed_brPeek h _) fun v => ?_
  exact h.ite _ (closed_flagEof h) (h.ite _ (closed_readTag h) (h.pure _))

theorem closed_decodeRow : P decodeRow := by
  refine h.bind (h.flags _ fun _ => rfl) fun _ => h.get (fun _ _ => rfl) fun s => ?_
  exact h.bind (h.ite _ (closed_decodeRow2D h) (closed_decodeRow1D h)) fun _ => closed_postRow h

theorem closed_serveBits (fuel : Nat) : ∀ bits b, P (serveBits fuel bits b) := by
  induction fuel with
  | zero => exact fun _ _ => h.pure _
  | succ fuel ih =>
    refine fun bits b => h.ite _ (h.pure _) (h.get (fun _ _ => rfl) fun s => h.bind (h.cc _) fun _ => ?_)
    refine h.ite _ (h.bind (closed_nextRun h) fun _ => h.get (fun _ _ => rfl) fun _ => ?_) (ih _ _)
    exact h.ite _ (h.pure _) (ih _ _)

theorem closed_servePixels : P servePixels := by
  refine h.get (fun _ _ => rfl) fun s => h.ite _ ?_ (closed_serveBits h _ _ _)
  exact h.bind (h.cc _) fun _ => h.bind (closed_nextRun h) fun _ => h.pure _

theorem closed_serveByte (hr : ∀ v, P (putRes v)) : P serveByte :=
  h.bind (closed_servePixels h) fun _ => h.get (fun _ _ => rfl) fun _ => hr _

theorem closed_ccittReadbyteBody (hr : ∀ v, P (putRes v)) : P ccittReadbyteBody := by
  refine h.bind (closed_needReady h _) fun _ => h.get (fun _ _ => rfl) fun s => h.bind (h.check _ _ _) fun _ => ?_
  refine h.ite _ (h.ite _ (hr _) ?_) (closed_serveByte h hr)
  exact h.bind (closed_decodeRow h) fun _ => closed_serveByte h hr

end

end Sys2Proof.Machine
end

