-- ==== Sys2Proof/Laws/Ahead.lean ====
section
/-! SUPPORT. A CCITT procedure looks at no byte of STREAM but those BR_POS has passed when it ends (41_bitreader.md R181, 43_ccitt.md
R260). What is proved of a window whose bytes are all written holds then of one in which only those are
(`ccittReadbyte_ahead`, `openRows_ahead`, `exists_filled`). -/

namespace Sys2Proof.Machine

variable {α β : Type}

/-- `p` moves BR_POS forward only, leaves STREAM, and ends the same with any STREAM that agrees on the bytes BR_POS passed. -/
def Ahead (p : Proc α) : Prop :=
  ∀ s a t, p s = .ok a t → t.stream = s.stream ∧ s.br.pos.toNat ≤ t.br.pos.toNat ∧
    ∀ m : Memory (Space.width .stream),
      (∀ i, s.br.pos.toNat ≤ i → i < t.br.pos.toNat → m.read? i = s.elem .stream i) →
        p (s.setMem .stream m) = .ok a (t.setMem .stream m)

theorem ahead_pure (a : α) : Ahead (pure a) := by
  intro s b t h
  obtain ⟨rfl, rfl⟩ : a = b ∧ s = t := by cases h; exact ⟨rfl, rfl⟩
  exact ⟨rfl, le_rfl, fun _ _ => rfl⟩

/-- A procedure that only stops. -/
theorem ahead_stop {p : Proc α} (h : ∀ s a t, p s ≠ .ok a t) : Ahead p := fun s a t e => (h s a t e).elim

theorem proc_bind_ok {p : Proc β} {f : β → Proc α} {s : State} {a : α} {u : State} :
    (p >>= f) s = .ok a u ↔ ∃ b t, p s = .ok b t ∧ f b t = .ok a u := by
  have e : (p >>= f) s = EStateM.bind p f s := rfl
  rw [e]
  unfold EStateM.bind
  cases p s <;> simp

theorem ahead_bind {p : Proc β} {f : β → Proc α} (hp : Ahead p) (hf : ∀ b, Ahead (f b)) : Ahead (p >>= f) := by
  intro s a u h
  obtain ⟨b, t, h1, h2⟩ := proc_bind_ok.1 h
  obtain ⟨hs1, hl1, hm1⟩ := hp _ _ _ h1
  obtain ⟨hs2, hl2, hm2⟩ := hf b _ _ _ h2
  refine ⟨hs2.trans hs1, hl1.trans hl2, fun m hm => proc_bind_ok.2 ⟨b, _, hm1 m fun i h3 h4 => hm i h3 (by omega), ?_⟩⟩
  refine hm2 m fun i h3 h4 => (hm i (by omega) h4).trans ?_
  exact congrArg (fun x : Memory 8 => x.read? i) hs1.symm

theorem ahead_get {f : State → Proc α} (hm : ∀ s m, f (s.setMem .stream m) = f s) (hf : ∀ s, Ahead (f s)) :
    Ahead (get >>= f) := by
  intro s a t h
  obtain ⟨h1, h2, h3⟩ := hf s s a t h
  refine ⟨h1, h2, fun m h4 => ?_⟩
  have := h3 m h4
  rw [← hm s m] at this
  exact this

/-- An update of the state that does not look at STREAM and moves BR_POS forward only. -/
theorem ahead_modify {f : State → State} (hs : ∀ s, (f s).stream = s.stream) (hp : ∀ s, s.br.pos.toNat ≤ (f s).br.pos.toNat)
    (hm : ∀ s m, f (s.setMem .stream m) = (f s).setMem .stream m) : Ahead (modify f) := by
  intro s a t h
  obtain rfl : f s = t := by cases h; rfl
  refine ⟨hs s, hp s, fun m _ => ?_⟩
  rw [← hm s m]
  rfl

theorem ahead_check (b : Bool) (f : FaultName) (info : Nat) : Ahead (check b f info) := by
  cases b
  · exact ahead_pure _
  · exact ahead_stop fun _ _ _ h => by cases h

theorem ahead_refuse (r : Refusal) : Ahead (refuse r : Proc α) := ahead_stop fun _ _ _ h => by cases h

theorem memRead_ok {sp : Space} {a : Nat} {s t : State} {v : BitVec sp.width} :
    memRead sp a s = .ok v t ↔ a < s.sizeOf sp ∧ s.elem sp a = some v ∧ s = t := by
  have e : memRead sp a s = (if s.sizeOf sp ≤ a then refuse .blockAccessOutOfRange else
    match s.elem sp a with
    | some v => pure v
    | none => raise .unwrittenRead (unwrittenInfo sp a) : Proc (BitVec sp.width)) s := rfl
  rw [e]
  split
  · exact ⟨fun h => (by cases h), fun h => (by omega)⟩
  · next hc =>
    cases s.elem sp a with
    | none => exact ⟨fun h => (by cases h), fun h => (by cases h.2.1)⟩
    | some w => exact ⟨fun h => (by cases h; exact ⟨by omega, rfl, rfl⟩), fun ⟨_, h, h'⟩ => (by cases h; cases h'; rfl)⟩

theorem ahead_memRead {sp : Space} (hsp : sp ≠ .stream) (a : Nat) : Ahead (memRead sp a) := by
  intro s v t h
  obtain ⟨ha, hv, rfl⟩ := memRead_ok.1 h
  exact ⟨rfl, le_rfl, fun m _ => memRead_ok.2 ⟨by simpa using ha, (State.elem_setMem_other s m hsp a).trans hv, rfl⟩⟩

theorem ahead_memWrite {sp : Space} (hsp : sp = .cline ∨ sp = .rline) (a : Nat) (v : BitVec sp.width) : Ahead (memWrite sp a v) := by
  intro s u t h
  have hp : ∀ u : State, memWrite sp a v u = if u.sizeOf sp ≤ a then .error (.refuse .blockAccessOutOfRange) u else
      .ok ⟨⟩ (u.setMem sp ((u.mem sp).write a v)) := by
    intro u
    have e : memWrite sp a v u = (if u.sizeOf sp ≤ a then refuse .blockAccessOutOfRange else
      set (u.setMem sp ((u.mem sp).write a v)) : Proc Unit) u := rfl
    rw [e]
    split <;> rfl
  rw [hp] at h
  simp only [hp, State.setMem_sizeOf]
  split at h
  · cases h
  · next hc =>
    cases h
    rcases hsp with rfl | rfl <;> exact ⟨rfl, le_rfl, fun m _ => by rw [if_neg hc]; rfl⟩

/-- One byte of Fill, inside the window. -/
theorem ahead_brFetch {s t : State} {a : Unit} (hlt : s.br.pos.toNat < s.br.endIdx.toNat) (h : brFetch s = .ok a t) :
    t.stream = s.stream ∧ t.br.pos.toNat = s.br.pos.toNat + 1 ∧ ∀ m : Memory (Space.width .stream),
      m.read? s.br.pos.toNat = s.elem .stream s.br.pos.toNat → brFetch (s.setMem .stream m) = .ok a (t.setMem .stream m) := by
  obtain ⟨b, u, h1, h2⟩ := proc_bind_ok.1 (show (memRead .stream s.br.pos.toNat >>= _) s = .ok a t from h)
  obtain ⟨ha, hv, rfl⟩ := memRead_ok.1 h1
  cases h2
  refine ⟨rfl, ?_, fun m hm => (proc_bind_ok (p := memRead .stream s.br.pos.toNat)).2 ⟨b, _, memRead_ok.2 ⟨by simpa using ha, ?_, rfl⟩, rfl⟩⟩
  · have := s.br.endIdx.isLt
    have h1 : (1 : Word).toNat = 1 := rfl
    simp only [State.setBr_br]
    split <;> simp only [BitVec.toNat_add, h1] <;> omega
  · rw [State.elem, State.setMem_mem_same]
    exact hm.trans hv

theorem ahead_brFill (n : Nat) : Ahead (brFill n) := by
  suffices ∀ k, Ahead (brFillLoop n k) from this n
  intro k
  induction k with
  | zero => exact ahead_pure _
  | succ k ih =>
    intro s a t h
    have e : ∀ u : State, brFillLoop n (k + 1) u = if u.br.cnt.toNat < n ∧ u.br.pos.toNat < u.br.endIdx.toNat then
        (brFetch >>= fun _ => brFillLoop n k) u else .ok () u := by
      intro u
      have e : brFillLoop n (k + 1) u = (if u.br.cnt.toNat < n ∧ u.br.pos.toNat < u.br.endIdx.toNat then
        (brFetch >>= fun _ => brFillLoop n k) else pure () : Proc Unit) u := rfl
      rw [e]
      split <;> rfl
    simp only [e, State.setMem_br] at h ⊢
    split at h
    · next hc =>
      obtain ⟨b, u, h1, h2⟩ := proc_bind_ok.1 h
      obtain ⟨hs1, hl1, hm1⟩ := ahead_brFetch hc.2 h1
      obtain ⟨hs2, hl2, hm2⟩ := ih _ _ _ h2
      refine ⟨hs2.trans hs1, by omega, fun m hm => ?_⟩
      rw [if_pos hc]
      refine proc_bind_ok.2 ⟨b, _, hm1 m (hm _ le_rfl (by omega)), hm2 m fun i h3 h4 => (hm i (by omega) h4).trans ?_⟩
      exact congrArg (fun x : Memory 8 => x.read? i) hs1.symm
    · next hc => cases h; exact ⟨rfl, le_rfl, fun m _ => if_neg hc⟩

theorem ahead_ccitt : CcittClosed @Ahead where
  pure := ahead_pure
  refuse := ahead_refuse
  check := ahead_check
  bind := ahead_bind
  get := ahead_get
  readCline := ahead_memRead (by decide)
  readRline := ahead_memRead (by decide)
  writeCline := ahead_memWrite (.inl rfl)
  writeRline := ahead_memWrite (.inr rfl)
  cc := fun _ => ahead_modify (fun _ => rfl) (fun _ => le_rfl) fun _ _ => rfl
  flags := fun _ _ => ahead_modify (fun _ => rfl) (fun _ => le_rfl) fun _ _ => rfl
  fill := ahead_brFill
  keep := fun _ => ahead_modify (fun _ => rfl) (fun _ => le_rfl) fun _ _ => rfl

/-- There is a STREAM in which the bytes from `lo` up to `lo + n` are written, the unwritten ones with 0, as they are read
in `State.value`; the others are as they were. -/
theorem exists_filled (s : State) (lo n : Nat) : ∃ m : Memory (Space.width .stream), ∀ i,
    m.read? i = if lo ≤ i ∧ i < lo + n then some (s.value .stream i) else s.elem .stream i := by
  induction n with
  | zero => exact ⟨s.stream, fun i => by rw [if_neg (by omega)]; rfl⟩
  | succ n ih =>
    obtain ⟨m, hm⟩ := ih
    refine ⟨m.write (lo + n) (s.value .stream (lo + n)), fun i => ?_⟩
    rw [Memory.read?_write, hm]
    by_cases h : i = lo + n
    · subst h; simp
    · simp only [if_neg h]
      congr 1
      simp only [eq_iff_iff]
      omega

/-- Such a STREAM changes no value. -/
theorem value_filled {s : State} {lo n : Nat} {m : Memory (Space.width .stream)}
    (hm : ∀ i, m.read? i = if lo ≤ i ∧ i < lo + n then some (s.value .stream i) else s.elem .stream i) (sp : Space) (i : Nat) :
    (s.setMem .stream m).value sp i = s.value sp i := by
  by_cases h : sp = .stream
  · subst h
    rw [State.value, State.elem, State.setMem_mem_same, hm]
    split <;> rfl
  · rw [State.value, State.elem_setMem_other _ _ h]; rfl

/-- The bytes BR passed are among those `BrAhead` asks for, `k` bits taken at most. -/
theorem pos_le_of_unread {s t : State} {k : Nat} (hs : BrInv s) (ht : BrInv t) (hsr : s.flags.brRdy = true)
    (htr : t.flags.brRdy = true) (hsm : s.br.mode = .plain) (htm : t.br.mode = .plain) (he : t.br.endIdx = s.br.endIdx)
    (hk : s.brUnread.length - t.brUnread.length ≤ k) :
    t.br.pos.toNat ≤ min s.br.endIdx.toNat (s.br.pos.toNat + (k + 23 - s.br.cnt.toNat) / 8) := by
  obtain ⟨-, h1, h2, -, h3⟩ := hs hsr
  obtain ⟨-, h4, h5, -, h6⟩ := ht htr
  rw [brUnread_length hsm (h3 hsm), brUnread_length htm (h6 htm), he] at hk
  rw [he] at h5
  omega

/-- CCITT.READBYTE with STREAM `m` tells what it does with the STREAM there is, when the two agree on the bytes it passed. -/
theorem ccittReadbyte_ahead {s : State} {m : Memory (Space.width .stream)} {Q : State → Prop}
    (h : Ends ccittReadbyteBody (s.setMem .stream m) (fun _ t => Q t ∧
      ∀ i, s.br.pos.toNat ≤ i → i < t.br.pos.toNat → s.elem .stream i = m.read? i) fun _ _ => False) :
    ∃ t, exec .ccittReadbyte s = .next (t.setMem .stream s.stream) ∧ t.stream = m ∧ Q t := by
  unfold Ends at h
  split at h
  · next t e =>
    have hr : ∀ v, Ahead (putRes v) := fun _ => ahead_modify (fun _ => rfl) (fun _ => le_rfl) fun _ _ => rfl
    obtain ⟨h1, -, h3⟩ := closed_ccittReadbyteBody ahead_ccitt hr _ _ _ e
    have h4 := h3 s.stream fun i hi hj => (h.2 i hi hj).trans rfl
    rw [State.setMem_setMem] at h4
    refine ⟨t, ?_, h1, h.1⟩
    show runCommand ccittReadbyteBody s = _
    unfold runCommand
    rw [show s.setMem .stream s.stream = s from rfl] at h4
    rw [h4]
  · exact h.elim

/-- The same of what CCITT.INIT reads (`openRows`). -/
theorem openRows_ahead {s : State} {kmode : Nat} {m : Memory (Space.width .stream)} {Q : State → Prop} {E : Stop → State → Prop}
    (h : Ends (openRows kmode) (s.setMem .stream m) (fun _ t => Q (t.setMem .stream s.stream) ∧
      ∀ i, s.br.pos.toNat ≤ i → i < t.br.pos.toNat → s.elem .stream i = m.read? i) fun _ _ => False) :
    Ends (openRows kmode) s (fun _ t => Q t) E := by
  unfold Ends at h ⊢
  split at h
  · next t e =>
    obtain ⟨-, -, h3⟩ := closed_openRows ahead_ccitt kmode _ _ _ e
    have h4 := h3 s.stream fun i hi hj => (h.2 i hi hj).trans rfl
    rw [State.setMem_setMem, show s.setMem .stream s.stream = s from rfl] at h4
    rw [h4]
    exact h.1
  · exact h.elim

end Sys2Proof.Machine
end

