-- ==== Sys2Proof/Laws/Ccitt.lean ====
section
/-! SUPPORT. What the shared operations of the CCITT unit do to the row being read, on the reference forms of Safety.lean: Match,
AddPix, AddPixNeg, RunLen and DecodeRow1D (43_ccitt.md R261 to R273). -/

namespace Sys2Proof.Machine

/-! ## The code tables -/

/-- The machine's run codes are those of the spec, each of 1 to 13 bits. -/
theorem runCodes_table : ∀ colour ∈ [0, 1],
    runTable colour = (runCodes colour).map (fun c => (bitsMsb c.len c.code, c.run)) ∧
      ∀ c ∈ runCodes colour, 1 ≤ c.len ∧ c.len ≤ 13 ∧ c.code < 2 ^ c.len := by decide +kernel

theorem modeCodes_table :
    modeTable = modeCodes.map (fun c => (bitsMsb c.len c.code, c.mode)) ∧
      ∀ c ∈ modeCodes, 1 ≤ c.len ∧ c.len ≤ 13 ∧ c.code < 2 ^ c.len := by decide +kernel

/-- A code is the head of the look-ahead exactly when it is a prefix of the bits, padded with zeros. -/
theorem prefix_iff_look {n code : Nat} {l : List Bool} (hn : n ≤ 13) (hc : code < 2 ^ n) (hl : l ≠ []) :
    lookAhead 13 l / 2 ^ (13 - n) = code ↔ (bitsMsb n code).isPrefixOf (l ++ List.replicate 13 false) = true := by
  have hlen : 13 ≤ (l ++ List.replicate 13 false).length := by simp
  rw [lookAhead, if_neg hl]
  generalize l ++ List.replicate 13 false = m at hlen
  have ht : (m.take 13).take n = m.take n := by rw [List.take_take, Nat.min_eq_left hn]
  have hd : ((m.take 13).drop n).length = 13 - n := by simp; omega
  have hv : numOf (m.take 13) / 2 ^ (13 - n) = numOf (m.take n) := by
    conv_lhs => rw [← List.take_append_drop n (m.take 13), numOf_append, ht, hd]
    have := numOf_lt ((m.take 13).drop n)
    rw [hd] at this
    rw [Nat.add_comm, Nat.add_mul_div_right _ _ (by positivity), Nat.div_eq_of_lt this, Nat.zero_add]
  have hb : (m.take n).length = n := by simp; omega
  rw [hv, List.isPrefixOf_iff_prefix, List.prefix_iff_eq_take, bitsMsb_length]
  constructor
  · rintro rfl
    have := bitsMsb_numOf (m.take n)
    rwa [hb] at this
  · intro h
    rw [← h, numOf_bitsMsb, Nat.mod_eq_of_lt hc]

/-- Match on the machine's table is `readCode` on the spec's (R267). -/
theorem find_code {α β : Type} (t : List α) (len code : α → Nat) (val : α → β) {l : List Bool} (hl : l ≠ [])
    (ht : ∀ c ∈ t, 1 ≤ len c ∧ len c ≤ 13 ∧ code c < 2 ^ len c) :
    readCode (t.map fun c => (bitsMsb (len c) (code c), val c)) l =
      match t.find? fun c => decide (lookAhead 13 l / 2 ^ (13 - len c) = code c) with
      | some c => .ok (val c) (l.drop (len c))
      | none => .bad l := by
  rw [readCode, if_neg hl, List.find?_map]
  have : t.find? ((fun c : List Bool × β => c.1.isPrefixOf (l ++ List.replicate 13 false)) ∘
        fun c => (bitsMsb (len c) (code c), val c)) =
      t.find? fun c => decide (lookAhead 13 l / 2 ^ (13 - len c) = code c) := by
    refine List.find?_congr fun c hc => ?_
    obtain ⟨-, h13, hlt⟩ := ht c hc
    rw [Bool.eq_iff_iff, decide_eq_true_iff, prefix_iff_look h13 hlt hl]
    rfl
  rw [this]
  cases t.find? fun c => decide (lookAhead 13 l / 2 ^ (13 - len c) = code c) <;> simp

/-! ## The row being read -/

@[simp] theorem RowRead.addPix_rest (cols a colour : Nat) (r : RowRead) : (r.addPix cols a colour).rest = r.rest := by
  unfold RowRead.addPix; split <;> (try split) <;> (try split) <;> (try split) <;> rfl

@[simp] theorem RowRead.addPix_eof (cols a colour : Nat) (r : RowRead) : (r.addPix cols a colour).eof = r.eof := by
  unfold RowRead.addPix; split <;> (try split) <;> (try split) <;> (try split) <;> rfl

/-- AddPix neither looks at the unread bits nor at the end of the data. -/
theorem RowRead.addPix_with (cols a colour : Nat) (r : RowRead) (eof : Bool) (rest : List Bool) :
    { r with eof := eof, rest := rest }.addPix cols a colour = { r.addPix cols a colour with eof := eof, rest := rest } := by
  obtain ⟨ends, err, eof', rest'⟩ := r
  unfold RowRead.addPix
  cases ends
  · rfl
  · simp only
    (try split) <;> (try split) <;> (try split) <;> rfl

/-- CLINE[0 ..] holds the run ends `l`, the last one first. -/
def LineIs (s : State) (l : List Nat) : Prop := ∀ i, i < l.length → s.clineAt i = l.reverse[i]?

theorem LineIs.tail {s : State} {e : Nat} {es : List Nat} (h : LineIs s (e :: es)) : LineIs s es := fun i hi => by
  rw [h i (by simp; omega), List.reverse_cons, List.getElem?_append_left (by simpa using hi)]

theorem LineIs.suffix {s : State} {l m : List Nat} (h : LineIs s l) (hm : m <:+ l) : LineIs s m := by
  induction l with
  | nil => rwa [List.suffix_nil.1 hm]
  | cons e es ih =>
    rcases List.suffix_cons_iff.1 hm with rfl | hm
    · exact h
    · exact ih h.tail hm

/-- The state `s` holds the row `r` read so far: `cols` is CC_COLS and `warn` what CC_WARN was when the row began. -/
structure RowAt (cols : Nat) (warn : Bool) (s : State) (r : RowRead) : Prop where
  columns : s.cc.cols.toNat = cols
  fits : cols ≤ s.params.colsMax
  cpos : s.cc.cpos.toNat + 1 = r.ends.length
  room : r.ends.length ≤ cols + 1
  bound : ∀ e ∈ r.ends, e ≤ cols
  line : LineIs s r.ends
  ccErr : s.flags.ccErr = r.err
  ccWarn : s.flags.ccWarn = (warn || r.err)
  ccEof : s.flags.ccEof = r.eof
  rest : s.brUnread = r.rest
  mode : s.br.mode = .plain
  br : BrOk s

section Row

variable {cols : Nat} {warn : Bool} {s : State} {r : RowRead}

theorem RowAt.ends_cons (h : RowAt cols warn s r) : ∃ e es, r.ends = e :: es := by
  cases hr : r.ends with
  | nil => have := h.cpos; simp [hr] at this
  | cons e es => exact ⟨e, es, rfl⟩

/-- `CLINE[CC_CPOS]` is where the row has got to. -/
theorem ends_lineEnd (h : RowAt cols warn s r) (E : Stop → State → Prop) (Q : Int → State → Prop) :
    Ends lineEnd s Q E ↔ Q r.here s := by
  obtain ⟨e, es, he⟩ := h.ends_cons
  have hc : s.cc.cpos.toNat = es.length := by have := h.cpos; simpa [he] using this
  have hl := h.line es.length (by simp [he])
  simp only [he, List.reverse_cons, State.clineAt] at hl
  rw [List.getElem?_append_right (by simp)] at hl
  simp only [List.length_reverse, Nat.sub_self, List.getElem?_cons_zero, Option.map_eq_some_iff] at hl
  obtain ⟨v, hv, hve⟩ := hl
  have hroom := h.room
  simp only [he, List.length_cons] at hroom
  have hs : s.cc.cpos.toNat < s.sizeOf .cline := by
    have := h.fits
    simp only [State.sizeOf, Space.size]; omega
  simp only [lineEnd, readCline, ends_bind, ends_get]
  rw [ends_memRead_of s _ hs (hc ▸ hv), ends_pure, RowRead.here, he]
  simp only [List.headD_cons]
  rw [← hve]

/-- Writing `CLINE[es.length]` and putting CC_CPOS there, with CC_ERR and CC_WARN set when `bad`: the row's last run end becomes
`a`. -/
theorem RowAt.write (h : RowAt cols warn s r) {es : List Nat} {a : Nat} (bad : Bool) (hes : es <:+ r.ends)
    (hlen : es.length ≤ cols) (ha : a ≤ cols) {f : Flags} (hf : f = { s.flags with
      ccErr := s.flags.ccErr || bad, ccWarn := s.flags.ccWarn || bad }) :
    RowAt cols warn (((s.setFlags f).setMem .cline (((s.setFlags f).mem .cline).write es.length (word32 (a : Int)))).setCc
      { s.cc with cpos := u32 es.length }) { r with ends := a :: es, err := r.err || bad } := by
  have hc32 : cols < 2 ^ 32 := h.columns ▸ s.cc.cols.isLt
  have hword : (word32 (a : Int)).toNat = a := by
    rw [word32, wrap32, wrapN, BitVec.toNat_ofInt]; omega
  have hval : ∀ b, State.value (((s.setFlags f).setMem .cline (((s.setFlags f).mem .cline).write es.length
      (word32 (a : Int)))).setCc { s.cc with cpos := u32 es.length }) .stream b = s.value .stream b := fun b => by
    simp [State.value, State.elem_setMem_other (s.setFlags f) (sp := .cline) (sp' := .stream) _ (by decide)]
  refine ⟨h.columns, h.fits, ?_, by simp; omega, ?_, ?_, ?_, ?_, ?_, ?_, h.mode, ?_⟩
  · simp only [State.setCc_cc, u32, BitVec.toNat_ofNat, List.length_cons]
    omega
  · intro e he
    rcases List.mem_cons.1 he with rfl | he
    · exact ha
    · exact h.bound e (hes.mem he)
  · intro i hi
    simp only [State.clineAt, State.setCc_elem, State.elem_setMem_write, List.reverse_cons]
    rcases Nat.lt_or_ge i es.length with hlt | hge
    · rw [if_neg (by omega), List.getElem?_append_left (by simpa using hlt), State.setFlags_elem]
      exact h.line.suffix hes i hlt
    · have : i = es.length := by simp at hi; omega
      subst this
      rw [if_pos rfl, List.getElem?_append_right (by simp)]
      simp [hword]
  · simp [hf, h.ccErr]
  · simp [hf, h.ccWarn, Bool.or_assoc]
  · simp [hf, h.ccEof]
  · rw [← h.rest]
    simp only [State.brUnread, State.setCc_br, State.setMem_br, State.setFlags_br]
    exact congrArg _ (brBytes_congr (by rfl) hval _ _ _)
  · refine ⟨h.br.buf, h.br.cnt, h.br.pos, h.br.endIdx, h.br.skip, fun i hi => ?_⟩
    have := h.br.written i hi
    simpa [State.elem_setMem_other (s.setFlags f) (sp := .cline) (sp' := .stream) _ (by decide)] using this

theorem RowAt.cpos_eq (h : RowAt cols warn s r) {e : Nat} {es : List Nat} (he : r.ends = e :: es) :
    s.cc.cpos.toNat = es.length := by
  have := h.cpos
  simpa [he] using this

@[simp] theorem State.setFlags_columns (t : State) (f : Flags) : (t.setFlags f).columns = t.columns := rfl

@[simp] theorem ends_putCpos (t : State) (p : Nat) (E : Stop → State → Prop) (Q : Unit → State → Prop) :
    Ends (putCpos p) t Q E ↔ Q () (t.setCc { t.cc with cpos := u32 p }) := Iff.rfl

/-- A write to CLINE inside the row. -/
theorem ends_writeCline {t : State} {i : Nat} (hi : i ≤ t.params.colsMax) (v : Int) (E : Stop → State → Prop)
    (Q : Unit → State → Prop) :
    Ends (writeCline i v) t Q E ↔ Q () (t.setMem .cline ((t.mem .cline).write i (word32 v))) :=
  ends_memWrite_of t E (by simp only [State.sizeOf, Space.size]; omega)

/-- The branch of AddPix in which `a1` lies beyond the row so far, with the move of CC_CPOS after it (R268). -/
theorem ends_extendLine (h : RowAt cols warn s r) {e : Nat} {es : List Nat} (he : r.ends = e :: es) {a1 : Nat} (hlt : e < a1)
    (colour : Nat) :
    Ends (extendLine s.cc.cpos.toNat a1 colour) s (fun p t => Ends (putCpos p) t
      (fun _ u => RowAt cols warn u (r.addPix cols a1 colour)) (fun _ _ => False)) (fun _ _ => False) := by
  have hc := h.cpos_eq he
  have hroom := h.room
  have hfits := h.fits
  have hcol : s.columns = (cols : Int) := by simp [State.columns, h.columns]
  simp only [he, List.length_cons] at hroom
  have hsuf : r.ends <:+ r.ends := List.suffix_refl _
  have htl : es <:+ r.ends := he ▸ List.suffix_cons e es
  have hlen : r.ends.length = es.length + 1 := by simp [he]
  have hadd : r.addPix cols a1 colour =
      if es.length % 2 = colour then { r with ends := min a1 cols :: es, err := r.err || decide (cols < a1) }
      else if es.length = cols then { r with ends := cols :: es, err := true }
      else { r with ends := min a1 cols :: r.ends, err := r.err || decide (cols < a1) } := by
    unfold RowRead.addPix
    rw [he]
    simp only [if_neg (show ¬ a1 ≤ e by omega)]
  simp only [extendLine, clampColumns, ends_bind, ends_get, hcol, Nat.cast_lt, hc, hadd]
  by_cases hbig : cols < a1
  · simp only [if_pos hbig, ends_bind, flagDamaged, ends_modifyFlags, ends_pure, State.setFlags_cc, h.columns,
      Nat.min_eq_right hbig.le, decide_eq_true hbig, Bool.or_true]
    have hf : ({ s.flags with ccErr := true, ccWarn := true } : Flags) =
        { s.flags with ccErr := s.flags.ccErr || true, ccWarn := s.flags.ccWarn || true } := by simp
    by_cases hcl : es.length % 2 = colour
    · rw [if_neg (not_not.2 hcl), if_pos hcl, ends_bind, ends_writeCline (by simp; omega), ends_pure]
      simpa using h.write true htl (by omega) le_rfl hf
    · rw [if_pos hcl, if_neg hcl]
      by_cases hfull : es.length = cols
      · rw [if_pos hfull, if_pos hfull, ends_bind, ends_modifyFlags, ends_bind, ends_writeCline (by simp; omega), ends_pure]
        simpa [hcol] using h.write true htl (by omega) le_rfl hf
      · rw [if_neg hfull, if_neg hfull, ends_bind, ends_writeCline (by simp; omega), ends_pure]
        simpa [hlen] using h.write true hsuf (by omega) le_rfl hf
  · have hle : a1 ≤ cols := by omega
    simp only [if_neg hbig, ends_pure, Nat.min_eq_left hle, decide_eq_false hbig, Bool.or_false, h.columns]
    have hf : s.flags = { s.flags with ccErr := s.flags.ccErr || false, ccWarn := s.flags.ccWarn || false } := by simp
    by_cases hcl : es.length % 2 = colour
    · rw [if_neg (not_not.2 hcl), if_pos hcl, ends_bind, ends_writeCline (by omega), ends_pure]
      simpa using h.write false htl (by omega) hle hf
    · rw [if_pos hcl, if_neg hcl]
      by_cases hfull : es.length = cols
      · rw [if_pos hfull, if_pos hfull, ends_bind, flagDamaged, ends_modifyFlags, ends_bind,
          ends_writeCline (by simp; omega), ends_pure]
        simpa [hcol] using h.write true htl (by omega) le_rfl (f := { s.flags with ccErr := true, ccWarn := true }) (by simp)
      · rw [if_neg hfull, if_neg hfull, ends_bind, ends_writeCline (by omega), ends_pure]
        simpa [hlen] using h.write false hsuf (by omega) hle hf

/-- AddPix(a1, colour) (R268). -/
theorem ends_addPix (h : RowAt cols warn s r) (a1 colour : Nat) :
    Ends (addPix a1 colour) s (fun _ t => RowAt cols warn t (r.addPix cols a1 colour)) (fun _ _ => False) := by
  obtain ⟨e, es, he⟩ := h.ends_cons
  have hh : r.here = e := by simp [RowRead.here, he]
  simp only [addPix, ends_bind, ends_get, ends_lineEnd h, hh, Nat.cast_lt]
  by_cases hlt : e < a1
  · rw [if_pos hlt, ends_bind]
    exact ends_extendLine h he hlt colour
  · rw [if_neg hlt, ends_pure]
    have : r.addPix cols a1 colour = r := by
      unfold RowRead.addPix
      rw [he]
      simp only [if_pos (show a1 ≤ e by omega)]
    rwa [this]

/-- AddPixNeg's walk back: the run ends at or beyond `a` are passed (R269). -/
theorem ends_backUp {t : State} (a : Nat) (l : List Nat) (hl : LineIs t l) (hs : l.length ≤ t.params.colsMax) :
    Ends (backUp (a : Int) l.length) t (fun p u => u = t ∧ p = (l.dropWhile fun e => a < e).length) (fun _ _ => False) := by
  induction l with
  | nil => exact ⟨rfl, rfl⟩
  | cons e es ih =>
    have h0 := hl es.length (by simp)
    simp only [List.reverse_cons, State.clineAt] at h0
    rw [List.getElem?_append_right (by simp)] at h0
    simp only [List.length_reverse, Nat.sub_self, List.getElem?_cons_zero, Option.map_eq_some_iff] at h0
    obtain ⟨v, hv, hve⟩ := h0
    simp only [List.length_cons] at hs
    simp only [List.length_cons, backUp, readCline, ends_bind]
    rw [ends_memRead_of t _ (show es.length < t.sizeOf .cline by simp only [State.sizeOf, Space.size]; omega) hv, ends_pure]
    have hcast : ((BitVec.toNat v : Nat) : Int) = (e : Int) := by rw [hve]
    rw [hcast]
    by_cases hlt : a < e
    · rw [if_pos (by exact_mod_cast hlt), List.dropWhile_cons_of_pos (by simpa using hlt)]
      exact ih hl.tail (by omega)
    · rw [if_neg (by exact_mod_cast hlt), List.dropWhile_cons_of_neg (by simpa using hlt)]
      exact ⟨rfl, by simp⟩

/-- AddPixNeg(a1, colour) (R269). -/
theorem ends_addPixNeg (h : RowAt cols warn s r) (a1 : Int) (colour : Nat) :
    Ends (addPixNeg a1 colour) s (fun _ t => RowAt cols warn t (r.addPixNeg cols a1 colour)) (fun _ _ => False) := by
  obtain ⟨e, es, he⟩ := h.ends_cons
  have hh : r.here = e := by simp [RowRead.here, he]
  have hc := h.cpos_eq he
  have hroom := h.room
  have hfits := h.fits
  have hel : e ≤ cols := h.bound e (by simp [he])
  simp only [he, List.length_cons] at hroom
  have hline : LineIs s es := h.line.suffix (he ▸ List.suffix_cons e es)
  simp only [addPixNeg, ends_bind, ends_get, ends_lineEnd h, hh]
  unfold RowRead.addPixNeg
  rw [he]
  simp only
  by_cases hle : (e : Int) ≤ a1
  · obtain ⟨a, rfl⟩ : ∃ a : Nat, a1 = a := ⟨a1.toNat, by omega⟩
    rw [if_pos hle, Int.toNat_natCast]
    by_cases hlt : e < a
    · rw [if_pos (by exact_mod_cast hlt), ends_bind]
      exact ends_extendLine h he hlt colour
    · rw [if_neg (by omega), if_neg (by omega), ends_pure]
      have : r.addPix cols a colour = r := by
        unfold RowRead.addPix
        rw [he]
        simp only [if_pos (show a ≤ e by omega)]
      rwa [this]
  · rw [if_neg (by omega), if_pos (by omega), if_neg hle, hc]
    have hdrop : es.dropWhile (fun e' => decide (a1.toNat < e')) <:+ r.ends :=
      (List.dropWhile_suffix _).trans (he ▸ List.suffix_cons e es)
    have hlen := (List.dropWhile_suffix (l := es) fun e' => decide (a1.toNat < e')).length_le
    simp only [ends_bind, clampZero]
    by_cases hneg : a1 < 0
    · have h0 : a1.toNat = 0 := by omega
      rw [if_pos hneg, ends_bind, flagDamaged, ends_modifyFlags, ends_pure]
      rw [h0] at hdrop hlen
      refine (ends_backUp 0 es (t := s.setFlags _) (by simpa [LineIs, State.clineAt] using hline) (by simp; omega)).mono
        (fun p u hu => ?_) fun _ _ h => h
      obtain ⟨rfl, rfl⟩ := hu
      rw [ends_writeCline (by simp; omega), ends_putCpos]
      simpa [h0, hneg] using h.write true hdrop (by omega) (a := 0) (by omega)
        (f := { s.flags with ccErr := true, ccWarn := true }) (by simp)
    · obtain ⟨a, rfl⟩ : ∃ a : Nat, a1 = a := ⟨a1.toNat, by omega⟩
      rw [if_neg hneg, ends_pure]
      refine (ends_backUp a es hline (by omega)).mono (fun p u hu => ?_) fun _ _ h => h
      obtain ⟨rfl, rfl⟩ := hu
      simp only [Int.toNat_natCast] at hdrop hlen
      rw [ends_writeCline (by omega), ends_putCpos]
      simpa [hneg] using h.write false hdrop (by omega) (a := a) (by omega) (f := u.flags) (by simp)

/-! ## Bits under the row -/

/-- The BR unit moved on and left `rest` unread. -/
theorem RowAt.setBr (h : RowAt cols warn s r) {t : State} (ht : t = s.setBr t.br) (hm : t.br.mode = s.br.mode) (hok : BrOk t) :
    RowAt cols warn t { r with rest := t.brUnread } := by
  have hc : t.cc = s.cc := by rw [ht]; rfl
  have hp : t.params = s.params := by rw [ht]; rfl
  have hf : t.flags = s.flags := by rw [ht]; rfl
  have hl : ∀ i, t.clineAt i = s.clineAt i := fun i => by rw [ht]; simp [State.clineAt]
  exact ⟨hc ▸ h.columns, hp ▸ h.fits, hc ▸ h.cpos, h.room, h.bound, fun i hi => (hl i).trans (h.line i hi), hf ▸ h.ccErr,
    hf ▸ h.ccWarn, hf ▸ h.ccEof, rfl, hm.trans h.mode, hok⟩

theorem RowAt.filled (h : RowAt cols warn s r) {t : State} (ht : Filled s t) : RowAt cols warn t r := by
  have := h.setBr ht.only ht.mode ht.ok
  rwa [ht.unread, h.rest] at this

theorem RowAt.skipped (h : RowAt cols warn s r) {n : Nat} {t : State} (ht : Skipped n s t) :
    RowAt cols warn t { r with rest := r.rest.drop n } := by
  have := h.setBr ht.only ht.mode ht.ok
  rwa [ht.unread, h.rest] at this

/-- New CC flags. -/
theorem RowAt.setFlags (h : RowAt cols warn s r) {f : Flags} {err eof : Bool} (h1 : f.ccErr = err)
    (h2 : f.ccWarn = (warn || err)) (h3 : f.ccEof = eof) :
    RowAt cols warn (s.setFlags f) { r with err := err, eof := eof } := by
  have hu : (s.setFlags f).brUnread = s.brUnread := by
    simp only [State.brUnread, State.setFlags_br]
    exact congrArg _ (brBytes_congr (s := s) (t := s.setFlags f) rfl (by simp [State.value]) _ _ _)
  refine ⟨h.columns, h.fits, h.cpos, h.room, h.bound, fun i hi => ?_, h1, h2, h3, hu.trans h.rest, h.mode,
    h.br.buf, h.br.cnt, h.br.pos, h.br.endIdx, h.br.skip, fun i hi => ?_⟩
  · simpa [State.clineAt] using h.line i hi
  · simpa using h.br.written i hi

theorem RowAt.damaged (h : RowAt cols warn s r) :
    RowAt cols warn (s.setFlags { s.flags with ccErr := true, ccWarn := true }) { r with err := true } :=
  h.setFlags rfl (by simp) h.ccEof

theorem RowAt.ended (h : RowAt cols warn s r) :
    RowAt cols warn (s.setFlags { s.flags with ccEof := true }) { r with eof := true } :=
  h.setFlags h.ccErr h.ccWarn rfl

/-- In PLAIN mode the bits left are those buffered and eight for each byte still to come. -/
theorem RowAt.bitsLeft_eq (h : RowAt cols warn s r) : s.bitsLeft = r.rest.length := by
  rw [← h.rest, brUnread_length h.mode (h.br.skip h.mode), State.bitsLeft]

theorem lookAhead_eof {n : Nat} (hn : n ≤ 16) (l : List Bool) : lookAhead n l = eofv ↔ l = [] := by
  unfold lookAhead
  split
  · simp_all
  · next hl =>
    have h1 := numOf_lt ((l ++ List.replicate n false).take n)
    have h2 : ((l ++ List.replicate n false).take n).length ≤ n := by simp
    have h3 : 2 ^ ((l ++ List.replicate n false).take n).length ≤ 2 ^ 16 := Nat.pow_le_pow_right (by norm_num) (by omega)
    have h4 : eofv = 2 ^ 31 := rfl
    constructor
    · intro h; omega
    · intro h; exact absurd h hl

/-! ## Match and RunLen -/

/-- What Match answered, beside what the unread bits read as; the row so far stands, only the bits of a code are gone. -/
def MatchedAs {α : Type} (cols : Nat) (warn : Bool) (r : RowRead) (b : BitRead α) (m : Matched α) (t : State) : Prop :=
  match b, m with
  | .eof, .eof => RowAt cols warn t { r with rest := [] }
  | .bad rest, .bad => RowAt cols warn t { r with rest := rest }
  | .ok v rest, .ok w => w = v ∧ RowAt cols warn t { r with rest := rest }
  | _, _ => False

/-- Match(WHITE) or Match(BLACK) (R267). -/
theorem ends_matchRunCode (h : RowAt cols warn s r) {colour : Nat} (hcol : colour ∈ [0, 1]) :
    Ends (matchRunCode colour) s (fun m t => MatchedAs cols warn r (readCode (runTable colour) r.rest) m t)
      (fun _ _ => False) := by
  obtain ⟨ht, hlen⟩ := runCodes_table colour hcol
  simp only [matchRunCode, ends_bind]
  refine (ends_brPeek (by norm_num) (by norm_num) h.br).mono (fun look t hl => ?_) fun _ _ h => h
  obtain ⟨rfl, hf⟩ := hl
  have hr := h.filled hf
  rw [h.rest]
  by_cases he : r.rest = []
  · rw [if_pos ((lookAhead_eof (by norm_num) _).2 he), ends_pure, readCode, if_pos he]
    simpa only [MatchedAs, ← he] using hr
  · rw [if_neg fun hc => he ((lookAhead_eof (by norm_num) _).1 hc), ht, find_code _ _ _ _ he hlen, matchRun]
    cases hfind : (runCodes colour).find? fun c => decide (lookAhead 13 r.rest / 2 ^ (13 - c.len) = c.code) with
    | none => exact hr
    | some c =>
      simp only [ends_bind]
      have := (hlen c (List.mem_of_find?_eq_some hfind)).2.1
      exact (ends_brSkip (by omega) hr.br).mono (fun _ u hu => ⟨rfl, hr.skipped hu⟩) fun _ _ h => h

/-- Match(MODES) (R267). -/
theorem ends_matchModeCode (h : RowAt cols warn s r) :
    Ends matchModeCode s (fun m t => MatchedAs cols warn r (readCode modeTable r.rest) m t) (fun _ _ => False) := by
  obtain ⟨ht, hlen⟩ := modeCodes_table
  simp only [matchModeCode, ends_bind]
  refine (ends_brPeek (by norm_num) (by norm_num) h.br).mono (fun look t hl => ?_) fun _ _ h => h
  obtain ⟨rfl, hf⟩ := hl
  have hr := h.filled hf
  rw [h.rest]
  by_cases he : r.rest = []
  · rw [if_pos ((lookAhead_eof (by norm_num) _).2 he), ends_pure, readCode, if_pos he]
    simpa only [MatchedAs, ← he] using hr
  · rw [if_neg fun hc => he ((lookAhead_eof (by norm_num) _).1 hc), ht, find_code _ _ _ _ he hlen, matchMode]
    cases hfind : modeCodes.find? fun c => decide (lookAhead 13 r.rest / 2 ^ (13 - c.len) = c.code) with
    | none => exact hr
    | some c =>
      simp only [ends_bind]
      have := (hlen c (List.mem_of_find?_eq_some hfind)).2.1
      exact (ends_brSkip (by omega) hr.br).mono (fun _ u hu => ⟨rfl, hr.skipped hu⟩) fun _ _ h => h

theorem ends_fillRow (h : RowAt cols warn s r) :
    Ends fillRow s (fun _ t => RowAt cols warn t (r.addPix cols cols 0)) (fun _ _ => False) := by
  have hcol : s.columns = (cols : Int) := by simp [State.columns, h.columns]
  simp only [fillRow, ends_bind, ends_get, hcol]
  exact ends_addPix h cols 0

/-- The data ends inside a row (R271, R274). -/
theorem ends_rowEof (h : RowAt cols warn s { r with rest := [] }) :
    Ends rowEof s (fun _ t => RowAt cols warn t (r.cut cols)) (fun _ _ => False) := by
  simp only [rowEof, ends_bind]
  refine (ends_fillRow h).mono (fun _ t ht => ?_) fun _ _ h => h
  rw [flagEof, ends_modifyFlags, RowRead.cut, RowRead.addPix_with]
  have := ht.ended
  rwa [show ({ r with rest := [] } : RowRead) = { r with eof := r.eof, rest := [] } from rfl, RowRead.addPix_with] at this

/-- An invalid code inside a row (R271, R274). -/
theorem ends_rowBad {rest : List Bool} (h : RowAt cols warn s { r with rest := rest }) :
    Ends rowBad s (fun _ t => RowAt cols warn t (r.spoil cols rest)) (fun _ _ => False) := by
  simp only [rowBad, ends_bind, flagDamaged, ends_modifyFlags]
  refine (ends_fillRow h.damaged).mono (fun _ t ht => ?_) fun _ _ h => h
  refine (ends_brSkip (by norm_num) ht.br).mono (fun _ u hu => ?_) fun _ _ h => h
  have := ht.skipped hu
  rw [RowRead.addPix_rest, RowRead.addPix_eof] at this
  rw [RowRead.spoil, show ({ r with err := true, rest := rest.drop 1 } : RowRead).addPix cols cols 0 = _ from
    RowRead.addPix_with cols cols 0 { r with err := true, rest := rest } r.eof (rest.drop 1)]
  exact this

/-- What RunLen answered, beside what the unread bits read as: a run, or nothing when the row was cut or spoilt. -/
def RunAs (cols : Nat) (warn : Bool) (r : RowRead) (b : BitRead Nat) (m : Option Nat) (t : State) : Prop :=
  match b, m with
  | .eof, none => RowAt cols warn t (r.cut cols)
  | .bad rest, none => RowAt cols warn t (r.spoil cols rest)
  | .ok n rest, some v => v = n ∧ RowAt cols warn t { r with rest := rest }
  | _, _ => False

/-- A code takes at least one bit. -/
theorem readCode_shorter {α : Type} {t : List (List Bool × α)} (ht : ∀ c ∈ t, c.1 ≠ []) {l rest : List Bool} {v : α}
    (h : readCode t l = .ok v rest) : rest.length < l.length := by
  unfold readCode at h
  split at h
  · cases h
  · next hl =>
    split at h
    · next c hc =>
      obtain ⟨-, rfl⟩ := BitRead.ok.inj h
      have h1 := List.length_pos_of_ne_nil (ht c (List.mem_of_find?_eq_some hc))
      have h2 := List.length_pos_of_ne_nil hl
      simp; omega
    · cases h

theorem runTable_ne_nil {colour : Nat} (hcol : colour ∈ [0, 1]) : ∀ c ∈ runTable colour, c.1 ≠ [] := by
  obtain ⟨ht, hlen⟩ := runCodes_table colour hcol
  rw [ht]
  intro c hc
  obtain ⟨d, hd, rfl⟩ := List.mem_map.1 hc
  have := (hlen d hd).1
  exact List.ne_nil_of_length_pos (by simp; omega)

theorem readRun_shorter {colour : Nat} (hcol : colour ∈ [0, 1]) (k : Nat) : ∀ {total : Nat} {l rest : List Bool} {n : Nat},
    readRun (runTable colour) k total l = .ok n rest → rest.length < l.length := by
  induction k with
  | zero => intro total l rest n h; cases h
  | succ k ih =>
    intro total l rest n h
    rw [readRun] at h
    split at h
    · cases h
    · cases h
    · next v mid hm =>
      have h1 := readCode_shorter (runTable_ne_nil hcol) hm
      split at h
      · obtain ⟨-, rfl⟩ := BitRead.ok.inj h
        exact h1
      · exact (ih h).trans h1

theorem ends_runLenFrom {colour : Nat} (hcol : colour ∈ [0, 1]) (k : Nat) : ∀ {s : State} {r : RowRead} (total : Nat),
    RowAt cols warn s r → r.rest.length < k →
      Ends (runLenFrom colour k total) s (fun m t => RunAs cols warn r (readRun (runTable colour) k total r.rest) m t)
        (fun _ _ => False) := by
  induction k with
  | zero => intros; omega
  | succ k ih =>
    intro s r total h hk
    simp only [runLenFrom, ends_bind]
    refine (ends_matchRunCode h hcol).mono (fun m t ht => ?_) fun _ _ h => h
    rw [readRun]
    cases hc : readCode (runTable colour) r.rest with
    | eof =>
      cases m <;> simp only [MatchedAs, hc] at ht
      simp only [ends_bind]
      exact (ends_rowEof ht).mono (fun _ u hu => hu) fun _ _ h => h
    | bad rest =>
      cases m <;> simp only [MatchedAs, hc] at ht
      simp only [ends_bind]
      exact (ends_rowBad ht).mono (fun _ u hu => hu) fun _ _ h => h
    | ok v rest =>
      cases m <;> simp only [MatchedAs, hc] at ht
      obtain ⟨rfl, hr⟩ := ht
      have hs := readCode_shorter (runTable_ne_nil hcol) hc
      simp only
      split
      · exact ⟨rfl, hr⟩
      · refine (ih _ hr (by simpa using by omega)).mono (fun m u hu => ?_) fun _ _ h => h
        revert hu
        simp only [RunAs]
        cases readRun (runTable colour) k _ rest <;> cases m <;> exact id

/-- RunLen(colour) (R271). -/
theorem ends_runLen (h : RowAt cols warn s r) {colour : Nat} (hcol : colour ∈ [0, 1]) :
    Ends (runLen colour) s
      (fun m t => RunAs cols warn r (readRun (runTable colour) (r.rest.length + 1) 0 r.rest) m t) (fun _ _ => False) := by
  simp only [runLen, ends_bind, ends_get, h.bitsLeft_eq]
  exact ends_runLenFrom hcol _ 0 h (Nat.lt_succ_self _)

/-! ## One-dimensional rows -/

/-- The loop of DecodeRow1D (R273); every run takes a bit, so fuel beyond the bits left is enough on both sides. -/
theorem ends_row1DLoop (k : Nat) : ∀ {s : State} {r : RowRead} (j : Nat) {colour : Nat}, colour ∈ [0, 1] →
    RowAt cols warn s r → r.rest.length < k → r.rest.length < j →
      Ends (row1DLoop k colour) s (fun _ t => RowAt cols warn t (readRow1D cols j colour r)) (fun _ _ => False) := by
  induction k with
  | zero => intros; omega
  | succ k ih =>
    intro s r j colour hcol h hk hj
    obtain ⟨j, rfl⟩ : ∃ i, j = i + 1 := ⟨j - 1, by omega⟩
    have hcols : s.columns = (cols : Int) := by simp [State.columns, h.columns]
    simp only [row1DLoop, ends_bind, ends_get, ends_lineEnd h, hcols, Nat.cast_lt]
    rw [readRow1D]
    split
    · simp only [ends_bind]
      refine (ends_runLen h hcol).mono (fun m t ht => ?_) fun _ _ h => h
      cases hc : readRun (runTable colour) (r.rest.length + 1) 0 r.rest with
      | eof =>
        cases m <;> simp only [RunAs, hc] at ht
        exact ht
      | bad rest =>
        cases m <;> simp only [RunAs, hc] at ht
        exact ht
      | ok n rest =>
        cases m <;> simp only [RunAs, hc] at ht
        obtain ⟨rfl, hr⟩ := ht
        have hs := readRun_shorter hcol _ hc
        simp only [ends_bind, ends_lineEnd hr]
        rw [show ({ r with rest := rest } : RowRead).here = r.here from rfl, ← Nat.cast_add]
        refine (ends_addPix hr _ _).mono (fun _ u hu => ?_) fun _ _ h => h
        exact ih j (by simp at hcol ⊢; omega) hu (by simp; omega) (by simp; omega)
    · exact h

/-- DecodeRow1D (R273), from the state it enters its loop with. -/
theorem ends_row1D (h : RowAt cols warn s r) :
    Ends (row1DLoop (s.bitsLeft + 2) 0) s (fun _ t => RowAt cols warn t (readRow1D cols (r.rest.length + 1) 0 r))
      (fun _ _ => False) := by
  rw [h.bitsLeft_eq]
  exact ends_row1DLoop _ _ (by simp) h (by omega) (by omega)

end Row

end Sys2Proof.Machine
end

