-- ==== Sys2Proof/Laws/Encode.lean ====
section
/-! SUPPORT. The fields of a command word, for a UNIT, an OP and an IMM that fit (30_encoding.md R100). -/

namespace Sys2Proof

variable {u o k : Nat}

theorem commandWord_toNat (hu : u < 16) (ho : o < 16) (hk : k < 2 ^ 24) :
    (commandWord u o k).toNat = u * 2 ^ 28 + o * 2 ^ 24 + k := by
  unfold commandWord
  rw [BitVec.toNat_ofNat]
  exact Nat.mod_eq_of_lt (by omega)

theorem unitOf_commandWord (hu : u < 16) (ho : o < 16) (hk : k < 2 ^ 24) : unitOf (commandWord u o k) = u := by
  unfold unitOf bitsOf
  rw [commandWord_toNat hu ho hk]
  omega

theorem opOf_commandWord (hu : u < 16) (ho : o < 16) (hk : k < 2 ^ 24) : opOf (commandWord u o k) = o := by
  unfold opOf bitsOf
  rw [commandWord_toNat hu ho hk]
  omega

theorem immOf_commandWord (hu : u < 16) (ho : o < 16) (hk : k < 2 ^ 24) : immOf (commandWord u o k) = k := by
  unfold immOf bitsOf
  rw [commandWord_toNat hu ho hk]
  omega

theorem immWithin_commandWord (hu : u < 16) (ho : o < 16) (hk : k < 2 ^ 24) (n : Nat) :
    immWithin (commandWord u o k) n = decide (k < 2 ^ n) := by
  rw [immWithin, immOf_commandWord hu ho hk]

/-- A sub-field of IMM. -/
theorem bitsOf_commandWord (hu : u < 16) (ho : o < 16) (hk : k < 2 ^ 24) {hi lo : Nat} (hh : hi < 24) (hl : lo ≤ hi) :
    bitsOf (commandWord u o k) hi lo = k / 2 ^ lo % 2 ^ (hi + 1 - lo) := by
  have e : u * 2 ^ 28 + o * 2 ^ 24 + k = 2 ^ lo * (2 ^ (hi + 1 - lo) * ((u * 2 ^ 4 + o) * 2 ^ (23 - hi))) + k := by
    have : (2 : Nat) ^ 24 = 2 ^ lo * (2 ^ (hi + 1 - lo) * 2 ^ (23 - hi)) := by
      rw [← pow_add, ← pow_add]
      congr 1
      omega
    calc _ = (u * 2 ^ 4 + o) * 2 ^ 24 + k := by ring
      _ = _ := by rw [this]; ring
  rw [bitsOf, commandWord_toNat hu ho hk, e, Nat.mul_add_div (by positivity), Nat.mul_add_mod]

/-- Every word is the command word of its fields. -/
theorem commandWord_fields (w : Word) : commandWord (unitOf w) (opOf w) (immOf w) = w := by
  have hw := w.isLt
  apply BitVec.eq_of_toNat_eq
  rw [commandWord_toNat] <;> simp only [unitOf, opOf, immOf, bitsOf] <;> omega

end Sys2Proof
end

