-- ==== Sys2Proof/Laws/Keeps.lean ====
section
/-! SUPPORT. What every procedure keeps: a property of states that survives the updates a procedure makes survives the
procedure. The hypotheses name the updates: `hMq` the MQ registers, `hCx` an element of CX, `hFlags` flags other than FAULT, and
so on. One lemma per procedure; the command bodies come last in each unit. -/

namespace Sys2Proof.Machine

variable {I : State → Prop}

/-- `I` survives a change of the flags that leaves FAULT alone. -/
abbrev KeepsFlags (I : State → Prop) : Prop := ∀ s f, f.fault = s.flags.fault → I s → I (s.setFlags f)

/-- `I` survives a write of an element of a space. -/
abbrev KeepsSpace (I : State → Prop) (sp : Space) : Prop :=
  ∀ s a v, I s → a < s.sizeOf sp → I (s.setMem sp ((s.mem sp).write a v))

abbrev KeepsMq (I : State → Prop) : Prop := ∀ s m, I s → I (s.setMq m)
abbrev KeepsBr (I : State → Prop) : Prop := ∀ s m, I s → I (s.setBr m)
abbrev KeepsHuf (I : State → Prop) : Prop := ∀ s m, I s → I (s.setHuf m)
abbrev KeepsHt (I : State → Prop) : Prop := ∀ s m, I s → I (s.setHt m)
abbrev KeepsCc (I : State → Prop) : Prop := ∀ s m, I s → I (s.setCc m)
abbrev KeepsRes (I : State → Prop) : Prop := ∀ s m, I s → I (s.setRes m)
abbrev KeepsFree (I : State → Prop) : Prop := ∀ s m, I s → I (s.setFreeCtr m)

theorem keeps_modifyMq (h : KeepsMq I) (f : MqUnit → MqUnit) : Keeps I (modifyMq f) := fun s hs => h s _ hs
theorem keeps_modifyBr (h : KeepsBr I) (f : BrUnit → BrUnit) : Keeps I (modifyBr f) := fun s hs => h s _ hs
theorem keeps_modifyHuf (h : KeepsHuf I) (f : HufUnit → HufUnit) : Keeps I (modifyHuf f) := fun s hs => h s _ hs
theorem keeps_modifyCc (h : KeepsCc I) (f : CcUnit → CcUnit) : Keeps I (modifyCc f) := fun s hs => h s _ hs
theorem keeps_putRes (h : KeepsRes I) (v : Word) : Keeps I (putRes v) := fun s hs => h s _ hs

theorem keeps_modifyFlags (h : KeepsFlags I) {f : Flags → Flags} (hf : ∀ g, (f g).fault = g.fault) :
    Keeps I (modifyFlags f) := fun s hs => h s _ (hf _) hs

theorem keeps_checkWindow : Keeps I checkWindow := keeps_get' fun _ => keeps_check _ _ _

theorem keeps_checkBlock : Keeps I checkBlock := keeps_get' fun _ => keeps_check _ _ _

theorem keeps_needReady (u : ReadyUnit) : Keeps I (needReady u) := keeps_get' fun _ => keeps_check _ _ _

/-! ## MQ -/

theorem keeps_mqByte (i : Nat) : Keeps I (mqByte i) :=
  keeps_get' fun _ => keeps_ite _ (keeps_bind (keeps_memRead _ _) fun _ => keeps_pure _) (keeps_pure _)

theorem keeps_mqMerge (h : KeepsMq I) (add ct : Nat) : Keeps I (mqMerge add ct) := keeps_modifyMq h _

theorem keeps_byteIn (h : KeepsMq I) : Keeps I byteIn := by
  refine keeps_get' fun s => keeps_bind (keeps_mqByte _) fun b => keeps_ite _ ?_ ?_
  · refine keeps_bind (keeps_mqByte _) fun nb => keeps_ite _ (keeps_mqMerge h _ _) ?_
    exact keeps_bind (keeps_modifyMq h _) fun _ => keeps_bind (keeps_mqByte _) fun _ => keeps_mqMerge h _ _
  · exact keeps_bind (keeps_modifyMq h _) fun _ => keeps_bind (keeps_mqByte _) fun _ => keeps_mqMerge h _ _

theorem keeps_mqInitBody (h : KeepsMq I) (hf : KeepsFlags I) : Keeps I mqInitBody := by
  refine keeps_bind keeps_checkWindow fun _ => keeps_get' fun s => ?_
  refine keeps_bind (keeps_modifyMq h _) fun _ => keeps_bind (keeps_modifyMq h _) fun _ => ?_
  refine keeps_bind (keeps_mqByte _) fun _ => keeps_bind (keeps_modifyMq h _) fun _ => ?_
  exact keeps_bind (keeps_byteIn h) fun _ => keeps_bind (keeps_modifyMq h _) fun _ =>
    keeps_modifyFlags hf fun _ => rfl

theorem keeps_renormD (h : KeepsMq I) (k : Nat) : ∀ a, Keeps I (renormD k a) := by
  induction k with
  | zero => exact fun _ => keeps_refuse _
  | succ k ih =>
    refine fun a => keeps_get' fun s => keeps_bind (keeps_ite _ (keeps_byteIn h) (keeps_pure _)) fun _ => ?_
    exact keeps_bind (keeps_modifyMq h _) fun _ => keeps_ite _ (keeps_modifyMq h _) (ih _)

theorem keeps_mqReadbitBody (h : KeepsMq I) (hc : KeepsSpace I .cx) (hr : KeepsRes I) (cxi : Nat) :
    Keeps I (mqReadbitBody cxi) := by
  have hfin : ∀ a o, Keeps I (mqFinish cxi a o) := fun a o =>
    keeps_bind (keeps_renormD h 15 a) fun _ => keeps_bind (keeps_memWrite fun s hs ha => hc s _ _ hs ha) fun _ =>
      keeps_putRes hr _
  refine keeps_bind (keeps_needReady _) fun _ => keeps_get' fun s => keeps_bind (keeps_check _ _ _) fun _ => ?_
  refine keeps_bind (keeps_memRead _ _) fun e => keeps_bind (keeps_check _ _ _) fun _ => keeps_get' fun t => ?_
  refine keeps_ite _ (hfin _ _) (keeps_bind (keeps_modifyMq h _) fun _ => keeps_ite _ ?_ (hfin _ _))
  exact keeps_bind (keeps_modifyMq h _) fun _ => keeps_putRes hr _

/-! ## BR -/

theorem keeps_brFetch (h : KeepsBr I) : Keeps I brFetch :=
  keeps_get' fun _ => keeps_bind (keeps_memRead _ _) fun _ => keeps_modifyBr h _

theorem keeps_brFill (h : KeepsBr I) (n : Nat) : Keeps I (brFill n) := by
  suffices ∀ k, Keeps I (brFillLoop n k) from this n
  intro k
  induction k with
  | zero => exact keeps_pure _
  | succ k ih => exact keeps_get' fun _ => keeps_ite _ (keeps_bind (keeps_brFetch h) fun _ => ih) (keeps_pure _)

theorem keeps_brPeek (h : KeepsBr I) (n : Nat) : Keeps I (brPeek n) :=
  keeps_bind (keeps_brFill h n) fun _ => keeps_get' fun _ => keeps_pure _

theorem keeps_brSkip (h : KeepsBr I) (n : Nat) : Keeps I (brSkip n) :=
  keeps_bind (keeps_brFill h n) fun _ => keeps_modifyBr h _

theorem keeps_brLPos : Keeps I brLPos := by
  refine keeps_get' fun s => ?_
  split <;> exact keeps_bind (keeps_check _ _ _) fun _ => keeps_pure _

theorem keeps_brOpen (h : KeepsBr I) (hf : KeepsFlags I) (mode : BrMode) : Keeps I (brOpen mode) :=
  keeps_get' fun _ => keeps_bind (keeps_modifyBr h _) fun _ => keeps_modifyFlags hf fun _ => rfl

theorem keeps_brInitBody (h : KeepsBr I) (hf : KeepsFlags I) (mode : BrMode) : Keeps I (brInitBody mode) :=
  keeps_bind keeps_checkWindow fun _ => keeps_brOpen h hf mode

theorem keeps_brReadbitsBody (h : KeepsBr I) (hr : KeepsRes I) (n : Nat) : Keeps I (brReadbitsBody n) := by
  refine keeps_bind (keeps_needReady _) fun _ => keeps_bind (keeps_check _ _ _) fun _ => ?_
  refine keeps_bind (keeps_brFill h n) fun _ => keeps_get' fun s => keeps_bind (keeps_check _ _ _) fun _ => ?_
  exact keeps_bind (keeps_modifyBr h _) fun _ => keeps_putRes hr _

theorem keeps_checkPlain : Keeps I checkPlain := keeps_get' fun _ => keeps_check _ _ _

theorem keeps_brPeekbitsBody (h : KeepsBr I) (hr : KeepsRes I) (n : Nat) : Keeps I (brPeekbitsBody n) :=
  keeps_bind (keeps_needReady _) fun _ => keeps_bind (keeps_check _ _ _) fun _ => keeps_bind keeps_checkPlain fun _ =>
    keeps_bind (keeps_brPeek h n) fun _ => keeps_putRes hr _

theorem keeps_brSkipbitsBody (h : KeepsBr I) (n : Nat) : Keeps I (brSkipbitsBody n) :=
  keeps_bind (keeps_needReady _) fun _ => keeps_bind (keeps_check _ _ _) fun _ => keeps_bind keeps_checkPlain fun _ =>
    keeps_brSkip h n

theorem keeps_brAlignBody (h : KeepsBr I) : Keeps I brAlignBody := by
  refine keeps_bind (keeps_needReady _) fun _ => keeps_get' fun s => ?_
  split <;> exact keeps_modifyBr h _

theorem keeps_brPeekmarkerBody (hr : KeepsRes I) (mark : Byte) : Keeps I (brPeekmarkerBody mark) := by
  refine keeps_bind (keeps_needReady _) fun _ => keeps_bind keeps_brLPos fun l => keeps_bind ?_ fun _ => keeps_putRes hr _
  refine keeps_get' fun s => keeps_ite _ ?_ (keeps_pure _)
  refine keeps_bind (keeps_memRead _ _) fun b => keeps_ite _ ?_ (keeps_pure _)
  exact keeps_bind (keeps_memRead _ _) fun _ => keeps_pure _

theorem keeps_brSkipbytesBody (h : KeepsBr I) : Keeps I brSkipbytesBody :=
  keeps_bind (keeps_needReady _) fun _ => keeps_bind keeps_brLPos fun _ => keeps_get' fun _ => keeps_modifyBr h _

/-! ## HUF -/

theorem keeps_hufFetch (h : KeepsHuf I) : Keeps I hufFetch :=
  keeps_get' fun _ => keeps_bind (keeps_memRead _ _) fun _ => keeps_bind (keeps_modifyHuf h _) fun _ => keeps_pure _

theorem keeps_hufNeedByte (info : Nat) : Keeps I (hufNeedByte info) := keeps_get' fun _ => keeps_check _ _ _

theorem keeps_hufBit (h : KeepsHuf I) : Keeps I hufBit := by
  refine keeps_get' fun s => keeps_ite _ (keeps_bind (keeps_modifyHuf h _) fun _ => keeps_pure _) ?_
  refine keeps_bind (keeps_hufNeedByte 0) fun _ => keeps_bind (keeps_hufFetch h) fun b => ?_
  refine keeps_bind (keeps_ite _ ?_ (keeps_pure _)) fun _ => keeps_bind (keeps_modifyHuf h _) fun _ => keeps_pure _
  exact keeps_bind (keeps_hufNeedByte 1) fun _ => keeps_bind (keeps_hufFetch h) fun _ => keeps_check _ _ _

theorem keeps_hufWalk (h : KeepsHuf I) (cs : List HufCode) (k : Nat) : ∀ len code, Keeps I (hufWalk cs k len code) := by
  induction k with
  | zero => exact fun _ _ => keeps_refuse _
  | succ k ih =>
    refine fun len code => keeps_bind (keeps_hufBit h) fun b => ?_
    dsimp only
    split
    · exact keeps_pure _
    · exact keeps_ite _ (ih _ _) (keeps_raise _ _)

theorem keeps_hufDecode (h : KeepsHuf I) (c : TClass) (id : Fin 4) : Keeps I (hufDecode c id) := by
  refine keeps_get' fun s => ?_
  split
  · exact keeps_hufWalk h _ _ _ _
  · exact keeps_raise _ _

theorem keeps_needTable (c : TClass) (id : Fin 4) : Keeps I (needTable c id) := keeps_get' fun _ => keeps_check _ _ _

theorem keeps_receive (h : KeepsHuf I) (n : Nat) : Keeps I (receive n) := by
  suffices ∀ v, Keeps I (receiveFrom n v) from this 0
  induction n with
  | zero => exact fun _ => keeps_pure _
  | succ n ih => exact fun v => keeps_bind (keeps_hufBit h) fun _ => ih _

theorem keeps_extend (h : KeepsHuf I) (n : Nat) : Keeps I (extend n) :=
  keeps_bind (keeps_receive h n) fun _ => keeps_pure _

theorem keeps_hufInitBody (h : KeepsHuf I) (hf : KeepsFlags I) : Keeps I hufInitBody :=
  keeps_bind keeps_checkWindow fun _ => keeps_get' fun _ => keeps_bind (keeps_modifyHuf h _) fun _ =>
    keeps_modifyFlags hf fun _ => rfl

theorem keeps_hufLoadtableBody (h : KeepsHt I) (c : TClass) (id : Fin 4) : Keeps I (hufLoadtableBody c id) := by
  refine keeps_get' fun s => keeps_bind (keeps_check _ _ _) fun _ => keeps_bind (keeps_memReadRun _ _ _ _) fun cnt => ?_
  refine keeps_bind (keeps_check _ _ _) fun _ => keeps_bind (keeps_check _ _ _) fun _ => ?_
  refine keeps_bind (keeps_check _ _ _) fun _ => keeps_bind (keeps_memReadRun _ _ _ _) fun val => ?_
  exact keeps_modify fun s hs => h s _ hs

theorem keeps_hufScancfgBody (h : KeepsHuf I) (ss se al : Nat) : Keeps I (hufScancfgBody ss se al) :=
  keeps_bind (keeps_check _ _ _) fun _ => keeps_modifyHuf h _

theorem keeps_hufRestartBody (h : KeepsHuf I) : Keeps I hufRestartBody :=
  keeps_bind (keeps_needReady _) fun _ => keeps_get' fun _ => keeps_bind (keeps_check _ _ _) fun _ => keeps_modifyHuf h _

theorem keeps_hufDecodeBody (h : KeepsHuf I) (hr : KeepsRes I) (c : TClass) (id : Fin 4) : Keeps I (hufDecodeBody c id) :=
  keeps_bind (keeps_needReady _) fun _ => keeps_bind (keeps_needTable c id) fun _ =>
    keeps_bind (keeps_hufDecode h c id) fun _ => keeps_putRes hr _

theorem keeps_hufReceiveBody (h : KeepsHuf I) (hr : KeepsRes I) (n : Nat) : Keeps I (hufReceiveBody n) :=
  keeps_bind (keeps_needReady _) fun _ => keeps_bind (keeps_check _ _ _) fun _ =>
    keeps_bind (keeps_receive h n) fun _ => keeps_putRes hr _

theorem keeps_hufExtendBody (h : KeepsHuf I) (hr : KeepsRes I) (n : Nat) : Keeps I (hufExtendBody n) :=
  keeps_bind (keeps_needReady _) fun _ => keeps_bind (keeps_check _ _ _) fun _ =>
    keeps_bind (keeps_extend h n) fun _ => keeps_putRes hr _

/-! ## HUF blocks -/

theorem keeps_putCoef (hc : KeepsSpace I .coef) (k : Nat) (v : Int) : Keeps I (putCoef k v) :=
  keeps_get' fun _ => keeps_memWrite fun s hs ha => hc s _ _ hs ha

theorem keeps_putDc (h : KeepsHuf I) (hc : KeepsSpace I .coef) (comp : Fin 4) (diff : Int) : Keeps I (putDc comp diff) :=
  keeps_bind (keeps_modifyHuf h _) fun _ => keeps_get' fun _ => keeps_putCoef hc _ _

theorem keeps_dcCategory (h : KeepsHuf I) (dct : Fin 4) : Keeps I (dcCategory dct) :=
  keeps_bind (keeps_hufDecode h _ _) fun _ => keeps_bind (keeps_check _ _ _) fun _ => keeps_pure _

theorem keeps_acCoef (h : KeepsHuf I) (hc : KeepsSpace I .coef) (k size al : Nat) : Keeps I (acCoef k size al) :=
  keeps_bind (keeps_check _ _ _) fun _ => keeps_bind (keeps_extend h _) fun _ => keeps_putCoef hc _ _

theorem keeps_baselineAc (h : KeepsHuf I) (hc : KeepsSpace I .coef) (act : Fin 4) (fuel : Nat) :
    ∀ k, Keeps I (baselineAc act fuel k) := by
  induction fuel with
  | zero => exact fun _ => keeps_pure _
  | succ fuel ih =>
    refine fun k => keeps_ite _ (keeps_bind (keeps_hufDecode h _ _) fun rs => ?_) (keeps_pure _)
    exact keeps_ite _ (keeps_ite _ (keeps_pure _) (ih _)) (keeps_bind (keeps_acCoef h hc _ _ _) fun _ => ih _)

theorem keeps_hufBlockBaselineBody (h : KeepsHuf I) (hc : KeepsSpace I .coef) (dct act comp : Fin 4) :
    Keeps I (hufBlockBaselineBody dct act comp) := by
  refine keeps_bind (keeps_needReady _) fun _ => keeps_bind keeps_checkBlock fun _ => ?_
  refine keeps_bind (keeps_needTable _ _) fun _ => keeps_bind (keeps_needTable _ _) fun _ => ?_
  refine keeps_bind (keeps_dcCategory h _) fun _ => keeps_bind (keeps_extend h _) fun _ => ?_
  exact keeps_bind (keeps_putDc h hc _ _) fun _ => keeps_baselineAc h hc _ _ _

theorem keeps_hufDcFirstBody (h : KeepsHuf I) (hc : KeepsSpace I .coef) (dct comp : Fin 4) :
    Keeps I (hufDcFirstBody dct comp) := by
  refine keeps_bind (keeps_needReady _) fun _ => keeps_bind keeps_checkBlock fun _ => ?_
  refine keeps_bind (keeps_needTable _ _) fun _ => keeps_bind (keeps_dcCategory h _) fun _ => ?_
  exact keeps_bind (keeps_extend h _) fun _ => keeps_get' fun _ => keeps_putDc h hc _ _

theorem keeps_hufDcRefineBody (h : KeepsHuf I) (hc : KeepsSpace I .coef) : Keeps I hufDcRefineBody := by
  refine keeps_bind (keeps_needReady _) fun _ => keeps_bind keeps_checkBlock fun _ => keeps_get' fun s => ?_
  exact keeps_bind (keeps_memRead _ _) fun _ => keeps_bind (keeps_hufBit h) fun _ =>
    keeps_memWrite fun s hs ha => hc s _ _ hs ha

theorem keeps_acFirstLoop (h : KeepsHuf I) (hc : KeepsSpace I .coef) (act : Fin 4) (e al fuel : Nat) :
    ∀ k, Keeps I (acFirstLoop act e al fuel k) := by
  induction fuel with
  | zero => exact fun _ => keeps_pure _
  | succ fuel ih =>
    refine fun k => keeps_ite _ (keeps_bind (keeps_hufDecode h _ _) fun rs => ?_) (keeps_pure _)
    refine keeps_ite _ (keeps_ite _ ?_ (ih _)) (keeps_bind (keeps_acCoef h hc _ _ _) fun _ => ih _)
    exact keeps_bind (keeps_receive h _) fun _ => keeps_modifyHuf h _

theorem keeps_hufAcFirstBody (h : KeepsHuf I) (hc : KeepsSpace I .coef) (act : Fin 4) : Keeps I (hufAcFirstBody act) := by
  refine keeps_bind (keeps_needReady _) fun _ => keeps_bind keeps_checkBlock fun _ => ?_
  refine keeps_bind (keeps_needTable _ _) fun _ => keeps_get' fun s => ?_
  exact keeps_ite _ (keeps_modifyHuf h _) (keeps_acFirstLoop h hc _ _ _ _ _)

theorem keeps_refineSymbol (h : KeepsHuf I) (act : Fin 4) : Keeps I (refineSymbol act) := by
  refine keeps_bind (keeps_hufDecode h _ _) fun rs => keeps_ite _ (keeps_ite _ ?_ ?_) ?_
  · exact keeps_bind (keeps_receive h _) fun _ => keeps_bind (keeps_modifyHuf h _) fun _ =>
      keeps_bind (keeps_modifyHuf h _) fun _ => keeps_pure _
  · exact keeps_bind (keeps_modifyHuf h _) fun _ => keeps_pure _
  · exact keeps_bind (keeps_check _ _ _) fun _ => keeps_bind (keeps_extend h _) fun _ =>
      keeps_bind (keeps_modifyHuf h _) fun _ => keeps_bind (keeps_modifyHuf h _) fun _ => keeps_pure _

theorem keeps_refineAt (h : KeepsHuf I) (hc : KeepsSpace I .coef) (acstate z : Nat) (c r p : Int) :
    Keeps I (refineAt acstate z c r p) := by
  refine keeps_ite _ (keeps_ite _ ?_ ?_) (keeps_pure _)
  · exact keeps_bind (keeps_bind (keeps_hufBit h) fun _ => keeps_memWrite fun s hs ha => hc s _ _ hs ha) fun _ =>
      keeps_pure _
  · refine keeps_ite _ ?_ (keeps_ite _ ?_ (keeps_pure _))
    · exact keeps_bind (keeps_ite _ (keeps_modifyHuf h _) (keeps_pure _)) fun _ => keeps_pure _
    · exact keeps_get' fun _ => keeps_bind (keeps_memWrite fun s hs ha => hc s _ _ hs ha) fun _ =>
        keeps_bind (keeps_modifyHuf h _) fun _ => keeps_pure _

theorem keeps_refineLoop (h : KeepsHuf I) (hc : KeepsSpace I .coef) (act : Fin 4) (e : Nat) (p : Int) (fuel : Nat) :
    ∀ k r, Keeps I (refineLoop act e p fuel k r) := by
  induction fuel with
  | zero => exact fun _ _ => keeps_pure _
  | succ fuel ih =>
    refine fun k r => keeps_ite _ (keeps_get' fun s => keeps_bind (keeps_memRead _ _) fun c => ?_) (keeps_pure _)
    exact keeps_ite _ (keeps_bind (keeps_refineSymbol h act) fun _ => ih _ _)
      (keeps_bind (keeps_refineAt h hc _ _ _ _ _) fun _ => ih _ _)

theorem keeps_refineEnd (h : KeepsHuf I) (hf : KeepsFree I) : Keeps I refineEnd := by
  refine keeps_get' fun s => keeps_ite _ ?_ (keeps_check _ _ _)
  refine keeps_bind (keeps_get' fun t => keeps_ite _ ?_ (keeps_modifyHuf h _)) fun _ =>
    keeps_get' fun _ => keeps_ite _ (keeps_modifyHuf h _) (keeps_pure _)
  exact keeps_bind (keeps_modify fun s hs => hf s _ hs) fun _ => keeps_modifyHuf h _

theorem keeps_hufAcRefineBody (h : KeepsHuf I) (hc : KeepsSpace I .coef) (hf : KeepsFree I) (act : Fin 4) :
    Keeps I (hufAcRefineBody act) := by
  refine keeps_bind (keeps_needReady _) fun _ => keeps_bind keeps_checkBlock fun _ => ?_
  refine keeps_bind (keeps_needTable _ _) fun _ => keeps_get' fun s => ?_
  exact keeps_bind (keeps_refineLoop h hc _ _ _ _ _ _) fun _ => keeps_refineEnd h hf

/-! ## IDCT and IWT -/

theorem keeps_idctBlockBody (hc : KeepsSpace I .coef) (qti : Fin 4) : Keeps I (idctBlockBody qti) := by
  refine keeps_bind keeps_checkBlock fun _ => keeps_get' fun s => keeps_bind (keeps_memReadRun _ _ _ _) fun c => ?_
  exact keeps_bind (keeps_memReadRun _ _ _ _) fun q => keeps_memWriteRun _ hc _ _

theorem keeps_iwtLine (hp : KeepsSpace I .plane) (a n s : Nat) (f : Filter) (ph : Bool) : Keeps I (iwtLine a n s f ph) :=
  keeps_bind (keeps_memReadRun _ _ _ _) fun _ => keeps_memWriteRun _ hp _ _

theorem keeps_iwtLines (hp : KeepsSpace I .plane) (n stride : Nat) (f : Filter) (ph : Bool) (step count : Nat) :
    ∀ a, Keeps I (iwtLines n stride f ph step count a) := by
  induction count with
  | zero => exact fun _ => keeps_pure _
  | succ count ih => exact fun a => keeps_bind (keeps_iwtLine hp _ _ _ _ _) fun _ => ih _

theorem keeps_iwtSr1dBody (hp : KeepsSpace I .plane) (f : Filter) (ph : Bool) : Keeps I (iwtSr1dBody f ph) :=
  keeps_get' fun _ => keeps_bind (keeps_check _ _ _) fun _ => keeps_bind (keeps_check _ _ _) fun _ =>
    keeps_bind (keeps_check _ _ _) fun _ => keeps_iwtLine hp _ _ _ _ _

theorem keeps_iwtSr2dBody (hp : KeepsSpace I .plane) (f : Filter) (pu pv : Bool) : Keeps I (iwtSr2dBody f pu pv) :=
  keeps_get' fun _ => keeps_bind (keeps_check _ _ _) fun _ => keeps_bind (keeps_check _ _ _) fun _ =>
    keeps_bind (keeps_check _ _ _) fun _ => keeps_bind (keeps_iwtLines hp _ _ _ _ _ _ _) fun _ =>
      keeps_iwtLines hp _ _ _ _ _ _ _

/-! ## CCITT -/

/-- What the CCITT procedures change: the BR and CCITT registers, flags other than FAULT, and the two lines. -/
structure KeepsCcitt (I : State → Prop) : Prop where
  br : KeepsBr I
  cc : KeepsCc I
  flags : KeepsFlags I
  cline : KeepsSpace I .cline
  rline : KeepsSpace I .rline

/-- Every procedure of the unit keeps what those updates keep. -/
theorem KeepsCcitt.closed (h : KeepsCcitt I) : CcittClosed (Keeps I) where
  pure := keeps_pure
  refuse := keeps_refuse
  check := keeps_check
  bind := keeps_bind
  get := fun _ => keeps_get'
  readCline := keeps_memRead _
  readRline := keeps_memRead _
  writeCline := fun _ _ => keeps_memWrite fun s hs ha => h.cline s _ _ hs ha
  writeRline := fun _ _ => keeps_memWrite fun s hs ha => h.rline s _ _ hs ha
  cc := keeps_modifyCc h.cc
  flags := fun _ hf => keeps_modifyFlags h.flags hf
  fill := keeps_brFill h.br
  keep := fun _ => keeps_modifyBr h.br _

theorem keeps_ccittInitBody (h : KeepsCcitt I) (kmode : Nat) (eoline balign eoblock black1 : Bool) :
    Keeps I (ccittInitBody kmode eoline balign eoblock black1) := by
  refine keeps_bind (keeps_check _ _ _) fun _ => keeps_bind keeps_checkWindow fun _ => keeps_get' fun s => ?_
  refine keeps_bind (keeps_check _ _ _) fun _ => keeps_bind (keeps_brOpen h.br h.flags _) fun _ => ?_
  refine keeps_bind (keeps_modifyCc h.cc _) fun _ => keeps_bind (keeps_modifyFlags h.flags fun _ => rfl) fun _ => ?_
  refine keeps_bind (closed_writeCline h.closed _ _) fun _ => keeps_bind (closed_openRows h.closed _) fun _ => ?_
  exact keeps_modifyFlags h.flags fun _ => rfl

theorem keeps_ccittReadbyteBody (h : KeepsCcitt I) (hr : KeepsRes I) : Keeps I ccittReadbyteBody :=
  closed_ccittReadbyteBody h.closed (keeps_putRes hr)

end Sys2Proof.Machine
end

