-- ==== Sys2Proof/Laws/Frame.lean ====
section
/-! SUPPORT. The frame of every command and the induction over a step: what is proved once here, the claims about every command
and about every step only instantiate. -/

namespace Sys2Proof.Machine

/-- A property of states that the updates of a command survive, survives the command. Which updates: registers of its unit,
elements of the spaces R86 lets it write, RES if it writes it, flags other than FAULT, a fault taken, SYS.RESET. -/
theorem exec_keeps {I : State → Prop} (i : Instr) (s t : State) (he : exec i s = .next t) (hI : I s)
    (hf : ∀ s f info, I s → I (takeFault f info s))
    (hreset : i = .sysReset → ∀ s, I s → I (resetRegisters s))
    (hmq : unitOfInstr i = 1 → KeepsMq I) (hbr : unitOfInstr i = 2 ∨ unitOfInstr i = 4 → KeepsBr I)
    (hhuf : unitOfInstr i = 3 → KeepsHuf I ∧ KeepsHt I ∧ KeepsFree I) (hcc : unitOfInstr i = 4 → KeepsCc I)
    (hfl : KeepsFlags I) (hres : writesRes i = true → KeepsRes I)
    (hsp : ∀ sp, accessOf i sp = .w ∨ accessOf i sp = .rw → KeepsSpace I sp) : I t := by
  have go : ∀ p, Keeps I p → runCommand p s = .next t → I t := fun p hp h => keeps_runCommand hp hf hI h
  cases i
  case sysNop => cases he; exact hI
  case sysReset => cases he; exact hreset rfl _ hI
  case mqInit => exact go _ (keeps_mqInitBody (hmq rfl) hfl) he
  case mqReadbit c => exact go _ (keeps_mqReadbitBody (hmq rfl) (hsp .cx (.inr rfl)) (hres rfl) c) he
  case brInit => exact go _ (keeps_brInitBody (hbr (.inl rfl)) hfl _) he
  case brReadbits => exact go _ (keeps_brReadbitsBody (hbr (.inl rfl)) (hres rfl) _) he
  case brPeekbits => exact go _ (keeps_brPeekbitsBody (hbr (.inl rfl)) (hres rfl) _) he
  case brSkipbits => exact go _ (keeps_brSkipbitsBody (hbr (.inl rfl)) _) he
  case brAlign => exact go _ (keeps_brAlignBody (hbr (.inl rfl))) he
  case brPeekmarker => exact go _ (keeps_brPeekmarkerBody (hres rfl) _) he
  case brSkipbytes => exact go _ (keeps_brSkipbytesBody (hbr (.inl rfl))) he
  case hufInit => exact go _ (keeps_hufInitBody (hhuf rfl).1 hfl) he
  case hufLoadtable => exact go _ (keeps_hufLoadtableBody (hhuf rfl).2.1 _ _) he
  case hufScancfg => exact go _ (keeps_hufScancfgBody (hhuf rfl).1 _ _ _) he
  case hufRestart => exact go _ (keeps_hufRestartBody (hhuf rfl).1) he
  case hufDecode => exact go _ (keeps_hufDecodeBody (hhuf rfl).1 (hres rfl) _ _) he
  case hufReceive => exact go _ (keeps_hufReceiveBody (hhuf rfl).1 (hres rfl) _) he
  case hufExtend => exact go _ (keeps_hufExtendBody (hhuf rfl).1 (hres rfl) _) he
  case hufBlockBaseline => exact go _ (keeps_hufBlockBaselineBody (hhuf rfl).1 (hsp .coef (.inl rfl)) _ _ _) he
  case hufDcFirst => exact go _ (keeps_hufDcFirstBody (hhuf rfl).1 (hsp .coef (.inl rfl)) _ _) he
  case hufDcRefine => exact go _ (keeps_hufDcRefineBody (hhuf rfl).1 (hsp .coef (.inr rfl))) he
  case hufAcFirst => exact go _ (keeps_hufAcFirstBody (hhuf rfl).1 (hsp .coef (.inl rfl)) _) he
  case hufAcRefine => exact go _ (keeps_hufAcRefineBody (hhuf rfl).1 (hsp .coef (.inr rfl)) (hhuf rfl).2.2 _) he
  case ccittInit =>
    exact go _ (keeps_ccittInitBody
      ⟨hbr (.inr rfl), hcc rfl, hfl, hsp .cline (.inl rfl), hsp .rline (.inl rfl)⟩ _ _ _ _ _) he
  case ccittReadbyte =>
    exact go _ (keeps_ccittReadbyteBody
      ⟨hbr (.inr rfl), hcc rfl, hfl, hsp .cline (.inr rfl), hsp .rline (.inr rfl)⟩ (hres rfl)) he
  case idctBlock => exact go _ (keeps_idctBlockBody (hsp .coef (.inr rfl)) _) he
  case iwtSr1d => exact go _ (keeps_iwtSr1dBody (hsp .plane (.inr rfl)) _ _) he
  case iwtSr2d => exact go _ (keeps_iwtSr2dBody (hsp .plane (.inr rfl)) _ _ _) he

/-- The canonical form survives a write of an element the space has. -/
theorem memoriesCanonical_write (s : State) (h : MemoriesCanonical s) (sp : Space) (a : Nat) (v : BitVec sp.width)
    (ha : a < s.sizeOf sp) : MemoriesCanonical (s.setMem sp ((s.mem sp).write a v)) := by
  intro sp'
  by_cases e : sp' = sp
  · subst e; simp only [State.setMem_mem_same, State.setMem_sizeOf]
    refine ⟨Memory.wf_write (h sp').1 _ _, fun x hx => ?_⟩
    rcases Memory.mem_write hx with rfl | hx
    · exact ha
    · exact (h sp').2 x hx
  · rw [State.setMem_mem_other _ _ e, State.setMem_sizeOf]; exact h sp'

/-- The canonical form depends on the memories and the sizes only. -/
theorem memoriesCanonical_congr {s t : State} (h : MemoriesCanonical s) (hm : ∀ sp, t.mem sp = s.mem sp)
    (hp : t.params = s.params) : MemoriesCanonical t := by
  intro sp
  rw [hm]
  simpa [State.sizeOf, hp] using h sp

/-- Memory at reset lists nothing, so it is canonical. -/
theorem memoriesCanonical_powerOn (p : Params) : MemoriesCanonical (State.powerOn p) := by
  intro sp
  cases sp <;> exact ⟨List.Pairwise.nil, by intro x hx; cases hx⟩

/-- A property of states that every command, a fault taken, the host's own registers, a host write and power-on reset keep, is
kept by every step. -/
theorem step_next {I : State → Prop} (hI : ∀ i s t, I s → exec i s = .next t → I t)
    (hf : ∀ s f info, I s → I (takeFault f info s))
    (hreg : ∀ s c a0 a1 a2 a3 p d k, I s → I { s with
      cmd := c, arg0 := a0, arg1 := a1, arg2 := a2, arg3 := a3, pending := p, portData := d, freeCtr := k })
    (hw : ∀ s (sp : Space) a v, I s → sp.hostWritable = true → a < s.sizeOf sp →
      I (s.setMem sp ((s.mem sp).write a v)))
    (hp : ∀ s, I s → I (powerOnReset s)) : ∀ s t, I s → step s = .next t → I t := by
  intro s t h hs
  unfold step at hs
  split at hs
  · cases hs; exact h
  · next op rest hp' =>
    have h1 := hreg s s.cmd s.arg0 s.arg1 s.arg2 s.arg3 rest s.portData s.freeCtr h
    generalize ({ s with pending := rest } : State) = s1 at *
    cases op with
    | regRead r => cases hs; exact hreg s1 s1.cmd s1.arg0 s1.arg1 s1.arg2 s1.arg3 s1.pending _ s1.freeCtr h1
    | regWrite r v =>
      simp only [hostStep, regWrite] at hs
      split at hs
      · unfold issueCommand at hs
        have h2 := hreg s1 v s1.arg0 s1.arg1 s1.arg2 s1.arg3 s1.pending s1.portData s1.freeCtr h1
        dsimp only at hs
        split at hs
        · cases hs; exact h2
        · split at hs
          · cases hs; exact hf _ _ _ h2
          · exact hI _ _ _ h2 hs
      all_goals cases hs
      · exact hreg s1 s1.cmd v s1.arg1 s1.arg2 s1.arg3 s1.pending s1.portData s1.freeCtr h1
      · exact hreg s1 s1.cmd s1.arg0 v s1.arg2 s1.arg3 s1.pending s1.portData s1.freeCtr h1
      · exact hreg s1 s1.cmd s1.arg0 s1.arg1 v s1.arg3 s1.pending s1.portData s1.freeCtr h1
      · exact hreg s1 s1.cmd s1.arg0 s1.arg1 s1.arg2 v s1.pending s1.portData s1.freeCtr h1
      · exact h1
    | memRead sp a =>
      simp only [hostStep, hostMemRead] at hs
      split at hs
      · cases hs
      · split at hs <;> cases hs
        · exact hreg s1 s1.cmd s1.arg0 s1.arg1 s1.arg2 s1.arg3 s1.pending _ s1.freeCtr h1
        · exact hreg s1 s1.cmd s1.arg0 s1.arg1 s1.arg2 s1.arg3 s1.pending _ _ h1
    | memWrite sp a v =>
      simp only [hostStep, hostMemWrite] at hs
      split at hs
      · cases hs
      · split at hs
        · cases hs
        · cases hs; next hw' ha => exact hw s1 sp a _ h1 (by simpa using hw') (by omega)
    | powerOn => cases hs; exact hp _ h1

end Sys2Proof.Machine
end

