-- ==== Sys2Proof/Laws/Huf.lean ====
section
/-! SUPPORT. What the shared operations of the HUF unit do with the bits of the segment, whose bytes may be unwritten, and with
the registers (42_huffman_jpeg.md R211, R215). -/

namespace Sys2Proof.Machine

/-- The machine's zig-zag order is R221's. -/
theorem zigzag_getD (k : Nat) : zigzag.getD k 0 = zz k := rfl

@[simp] theorem State.setHuf_value (s : State) (b : HufUnit) (sp : Space) (a : Nat) :
    (s.setHuf b).value sp a = s.value sp a := by simp [State.value]

theorem pos_succ {p e : Word} (h : p.toNat < e.toNat) : (p + 1).toNat = p.toNat + 1 := by
  have := e.isLt
  rw [BitVec.toNat_add]
  simp; omega

theorem ends_hufNeedByte {s : State} (info : Nat) (hp : s.huf.pos.toNat < s.huf.endIdx.toNat) (E : Stop → State → Prop)
    (Q : Unit → State → Prop) : Ends (hufNeedByte info) s Q E ↔ Q () s := by
  have hb : decide (s.huf.endIdx.toNat ≤ s.huf.pos.toNat) = false := decide_eq_false (by omega)
  simp only [hufNeedByte, ends_bind, ends_get, ends_check, hb]
  simp

theorem bits_head (b : Byte) : bitsMsb 8 b.toNat = b.getLsbD 7 :: bitsMsb 7 b.toNat := bitsMsb_succ 7 b.toNat

/-- The window part of R31 alone. -/
abbrev HufWindow (s : State) : Prop := s.huf.pos.toNat ≤ s.huf.endIdx.toNat ∧ s.huf.endIdx.toNat ≤ s.params.streamSize

/-- HufBit with no bit buffered, at a byte that is written. -/
theorem hufNext_fetch {s : State} {v : Byte} {p : Word} (hc : ¬ 0 < s.huf.bitcnt.toNat)
    (hv : s.elem .stream s.huf.pos.toNat = some v) (hp : p.toNat = s.huf.pos.toNat + if v = 0xFF#8 then 2 else 1) :
    s.hufNext = { s.huf with pos := p, bits := v, bitcnt := 7 } := by
  have hval : s.value .stream s.huf.pos.toNat = v := by rw [State.value, hv]; rfl
  rw [State.hufNext, if_neg hc]
  simp only [hval, ← hp, BitVec.ofNat_toNat, BitVec.setWidth_eq]

/-- The registers after `m` bits and then `n` are those after both. -/
theorem hufAfter_add (m n : Nat) : ∀ s : State, (s.setHuf (s.hufAfter m)).hufAfter n = s.hufAfter (m + n) := by
  induction m with
  | zero => intro s; simp [State.hufAfter]
  | succ m ih =>
    intro s
    have := ih (s.setHuf s.hufNext)
    rw [State.setHuf_setHuf] at this
    rw [show m + 1 + n = m + n + 1 by omega]
    exact this

theorem hufAfter_fields (n : Nat) : ∀ s : State, ∃ p b c, s.hufAfter n = { s.huf with pos := p, bits := b, bitcnt := c } := by
  induction n with
  | zero => exact fun s => ⟨_, _, _, rfl⟩
  | succ n ih =>
    intro s
    obtain ⟨p, b, c, h⟩ := ih (s.setHuf s.hufNext)
    refine ⟨p, b, c, ?_⟩
    rw [State.hufAfter, h]
    simp only [State.hufNext]
    split <;> simp

/-- Only the cursor and the bit buffer move, as R211 moves them, and `rest` is left before the same end. -/
structure SegmentRead (s : State) (rest : List Bool) (t : State) : Prop where
  only : t = s.setHuf (s.hufLeft rest)
  segmentEnd : t.segmentEnd = { s.segmentEnd with bits := rest }
  suffix : rest <:+ s.segmentEnd.bits
  window : HufWindow t

theorem SegmentRead.trans {s t u : State} {l m : List Bool} (h : SegmentRead s l t) (h' : SegmentRead t m u) :
    SegmentRead s m u where
  only := by
    have hl := h.suffix.length_le
    have hm := h'.suffix.length_le
    have ht := h.only
    rw [h.segmentEnd] at hm
    rw [h'.only, State.hufLeft, h.segmentEnd]
    simp only at hm ⊢
    rw [ht, State.hufLeft, State.setHuf_setHuf, hufAfter_add, State.hufLeft]
    congr 2
    omega
  segmentEnd := by rw [h'.segmentEnd, h.segmentEnd]
  suffix := by
    have := h'.suffix
    rw [h.segmentEnd] at this
    exact this.trans h.suffix
  window := h'.window

theorem SegmentRead.refl {s : State} (h : HufWindow s) : SegmentRead s s.segmentEnd.bits s :=
  ⟨by simp [State.hufLeft, State.hufAfter], rfl, List.suffix_refl _, h⟩

/-- One bit read. -/
theorem SegmentRead.bit {s t : State} {b : Bool} {rest : List Bool} (hb : s.segmentEnd.bits = b :: rest)
    (ho : t = s.setHuf s.hufNext) (he : t.segmentEnd = { s.segmentEnd with bits := rest }) (h : HufWindow t) :
    SegmentRead s rest t :=
  ⟨by rw [ho, State.hufLeft, hb]; simp [State.hufAfter], he, hb ▸ List.suffix_cons b rest, h⟩

theorem segmentFrom_congr {s t : State} (hs : ∀ a, t.elem .stream a = s.elem .stream a) (n : Nat) :
    ∀ a b, t.segmentFrom n a b = s.segmentFrom n a b := by
  induction n using Nat.strong_induction_on with
  | _ n ih =>
    intro a b
    match n with
    | 0 => rfl
    | 1 => simp only [State.segmentFrom, hs]
    | n + 2 => simp only [State.segmentFrom, hs, ih n (by omega), ih (n + 1) (by omega)]

/-- The byte at HUF_POS, written or not. -/
theorem ends_hufFetch_elem {s : State} (h : HufWindow s) (hp : s.huf.pos.toNat < s.huf.endIdx.toNat) (E : Stop → State → Prop)
    (Q : Byte → State → Prop) :
    Ends hufFetch s Q E ↔ match s.elem .stream s.huf.pos.toNat with
      | some v => Q v (s.setHuf { s.huf with pos := s.huf.pos + 1 })
      | none => E (.raise .unwrittenRead (2 ^ 28 + s.huf.pos.toNat % 2 ^ 28)) s := by
  have hin : s.huf.pos.toNat < s.sizeOf .stream := by
    have := h.2
    simp only [State.sizeOf, Space.size]; omega
  simp only [hufFetch, ends_bind, ends_get]
  cases hv : s.elem .stream s.huf.pos.toNat with
  | none =>
    rw [ends_memRead]
    simp [hv, hin, Nat.not_le.2 hin, unwrittenInfo, Space.id]
  | some v =>
    rw [ends_memRead_of s _ hin hv]
    simp

theorem HufWindow.advance {s : State} (h : HufWindow s) (hp : s.huf.pos.toNat < s.huf.endIdx.toNat) (b : Byte) (c : BitVec 3) :
    HufWindow (s.setHuf { s.huf with pos := s.huf.pos + 1, bits := b, bitcnt := c }) := by
  refine ⟨?_, h.2⟩
  simp only [State.setHuf_huf, pos_succ hp]; omega

/-- The end of the segment once `m` bytes are read and the last of them, `v`, is buffered but for its first bit. -/
theorem segmentEnd_buffered {s : State} {p : Word} {v : Byte} :
    (s.setHuf { s.huf with pos := p, bits := v, bitcnt := 7 }).segmentEnd =
      (s.segmentFrom (s.huf.endIdx.toNat - p.toNat) p.toNat v).after (bitsMsb 7 v.toNat) := by
  simp only [State.segmentEnd, State.setHuf_huf]
  rw [segmentFrom_congr (s := s) (by simp)]
  rfl

/-- A read past the last bit stops with the fault of the segment's end and leaves the cursor there. -/
abbrev SegmentStops (s : State) (x : Stop) (t : State) : Prop :=
  x = .raise s.segmentEnd.fault s.segmentEnd.info ∧
    t = s.setHuf { s.huf with pos := BitVec.ofNat 32 s.segmentEnd.pos, bits := s.segmentEnd.byte, bitcnt := 0 }

theorem SegmentRead.stops {s t u : State} {l : List Bool} {x : Stop} (h : SegmentRead s l t) (h' : SegmentStops t x u) :
    SegmentStops s x u := by
  have e := h.segmentEnd
  obtain ⟨rfl, rfl⟩ := h'
  rw [SegmentStops, e]
  refine ⟨rfl, ?_⟩
  obtain ⟨p, b, c, hl⟩ := hufAfter_fields (s.segmentEnd.bits.length - l.length) s
  conv_lhs => rw [h.only, State.hufLeft, hl]
  simp

/-- HufBit takes the first bit of the segment, or raises the fault of its end and leaves the cursor there. -/
theorem ends_hufBit_segment {s : State} (h : HufWindow s) :
    Ends hufBit s (fun b t => ∃ rest, s.segmentEnd.bits = b :: rest ∧ SegmentRead s rest t)
      (fun x t => s.segmentEnd.bits = [] ∧ SegmentStops s x t) := by
  simp only [hufBit, ends_bind, ends_get]
  split
  · next hc =>
    rw [ends_bind, ends_modifyHuf, ends_pure]
    have hk : (s.huf.bitcnt - 1).toNat = s.huf.bitcnt.toNat - 1 := by
      rw [BitVec.toNat_sub]
      have := s.huf.bitcnt.isLt
      simp; omega
    obtain ⟨k, hk'⟩ : ∃ k, s.huf.bitcnt.toNat = k + 1 := ⟨s.huf.bitcnt.toNat - 1, by omega⟩
    have he : s.segmentEnd = (s.segmentFrom (s.huf.endIdx.toNat - s.huf.pos.toNat) s.huf.pos.toNat s.huf.bits).after
        (s.huf.bits.getLsbD k :: bitsMsb k s.huf.bits.toNat) := by
      rw [State.segmentEnd, hk', bitsMsb_succ]; rfl
    have hb : s.segmentEnd.bits = s.huf.bits.getLsbD (s.huf.bitcnt.toNat - 1) :: (bitsMsb k s.huf.bits.toNat ++
        (s.segmentFrom (s.huf.endIdx.toNat - s.huf.pos.toNat) s.huf.pos.toNat s.huf.bits).bits) := by
      rw [he, hk']; rfl
    refine ⟨_, hb, SegmentRead.bit hb ?_ ?_ h⟩
    · rw [State.hufNext, if_pos hc, ← hk, BitVec.ofNat_toNat, BitVec.setWidth_eq]
    · rw [he, State.segmentEnd]
      simp only [State.setHuf_huf, hk, hk', Nat.add_sub_cancel]
      rw [segmentFrom_congr (s := s) (by simp)]
      rfl
  · next hc =>
    have h0 : s.huf.bitcnt.toNat = 0 := by omega
    have hz : s.huf.bitcnt = 0 := BitVec.eq_of_toNat_eq (by simpa using h0)
    have he : s.segmentEnd = s.segmentFrom (s.huf.endIdx.toNat - s.huf.pos.toNat) s.huf.pos.toNat s.huf.bits := by
      rw [State.segmentEnd, h0, bitsMsb_zero]; rfl
    have at0 : ∀ p : Word, s.setHuf { s.huf with pos := p } = s.setHuf { s.huf with
        pos := BitVec.ofNat 32 p.toNat, bits := s.huf.bits, bitcnt := 0 } := by
      intro p
      rw [BitVec.ofNat_toNat, BitVec.setWidth_eq, ← hz]
    cases hn : s.huf.endIdx.toNat - s.huf.pos.toNat with
    | zero =>
      rw [hn, State.segmentFrom] at he
      have hb : decide (s.huf.endIdx.toNat ≤ s.huf.pos.toNat) = true := decide_eq_true (by omega)
      simp only [hufNeedByte, ends_bind, ends_get, ends_check, hb, SegmentStops, he]
      exact ⟨fun _ => ⟨trivial, trivial, (State.setHuf_self s).symm.trans (at0 s.huf.pos)⟩, fun h => by cases h⟩
    | succ n =>
      have hp : s.huf.pos.toNat < s.huf.endIdx.toNat := by omega
      have hp1 := pos_succ hp
      rw [hn, State.segmentFrom.eq_def] at he
      dsimp only at he
      rw [ends_bind, ends_hufNeedByte 0 hp, ends_bind, ends_hufFetch_elem h hp]
      cases hv : s.elem .stream s.huf.pos.toNat with
      | none =>
        rw [hv] at he
        simp only [SegmentStops, he]
        exact ⟨trivial, trivial, (State.setHuf_self s).symm.trans (at0 s.huf.pos)⟩
      | some v =>
        rw [hv] at he
        have hff : v.toNat = 0xFF ↔ v = 0xFF#8 := by rw [← BitVec.toNat_inj]; rfl
        have hadv : HufWindow (s.setHuf { s.huf with pos := s.huf.pos + 1 }) := h.advance hp s.huf.bits s.huf.bitcnt
        dsimp only at he ⊢
        rw [ends_bind, ends_ite]
        refine ⟨fun hv1 => ?_, fun hv1 => ?_⟩
        · rw [if_neg (by simpa using hff.1 hv1)] at he
          cases n with
          | zero =>
            have hb : decide ((s.setHuf { s.huf with pos := s.huf.pos + 1 }).huf.endIdx.toNat ≤
                (s.setHuf { s.huf with pos := s.huf.pos + 1 }).huf.pos.toNat) = true :=
              decide_eq_true (by simp only [State.setHuf_huf, hp1]; omega)
            simp only [hufCompanion, hufNeedByte, ends_bind, ends_get, ends_check, hb, SegmentStops, he]
            refine ⟨fun _ => ⟨trivial, trivial, ?_⟩, fun h => by cases h⟩
            rw [← hp1]; exact at0 _
          | succ m =>
            have hp' : (s.setHuf { s.huf with pos := s.huf.pos + 1 }).huf.pos.toNat
                < (s.setHuf { s.huf with pos := s.huf.pos + 1 }).huf.endIdx.toNat := by
              simp only [State.setHuf_huf, hp1]; omega
            have hp2 : (s.huf.pos + 1 + 1).toNat = s.huf.pos.toNat + 2 := by
              have := pos_succ hp'
              simp only [State.setHuf_huf] at this
              omega
            dsimp only at he
            simp only [hufCompanion, ends_bind]
            rw [ends_hufNeedByte 1 hp', ends_hufFetch_elem hadv hp']
            simp only [State.setHuf_huf, State.setHuf_elem, hp1]
            cases hnb : s.elem .stream (s.huf.pos.toNat + 1) with
            | none =>
              rw [hnb] at he
              simp only [SegmentStops, he]
              refine ⟨trivial, trivial, ?_⟩
              rw [← hp1]; exact at0 _
            | some nb =>
              rw [hnb] at he
              dsimp only at he ⊢
              have hnz : nb.toNat ≠ 0 ↔ nb ≠ 0#8 := by rw [Ne, Ne, ← BitVec.toNat_inj]; rfl
              simp only [ends_check, decide_eq_true_eq, decide_eq_false_iff_not, State.setHuf_setHuf]
              refine ⟨fun hne => ?_, fun heq => ?_⟩
              · rw [if_neg (hnz.1 hne)] at he
                have e1 : nb.toNat = 0xD9 ↔ nb = 0xD9#8 := by rw [← BitVec.toNat_inj]; rfl
                have e2 : nb.toNat = 0xDC ↔ nb = 0xDC#8 := by rw [← BitVec.toNat_inj]; rfl
                simp only [SegmentStops, he, hufMarkerFault, e1, e2]
                refine ⟨trivial, trivial, ?_⟩
                rw [← hp2]; exact at0 _
              · have hnb0 : nb = 0#8 := not_not.1 fun hne => heq (hnz.2 hne)
                rw [if_pos hnb0] at he
                rw [ends_modifyHuf, ends_pure]
                have hb : s.segmentEnd.bits = v.getLsbD 7 :: (bitsMsb 7 0xFF ++
                    (s.segmentFrom m (s.huf.pos.toNat + 2) 0xFF#8).bits) := by
                  rw [he, hff.1 hv1]; rfl
                refine ⟨_, hb, SegmentRead.bit hb ?_ ?_ ?_⟩
                · rw [hufNext_fetch hc hv (p := s.huf.pos + 1 + 1) (by rw [if_pos (hff.1 hv1), hp2])]
                  simp
                · simp only [State.setHuf_huf, State.setHuf_setHuf]
                  rw [he, segmentEnd_buffered, hp2, hff.1 hv1, show s.huf.endIdx.toNat - (s.huf.pos.toNat + 2) = m by omega]
                  rfl
                · refine ⟨?_, h.2⟩
                  simp only [State.setHuf_huf, hp2]; omega
        · rw [if_pos (fun e => hv1 (hff.2 e))] at he
          rw [ends_pure, ends_bind, ends_modifyHuf, ends_pure]
          have hb : s.segmentEnd.bits = v.getLsbD 7 :: (bitsMsb 7 v.toNat ++
              (s.segmentFrom n (s.huf.pos.toNat + 1) v).bits) := by
            rw [he, bits_head]; rfl
          refine ⟨_, hb, SegmentRead.bit hb ?_ ?_ ?_⟩
          · rw [hufNext_fetch hc hv (p := s.huf.pos + 1) (by rw [if_neg fun e => hv1 (hff.2 e), hp1])]
            simp
          · simp only [State.setHuf_huf, State.setHuf_setHuf]
            rw [he, segmentEnd_buffered, hp1, show s.huf.endIdx.toNat - (s.huf.pos.toNat + 1) = n by omega]
            rfl
          · exact h.advance hp v 7

/-- HufBit when there is a bit. -/
theorem ends_hufBit {s : State} {b : Bool} {rest : List Bool} (h : HufWindow s) (hb : s.segmentEnd.bits = b :: rest) :
    Ends hufBit s (fun x t => x = b ∧ SegmentRead s rest t) (fun _ _ => False) := by
  refine (ends_hufBit_segment h).mono (fun x t ht => ?_) fun x t ht => ?_
  · obtain ⟨l, hl, ht⟩ := ht
    obtain ⟨rfl, rfl⟩ := List.cons.inj (hb.symm.trans hl)
    exact ⟨rfl, ht⟩
  · rw [ht.1] at hb
    cases hb

/-- Receive takes the number at the front of the segment when there are bits enough, and stops at its end when there are not. -/
theorem ends_receiveFrom_segment (n : Nat) : ∀ (v : Nat) (s : State), HufWindow s →
    Ends (receiveFrom n v) s
      (fun x t => n ≤ s.segmentEnd.bits.length ∧ x = v * 2 ^ n + numOf (s.segmentEnd.bits.take n) ∧
        SegmentRead s (s.segmentEnd.bits.drop n) t)
      (fun x t => s.segmentEnd.bits.length < n ∧ SegmentStops s x t) := by
  induction n with
  | zero => exact fun v s h => ⟨Nat.zero_le _, by simp, SegmentRead.refl h⟩
  | succ n ih =>
    intro v s h
    rw [receiveFrom, ends_bind]
    refine (ends_hufBit_segment h).mono (fun b t ht => ?_) fun x t ht => ?_
    · obtain ⟨l, hl, ht⟩ := ht
      rw [hl]
      refine (ih _ t ht.window).mono (fun y u hu => ?_) fun x u hu => ?_
      · rw [ht.segmentEnd] at hu
        obtain ⟨h1, rfl, hu⟩ := hu
        refine ⟨by simpa using h1, ?_, ht.trans hu⟩
        simp only at h1
        rw [List.take_succ_cons, numOf_cons, List.length_take, Nat.min_eq_left h1]
        ring
      · rw [ht.segmentEnd] at hu
        exact ⟨by simpa using hu.1, ht.stops hu.2⟩
    · rw [ht.1]
      exact ⟨by simp, ht.2⟩

theorem ends_receive {n : Nat} {s : State} (h : HufWindow s) :
    Ends (receive n) s (fun x t => ∃ rest, takeNum n s.segmentEnd.bits = some (x, rest) ∧ SegmentRead s rest t)
      (fun x t => takeNum n s.segmentEnd.bits = none ∧ SegmentStops s x t) := by
  refine (ends_receiveFrom_segment n 0 s h).mono (fun x t ht => ?_) fun x t ht => ?_
  · obtain ⟨hn, rfl, hr⟩ := ht
    exact ⟨_, by rw [takeNum, if_pos hn, Nat.zero_mul, Nat.zero_add], hr⟩
  · exact ⟨by rw [takeNum, if_neg (by omega)], ht.2⟩

theorem ends_extend {n : Nat} {s : State} (h : HufWindow s) :
    Ends (extend n) s (fun x t => ∃ rest, takeExtend n s.segmentEnd.bits = some (x, rest) ∧ SegmentRead s rest t)
      (fun x t => takeExtend n s.segmentEnd.bits = none ∧ SegmentStops s x t) := by
  rw [extend, ends_bind]
  refine (ends_receive h).mono (fun v t ht => ?_) fun x t ht => ?_
  · obtain ⟨rest, hv, hr⟩ := ht
    rw [ends_pure]
    exact ⟨rest, by rw [takeExtend, hv]; rfl, hr⟩
  · exact ⟨by rw [takeExtend, ht.1]; rfl, ht.2⟩

end Sys2Proof.Machine
end

