-- ==== Sys2Proof/Laws/Mq.lean ====
section
/-! SUPPORT. What the shared operations of the MQ unit do to the code register: BYTEIN merges a byte, RENORMD shifts and
fetches until the top bit of the interval is 1 (40_mq_decoder.md R142, R143, R146). -/

namespace Sys2Proof.Machine

/-- The machine's table is R141's, row by row. -/
theorem mqTable_eq_probRows : mqTable = probRows := rfl

theorem mqRow_eq_probRow {idx : Nat} (h : idx ≤ 46) : mqRow idx = probRow idx := by
  have hl : idx < probRows.length := Nat.lt_of_le_of_lt h (by decide)
  rw [mqRow, probRow, mqTable_eq_probRows]
  simp [List.getD_eq_getElem?_getD, List.getElem?_eq_getElem hl]

/-- MQ_BP lies in the window. -/
structure MqOk (s : State) : Prop where
  bp : s.mq.bp.toNat ≤ s.mq.endIdx.toNat
  endIdx : s.mq.endIdx.toNat ≤ s.params.streamSize

/-- What BYTEIN and a shift may change: MQ_CHIGH, MQ_CLOW, MQ_CT, and MQ_BP, which moves on inside the window. -/
structure MqMoved (s t : State) : Prop where
  only : t = s.setMq t.mq
  endIdx : t.mq.endIdx = s.mq.endIdx
  bp : s.mq.bp.toNat ≤ t.mq.bp.toNat
  ok : MqOk t

theorem MqMoved.trans {s t u : State} (h : MqMoved s t) (h' : MqMoved t u) : MqMoved s u where
  only := by rw [h'.only, h.only]; simp
  endIdx := h'.endIdx.trans h.endIdx
  bp := h.bp.trans h'.bp
  ok := h'.ok

@[simp] theorem State.setMq_value (s : State) (m : MqUnit) (sp : Space) (a : Nat) :
    (s.setMq m).value sp a = s.value sp a := by simp [State.value]

theorem MqMoved.byteAt {s t : State} (h : MqMoved s t) (e i : Nat) : t.byteAt e i = s.byteAt e i := by
  rw [h.only]; simp [State.byteAt]

/-- The bytes depend on STREAM and MQ_END alone. -/
theorem MqMoved.bytein {s t : State} (h : MqMoved s t) (m : MqCode) : t.mqBytein m = s.mqBytein m := by
  simp only [State.mqBytein, h.endIdx, h.byteAt]

theorem MqMoved.shifts {s t : State} (h : MqMoved s t) (n : Nat) : ∀ m, t.mqShifts n m = s.mqShifts n m := by
  induction n with
  | zero => exact fun _ => rfl
  | succ n ih => intro m; simp only [State.mqShifts, h.bytein, ih]

theorem MqOk.setMq {s : State} (h : MqOk s) {m : MqUnit} (hb : m.bp = s.mq.bp) (he : m.endIdx = s.mq.endIdx) : MqOk (s.setMq m) :=
  ⟨by simpa [hb, he] using h.bp, by simpa [he] using h.endIdx⟩

/-- Written elements stay written: nothing but the MQ registers moves. -/
theorem MqMoved.written {s t : State} (h : MqMoved s t) {a n : Nat} (hw : Written s .stream a 1 n) : Written t .stream a 1 n := by
  rw [h.only]; simpa [Written] using hw

theorem MqMoved.readable {s t : State} (h : MqMoved s t) {bp : Nat} (hw : MqPairWritten s bp) : MqPairWritten t bp := by
  simp only [MqPairWritten, WindowWritten, h.endIdx]
  exact h.written hw

/-- MqByte answers the byte of the window, 0xFF beyond its end (R142). -/
theorem ends_mqByte {s : State} (h : MqOk s) {b i : Nat} (hw : MqPairWritten s b) (hi : b ≤ i) (hi' : i ≤ b + 1) (E : Stop → State → Prop)
    (Q : Nat → State → Prop) : Ends (mqByte i) s Q E ↔ Q (s.byteAt s.mq.endIdx.toNat i) s := by
  simp only [mqByte, ends_bind, ends_get, State.byteAt]
  split
  · next hlt =>
    have hw := hw (i - b) (by omega)
    rw [show b + (i - b) * 1 = i by omega] at hw
    rw [ends_bind, ends_memRead_of s _ (show i < s.sizeOf .stream from lt_of_lt_of_le hlt h.endIdx) (State.value_of_isSome hw), ends_pure]
  · rw [ends_pure]

/-- The merge of `add` and the new count, on the code register. -/
theorem mqMerge_code (s : State) (add ct : Nat) (hct : ct < 16) :
    let t := s.setMq { s.mq with
      ct := BitVec.ofNat 4 ct
      chigh := BitVec.ofNat 16 (s.mq.chigh.toNat + (s.mq.clow.toNat + add) / 2 ^ 16)
      clow := BitVec.ofNat 16 (s.mq.clow.toNat + add) }
    t.mqCode = { c := (s.mqCode.c + add) % 2 ^ 32, ct := ct, bp := s.mqCode.bp } := by
  simp only [State.mqCode, State.setMq_mq, BitVec.toNat_ofNat, MqCode.mk.injEq, and_true]
  omega

/-- MQ_BP moves on to the next byte of the window. -/
theorem MqOk.advance {s : State} (h : MqOk s) (hlt : s.mq.bp.toNat < s.mq.endIdx.toNat) :
    (s.mq.bp + 1).toNat = s.mq.bp.toNat + 1 ∧ MqMoved s (s.setMq { s.mq with bp := s.mq.bp + 1 }) := by
  have hs : (s.mq.bp + 1).toNat = s.mq.bp.toNat + 1 := by
    have := s.mq.endIdx.isLt
    rw [BitVec.toNat_add]
    simp; omega
  refine ⟨hs, by simp, rfl, by simp only [State.setMq_mq, hs]; omega, by simp only [State.setMq_mq, hs]; omega, h.endIdx⟩

/-- BYTEIN merges the next byte (R143) and leaves seven or eight bits to shift. -/
theorem ends_byteIn {s : State} (h : MqOk s) (hw : MqPairWritten s s.mq.bp.toNat) :
    Ends byteIn s (fun _ t => MqMoved s t ∧ t.mqCode = s.mqBytein s.mqCode ∧ t.mq.a = s.mq.a ∧ t.mq.ct ≠ 0) (fun _ _ => False) := by
  have hbp : s.mqCode.bp = s.mq.bp.toNat := rfl
  simp only [byteIn, ends_bind, ends_get, ends_mqByte h hw le_rfl (Nat.le_succ _)]
  by_cases hff : s.byteAt s.mq.endIdx.toNat s.mq.bp.toNat = 0xFF
  · rw [if_pos hff, ends_bind, ends_mqByte h hw (Nat.le_succ _) le_rfl]
    by_cases hm : 0x8F < s.byteAt s.mq.endIdx.toNat (s.mq.bp.toNat + 1)
    · rw [if_pos hm, mqMerge, ends_modifyMq]
      refine ⟨⟨by simp, rfl, le_rfl, h.setMq rfl rfl⟩, ?_, rfl, by simp⟩
      rw [mqMerge_code s _ _ (by omega), State.mqBytein, hbp, if_neg (by simpa using hff), if_pos hm]
    · have hlt : s.mq.bp.toNat < s.mq.endIdx.toNat := by
        by_contra hge
        exact hm (by simp [State.byteAt, show ¬ s.mq.bp.toNat + 1 < s.mq.endIdx.toNat by omega])
      obtain ⟨hs, ha⟩ := h.advance hlt
      rw [if_neg hm, ends_bind, mqAdvance, ends_modifyMq, ends_bind,
        ends_mqByte ha.ok (ha.readable hw) (Nat.le_succ _) le_rfl, ha.byteAt, mqMerge, ends_modifyMq]
      refine ⟨ha.trans ⟨by simp, rfl, le_rfl, ha.ok.setMq rfl rfl⟩, ?_, rfl, by simp⟩
      rw [mqMerge_code _ _ _ (by omega), State.mqBytein, hbp, if_neg (by simpa using hff), if_neg hm]
      have := s.mq.endIdx.isLt
      simp [State.mqCode]; omega
  · have hlt : s.mq.bp.toNat < s.mq.endIdx.toNat := by
      by_contra hge
      exact hff (by simp [State.byteAt, hge])
    obtain ⟨hs, ha⟩ := h.advance hlt
    rw [if_neg hff, ends_bind, mqAdvance, ends_modifyMq, ends_bind,
      ends_mqByte ha.ok (ha.readable hw) (Nat.le_succ _) le_rfl, ha.byteAt, mqMerge, ends_modifyMq]
    refine ⟨ha.trans ⟨by simp, rfl, le_rfl, ha.ok.setMq rfl rfl⟩, ?_, rfl, by simp⟩
    rw [mqMerge_code _ _ _ (by omega), State.mqBytein, hbp, if_pos (by simpa using hff)]
    have := s.mq.endIdx.isLt
    simp [State.mqCode]; omega

/-- One place to the left, on the two halves. -/
theorem shift_halves (h l : BitVec 16) :
    ((h <<< 1) ||| (l >>> 15)).toNat * 2 ^ 16 + (l <<< 1).toNat = (h.toNat * 2 ^ 16 + l.toNat) * 2 % 2 ^ 32 := by
  have hl := l.isLt
  have e : ((h <<< 1) ||| (l >>> 15)).toNat = 2 * (h.toNat % 2 ^ 15) + l.toNat / 2 ^ 15 := by
    rw [BitVec.toNat_or, BitVec.toNat_shiftLeft, BitVec.toNat_ushiftRight, Nat.shiftLeft_eq, Nat.shiftRight_eq_div_pow,
      show h.toNat * 2 ^ 1 % 2 ^ 16 = 2 ^ 1 * (h.toNat % 2 ^ 15) by omega]
    exact (Nat.two_pow_add_eq_or_of_lt (show l.toNat / 2 ^ 15 < 2 ^ 1 by omega) _).symm
  rw [e, BitVec.toNat_shiftLeft, Nat.shiftLeft_eq]
  omega

/-- RENORMD shifts the interval `a` until its top bit is 1, and the code register as often (R146); the bytes it asks for on the way
are written. -/
theorem ends_renormD (k : Nat) : ∀ (s : State) (a : Nat), MqOk s → 1 ≤ a → a < 2 ^ 15 → 2 ^ 15 ≤ a * 2 ^ k →
    (∀ j, j < k → a * 2 ^ j < 0x8000 → (s.mqShifts j s.mqCode).ct = 0 → MqPairWritten s (s.mqShifts j s.mqCode).bp) →
    Ends (renormD k a) s
      (fun _ t => MqMoved s t ∧ ∃ n, 1 ≤ n ∧ n ≤ k ∧ t.mq.a.toNat = a * 2 ^ n ∧ 0x8000 ≤ t.mq.a.toNat ∧
        t.mqCode = s.mqShifts n s.mqCode)
      (fun _ _ => False) := by
  induction k with
  | zero => intros; omega
  | succ k ih =>
    intro s a h h1 hlt hge hw
    have hfirst : Ends (if s.mq.ct = 0 then byteIn else pure ()) s
        (fun _ t => MqMoved s t ∧ t.mqCode = (if s.mqCode.ct = 0 then s.mqBytein s.mqCode else s.mqCode) ∧ t.mq.ct ≠ 0)
        (fun _ _ => False) := by
      by_cases hc : s.mq.ct = 0
      · have : s.mqCode.ct = 0 := by simp [State.mqCode, hc]
        simp only [hc, this, if_true]
        exact (ends_byteIn h (hw 0 (Nat.succ_pos k) (by omega) this)).mono (fun _ t ht => ⟨ht.1, ht.2.1, ht.2.2.2⟩) fun _ _ h => h
      · have : s.mqCode.ct ≠ 0 := fun h0 => hc (BitVec.eq_of_toNat_eq (by simpa [State.mqCode] using h0))
        simp only [hc, this, if_false]
        exact ⟨⟨by simp, rfl, le_rfl, h⟩, rfl, hc⟩
    rw [renormD, ends_bind, ends_get, ends_bind]
    refine hfirst.mono (fun _ t ht => ?_) fun _ _ h => h
    obtain ⟨hm, hcode, hct⟩ := ht
    rw [ends_bind, ends_modifyMq]
    have hct' : (t.mq.ct - 1).toNat = t.mq.ct.toNat - 1 := by
      have : t.mq.ct.toNat ≠ 0 := fun h0 => hct (BitVec.eq_of_toNat_eq (by simpa using h0))
      have := t.mq.ct.isLt
      rw [BitVec.toNat_sub]
      simp; omega
    generalize hu : t.setMq { t.mq with
      chigh := (t.mq.chigh <<< 1) ||| (t.mq.clow >>> 15), clow := t.mq.clow <<< 1, ct := t.mq.ct - 1 } = u
    have hmu : MqMoved s u := by
      subst hu
      exact hm.trans ⟨by simp, rfl, le_rfl, hm.ok.setMq rfl rfl⟩
    have hcu : u.mqCode = s.mqShifts 1 s.mqCode := by
      simp only [State.mqShifts, ← hcode]
      subst hu
      simp only [State.mqCode, State.setMq_mq, hct', shift_halves]
    have hmod : a * 2 % 2 ^ 16 = a * 2 := Nat.mod_eq_of_lt (by omega)
    simp only [hmod]
    split
    · next htop =>
      rw [ends_modifyMq]
      refine ⟨hmu.trans ⟨by simp, rfl, le_rfl, hmu.ok.setMq rfl rfl⟩, 1, le_rfl, by omega, ?_, ?_, ?_⟩
      · simp only [State.setMq_mq, BitVec.toNat_ofNat]; omega
      · simp only [State.setMq_mq, BitVec.toNat_ofNat]; omega
      · rw [← hcu]; rfl
    · next htop =>
      refine (ih u (a * 2) hmu.ok (by omega) (by omega) ?_ fun j hj ha hc => ?_).mono (fun _ v hv => ?_) fun _ _ h => h
      · rw [mul_assoc, ← Nat.pow_succ']; exact hge
      · rw [hmu.shifts, hcu] at hc ⊢
        exact hmu.readable (hw (j + 1) (by omega) (by rw [Nat.pow_succ', ← mul_assoc]; exact ha) hc)
      · obtain ⟨hmv, n, hn1, hnk, hav, htv, hcv⟩ := hv
        refine ⟨hmu.trans hmv, n + 1, by omega, by omega, ?_, htv, ?_⟩
        · rw [hav]; ring
        · rw [hcv, hmu.shifts, hcu]
          rfl

end Sys2Proof.Machine
end

