-- ==== Sys2Proof/Laws/PerInstr.lean ====
section
/-! SUPPORT. A law of every command as syntax, one lemma per constructor: the word of a well-formed command carries its unit
(30_encoding.md R103). -/

namespace Sys2Proof.Laws.UnitField

open Sys2Proof Sys2Proof.Machine

/-- The UNIT field of the word is the unit of the command. -/
def Statement (i : Instr) : Prop := i.wellFormed = true → unitOf (encode i) = unitOfInstr i

/-- The unit of a command word whose IMM fits. -/
theorem of_word {u o k : Nat} (hu : u < 16) (ho : o < 16) (hk : k < 2 ^ 24) : unitOf (commandWord u o k) = u :=
  unitOf_commandWord hu ho hk

theorem sysNop : Statement .sysNop := fun _ => rfl

theorem sysReset : Statement .sysReset := fun _ => rfl

theorem mqInit : Statement .mqInit := fun _ => rfl

theorem mqReadbit (cxi : Nat) : Statement (.mqReadbit cxi) :=
  fun h => of_word (by decide) (by decide) (by simpa [Instr.wellFormed] using h)

theorem brInit (mode : BrMode) : Statement (.brInit mode) := by
  intro _
  cases mode <;> rfl

theorem brReadbits (n : Nat) : Statement (.brReadbits n) :=
  fun h => of_word (by decide) (by decide) (by simp only [Instr.wellFormed, decide_eq_true_eq] at h; omega)

theorem brPeekbits (n : Nat) : Statement (.brPeekbits n) :=
  fun h => of_word (by decide) (by decide) (by simp only [Instr.wellFormed, decide_eq_true_eq] at h; omega)

theorem brSkipbits (n : Nat) : Statement (.brSkipbits n) :=
  fun h => of_word (by decide) (by decide) (by simp only [Instr.wellFormed, decide_eq_true_eq] at h; omega)

theorem brAlign : Statement .brAlign := fun _ => rfl

theorem brPeekmarker (mark : Byte) : Statement (.brPeekmarker mark) := fun _ => of_word (by decide) (by decide) (by omega)

theorem brSkipbytes : Statement .brSkipbytes := fun _ => rfl

theorem hufInit : Statement .hufInit := fun _ => rfl

theorem hufLoadtable (tclass : TClass) (tid : Fin 4) : Statement (.hufLoadtable tclass tid) := by
  intro _
  cases tclass <;> (revert tid; decide)

theorem hufScancfg (ss se al : Nat) : Statement (.hufScancfg ss se al) :=
  fun h => of_word (by decide) (by decide) (by simp only [Instr.wellFormed, Bool.and_eq_true, decide_eq_true_eq] at h; omega)

theorem hufRestart : Statement .hufRestart := fun _ => rfl

theorem hufDecode (tclass : TClass) (tid : Fin 4) : Statement (.hufDecode tclass tid) := by
  intro _
  cases tclass <;> (revert tid; decide)

theorem hufReceive (n : Nat) : Statement (.hufReceive n) :=
  fun h => of_word (by decide) (by decide) (by simp only [Instr.wellFormed, decide_eq_true_eq] at h; omega)

theorem hufExtend (n : Nat) : Statement (.hufExtend n) :=
  fun h => of_word (by decide) (by decide) (by simp only [Instr.wellFormed, decide_eq_true_eq] at h; omega)

theorem hufBlockBaseline (dct act comp : Fin 4) : Statement (.hufBlockBaseline dct act comp) := by
  intro _
  (revert dct act comp; decide)

theorem hufDcFirst (dct comp : Fin 4) : Statement (.hufDcFirst dct comp) := by
  intro _
  (revert dct comp; decide)

theorem hufDcRefine : Statement .hufDcRefine := fun _ => rfl

theorem hufAcFirst (act : Fin 4) : Statement (.hufAcFirst act) := by
  intro _
  (revert act; decide)

theorem hufAcRefine (act : Fin 4) : Statement (.hufAcRefine act) := by
  intro _
  (revert act; decide)

theorem ccittInit (kmode : Nat) (eoline balign eoblock black1 : Bool) : Statement (.ccittInit kmode eoline balign eoblock black1) := by
  intro h
  have hk : kmode < 4 := by simpa [Instr.wellFormed] using h
  exact of_word (by decide) (by decide) (by revert eoline balign eoblock black1; simp only [Bool.forall_bool, Bool.toNat_true, Bool.toNat_false]; omega)

theorem ccittReadbyte : Statement .ccittReadbyte := fun _ => rfl

theorem idctBlock (qti : Fin 4) : Statement (.idctBlock qti) := by
  intro _
  (revert qti; decide)

theorem iwtSr1d (filter : Filter) (phase : Bool) : Statement (.iwtSr1d filter phase) := by
  intro _
  cases filter <;> (revert phase; decide)

theorem iwtSr2d (filter : Filter) (phaseu phasev : Bool) : Statement (.iwtSr2d filter phaseu phasev) := by
  intro _
  cases filter <;> (revert phaseu phasev; decide)

end Sys2Proof.Laws.UnitField
end

