-- ==== Sys2Proof/Laws/Tables.lean ====
section
/-! SUPPORT. The codes of a loaded table are canonical (42_huffman_jpeg.md R228), and HufDecode reads the symbol whose code
begins the unread bits (R214). -/

namespace Sys2Proof.Machine

/-! ## The histogram by R213's numbers -/

theorem histogramSum_eq (cnt : List Byte) : histogramSum cnt = codeCount cnt := by
  induction cnt with
  | nil => rfl
  | cons n ns ih => simp [histogramSum, codeCount, ih]

/-- One more bit doubles what is taken up, and the codes of the new length take a place each. -/
theorem codeSpace_succ (cnt : List Byte) (L : Nat) : codeSpace cnt (L + 1) = codeSpace cnt L * 2 + (cnt.getD L 0).toNat := by
  have e : ∀ i ∈ List.range L, (cnt.getD i 0).toNat * 2 ^ (L + 1 - (i + 1)) = (cnt.getD i 0).toNat * 2 ^ (L - (i + 1)) * 2 := by
    intro i hi
    have := List.mem_range.1 hi
    rw [show L + 1 - (i + 1) = L - (i + 1) + 1 by omega, pow_succ, mul_assoc]
  rw [codeSpace, List.range_succ, List.map_append, List.sum_append, List.map_congr_left e, List.sum_map_mul_right]
  simp [codeSpace]

/-- What `overfullAt` answers from length `L + 1` on: the first length with more codes than fit, and nothing when there is
none. -/
theorem overfullAt_spec (cnt : List Byte) (ns : List Byte) :
    ∀ L, cnt.drop L = ns → match overfullAt ns (L + 1) (codeSpace cnt L * 2) with
      | some len => L < len ∧ len ≤ L + ns.length ∧ 2 ^ len < codeSpace cnt len ∧
          ∀ j, L < j → j < len → codeSpace cnt j ≤ 2 ^ j
      | none => ∀ j, L < j → j ≤ L + ns.length → codeSpace cnt j ≤ 2 ^ j := by
  induction ns with
  | nil => intro L _ j h1 h2; simp at h2; omega
  | cons n ns ih =>
    intro L hL
    have hn : (cnt.getD L 0).toNat = n.toNat := by
      have : cnt[L]? = some n := by rw [← List.head?_drop, hL]; rfl
      simp [List.getD_eq_getElem?_getD, this]
    have hs : codeSpace cnt L * 2 + n.toNat = codeSpace cnt (L + 1) := by rw [codeSpace_succ, hn]
    have hd : cnt.drop (L + 1) = ns := by rw [← List.drop_drop, hL]; rfl
    rw [overfullAt, hs]
    by_cases hc : 2 ^ (L + 1) < codeSpace cnt (L + 1)
    · rw [if_pos hc]
      exact ⟨by omega, by simp, hc, fun j h1 h2 => by omega⟩
    · rw [if_neg hc]
      have := ih (L + 1) hd
      have first : ∀ j, j = L + 1 → codeSpace cnt j ≤ 2 ^ j := by rintro j rfl; omega
      split at this
      · next len h =>
        obtain ⟨h1, h2, h3, h4⟩ := this
        simp only [List.length_cons]
        refine ⟨by omega, by omega, h3, fun j h5 h6 => ?_⟩
        by_cases hj : j = L + 1
        · exact first j hj
        · exact h4 j (by omega) h6
      · next h =>
        intro j h1 h2
        simp only [List.length_cons] at h2
        by_cases hj : j = L + 1
        · exact first j hj
        · exact this j (by omega) (by omega)

/-- The first length with more codes than fit, by R213's numbers. -/
theorem overfullAt_eq_some {cnt : List Byte} {len : Nat} (h : overfullAt cnt 1 0 = some len) :
    1 ≤ len ∧ len ≤ cnt.length ∧ 2 ^ len < codeSpace cnt len ∧ ∀ j, 1 ≤ j → j < len → codeSpace cnt j ≤ 2 ^ j := by
  have := overfullAt_spec cnt cnt 0 rfl
  simp only [codeSpace, List.range_zero, List.map_nil, List.sum_nil, Nat.zero_mul, Nat.zero_add, h] at this
  exact this

theorem overfullAt_eq_none_iff (cnt : List Byte) :
    overfullAt cnt 1 0 = none ↔ CodesFit cnt cnt.length := by
  have := overfullAt_spec cnt cnt 0 rfl
  rw [show codeSpace cnt 0 * 2 = 0 from rfl, Nat.zero_add] at this
  constructor
  · intro h j hj
    rw [h] at this
    rcases Nat.eq_zero_or_pos j with rfl | hp
    · exact Nat.zero_le _
    · exact this j hp (by have := List.mem_range.1 hj; omega)
  · intro h
    cases ho : overfullAt cnt 1 0 with
    | none => rfl
    | some len =>
      obtain ⟨h1, h2, h3, -⟩ := overfullAt_eq_some ho
      have := h len (List.mem_range.2 (by omega))
      omega

theorem TableOk.overfullAt {t : HufTable} (h : TableOk t) : overfullAt t.count.toList 1 0 = none :=
  (overfullAt_eq_none_iff _).2 (by simpa using h.2.2)

/-! ## The codes -/

/-- `d` comes after `c` in code order: it is no shorter, and not below what follows `c` at its length. -/
def CodeAfter (c d : HufCode) : Prop := c.len ≤ d.len ∧ (c.code + 1) * 2 ^ (d.len - c.len) ≤ d.code

theorem mem_codesOfLength {len : Nat} {c : HufCode} (vs : List Byte) :
    ∀ code, c ∈ codesOfLength len code vs → c.len = len ∧ code ≤ c.code ∧ c.code < code + vs.length := by
  induction vs with
  | nil => exact fun _ h => by cases h
  | cons v vs ih =>
    intro code h
    rcases List.mem_cons.1 h with rfl | h
    · simp
    · obtain ⟨h1, h2, h3⟩ := ih _ h
      simp only [List.length_cons]
      omega

theorem pairwise_codesOfLength (len : Nat) (vs : List Byte) : ∀ code, (codesOfLength len code vs).Pairwise CodeAfter := by
  induction vs with
  | nil => exact fun _ => List.Pairwise.nil
  | cons v vs ih =>
    refine fun code => List.pairwise_cons.2 ⟨fun c hc => ?_, ih _⟩
    obtain ⟨h1, h2, h3⟩ := mem_codesOfLength vs _ hc
    simp [CodeAfter, h1, h2]

theorem mem_codesFrom {c : HufCode} (ns : List Byte) :
    ∀ len code vals, c ∈ codesFrom ns len code vals →
      len ≤ c.len ∧ c.len < len + ns.length ∧ code * 2 ^ (c.len - len) ≤ c.code := by
  induction ns with
  | nil => exact fun _ _ _ h => by cases h
  | cons n ns ih =>
    intro len code vals h
    rw [codesFrom, List.mem_append] at h
    rcases h with h | h
    · obtain ⟨h1, h2, h3⟩ := mem_codesOfLength _ _ h
      simp [h1, h2]
    · obtain ⟨h1, h2, h3⟩ := ih _ _ _ h
      refine ⟨by omega, by simp only [List.length_cons]; omega, le_trans ?_ h3⟩
      rw [show c.len - len = (c.len - (len + 1)) + 1 by omega, pow_succ]
      calc code * (2 ^ (c.len - (len + 1)) * 2) = code * 2 * 2 ^ (c.len - (len + 1)) := by ring
        _ ≤ (code + n.toNat) * 2 * 2 ^ (c.len - (len + 1)) := by gcongr; omega

theorem pairwise_codesFrom (ns : List Byte) :
    ∀ len code vals, (codesFrom ns len code vals).Pairwise CodeAfter := by
  induction ns with
  | nil => exact fun _ _ _ => List.Pairwise.nil
  | cons n ns ih =>
    intro len code vals
    rw [codesFrom]
    refine List.pairwise_append.2 ⟨pairwise_codesOfLength _ _ _, ih _ _ _, fun c hc d hd => ?_⟩
    obtain ⟨h1, h2, h3⟩ := mem_codesOfLength _ _ hc
    obtain ⟨h4, h5, h6⟩ := mem_codesFrom _ _ _ _ hd
    refine ⟨by omega, le_trans ?_ h6⟩
    rw [h1, show d.len - len = (d.len - (len + 1)) + 1 by omega, pow_succ]
    have hl : (vals.take n.toNat).length ≤ n.toNat := by simp
    have hle : c.code + 1 ≤ code + n.toNat := by omega
    calc (c.code + 1) * (2 ^ (d.len - (len + 1)) * 2) = (c.code + 1) * 2 * 2 ^ (d.len - (len + 1)) := by ring
      _ ≤ (code + n.toNat) * 2 * 2 ^ (d.len - (len + 1)) := by gcongr

theorem code_lt_of_fit {c : HufCode} (ns : List Byte) :
    ∀ len code vals, overfullAt ns len code = none → c ∈ codesFrom ns len code vals → c.code < 2 ^ c.len := by
  induction ns with
  | nil => exact fun _ _ _ _ h => by cases h
  | cons n ns ih =>
    intro len code vals ho h
    rw [overfullAt] at ho
    split at ho
    · cases ho
    · next hle =>
      rw [codesFrom, List.mem_append] at h
      rcases h with h | h
      · obtain ⟨h1, h2, h3⟩ := mem_codesOfLength _ _ h
        have hl : (vals.take n.toNat).length ≤ n.toNat := by simp
        rw [h1]
        omega
      · exact ih _ _ _ ho h

/-- Codes are 1 to 16 bits long. -/
theorem HufTable.len_codes {t : HufTable} {c : HufCode} (h : c ∈ t.codes) : 1 ≤ c.len ∧ c.len ≤ 16 := by
  obtain ⟨h1, h2, -⟩ := mem_codesFrom _ _ _ _ h
  simp only [Vector.length_toList] at h2
  omega

theorem HufTable.pairwise_codes (t : HufTable) : t.codes.Pairwise CodeAfter := pairwise_codesFrom _ _ _ _

theorem HufTable.code_lt {t : HufTable} (ht : TableOk t) {c : HufCode} (h : c ∈ t.codes) : c.code < 2 ^ c.len :=
  code_lt_of_fit _ _ _ _ ht.overfullAt h

/-- Bits of a code, as a bit string. -/
def HufCode.bits (c : HufCode) : List Bool := bitsMsb c.len c.code

theorem HufCode.bits_prefix_iff {c : HufCode} (hc : c.code < 2 ^ c.len) (l : List Bool) :
    c.bits <+: l ↔ c.len ≤ l.length ∧ numOf (l.take c.len) = c.code := by
  constructor
  · rintro ⟨m, rfl⟩
    refine ⟨by simp [HufCode.bits], ?_⟩
    rw [List.take_append_of_le_length (by simp [HufCode.bits]), List.take_of_length_le (by simp [HufCode.bits]),
      HufCode.bits, numOf_bitsMsb, Nat.mod_eq_of_lt hc]
  · rintro ⟨hl, hn⟩
    rw [List.prefix_iff_eq_take]
    have hlen : (l.take c.len).length = c.len := by simp [hl]
    rw [HufCode.bits, bitsMsb_length, ← hn]
    have hb := bitsMsb_numOf (l.take c.len)
    rw [hlen] at hb
    exact hb

/-- Two codes that both begin `l` are one: no code is a prefix of another. -/
theorem code_unique {t : HufTable} (ht : TableOk t) {c d : HufCode} (hc : c ∈ t.codes) (hd : d ∈ t.codes) {l : List Bool}
    (hcl : c.bits <+: l) (hdl : d.bits <+: l) : c = d := by
  by_contra hne
  have hsym : ∀ c d : HufCode, c ∈ t.codes → d ∈ t.codes → c.bits <+: l → d.bits <+: l → CodeAfter c d → False := by
    intro c d hc hd hcl hdl ⟨h1, h2⟩
    obtain ⟨h3, h4⟩ := (HufCode.bits_prefix_iff (HufTable.code_lt ht hc) l).1 hcl
    obtain ⟨h5, h6⟩ := (HufCode.bits_prefix_iff (HufTable.code_lt ht hd) l).1 hdl
    have hsplit : l.take d.len = l.take c.len ++ (l.drop c.len).take (d.len - c.len) := by
      rw [← List.take_add, Nat.add_sub_cancel' h1]
    rw [hsplit, numOf_append, h4] at h6
    have hlt := numOf_lt ((l.drop c.len).take (d.len - c.len))
    have hlen : ((l.drop c.len).take (d.len - c.len)).length = d.len - c.len := by simp; omega
    rw [hlen] at h6 hlt
    rw [← h6, add_mul] at h2
    omega
  obtain ⟨i, hi, rfl⟩ := List.getElem_of_mem hc
  obtain ⟨j, hj, rfl⟩ := List.getElem_of_mem hd
  have hp := List.pairwise_iff_getElem.1 t.pairwise_codes
  rcases Nat.lt_trichotomy i j with h | h | h
  · exact hsym _ _ hc hd hcl hdl (hp i j hi hj h)
  · subst h; exact hne rfl
  · exact hsym _ _ hd hc hdl hcl (hp j i hj hi h)

theorem takeSymbol_eq_some {t : HufTable} {l : List Bool} {v : Nat} {rest : List Bool}
    (h : takeSymbol t l = some (v, rest)) :
    ∃ c ∈ t.codes, c.bits <+: l ∧ v = c.sym.toNat ∧ rest = l.drop c.len := by
  unfold takeSymbol at h
  split at h
  · next c hc =>
    cases h
    have := List.find?_some hc
    exact ⟨c, List.mem_of_find?_eq_some hc, by simpa [HufCode.bits] using this, rfl, rfl⟩
  · cases h

theorem ends_hufWalk {t : HufTable} (ht : TableOk t) {c : HufCode} (hc : c ∈ t.codes) {l : List Bool} (hl : c.bits <+: l)
    (k : Nat) : ∀ (n : Nat) (s : State), HufWindow s → s.segmentEnd.bits = l.drop n → n < c.len → c.len ≤ n + k →
      Ends (hufWalk t.codes k n (numOf (l.take n))) s
        (fun x u => x = c.sym.toNat ∧ SegmentRead s (l.drop c.len) u) (fun _ _ => False) := by
  obtain ⟨hcl, hcn⟩ := (HufCode.bits_prefix_iff (HufTable.code_lt ht hc) l).1 hl
  induction k with
  | zero => intros; omega
  | succ k ih =>
    intro n s hs hu hn hk
    have hnl : n < l.length := by omega
    rw [List.drop_eq_getElem_cons hnl] at hu
    rw [hufWalk, ends_bind]
    refine (ends_hufBit hs hu).mono (fun b u hbu => ?_) fun _ _ h => h
    obtain ⟨rfl, hr⟩ := hbu
    have hcode : numOf (l.take n) * 2 + (l[n]).toNat = numOf (l.take (n + 1)) := by
      rw [List.take_succ_eq_append_getElem hnl, numOf_append]
      simp [numOf]
    simp only [hcode]
    cases hf : codeFound t.codes (n + 1) (numOf (l.take (n + 1))) with
    | some d =>
      have hp := List.find?_some hf
      have hd := List.mem_of_find?_eq_some hf
      simp only [decide_eq_true_eq] at hp
      have hdl : d.bits <+: l := (HufCode.bits_prefix_iff (HufTable.code_lt ht hd) l).2 ⟨by omega, by rw [hp.1, hp.2]⟩
      obtain rfl := code_unique ht hc hd hl hdl
      rw [ends_pure]
      rw [hp.1]
      exact ⟨rfl, hr⟩
    | none =>
      have hlen : n + 1 ≠ c.len := by
        intro he
        have := List.find?_eq_none.1 hf c hc
        simp only [decide_eq_true_eq, not_and] at this
        exact this he.symm (by rw [← hcn, he])
      have hcont : codeContinues t.codes (n + 1) (numOf (l.take (n + 1))) = true := by
        refine List.any_eq_true.2 ⟨c, hc, ?_⟩
        simp only [decide_eq_true_eq]
        refine ⟨by omega, ?_⟩
        have hsplit : l.take c.len = l.take (n + 1) ++ (l.drop (n + 1)).take (c.len - (n + 1)) := by
          rw [← List.take_add, Nat.add_sub_cancel' (by omega)]
        have hlt := numOf_lt ((l.drop (n + 1)).take (c.len - (n + 1)))
        have hle : ((l.drop (n + 1)).take (c.len - (n + 1))).length = c.len - (n + 1) := by simp; omega
        rw [hle] at hlt
        rw [← hcn, hsplit, numOf_append, hle, Nat.mul_comm, Nat.mul_add_div (by positivity), Nat.div_eq_of_lt hlt,
          Nat.add_zero]
      simp only [hcont, if_true]
      refine (ih (n + 1) u hr.window (by rw [hr.segmentEnd]) (by omega) (by omega)).mono (fun x w hxw => ?_) fun _ _ h => h
      exact ⟨hxw.1, hr.trans hxw.2⟩

/-- HufDecode reads the symbol at the front of the segment. -/
theorem ends_hufDecode {s : State} (hs : HufWindow s) {c : TClass} {id : Fin 4} {t : HufTable}
    (hslot : s.ht[slotOf c id] = some t) (ht : TableOk t) {v : Nat} {rest : List Bool}
    (h : takeSymbol t s.segmentEnd.bits = some (v, rest)) :
    Ends (hufDecode c id) s (fun x u => x = v ∧ SegmentRead s rest u) (fun _ _ => False) := by
  obtain ⟨d, hd, hdl, rfl, rfl⟩ := takeSymbol_eq_some h
  obtain ⟨h1, h2⟩ := HufTable.len_codes hd
  simp only [hufDecode, ends_bind, ends_get, hslot]
  exact ends_hufWalk ht hd hdl 16 0 s hs rfl (by omega) (by omega)

end Sys2Proof.Machine
end

