-- ==== Sys2Proof/Laws/Transforms.lean ====
section
/-! SUPPORT. The transforms of the machine, sample by sample: an element of the machine's list is the value the claims' terms
give (44_idct.md R322 to R324, 45_wavelet_lifting.md R341, R343, R351, R353). -/

namespace Sys2Proof.Machine

/-! ## Narrowing -/

theorem word32_eq (x : Int) : word32 x = BitVec.ofInt 32 x := by
  refine BitVec.eq_of_toNat_eq ?_
  simp only [word32, wrap32, wrapN, BitVec.toNat_ofInt]
  omega

theorem half16_eq (x : Int) : half16 x = BitVec.ofInt 16 x := by
  refine BitVec.eq_of_toNat_eq ?_
  simp only [half16, wrap16, wrapN, BitVec.toNat_ofInt]
  omega

/-- wrap32 leaves a 32-bit value alone. -/
theorem wrap32_toInt (w : Word) : wrap32 w.toInt = w.toInt := by
  have h1 := BitVec.toInt_lt (x := w)
  have h2 := BitVec.le_toInt (x := w)
  simp only [wrap32, wrapN]
  omega

/-- An arithmetic shift of a word is asr32. -/
theorem word32_asr32 (w : Word) (n : Nat) : word32 (asr32 w.toInt n) = w.sshiftRight n := by
  refine BitVec.eq_of_toInt_eq ?_
  rw [BitVec.toInt_sshiftRight, word32_eq, asr32, wrap32_toInt, BitVec.toInt_ofInt, Int.shiftRight_eq_div_pow]
  have h1 := BitVec.toInt_lt (x := w)
  have h2 := BitVec.le_toInt (x := w)
  norm_num at h1 h2
  have hp : (0 : Int) < 2 ^ n := by positivity
  have hp1 : (1 : Int) ≤ 2 ^ n := hp
  have hlo : -(2 ^ 31) ≤ w.toInt / 2 ^ n := Int.le_ediv_of_mul_le hp (by nlinarith)
  have hhi : w.toInt / 2 ^ n < 2 ^ 31 := Int.ediv_lt_of_lt_mul hp (by nlinarith)
  push_cast
  exact Int.bmod_eq_of_le (by norm_num; omega) (by norm_num; omega)

/-! ## IDCT -/

/-- Element `k` of an octet. -/
def Oct.at (v : Oct) (k : Nat) : Int := v.toList.getD k 0

theorem Oct.at_const {x : Int} {k : Nat} (hk : k < 8) : (Oct.const x).at k = x := by
  unfold Oct.at
  interval_cases k <;> rfl

theorem Oct.at_map {f : Int → Int} {v : Oct} {k : Nat} (hk : k < 8) : (v.map f).at k = f (v.at k) := by
  unfold Oct.at
  interval_cases k <;> rfl

theorem rowPass_at (c q : Nat → Int) {k : Nat} (hk : k < 8) :
    (rowPass ⟨c 0, c 1, c 2, c 3, c 4, c 5, c 6, c 7⟩ ⟨q 0, q 1, q 2, q 3, q 4, q 5, q 6, q 7⟩).at k = idctRow c q k := by
  unfold rowPass idctRow Oct.acZero
  simp only [decide_eq_true_eq]
  split
  · rw [Oct.at_const hk]; rfl
  · rw [rowGeneral, Oct.at_map hk]
    simp only [Oct.at, stages321, stages21, halfSum, Oct.mul, Oct.toList, dctCos1, dctSin1, dctCos3, dctSin3, dctCos6, dctSin6,
      dctSqrt2, dctSqrt1d2, add_zero]

theorem colPass_at (p : Nat → Int) {k : Nat} (hk : k < 8) :
    (colPass ⟨p 0, p 1, p 2, p 3, p 4, p 5, p 6, p 7⟩).at k = idctCol p k := by
  unfold colPass idctCol Oct.acZero
  simp only [decide_eq_true_eq]
  split
  · rw [Oct.at_const hk]; rfl
  · rw [colGeneral, Oct.at_map hk]
    simp only [Oct.at, stages321, stages21, halfSum, Oct.toList, dctCos1, dctSin1, dctCos3, dctSin3, dctCos6, dctSin6,
      dctSqrt2, dctSqrt1d2]
    rfl

/-- Element `i` of eight octets in a row. -/
theorem getD_octets (f : Nat → Oct) {i : Nat} (hi : i < 64) :
    ((List.range 8).flatMap fun r => (f r).toList).getD i 0 = (f (i / 8)).at (i % 8) := by
  have hr : List.range 8 = [0, 1, 2, 3, 4, 5, 6, 7] := rfl
  simp only [hr, List.flatMap_cons, List.flatMap_nil, Oct.toList, Oct.at]
  interval_cases i <;> rfl

/-- IDCT.BLOCK's transform, one sample at a time. -/
theorem idctBlock_getD (c q : List Int) {i : Nat} (hi : i < 64) :
    (idctBlock c q).getD i 0 = idctSample (fun j => c.getD j 0) (fun j => q.getD j 0) i := by
  have h1 : 8 * (i % 8) + i / 8 < 64 := by omega
  have h2 : (8 * (i % 8) + i / 8) / 8 = i % 8 := by omega
  have h3 : (8 * (i % 8) + i / 8) % 8 = i / 8 := by omega
  have hrow : ∀ r, r < 8 → (idctRows c q).getD (i % 8 + r * 8) 0 =
      idctRow (fun k => c.getD (8 * r + k) 0) (fun k => q.getD (8 * r + k) 0) (i % 8) := by
    intro r hr
    rw [idctRows, getD_octets _ (by omega), show (i % 8 + r * 8) / 8 = r by omega, show (i % 8 + r * 8) % 8 = i % 8 by omega]
    rw [← rowPass_at _ _ (by omega)]
    rfl
  unfold idctBlock transpose8 idctCols idctSample
  rw [List.getD_eq_getElem _ _ (by simpa using hi)]
  simp only [List.getElem_map, List.getElem_range]
  rw [getD_octets _ h1, h2, h3]
  have hcol := colPass_at (fun r => idctRow (fun k => c.getD (8 * r + k) 0) (fun k => q.getD (8 * r + k) 0) (i % 8))
    (k := i / 8) (by omega)
  rw [← hcol]
  congr 2
  unfold Oct.ofBlock
  simp only [← hrow 0 (by omega), ← hrow 1 (by omega), ← hrow 2 (by omega), ← hrow 3 (by omega), ← hrow 4 (by omega),
    ← hrow 5 (by omega), ← hrow 6 (by omega), ← hrow 7 (by omega)]
  simp

theorem idctBlock_length (c q : List Int) : (idctBlock c q).length = 64 := by simp [idctBlock, transpose8]

theorem idctCol_range (p : Nat → Int) (k : Nat) : 0 ≤ idctCol p k ∧ idctCol p k ≤ 255 := by
  unfold idctCol
  split
  · simp only
    split
    · omega
    · split <;> omega
  · simp only
    generalize List.getD _ k 0 = q
    split
    · omega
    · split <;> omega

/-! ## Inverse lifting -/

theorem pse_eq_reflect {n : Nat} (hn : 1 ≤ n) (i : Int) : pse i n = reflect n i := by
  unfold pse reflect
  split
  · next h => subst h; simp
  · next h =>
    have hp : (2 * ((n : Int) - 1)) = ((2 * (n - 1) : Nat) : Int) := by omega
    simp only [hp]
    generalize hper : 2 * (n - 1) = per
    have hpos : 0 < per := by omega
    rcases Int.natAbs_eq i with he | he
    · rw [he]
      simp only [Int.natAbs_natCast, ← Int.natCast_mod]
      have := Nat.mod_lt i.natAbs hpos
      generalize i.natAbs % per = m at *
      split <;> omega
    · rw [he]
      simp only [Int.natAbs_neg, Int.natAbs_natCast]
      have hlt := Nat.mod_lt i.natAbs hpos
      have hmod : (-(i.natAbs : Int)) % (per : Int) = if i.natAbs % per = 0 then 0 else (per : Int) - (i.natAbs % per : Nat) := by
        rw [Int.neg_emod]
        split
        · next hd =>
          have : i.natAbs % per = 0 := Nat.mod_eq_zero_of_dvd (Int.natCast_dvd_natCast.1 hd)
          simp [this]
        · next hd =>
          have : i.natAbs % per ≠ 0 := fun h0 => hd (Int.natCast_dvd_natCast.2 (Nat.dvd_of_mod_eq_zero h0))
          simp [this]
      rw [hmod]
      generalize i.natAbs % per = m at *
      split <;> split <;> omega

theorem reflect_lt {n : Nat} (hn : 1 ≤ n) (i : Int) : reflect n i < n := by
  unfold reflect
  simp only
  rcases Nat.lt_or_ge 1 n with h | h
  · have := Nat.mod_lt i.natAbs (show 0 < 2 * (n - 1) by omega)
    omega
  · obtain rfl : n = 1 := by omega
    simp

/-- The 5/3 filter, one sample at a time. -/
theorem sr53_getD (w : List Word) (hn : 1 ≤ w.length) {i : Nat} (hi : i < w.length) :
    BitVec.ofInt 32 ((sr53 (w.map BitVec.toInt)).getD i 0) = lift53 w.length (fun j => w.getD j 0) i := by
  have he : ∀ j : Int, extended (w.map BitVec.toInt) j = (w.getD (reflect w.length j) 0).toInt := by
    intro j
    unfold extended
    rw [List.length_map, pse_eq_reflect hn]
    have := reflect_lt hn j
    rw [List.getD_eq_getElem _ _ (by simpa using this), List.getD_eq_getElem _ _ this]
    simp
  unfold sr53 lift53
  rw [List.getD_eq_getElem _ _ (by simpa using hi)]
  simp only [List.getElem_map, List.getElem_range, sr53At, sr53Even, he]
  congr 1
  by_cases h : i % 2 = 0
  · rw [if_pos h, if_pos (by omega)]
  · rw [if_neg h, if_neg (by omega)]

/-- A position inside its range with the step's parity. -/
theorem liftStep_in {α : Type} {p lo hi : Int} {f : (Int → α) → Int → α} {x : Int → α} {i : Int} (hp : i % 2 = p) (hl : lo ≤ i)
    (hh : i ≤ hi) : liftStep p lo hi f x i = f x i := if_pos ⟨hp, hl, hh⟩

/-- A position of the other parity. -/
theorem liftStep_out {α : Type} {p lo hi : Int} {f : (Int → α) → Int → α} {x : Int → α} {i : Int} (hp : i % 2 ≠ p) :
    liftStep p lo hi f x i = x i := if_neg fun h => hp h.1

/-- The 9/7 filter, one sample at a time, over any numerics: inside its range each step agrees with the step without end. -/
theorem sr97_getD (N : Numerics) (w : List Word) (hn : 1 ≤ w.length) {i : Nat} (hi : i < w.length) :
    (sr97 N w).getD i 0 = lift97 N w.length (fun j => w.getD j 0) i := by
  unfold sr97 lift97
  rw [List.getD_eq_getElem _ _ (by simpa using hi)]
  simp only [List.getElem_map, List.getElem_range, sr97At, ← pse_eq_reflect hn]
  generalize hnn : (w.length : Int) = n
  have hiz : (i : Int) < n := by omega
  generalize hx0 : (fun j => N.dec (w.getD (pse j w.length) 0) : Int → N.T) = x0
  generalize hr1 : (fun j => N.dec (N.enc (N.mul N.Kinv (x0 j))) : Int → N.T) = r1
  generalize hr2 : (fun j => N.dec (N.enc (N.sub (N.sub (N.mul N.K (x0 j)) (N.mul N.delta (r1 (j - 1))))
    (N.mul N.delta (r1 (j + 1))))) : Int → N.T) = r2
  generalize hr3 : (fun j => N.dec (N.enc (N.sub (r1 j) (N.add (N.mul N.gamma (r2 (j - 1))) (N.mul N.gamma (r2 (j + 1)))))) :
    Int → N.T) = r3
  generalize hr4 : (fun j => N.dec (N.enc (N.sub (r2 j) (N.add (N.mul N.beta (r3 (j - 1))) (N.mul N.beta (r3 (j + 1)))))) :
    Int → N.T) = r4
  have h1 : ∀ j : Int, j % 2 = 1 → -3 ≤ j → j ≤ n + 3 → liftStep 1 (-3) (n + 3) (scaleOdd N) x0 j = r1 j := by
    intro j h h' h''
    rw [liftStep_in h h' h'', ← hr1]; rfl
  have o1 : ∀ j : Int, j % 2 = 0 → liftStep 1 (-3) (n + 3) (scaleOdd N) x0 j = x0 j := fun j h => liftStep_out (by omega)
  generalize liftStep 1 (-3) (n + 3) (scaleOdd N) x0 = x1 at *
  have h2 : ∀ j : Int, j % 2 = 0 → -2 ≤ j → j ≤ n + 2 → liftStep 0 (-2) (n + 2) (scaleEven N) x1 j = r2 j := by
    intro j h h' h''
    rw [liftStep_in h h' h'', ← hr2, scaleEven, o1 j h, h1 (j - 1) (by omega) (by omega) (by omega),
      h1 (j + 1) (by omega) (by omega) (by omega)]
    rfl
  have o2 : ∀ j : Int, j % 2 = 1 → liftStep 0 (-2) (n + 2) (scaleEven N) x1 j = x1 j := fun j h => liftStep_out (by omega)
  generalize liftStep 0 (-2) (n + 2) (scaleEven N) x1 = x2 at *
  have h3 : ∀ j : Int, j % 2 = 1 → -1 ≤ j → j ≤ n + 1 → liftStep 1 (-1) (n + 1) (undoStep N N.gamma) x2 j = r3 j := by
    intro j h h' h''
    rw [liftStep_in h h' h'', ← hr3, undoStep, o2 j h, h1 j h (by omega) (by omega), h2 (j - 1) (by omega) (by omega) (by omega),
      h2 (j + 1) (by omega) (by omega) (by omega)]
    rfl
  have o3 : ∀ j : Int, j % 2 = 0 → liftStep 1 (-1) (n + 1) (undoStep N N.gamma) x2 j = x2 j := fun j h => liftStep_out (by omega)
  generalize liftStep 1 (-1) (n + 1) (undoStep N N.gamma) x2 = x3 at *
  have h4 : ∀ j : Int, j % 2 = 0 → 0 ≤ j → j ≤ n → liftStep 0 0 n (undoStep N N.beta) x3 j = r4 j := by
    intro j h h' h''
    rw [liftStep_in h h' h'', ← hr4, undoStep, o3 j h, h2 j h (by omega) (by omega), h3 (j - 1) (by omega) (by omega) (by omega),
      h3 (j + 1) (by omega) (by omega) (by omega)]
    rfl
  have o4 : ∀ j : Int, j % 2 = 1 → liftStep 0 0 n (undoStep N N.beta) x3 j = x3 j := fun j h => liftStep_out (by omega)
  generalize liftStep 0 0 n (undoStep N N.beta) x3 = x4 at *
  congr 1
  by_cases hpar : i % 2 = 0
  · rw [if_pos hpar, liftStep_out (by omega), h4 i (by omega) (by omega) (by omega)]
    subst hr4 hr3 hr2 hr1 hx0; rfl
  · rw [if_neg hpar, liftStep_in (by omega) (by omega) (by omega), undoStep, o4 i (by omega), h3 i (by omega) (by omega) (by omega),
      h4 (i - 1) (by omega) (by omega) (by omega), h4 (i + 1) (by omega) (by omega) (by omega)]
    subst hr4 hr3 hr2 hr1 hx0; rfl

/-- A line of the machine, word by word. -/
theorem lineResult_getD (f : Filter) (phase : Bool) (w : List Word) (hn : 1 ≤ w.length) (hp : phase = true → w.length = 1) {i : Nat}
    (hi : i < w.length) :
    (lineResult Config.iwt97Num f phase w).getD i 0 = lineWord f phase w.length (fun j => w.getD j 0) i := by
  unfold lineWord
  match w, hn with
  | [x], _ =>
    obtain rfl : i = 0 := by simpa using hi
    simp only [lineResult, oneElement, List.length_singleton, if_true, List.getD_cons_zero]
    cases phase
    · rfl
    · cases f
      · exact word32_asr32 x 1
      · rfl
  | x :: y :: l, _ =>
    have h1 : (x :: y :: l).length ≠ 1 := by simp
    rw [if_neg h1]
    cases f
    · simp only [lineResult]
      rw [← sr53_getD _ (by simp) hi]
      rw [List.getD_eq_getElem _ _ (by simpa [sr53] using hi), List.getD_eq_getElem _ _ (by simpa [sr53] using hi), List.getElem_map,
        word32_eq]
    · exact sr97_getD _ _ (by simp) hi

theorem lineResult_length (N : Numerics) (f : Filter) (phase : Bool) (w : List Word) : (lineResult N f phase w).length = w.length := by
  unfold lineResult
  split
  · rfl
  · cases f <;> simp [sr53, sr97]

end Sys2Proof.Machine
end

