-- ==== Sys2Proof/Machine/Binary64.lean ====
section
/-! DEFINITION. The recommended numerics record of 45_wavelet_lifting.md R352: binary64 arithmetic over binary32 storage, both
of IEEE 754, round to nearest, ties to even. The block's own record is OPEN and the machine does not use this one; it is the
instance for which the vectors of 95_test_vectors.md (W11, W13 to W23) are stated (log 14). -/

namespace Sys2Proof.Machine

/-- A floating-point datum: one NaN, two infinities, and `(-1)^neg * m * 2^e`. -/
inductive Fp where
  | nan
  | inf (neg : Bool)
  | fin (neg : Bool) (m : Nat) (e : Int)
deriving DecidableEq, Repr

/-- A binary format: precision, exponent of the least unit in the last place, largest exponent. -/
structure FpFormat where
  p : Nat
  emin : Int
  emax : Int

def binary64 : FpFormat := { p := 53, emin := -1074, emax := 1023 }

def binary32 : FpFormat := { p := 24, emin := -149, emax := 127 }

/-- `m / 2 ^ sh` rounded to nearest, ties to even. -/
def roundShift (m sh : Nat) : Nat :=
  let q := m / 2 ^ sh
  let r2 := m % 2 ^ sh * 2
  if 2 ^ sh < r2 ∨ (r2 = 2 ^ sh ∧ q % 2 = 1) then q + 1 else q

/-- `(-1)^neg * m * 2^e` rounded to a format: gradual underflow, overflow to an infinity. -/
def FpFormat.round (f : FpFormat) (neg : Bool) (m : Nat) (e : Int) : Fp :=
  if m = 0 then .fin neg 0 f.emin
  else
    let u := max (e + (Nat.log2 m + 1) - f.p) f.emin
    let m' := if u ≤ e then m * 2 ^ (e - u).toNat else roundShift m (u - e).toNat
    if m' ≠ 0 ∧ f.emax < u + Nat.log2 m' then .inf neg else .fin neg m' u

/-- The signed significand at exponent `e`, for `e` no larger than `x`'s own. -/
def signedAt (neg : Bool) (m : Nat) (e0 e : Int) : Int := (if neg then -1 else 1) * (m * 2 ^ (e0 - e).toNat : Nat)

def Fp.add : Fp → Fp → Fp
  | .nan, _ => .nan
  | _, .nan => .nan
  | .inf a, .inf b => if a = b then .inf a else .nan
  | .inf a, .fin _ _ _ => .inf a
  | .fin _ _ _, .inf b => .inf b
  | .fin a m e, .fin b n d =>
    let g := min e d
    let x := signedAt a m e g + signedAt b n d g
    binary64.round (if x = 0 then a && b else decide (x < 0)) x.natAbs g

def Fp.neg : Fp → Fp
  | .nan => .nan
  | .inf a => .inf (!a)
  | .fin a m e => .fin (!a) m e

def Fp.sub (x y : Fp) : Fp := x.add y.neg

def Fp.mul : Fp → Fp → Fp
  | .nan, _ => .nan
  | _, .nan => .nan
  | .inf a, .inf b => .inf (a != b)
  | .inf a, .fin b n _ => if n = 0 then .nan else .inf (a != b)
  | .fin a m _, .inf b => if m = 0 then .nan else .inf (a != b)
  | .fin a m e, .fin b n d => binary64.round (a != b) (m * n) (e + d)

/-- The binary64 value nearest `num / den`: 128 quotient bits, then a bit that says whether there is more. -/
def nearest64 (neg : Bool) (num den : Nat) : Fp :=
  let sticky : Nat := if num * 2 ^ 128 % den = 0 then 0 else 1
  binary64.round neg (num * 2 ^ 128 / den * 2 + sticky) (-129)

/-- The binary64 value nearest a decimal with 15 places. -/
def decimal15 (neg : Bool) (num : Nat) : Fp := nearest64 neg num (10 ^ 15)

/-- The value of a binary32 word. -/
def Fp.ofWord (w : Word) : Fp :=
  let neg := w.getLsbD 31
  let ex : Nat := w.toNat / 2 ^ 23 % 2 ^ 8
  let fr : Nat := w.toNat % 2 ^ 23
  if ex = 255 then (if fr = 0 then .inf neg else .nan)
  else if ex = 0 then .fin neg fr (-149)
  else .fin neg (2 ^ 23 + fr) (ex - 150)

/-- The sign bit of a binary32 word. -/
def signBit (neg : Bool) : Nat := neg.toNat * 2 ^ 31

/-- The binary32 encoding of a value, rounded; any NaN gives the canonical quiet NaN. -/
def Fp.toWord : Fp → Word
  | .nan => 0x7FC00000
  | .inf a => BitVec.ofNat 32 (signBit a + 0x7F800000)
  | .fin a m e =>
    match binary32.round a m e with
    | .nan => 0x7FC00000
    | .inf b => BitVec.ofNat 32 (signBit b + 0x7F800000)
    | .fin b n u => BitVec.ofNat 32 (signBit b + ((u + 149).toNat * 2 ^ 23 + n))

/-- K, as binary64. -/
def recommendedK : Fp := decimal15 false 1230174104914001

/-- The binary64 quotient `1 / K`. -/
def recommendedKinv : Fp :=
  match recommendedK with
  | .fin _ m e => nearest64 false (2 ^ (-e).toNat) m
  | .nan => .nan
  | .inf _ => .nan

/-- The recommended instance (R352), its constants from R350. -/
def recommendedNumerics : Numerics :=
  { T := Fp, dec := Fp.ofWord, enc := Fp.toWord, mul := Fp.mul, add := Fp.add, sub := Fp.sub,
    alpha := decimal15 true 1586134342059924, beta := decimal15 true 52980118572961,
    gamma := decimal15 false 882911075530934, delta := decimal15 false 443506852043971, K := recommendedK,
    Kinv := recommendedKinv, half := .fin false 1 (-1) }

end Sys2Proof.Machine
end

