-- ==== Sys2Proof/Tests/Slice0.lean ====
section
/-! SUPPORT. Tests: ill-formed commands are refused, words written out from the encoding tables decode, single steps give the
results of 95_test_vectors.md (each named beside the test), and every obligation with hypotheses has a state that meets them. -/

open Sys2Proof Sys2Proof.Machine

namespace Sys2Proof.Tests

-- One test is checked before the next is read: checking them all at once takes a thread, and its stack, for each.
set_option Elab.async false

/-! ## Helpers -/

/-- Elements from index `a` on. -/
def cells {w : Nat} (a : Nat) (l : List Nat) : Memory w := l.zipIdx.map fun (v, i) => (a + i, BitVec.ofNat w v)

/-- The same from signed values. -/
def signed {w : Nat} (l : List Int) : Memory w := l.zipIdx.map fun (v, i) => (i, BitVec.ofInt w v)

/-- A small block after power-on reset. -/
def tiny : State :=
  State.powerOn
    { streamSize := 32, cxEntries := 8, tblSize := 272, coefBlocks := 2, planeWords := 16, colsMax := 32 }

/-- All units ready. -/
def ready : Flags := { Flags.clear with mqRdy := true, brRdy := true, hufRdy := true, ccRdy := true }

/-- One step of a block whose host writes `w` to CMD. -/
def issue (w : Word) (s : State) : Option State :=
  match step { s with pending := [.regWrite 0 w] } with
  | .next t => some t
  | _ => none

/-- The fault record after that step: STATUS, FAULTINFO, FAULTARG. -/
def faultOf (w : Word) (s : State) : Option (Word × Word × Word) :=
  (issue w s).map fun t => (t.status, t.faultRec.info, t.faultRec.arg)

/-! ## WellFormed: one ill-formed command for each check -/

theorem test_wf_cxi : (Instr.mqReadbit (2 ^ 24)).wellFormed = false := by decide
theorem test_wf_readbits : (Instr.brReadbits 32).wellFormed = false := by decide
theorem test_wf_peekbits : (Instr.brPeekbits 32).wellFormed = false := by decide
theorem test_wf_skipbits : (Instr.brSkipbits 32).wellFormed = false := by decide
theorem test_wf_receive : (Instr.hufReceive 32).wellFormed = false := by decide
theorem test_wf_extend : (Instr.hufExtend 32).wellFormed = false := by decide
theorem test_wf_ss : (Instr.hufScancfg 64 0 0).wellFormed = false := by decide
theorem test_wf_se : (Instr.hufScancfg 0 64 0).wellFormed = false := by decide
theorem test_wf_al : (Instr.hufScancfg 0 0 16).wellFormed = false := by decide
theorem test_wf_kmode : (Instr.ccittInit 4 false false false false).wellFormed = false := by decide
theorem test_wf_largest : (Instr.mqReadbit (2 ^ 24 - 1)).wellFormed = true ∧ (Instr.hufScancfg 63 63 15).wellFormed = true := by
  decide

/-! ## Decoding: words written out in bits from 30_encoding.md R100, R102, R103 (UNIT, OP, then the IMM fields) -/

theorem test_decode_sys :
    decode 0b00000000000000000000000000000000#32 = some .sysNop ∧
    decode 0b00000001000000000000000000000000#32 = some .sysReset := by decide

theorem test_decode_mq :
    decode 0b00010000000000000000000000000000#32 = some .mqInit ∧
    decode 0b00010001100000000000000000000101#32 = some (.mqReadbit (2 ^ 23 + 5)) := by decide

/-- MODE in bit 0, N in bits 4:0, MARK in bits 7:0. -/
theorem test_decode_br :
    decode 0b00100000000000000000000000000001#32 = some (.brInit .stuff7) ∧
    decode 0b00100001000000000000000000010001#32 = some (.brReadbits 17) ∧
    decode 0b00100010000000000000000000001101#32 = some (.brPeekbits 13) ∧
    decode 0b00100011000000000000000000000011#32 = some (.brSkipbits 3) ∧
    decode 0b00100100000000000000000000000000#32 = some .brAlign ∧
    decode 0b00100101000000000000000011010000#32 = some (.brPeekmarker 0xD0#8) ∧
    decode 0b00100110000000000000000000000000#32 = some .brSkipbytes := by decide

/-- TCLASS in bit 0, TID in bits 2:1; SS in 5:0, SE in 11:6, AL in 15:12. -/
theorem test_decode_huf_setup :
    decode 0b00110000000000000000000000000000#32 = some .hufInit ∧
    decode 0b00110001000000000000000000000101#32 = some (.hufLoadtable .ac 2) ∧
    decode 0b00110010000000001101111100000010#32 = some (.hufScancfg 2 60 13) ∧
    decode 0b00110011000000000000000000000000#32 = some .hufRestart := by decide

theorem test_decode_huf_bits :
    decode 0b00110100000000000000000000000110#32 = some (.hufDecode .dc 3) ∧
    decode 0b00110101000000000000000000001010#32 = some (.hufReceive 10) ∧
    decode 0b00110110000000000000000000010000#32 = some (.hufExtend 16) := by decide

/-- DCT in bits 1:0, ACT in 3:2, COMP in 5:4. -/
theorem test_decode_huf_blocks :
    decode 0b00110111000000000000000000111001#32 = some (.hufBlockBaseline 1 2 3) ∧
    decode 0b00111000000000000000000000100001#32 = some (.hufDcFirst 1 2) ∧
    decode 0b00111001000000000000000000000000#32 = some .hufDcRefine ∧
    decode 0b00111010000000000000000000001100#32 = some (.hufAcFirst 3) ∧
    decode 0b00111011000000000000000000001000#32 = some (.hufAcRefine 2) := by decide

/-- KMODE in bits 1:0, EOLINE 2, BALIGN 3, EOBLOCK 4, BLACK1 5. -/
theorem test_decode_ccitt :
    decode 0b01000000000000000000000000010101#32 = some (.ccittInit 1 true false true false) ∧
    decode 0b01000000000000000000000000101010#32 = some (.ccittInit 2 false true false true) ∧
    decode 0b01000001000000000000000000000000#32 = some .ccittReadbyte := by decide

/-- FILTER in bit 0, PHASE or PHASEU in bit 1, PHASEV in bit 2; QTI in bits 1:0. -/
theorem test_decode_transforms :
    decode 0b01010000000000000000000000000010#32 = some (.idctBlock 2) ∧
    decode 0b01100000000000000000000000000010#32 = some (.iwtSr1d .rev53 true) ∧
    decode 0b01100001000000000000000000000101#32 = some (.iwtSr2d .irr97 false true) := by decide

/-- Vector F5 and H14: words that select no row. -/
theorem test_decode_illegal :
    decode 0x70000000#32 = none ∧ decode 0x02000000#32 = none ∧ decode 0x10000001#32 = none ∧ decode 0x3C000000#32 = none ∧
    decode 0x38000004#32 = none ∧ decode 0x62000000#32 = none ∧ decode 0x40000040#32 = none ∧ decode 0x50000004#32 = none := by
  decide

/-! ## SYS, fault state -/

/-- F1. -/
theorem test_sysNop : issue 0x00000000#32 tiny = some tiny := by decide +kernel

/-- F2: MQ.READBIT at power-on. -/
theorem test_notReady : faultOf 0x11000000#32 tiny = some (1, 0x0402, 1) := by decide +kernel

/-- F3: in the fault state an illegal word only reaches CMD. -/
theorem test_faultState :
    issue 0x7F000000#32 { tiny with flags := { Flags.clear with fault := true } } =
      some { tiny with flags := { Flags.clear with fault := true }, cmd := 0x7F000000 } := by decide +kernel

/-- F4. -/
theorem test_sysReset :
    issue 0x01000000#32 { tiny with arg0 := 7, res := 3, cx := cells 0 [0x18], flags := { ready with fault := true } } =
      some { tiny with cmd := 0x01000000, cx := cells 0 [0x18] } := by decide +kernel

/-- F5. -/
theorem test_illegal : faultOf 0x70000000#32 tiny = some (1, 0x0401, 0x70000000) := by decide +kernel

/-! ## MQ -/

def mqOf (t : State) : List Nat := [t.mq.a.toNat, t.mq.chigh.toNat, t.mq.clow.toNat, t.mq.ct.toNat, t.mq.bp.toNat]

/-- M1: MQ.INIT on `84 C7 3B FC`. -/
theorem test_mqInit :
    (issue 0x10000000#32 { tiny with stream := cells 0 [0x84, 0xC7, 0x3B, 0xFC], arg1 := 4 }).map mqOf =
      some [0x8000, 0x4263, 0x8000, 1, 1] := by decide +kernel

/-- M5: MQ.INIT on `FF 8F 00`. -/
theorem test_mqInit_stuffed :
    (issue 0x10000000#32 { tiny with stream := cells 0 [0xFF, 0x8F, 0x00], arg1 := 3 }).map mqOf =
      some [0x8000, 0x800F, 0x0000, 0, 1] := by decide +kernel

/-- M1, decision 15 from the registers after decision 14. -/
def mqState : State :=
  { tiny with
    stream := cells 0 [0x84, 0xC7, 0x3B, 0xFC], cx := cells 0 [0x06], flags := ready
    mq := { a := 0xA4B3, chigh := 0x07C7, clow := 0xEC00, ct := 6, bp := 2, endIdx := 4 } }

theorem test_mqReadbit :
    (issue 0x11000000#32 mqState).map (fun t => (t.res, mqOf t, t.cx)) =
      some (1, [0xAC10, 0x7C7E, 0xC000, 2, 2], cells 0 [0x18]) := by decide +kernel

/-- M8 (b), decision 1: fifteen shifts, two bytes in. -/
theorem test_mqReadbit_long :
    (issue 0x11000000#32 { tiny with
      stream := cells 0 [0, 0, 0, 0], cx := cells 0 [0x5A], flags := ready
      mq := { a := 0x8000, chigh := 0, clow := 0, ct := 1, bp := 1, endIdx := 4 } }).map (fun t => (t.res, mqOf t, t.cx)) =
      some (1, [0x8000, 0x0000, 0x0000, 2, 3], cells 0 [0x56]) := by decide +kernel

/-! ## BR -/

def brStream : Memory 8 := cells 0 [0xA5, 0xFF, 0x7F, 0x3C, 0xFF, 0x91, 0x12]

/-- The B1 and B3 window at a place the vectors name. -/
def brState (pos buf : Nat) (cnt : Nat) (mode : BrMode) (skip : Bool) : State :=
  { tiny with
    stream := brStream, flags := ready
    br := {
      pos := BitVec.ofNat 32 pos, endIdx := 7, buf := BitVec.ofNat 32 buf, cnt := BitVec.ofNat 5 cnt, mode := mode, skip := skip } }

def brOf (t : State) : List Nat := [t.br.pos.toNat, t.br.cnt.toNat, t.br.buf.toNat, t.br.skip.toNat]

/-- B1: BR.INIT. -/
theorem test_brInit :
    (issue 0x20000000#32 { tiny with arg0 := 2, arg1 := 7 }).map (fun t => (t.br, t.status)) =
      some ({ pos := 2, endIdx := 7, buf := 0, cnt := 0, mode := .plain, skip := false }, 4) := by decide +kernel

/-- B1: N = 3 after N = 1. -/
theorem test_brReadbits :
    (issue 0x21000003#32 (brState 1 0x25 7 .plain false)).map (fun t => (t.res, brOf t)) =
      some (2, [1, 4, 0x5, 0]) := by decide +kernel

/-- B3: seven bits of the byte after a 0xFF. -/
theorem test_brReadbits_stuff7 :
    (issue 0x21000007#32 (brState 2 0 0 .stuff7 true)).map (fun t => (t.res, brOf t)) =
      some (0x7F, [3, 0, 0, 0]) := by decide +kernel

/-- B1, last line: BR_EOF. -/
theorem test_brReadbits_eof : faultOf 0x21000001#32 (brState 7 0 0 .plain false) = some (0x1F, 0x0320, 0) := by
  decide +kernel

/-- B1. -/
theorem test_brPeekbits :
    (issue 0x2200000D#32 (brState 4 0 0 .plain false)).map (fun t => (t.res, brOf t)) =
      some (0x1FF2, [6, 16, 0xFF91, 0]) := by decide +kernel

/-- B1. -/
theorem test_brSkipbits :
    (issue 0x23000003#32 (brState 6 0xFF91 16 .plain false)).map brOf = some [6, 13, 0x1F91, 0] := by decide +kernel

/-- B1 and B3. -/
theorem test_brAlign :
    (issue 0x24000000#32 (brState 6 0x1F91 13 .plain false)).map brOf = some [6, 8, 0x91, 0] ∧
    (issue 0x24000000#32 (brState 5 0 0 .stuff7 true)).map brOf = some [6, 0, 0, 0] := by decide +kernel

/-- B1: the marker test with a byte buffered. -/
theorem test_brPeekmarker :
    (issue 0x25000091#32 (brState 6 0xFF91 16 .plain false)).map (fun t => (t.res, brOf t)) =
      some (1, [6, 16, 0xFF91, 0]) := by decide +kernel

/-- B1. -/
theorem test_brSkipbytes :
    (issue 0x26000000#32 { brState 6 0x91 8 .plain false with arg0 := 1 }).map brOf = some [6, 0, 0, 0] := by decide +kernel

/-! ## HUF -/

def bitsDc : List Nat := [0, 2, 2, 0, 0, 0, 0, 0, 0, 0, 0, 0, 0, 0, 0, 0]
def bitsAc : List Nat := [0, 2, 2, 2, 1, 0, 0, 0, 0, 0, 0, 0, 0, 0, 0, 0]

def tableOf (bits vals : List Nat) : HufTable :=
  { count := Vector.ofFn fun i => BitVec.ofNat 8 (bits.getD i.val 0), val := vals.map (BitVec.ofNat 8) }

/-- H-DC, H-AC and H-ACP. -/
def hDc : HufTable := tableOf bitsDc [0x00, 0x02, 0x03, 0x05]
def hAc : HufTable := tableOf bitsAc [0x00, 0x01, 0x11, 0x02, 0xF0, 0x21, 0x13]
def hAcp : HufTable := tableOf bitsAc [0x00, 0x01, 0x11, 0x10, 0xF0, 0x21, 0x20]

/-- HUF unit just opened on the given bytes, H-DC in DC 0, H-AC in AC 0, H-ACP in AC 1, two blocks of zeros. -/
def hufState (l : List Nat) (scan : Nat) : State :=
  { tiny with
    stream := cells 0 l, flags := ready, ht := #v[some hDc, none, none, none, some hAc, some hAcp, none, none]
    coef := cells 0 (List.replicate 128 0)
    huf := { HufUnit.clear with endIdx := BitVec.ofNat 32 l.length, scan := BitVec.ofNat 16 scan } }

def hufOf (t : State) : List Nat :=
  [t.huf.pos.toNat, t.huf.bitcnt.toNat, t.huf.bits.toNat, t.huf.eobrun.toNat, t.huf.acstate.toNat]

/-- The coefficients that are not 0. -/
def nonzero (t : State) : List (Nat × Int) := (t.coef.filter fun x => x.2 ≠ 0).map fun x => (x.1, x.2.toInt)

theorem test_hufInit :
    (issue 0x30000000#32 { hufState [1, 2] 0 with arg0 := 1, arg1 := 2 }).map (fun t => (t.huf.pos, t.huf.endIdx, t.status)) =
      some (1, 2, 0x1E) := by decide +kernel

/-- H-DC, as section 4 lists its codes. -/
theorem test_hufLoadtable :
    (issue 0x31000000#32 { tiny with tbl := cells 0 (bitsDc ++ [0, 2, 3, 5]) }).map
        (fun t => (t.hufTvalid, t.ht[0].map HufTable.codes)) =
      some (1, some [⟨2, 0, 0⟩, ⟨2, 1, 2⟩, ⟨3, 4, 3⟩, ⟨3, 5, 5⟩]) := by decide +kernel

/-- H10: `01 03 00 ...`. -/
theorem test_hufLoadtable_bad :
    faultOf 0x31000000#32 { tiny with tbl := cells 0 ([1, 3] ++ List.replicate 18 0) } = some (1, 0x0114, 2) := by
  decide +kernel

/-- H14. -/
theorem test_hufScancfg :
    (issue 0x32000145#32 tiny).map (fun t => t.huf.scan) = some 0x0145#16 ∧
    faultOf 0x32000146#32 tiny = some (1, 0x0403, 0x146) := by decide +kernel

/-- H11. -/
theorem test_hufRestart :
    (issue 0x33000000#32 { hufState [0, 0, 0, 0, 0xFF, 0xD0, 0, 0] 0 with
      arg0 := 6
      huf := { HufUnit.clear with pos := 4, endIdx := 8, bitcnt := 3, bits := 0x42, pred := #v[5, 0, 0, 0] } }).map
        (fun t => (t.huf.pos, t.huf.bitcnt, t.huf.bits, t.huf.pred)) =
      some (6, 0, 0, #v[0, 0, 0, 0]) := by decide +kernel

/-- H2. -/
theorem test_hufDecode :
    (issue 0x34000000#32 (hufState [0x95] 0)).map (fun t => (t.res, hufOf t)) = some (3, [1, 5, 0x95, 0, 0]) := by
  decide +kernel

/-- H9: an end of image in the data. -/
theorem test_hufDecode_eoi :
    faultOf 0x34000000#32 (hufState [0xFF, 0xD9] 0) = some (0x1F, 0x0312, 0xFFD9) := by decide +kernel

/-- H4. -/
theorem test_hufReceive :
    (issue 0x3500000A#32 (hufState [0xFF, 0x00, 0x40] 0)).map (fun t => (t.res, hufOf t)) =
      some (0x3FD, [3, 6, 0x40, 0, 0]) := by decide +kernel

/-- H3: `010` and sixteen 0. -/
theorem test_hufExtend :
    (issue 0x36000003#32 (hufState [0x40] 0)).map (fun t => t.res) = some 0xFFFFFFFB#32 ∧
    (issue 0x36000010#32 (hufState [0, 0] 0)).map (fun t => t.res) = some 0xFFFF0001#32 := by decide +kernel

/-- H1, first block. -/
theorem test_hufBlockBaseline :
    (issue 0x37000000#32 (hufState [0x95, 0xC5, 0xF3, 0x42, 0x1F] 0)).map (fun t => (nonzero t, t.huf.pred[0], hufOf t)) =
      some ([(0, 5), (1, 1), (9, 3), (16, -1), (34, -1)], 5, [4, 3, 0x42, 0, 0]) := by decide +kernel

/-- H12: an overrun; what was written stays. -/
theorem test_hufBlockBaseline_overrun :
    (issue 0x37000000#32 (hufState [0x33, 0x31, 0xB6, 0xDB, 0x6D, 0xB6, 0xDE, 0xFF, 0x00] 0)).map
        (fun t => (t.faultRec.info, t.faultRec.arg, (nonzero t).length, t.huf.pos, t.huf.bitcnt)) =
      some (0x0119, 64, 13, 9, 7) := by decide +kernel

/-- H5, first block. -/
theorem test_hufDcFirst :
    (issue 0x38000000#32 (hufState [0x95, 0x3F] 0x1000)).map (fun t => (nonzero t, t.huf.pred[0])) =
      some ([(0, 10)], 10) := by decide +kernel

/-- H6, first block. -/
theorem test_hufDcRefine :
    (issue 0x39000000#32 { hufState [0xBF] 0 with coef := cells 0 (10 :: List.replicate 127 0) }).map nonzero =
      some [(0, 11)] := by decide +kernel

/-- H7, first block. -/
theorem test_hufAcFirst :
    (issue 0x3A000004#32 (hufState [0x71, 0x67] 0x1141)).map (fun t => (nonzero t, hufOf t)) =
      some ([(1, 2), (16, -2)], [2, 5, 0x67, 2, 0]) := by decide +kernel

/-- Block 0 of H8. -/
def refineState : State :=
  { hufState [0x9C] 0x0141 with
    coef := cells 0 ([11, 2] ++ List.replicate 14 0 ++ [0xFFFE] ++ List.replicate 47 0) }

/-- H8. -/
theorem test_hufAcRefine :
    (issue 0x3B000004#32 refineState).map (fun t => (nonzero t, hufOf t, t.huf.acnext)) =
      some ([(0, 11), (1, 3), (9, 1), (16, -3)], [1, 0, 0x9C, 0, 0], 1) := by decide +kernel

/-! ## CCITT -/

/-- C1: CCITT.INIT. -/
def c1Stream : Memory 8 := cells 0 [0x93, 0x53, 0x8E, 0x00, 0x20, 0x02]

theorem test_ccittInit :
    (issue 0x40000012#32 { tiny with stream := c1Stream, arg1 := 6, arg2 := 17 }).map
        (fun t => (brOf t, t.cc.next2d, t.cline, t.status)) =
      some ([2, 16, 0x9353, 0], true, cells 0 [17], 0x14) := by decide +kernel

/-- C1 after row 0 has been served: the next READBYTE decodes row 1. -/
def c1Row1 : State :=
  { tiny with
    stream := c1Stream, cline := cells 0 [17], flags := { Flags.clear with brRdy := true, ccRdy := true }
    br := { pos := 2, endIdx := 6, buf := 0x1353, cnt := 15, mode := .plain, skip := false }
    cc := { cols := 17, rows := 0, flags := 0x12, row := 1, next2d := true, outbits := 0, cpos := 0 } }

theorem test_ccittReadbyte :
    (issue 0x41000000#32 c1Row1).map (fun t => (t.res, t.cline, brOf t, t.cc.cpos, t.cc.row)) =
      some (0x07, cells 0 [0, 5, 17], [4, 15, 0x0E00, 0], 2, 2) := by decide +kernel

/-- C9: the data ends inside a row; the first byte of the row. -/
theorem test_ccittReadbyte_eof :
    (issue 0x41000000#32 { tiny with
      stream := cells 0 [0xB3], cline := cells 0 [20], flags := { Flags.clear with brRdy := true, ccRdy := true }
      br := { pos := 1, endIdx := 1, buf := 0xB3, cnt := 8, mode := .plain, skip := false }
      cc := { cols := 20, rows := 0, flags := 0x10, row := 0, next2d := false, outbits := 0, cpos := 0 } }).map
        (fun t => (t.res, t.cline, t.flags.ccErr, t.flags.ccEof)) =
      some (0xF0, cells 0 [4, 9, 20], false, true) := by decide +kernel

/-! ## Witnesses: for each obligation with hypotheses, states and operands that meet them together. The name says which
obligation, and which clause where it has several. -/

/-- The block ready with a memory image for every unit: 32 bytes of STREAM, contexts, a loaded DC and AC table, coefficients,
PLANE words, and a decoded row of 17 pixels with five of them pending in its second run. -/
def busy : State :=
  { tiny with
    stream := cells 0 (List.range 32), cx := cells 0 (List.replicate 8 0), tbl := cells 0 (bitsDc ++ [0, 2, 3, 5])
    qt := cells 192 (List.replicate 64 1), coef := cells 0 (List.replicate 128 7), plane := cells 0 (List.range 16)
    cline := cells 0 [5, 17], rline := cells 0 (List.replicate 19 17), flags := ready
    mq := { a := 0x8000, chigh := 0x1234, clow := 0x8000, ct := 1, bp := 1, endIdx := 32 }
    br := { pos := 2, endIdx := 32, buf := 0x7FFFFF, cnt := 23, mode := .plain, skip := false }
    huf := { HufUnit.clear with pos := 1, endIdx := 32, scan := 0xDFC0 }
    ht := #v[some hDc, none, none, none, some hAc, some hAcp, none, none]
    cc := { cols := 17, rows := 0, flags := 0x12, row := 1, next2d := true, outbits := 12, cpos := 1 } }

theorem witness_tables : TableOk hDc ∧ TableOk hAc ∧ TableOk hAcp := by decide +kernel

theorem busy_tables : TablesInv busy := by
  have e : ∀ k : Fin 8, (match busy.ht[k] with | some t => decide (TableOk t) | none => true) = true := by decide +kernel
  intro k t ht
  have := e k
  rw [ht] at this
  exact of_decide_eq_true this

theorem busy_ccInv : CcInv busy := by
  refine fun _ _ => ⟨by decide, by decide, ⟨1, by decide, by decide, by decide, fun i hi => ⟨5, 17, ?_⟩⟩, ⟨17, by decide, by decide⟩⟩
  obtain rfl : i = 0 := by omega
  decide

/-- `busy` with its row output, about to read the next one in the given dimension from byte `pos` of the window. -/
def busyRow (twoD : Bool) (pos : Nat) : State :=
  { busy with
    br := { busy.br with pos := BitVec.ofNat 32 pos, buf := 0, cnt := 0 }
    cc := { busy.cc with next2d := twoD, outbits := 0 } }

theorem busyRow_ccInv (twoD : Bool) (pos : Nat) : CcInv (busyRow twoD pos) := by
  have c : (busyRow twoD pos).cc.cols = 17 := rfl
  have p : (busyRow twoD pos).cc.cpos = 1 := rfl
  have o : (busyRow twoD pos).cc.outbits = 0 := rfl
  have r : (busyRow twoD pos).runStart = 5 := rfl
  have m : (busyRow twoD pos).params.colsMax = 32 := rfl
  refine fun _ _ => ⟨by simp [c], by simp [c, m], ⟨1, by simp [p], by simp [c], rfl, fun i hi => ⟨5, 17, ?_⟩⟩, ⟨17, rfl, by simp [o, r]⟩⟩
  obtain rfl : i = 0 := by omega
  exact ⟨rfl, rfl, by decide, by simp [c]⟩

/-- Listed from `a` on, elements rise and stay below the end of the list. -/
theorem cells_canonical {w : Nat} (a n : Nat) (l : List Nat) (h : a + l.length ≤ n) :
    (cells (w := w) a l).wf ∧ ∀ x ∈ cells (w := w) a l, x.1 < n := by
  refine ⟨List.pairwise_iff_getElem.2 fun i j hi hj hij => by simp [cells]; omega, fun x hx => ?_⟩
  obtain ⟨i, hi, rfl⟩ := List.getElem_of_mem hx
  simp only [cells, List.length_map, List.length_zipIdx] at hi
  simp [cells]; omega

theorem busy_memories : MemoriesCanonical busy := by
  intro sp
  cases sp <;> exact cells_canonical _ _ _ (by decide +kernel)

theorem busy_inv : Inv busy :=
  ⟨by decide, busy_memories, by decide, by decide, by decide, by decide, busy_tables, busy_ccInv⟩

theorem witness_DecodeEncode : (Instr.mqReadbit (2 ^ 24 - 1)).wellFormed = true ∧ (Instr.brReadbits 31).wellFormed = true ∧
    (Instr.ccittInit 3 true true true true).wellFormed = true := by decide

theorem witness_EncodeDecode : decode 0x11FFFFFF#32 = some (.mqReadbit (2 ^ 24 - 1)) := by decide

theorem witness_OpcodeMapDecides : (0x21000000#32, 0xFFFFFFE0#32) ∈ opcodeMap ∧ 0x2100001F#32 &&& 0xFFFFFFE0#32 = 0x21000000#32 := by
  decide

theorem witness_StepRunsDecoded :
    (∃ s : State, s.pending = [.regWrite 0 0x11000000#32] ∧ s.flags.fault = false ∧ decode 0x11000000#32 = some (.mqReadbit 0)) ∧
    (∃ s : State, s.pending = [.regWrite 0 0x01000000#32] ∧ s.flags.fault = true ∧ decode 0x01000000#32 = some .sysReset) :=
  ⟨⟨{ tiny with pending := [.regWrite 0 0x11000000#32] }, by decide⟩,
    ⟨{ tiny with pending := [.regWrite 0 0x01000000#32], flags := { Flags.clear with fault := true } }, by decide⟩⟩

theorem witness_WordsNotExecuted :
    (∃ s : State, s.pending = [.regWrite 0 0x10000000#32] ∧ s.flags.fault = true ∧ 0x10000000#32 ≠ 0x01000000#32) ∧
    (∃ s : State, s.pending = [.regWrite 0 0x10000001#32] ∧ s.flags.fault = false ∧ decode 0x10000001#32 = none) :=
  ⟨⟨{ tiny with pending := [.regWrite 0 0x10000000#32], flags := { Flags.clear with fault := true } }, by decide⟩,
    ⟨{ tiny with pending := [.regWrite 0 0x10000001#32] }, by decide⟩⟩

/-- The last element of a signed space. -/
theorem witness_HostWritesAndReadsBack :
    ∃ s : State, s.pending = [.memWrite .coef 127 0xFFFF8000#32, .memRead .coef 127] ∧ Space.coef ≠ .cline ∧ Space.coef ≠ .rline ∧
      127 < s.sizeOf .coef :=
  ⟨{ tiny with pending := [.memWrite .coef 127 0xFFFF8000#32, .memRead .coef 127] }, by decide⟩

/-- The first and the last listed register, the first number of no table, and both operations. -/
theorem witness_HostRegisterPort :
    (0x00, busy.cmd) ∈ busy.registerMap ∧ (0x46, busy.cc.cpos) ∈ busy.registerMap ∧
    (0x0A ≠ 0x06 ∧ 0x0A ≠ 0x3C ∧ ∀ p ∈ busy.registerMap, 0x0A ≠ p.1) ∧ 4 < 5 ∧
    (∃ s : State, s.pending = [.regRead 6]) ∧ ∃ s : State, s.pending = [.regWrite 5 1] :=
  ⟨by decide, by decide, by decide, by decide, ⟨{ tiny with pending := [.regRead 6] }, rfl⟩,
    ⟨{ tiny with pending := [.regWrite 5 1] }, rfl⟩⟩

/-- A command that completes and one that faults, for the rules about every command. -/
theorem witness_everyCommand :
    (∃ t, exec (.brReadbits 1) busy = .next t ∧ t.flags.fault = false) ∧
    (∃ t, exec (.brReadbits 1) tiny = .next t ∧ tiny.flags.fault = false ∧ t.flags.fault = true) :=
  ⟨⟨_, rfl, by decide +kernel⟩, ⟨_, rfl, by decide⟩⟩

theorem witness_ResWritersOnly :
    (∃ t, exec (.brSkipbits 3) busy = .next t ∧ writesRes (.brSkipbits 3) = false) ∧
    (∃ t, exec (.brReadbits 1) tiny = .next t ∧ tiny.flags.fault = false ∧ t.flags.fault = true) :=
  ⟨⟨_, rfl, rfl⟩, ⟨_, rfl, by decide⟩⟩

theorem witness_SpacesWrittenOnlyAsListed :
    ∃ t, exec (.mqReadbit 0) busy = .next t ∧ accessOf (.mqReadbit 0) .stream = .r ∧ accessOf (.mqReadbit 0) .coef = .none :=
  ⟨_, rfl, by decide⟩

theorem witness_BlindToOtherSpaces : accessOf (.idctBlock 0) .stream = .none ∧ accessOf .brAlign .stream = .none := by decide

theorem witness_UnitRegistersOwned :
    (∃ t, exec (.mqReadbit 0) busy = .next t ∧ unitOfInstr (.mqReadbit 0) ≠ 2 ∧ unitOfInstr (.mqReadbit 0) ≠ 4) ∧
    (∃ t, exec (.brReadbits 1) busy = .next t ∧ unitOfInstr (.brReadbits 1) ≠ 1 ∧ unitOfInstr (.brReadbits 1) ≠ 3) :=
  ⟨⟨_, rfl, by decide⟩, ⟨_, rfl, by decide⟩⟩

/-- `busy` meets every invariant, and the host makes it read a decision, bits, a symbol and a row. -/
theorem witness_stepKeeps :
    Inv busy ∧ (∃ t, step { busy with pending := [.regWrite 0 0x11000000#32] } = .next t) ∧
    (∃ t, step { busy with pending := [.regWrite 0 0x21000010#32] } = .next t) ∧
    (∃ t, step { busy with pending := [.regWrite 0 0x34000000#32] } = .next t) ∧
    (∃ t, step { busy with pending := [.regWrite 0 0x41000000#32] } = .next t) ∧
    (∃ t, step { busy with pending := [.memWrite .plane 15 9] } = .next t) :=
  ⟨busy_inv, ⟨_, rfl⟩, ⟨_, rfl⟩, ⟨_, rfl⟩, ⟨_, rfl⟩, ⟨_, rfl⟩⟩

/-- The smallest and the largest sizes R6 allows. -/
theorem witness_PowerOnInv : Params.suggested.valid ∧ Params.valid ⟨1, 1, 272, 1, 1, 1⟩ ∧
    Params.valid ⟨2 ^ 32 - 1, 2 ^ 24, 272, 2 ^ 26, 2 ^ 32 - 1, 2 ^ 31 - 2⟩ := by decide

theorem witness_EveryCommandEnds : Inv busy ∧ busy.flags.fault = false := ⟨busy_inv, by decide⟩

theorem witness_NotAvailableFaults_ready : tiny.flags.mqRdy = false ∧ tiny.flags.brRdy = false ∧ tiny.flags.hufRdy = false ∧
    tiny.flags.ccRdy = false := by decide

/-- Each clause at the first value that is refused. -/
theorem witness_BadOperandFaults :
    ({ busy with arg0 := 2, arg1 := 1 } : State).arg1.toNat < ({ busy with arg0 := 2, arg1 := 1 } : State).arg0.toNat ∧
    busy.params.streamSize < ({ busy with arg1 := 33 } : State).arg1.toNat ∧
    (({ busy with arg1 := 32, arg2 := 33 } : State).arg1.toNat ≤ busy.params.streamSize ∧
      busy.params.colsMax < ({ busy with arg1 := 32, arg2 := 33 } : State).arg2.toNat) ∧
    busy.params.coefBlocks ≤ ({ busy with arg0 := 2 } : State).arg0.toNat ∧ busy.flags.brRdy = true ∧ 16 < 17 ∧
    (busy.flags.hufRdy = true ∧ busy.huf.endIdx.toNat < ({ busy with arg0 := 33 } : State).arg0.toNat) ∧
    (busy.flags.mqRdy = true ∧ busy.params.cxEntries ≤ 8) ∧ 5 < 6 ∧ 13 < 14 := by decide

/-- TBL has 272 bytes: a definition at 257 has no room for its counts, one at 253 with four symbols none for the last. -/
theorem witness_BadOperandFaults_table :
    busy.params.tblSize < ({ busy with arg0 := 257 } : State).arg0.toNat + 16 ∧
    (∃ s : State, s.arg0.toNat + 16 ≤ s.params.tblSize ∧ Written s .tbl s.arg0.toNat 1 16 ∧
      ((s.values .tbl s.arg0.toNat 1 16).map BitVec.toNat).sum = 4 ∧ s.params.tblSize < s.arg0.toNat + 16 + 4) :=
  ⟨by decide, { busy with arg0 := 253, tbl := cells 253 bitsDc }, by decide +kernel⟩

/-- The clauses at the end of PLANE: 16 words, so an array of 2 from 15 is one too many and of 1 fits. -/
theorem witness_IwtChecksInOrder :
    (0 < 2 ∧ 0 < 1 ∧ busy.params.planeWords ≤ 15 + (2 - 1) * 1) ∧ (busy.params.planeWords < 15 + 1 * 2) ∧
    (1 < 2 ∧ 0 < 1 ∧ 14 + (2 - 1) * 1 < busy.params.planeWords) ∧ (14 + 1 * 2 ≤ busy.params.planeWords ∧ 1 < 2) := by decide

theorem witness_NotAvailableFaults_mode :
    (busy.flags.brRdy = true ∧ busy.br.mode = .plain ∧ busy.br.cnt.toNat % 8 ≠ 0) ∧
    (∃ s : State, s.flags.brRdy = true ∧ s.flags.ccRdy = true ∧ s.br.mode = .stuff7 ∧ s.br.skip = true) :=
  ⟨by decide, brState 5 0 0 .stuff7 true, by decide⟩

theorem witness_NotAvailableFaults_table : busy.flags.hufRdy = true ∧ busy.arg0.toNat < busy.params.coefBlocks ∧
    busy.ht[slotOf .dc 3] = none ∧ busy.ht[slotOf .dc 0] ≠ none ∧ busy.ht[slotOf .ac 3] = none := by decide

/-- The units' clauses: nine bits asked of the eight before an EOI marker, in a symbol, before the symbol ends, in a symbol no code
begins, before the one bit of a refinement, and in a difference of three bits none of which comes. -/
theorem witness_SegmentEndFaults_bits :
    (∃ s : State, s.flags.hufRdy = true ∧ HufInv s ∧ s.segmentEnd =
      { bits := bitsMsb 8 0x55, fault := .hufEoiInScan, info := 0xFFD9, pos := 3, byte := 0x55 } ∧ s.segmentEnd.bits.length < 9) ∧
    (∃ s : State, s.flags.hufRdy = true ∧ HufInv s ∧ s.ht[slotOf .dc 0] = some hDc ∧ TableOk hDc ∧
      takeSymbol hDc s.segmentEnd.bits = none ∧ symbolStop hDc s.segmentEnd.bits = .ended ∧ s.segmentEnd.bits = [true] ∧
      s.segmentEnd.fault = .unwrittenRead ∧ s.segmentEnd.info = 2 ^ 28) ∧
    (∃ s : State, s.flags.hufRdy = true ∧ HufInv s ∧ s.ht[slotOf .dc 0] = some hDc ∧ TableOk hDc ∧
      takeSymbol hDc s.segmentEnd.bits = none ∧ symbolStop hDc s.segmentEnd.bits = .invalid 2 (bitsMsb 6 0x3E)) ∧
    (∃ s : State, s.flags.hufRdy = true ∧ HufInv s ∧ s.arg0.toNat < s.params.coefBlocks ∧
      (s.elem .coef (64 * s.arg0.toNat)).isSome = true ∧ s.segmentEnd.bits = []) ∧
    (∃ s : State, s.flags.hufRdy = true ∧ HufInv s ∧ s.arg0.toNat < s.params.coefBlocks ∧ s.ht[slotOf .dc 0] = some hDc ∧
      TableOk hDc ∧ takeDcStop hDc s.segmentEnd.bits = some .ended ∧ s.ht[slotOf .ac 0] ≠ none) :=
  ⟨⟨hufState [0x55, 0xFF, 0xD9] 0, by decide +kernel⟩,
    ⟨{ hufState [0] 0 with stream := [], huf := { HufUnit.clear with endIdx := 1, bits := 1, bitcnt := 1 } }, by decide +kernel⟩,
    ⟨hufState [0xFE] 0, by decide +kernel⟩, ⟨{ hufState [] 0 with arg0 := 1 }, by decide +kernel⟩,
    ⟨{ hufState [] 0 with huf := { HufUnit.clear with bits := 4, bitcnt := 3 } }, by decide +kernel⟩⟩

/-- The block clauses: one coefficient and half a symbol, in a baseline block and, two coefficients, in a first pass; a
refinement cut in state 3 before the new coefficient, and one inside an end-of-band run. -/
theorem witness_SegmentEndFaults_blocks :
    (∃ s : State, s.flags.hufRdy = true ∧ HufInv s ∧ s.arg0.toNat < s.params.coefBlocks ∧ s.ht[slotOf .dc 0] = some hDc ∧
      TableOk hDc ∧ s.ht[slotOf .ac 0] = some hAc ∧ TableOk hAc ∧
      takeSymbol hDc s.segmentEnd.bits = some (2, [false, false, false, true, true, false]) ∧
      takeExtend 2 [false, false, false, true, true, false] = some (-3, [false, true, true, false]) ∧
      takeAcStop hAc false 63 64 1 [false, true, true, false] = some ([(1, 1)], .ended)) ∧
    (∃ s : State, s.flags.hufRdy = true ∧ HufInv s ∧ s.arg0.toNat < s.params.coefBlocks ∧ s.ht[slotOf .ac 1] = some hAcp ∧
      TableOk hAcp ∧ s.huf.eobrun = 0 ∧
      takeAcStop hAcp true s.huf.se 64 s.huf.ss s.segmentEnd.bits = some ([(1, 1), (3, -1)], .ended)) ∧
    (∃ s : State, s.flags.hufRdy = true ∧ HufInv s ∧ s.arg0.toNat < s.params.coefBlocks ∧ s.ht[slotOf .ac 1] = some hAcp ∧
      TableOk hAcp ∧ Written s .coef 0 1 64 ∧ s.huf.acstate = 0 ∧
      ((List.range (s.huf.se + 1 - s.huf.ss)).map fun j =>
        (s.value .coef (64 * s.arg0.toNat + zz (s.huf.ss + j))).toInt) = [2, 0, -2, 0, 0] ∧
      takeRefineStop hAcp (2 ^ s.huf.al) 65 s.huf.acnext [2, 0, -2, 0, 0] s.segmentEnd.bits =
        some ([3, 0, -2, 0, 0], 3, 0, 1, .ended)) ∧
    (∃ s : State, s.flags.hufRdy = true ∧ HufInv s ∧ s.arg0.toNat < s.params.coefBlocks ∧ s.ht[slotOf .ac 1] = some hAcp ∧
      TableOk hAcp ∧ Written s .coef 0 1 64 ∧ s.huf.acstate = 4 ∧
      cutIn (2 ^ s.huf.al) [2, 0, -2, 0, 0] [2, 0, -2, 0, 0] s.segmentEnd.bits = some [3, 0, -2, 0, 0]) :=
  ⟨⟨hufState [0x46] 0, by decide +kernel⟩, ⟨hufState [0x71] 0x1141, by decide +kernel⟩,
    ⟨{ refineState with stream := [], huf := { refineState.huf with endIdx := 0, bits := 0x13, bitcnt := 5 } },
      by decide +kernel⟩,
    ⟨{ refineState with
      stream := [], huf := { refineState.huf with endIdx := 0, bits := 1, bitcnt := 1, acstate := 4, eobrun := 1 } },
      by decide +kernel⟩⟩

/-- The three ends: no byte, a marker as the last two bytes, and a 0xFF as the last byte. -/
theorem witness_SegmentEndFaults :
    (∃ s : State, s.flags.hufRdy = true ∧ HufInv s ∧ s.huf.bitcnt = 0 ∧ s.huf.pos = s.huf.endIdx) ∧
    (∃ s : State, s.flags.hufRdy = true ∧ HufInv s ∧ s.huf.bitcnt = 0 ∧ s.huf.pos.toNat + 2 ≤ s.huf.endIdx.toNat ∧
      s.elem .stream s.huf.pos.toNat = some 0xFF#8 ∧ s.elem .stream (s.huf.pos.toNat + 1) = some 0xD9#8) ∧
    (∃ s : State, s.flags.hufRdy = true ∧ HufInv s ∧ s.huf.bitcnt = 0 ∧ s.huf.pos.toNat + 1 = s.huf.endIdx.toNat ∧
      s.elem .stream s.huf.pos.toNat = some 0xFF#8) :=
  ⟨⟨hufState [] 0, by decide⟩, ⟨hufState [0xFF, 0xD9] 0, by decide⟩, ⟨hufState [0xFF] 0, by decide⟩⟩

/-- Each clause: index 47, bits outside the table, category 17 (with an AC table loaded). -/
theorem witness_DataFaults :
    (∃ s : State, s.flags.mqRdy = true ∧ 0 < s.params.cxEntries ∧ s.elem .cx 0 = some 0x5E#8 ∧ 46 < (0x5E#8).toNat / 2) ∧
    (∃ s : State, s.flags.hufRdy = true ∧ HufInv s ∧ s.ht[slotOf .dc 0] = some hDc ∧ TableOk hDc ∧
      (∀ d ∈ hDc.codes, ¬ s.segmentEnd.bits.take 2 <+: bitsMsb d.len d.code) ∧
      ∀ m, 1 ≤ m → m < 2 → ∃ d ∈ hDc.codes, s.segmentEnd.bits.take m <+: bitsMsb d.len d.code ∧ m < d.len) ∧
    (∃ s : State, s.flags.hufRdy = true ∧ HufInv s ∧
      s.ht[slotOf .dc 0] = some (tableOf bitsDc [0, 17, 3, 5]) ∧ TableOk (tableOf bitsDc [0, 17, 3, 5]) ∧
      takeSymbol (tableOf bitsDc [0, 17, 3, 5]) s.segmentEnd.bits = some (17, [true, true, true, true, true, true]) ∧
      s.ht[slotOf .ac 0] ≠ none ∧ s.arg0.toNat < s.params.coefBlocks) :=
  ⟨⟨{ tiny with flags := ready, cx := cells 0 [0x5E] }, by decide⟩,
    ⟨hufState [0xFE] 0, by decide +kernel, by decide +kernel, by decide +kernel, by decide +kernel, by decide +kernel, fun m h1 h2 => by
        obtain rfl : m = 1 := by omega
        decide +kernel⟩,
    ⟨{ hufState [0x7F] 0 with ht := (hufState [0x7F] 0).ht.set 0 (some (tableOf bitsDc [0, 17, 3, 5])) },
      by decide +kernel⟩⟩

/-- The last context; the last count and the last symbol of a definition; the last coefficient and the last step of a block; the
last word of a line and of an array; and the DC coefficient. -/
theorem witness_UnwrittenElements :
    (∃ s : State, s.flags.mqRdy = true ∧ 7 < s.params.cxEntries ∧ s.elem .cx 7 = none) ∧
    (∃ s : State, s.arg0.toNat + 16 ≤ s.params.tblSize ∧ FirstUnwritten s .tbl s.arg0.toNat 1 16 15) ∧
    (∃ s : State, s.arg0.toNat + 16 ≤ s.params.tblSize ∧ Written s .tbl s.arg0.toNat 1 16 ∧
      codeCount (s.values .tbl s.arg0.toNat 1 16) = 4 ∧ s.arg0.toNat + 16 + 4 ≤ s.params.tblSize ∧
      CodesFit (s.values .tbl s.arg0.toNat 1 16) 16 ∧ FirstUnwritten s .tbl (s.arg0.toNat + 16) 1 4 3) ∧
    (∃ s : State, s.arg0.toNat < s.params.coefBlocks ∧ FirstUnwritten s .coef (64 * s.arg0.toNat) 1 64 63) ∧
    (∃ s : State, s.arg0.toNat < s.params.coefBlocks ∧ Written s .coef (64 * s.arg0.toNat) 1 64 ∧
      FirstUnwritten s .qt (64 * 3) 1 64 63) ∧
    (∃ s : State, 0 < s.arg2.toNat ∧ s.arg0.toNat + (s.arg1.toNat - 1) * s.arg2.toNat < s.params.planeWords ∧
      FirstUnwritten s .plane s.arg0.toNat s.arg2.toNat s.arg1.toNat 3) ∧
    (∃ s : State, s.arg0.toNat + s.arg1.toNat * s.arg2.toNat ≤ s.params.planeWords ∧
      FirstUnwritten s .plane s.arg0.toNat 1 (s.arg1.toNat * s.arg2.toNat) 15) ∧
    (∃ s : State, s.flags.hufRdy = true ∧ s.arg0.toNat < s.params.coefBlocks ∧ s.elem .coef (64 * s.arg0.toNat) = none) :=
  ⟨⟨{ tiny with flags := ready }, by decide⟩, ⟨{ tiny with tbl := cells 256 (List.replicate 15 0), arg0 := 256 }, by decide +kernel⟩,
    ⟨{ tiny with tbl := cells 0 (bitsDc ++ [0, 2, 3]) }, by decide +kernel⟩,
    ⟨{ tiny with coef := cells 64 (List.replicate 63 0), arg0 := 1 }, by decide +kernel⟩,
    ⟨{ busy with qt := cells 192 (List.replicate 63 1) }, by decide +kernel⟩,
    ⟨{ tiny with plane := cells 0 (List.range 15), arg0 := 3, arg1 := 4, arg2 := 4 }, by decide +kernel⟩,
    ⟨{ tiny with plane := cells 0 (List.range 15), arg1 := 4, arg2 := 4 }, by decide +kernel⟩,
    ⟨{ tiny with flags := ready }, by decide⟩⟩

/-- `refineState` (the band 2, 0, -2, 0, 0) without element `a`. -/
def refineWithout (a : Nat) : State := { refineState with coef := refineState.coef.filter fun x => x.1 ≠ a }

/-- HUF.AC_REFINE: the last of the band unwritten after a new coefficient (state 0), the new coefficient's place (state 3), and the
last of the band inside an end-of-band run. -/
theorem witness_UnwrittenElements_refine :
    (∀ p ∈ [(2, 0, 4), (9, 0, 3), (2, 4, 4)],
      let s := { refineWithout p.1 with huf := { refineState.huf with acstate := BitVec.ofNat 3 p.2.1, eobrun := 1 } }
      s.flags.hufRdy = true ∧ HufInv s ∧
      s.arg0.toNat < s.params.coefBlocks ∧ s.ht[slotOf .ac 1] = some hAcp ∧ TableOk hAcp ∧ s.huf.ss + p.2.2 ≤ s.huf.se ∧
      (∀ k, k < p.2.2 → (s.elem .coef (64 * s.arg0.toNat + zz (s.huf.ss + k))).isSome = true) ∧
      s.elem .coef (64 * s.arg0.toNat + zz (s.huf.ss + p.2.2)) = none ∧
      ((List.range p.2.2).map fun k => (s.value .coef (64 * s.arg0.toNat + zz (s.huf.ss + k))).toInt) =
        [2, 0, -2, 0].take p.2.2) ∧
    takeRefine hAcp 1 65 0 [2, 0, -2, 0] refineState.segmentEnd.bits = some ([3, 0, -3, 1], 0, 1, [false, false]) ∧
    takeRefineFault hAcp 1 65 0 [2, 0, -2] refineState.segmentEnd.bits =
      some ([3, 0, -3], (.hufRunOverrun, 3), 3, 1, [false, false]) ∧
    refineCoefs 1 [2, 0, -2, 0] refineState.segmentEnd.bits = some ([3, 0, -2, 0], [false, true, true, true, false, false]) :=
  ⟨by decide +kernel, by decide +kernel, by decide +kernel, by decide +kernel⟩

/-- MQ.INIT at its first byte and, after a 0xFF, at its second; MQ.READBIT at the byte at MQ_BP and, a shift later, at the one
after it. -/
theorem witness_UnwrittenStream_mq :
    (∃ s : State, s.arg0.toNat < s.arg1.toNat ∧ s.arg1.toNat ≤ s.params.streamSize ∧ s.elem .stream s.arg0.toNat = none) ∧
    (∃ s : State, s.arg0.toNat + 1 < s.arg1.toNat ∧ s.arg1.toNat ≤ s.params.streamSize ∧
      s.elem .stream s.arg0.toNat = some 0xFF#8 ∧ s.elem .stream (s.arg0.toNat + 1) = none) ∧
    (∀ p ∈ [(0, [0x84, 0xC7]), (1, [0x84, 0xC7, 0x3B])],
      let s := { mqState with stream := cells 0 p.2, mq := { mqState.mq with chigh := 0, clow := 0, ct := BitVec.ofNat 4 p.1 } }
      let m := s.mqShifts p.1 (s.mqReduced (probRow 3).qe)
      s.flags.mqRdy = true ∧ MqInv s ∧ 0 < s.params.cxEntries ∧ s.elem .cx 0 = some 0x06#8 ∧ (0x06#8).toNat / 2 ≤ 46 ∧
      s.mqInterval (probRow 3).qe * 2 ^ p.1 < 0x8000 ∧ m.ct = 0 ∧ p.1 = s.mqCode.ct ∧
      m.bp + p.1 < s.mq.endIdx.toNat ∧ s.elem .stream (m.bp + p.1) = none ∧
      (p.1 = 1 → WindowWritten s s.mq.bp.toNat (m.bp + 1))) :=
  ⟨⟨{ tiny with arg0 := 31, arg1 := 32 }, by decide +kernel⟩,
    ⟨{ tiny with arg0 := 30, arg1 := 32, stream := cells 30 [0xFF] }, by decide +kernel⟩, by decide +kernel⟩

/-- The last byte of the window, in each mode; at a marker test, the byte and the one after a 0xFF. -/
theorem witness_UnwrittenStream_br :
    (∀ mode ∈ [BrMode.plain, BrMode.stuff7],
      let s := { brState 5 0 0 mode false with stream := cells 0 [0xA5, 0xFF, 0x7F, 0x3C, 0xFF, 0x91] }
      s.flags.brRdy = true ∧ BrInv s ∧ FirstUnwritten s .stream s.br.pos.toNat 1 (s.br.endIdx.toNat - s.br.pos.toNat) 1 ∧
      (s.brBits 1).length < 9) ∧
    (∃ s : State, s.flags.brRdy = true ∧ BrInv s ∧ s.br.mode = .plain ∧ s.br.cnt.toNat % 8 = 0 ∧
      s.br.pos.toNat - s.br.cnt.toNat / 8 = 5 ∧ 5 + 1 < s.br.endIdx.toNat ∧ s.elem .stream 5 = none) ∧
    (∃ s : State, s.flags.brRdy = true ∧ BrInv s ∧ s.br.mode = .stuff7 ∧ s.br.cnt.toNat = 0 ∧ s.br.skip = false ∧
      s.br.pos.toNat = 5 ∧ 5 + 1 < s.br.endIdx.toNat ∧ s.elem .stream 5 = some 0xFF#8 ∧ s.elem .stream (5 + 1) = none) :=
  ⟨by decide +kernel, ⟨{ brState 6 0xFF 8 .plain false with stream := [] }, by decide +kernel⟩,
    ⟨{ brState 5 0 0 .stuff7 false with stream := cells 5 [0xFF] }, by decide +kernel⟩⟩

/-- A row about to be read of which the second byte is missing. -/
def rowCut : State := { busyRow true 2 with stream := cells 0 [0, 1, 2] }

/-- The second byte of the window of CCITT.INIT, and of a row. -/
theorem witness_UnwrittenStream_ccitt :
    (∃ s : State, s.arg0.toNat ≤ s.arg1.toNat ∧ s.arg1.toNat ≤ s.params.streamSize ∧ 1 ≤ s.arg2.toNat ∧
      s.arg2.toNat ≤ s.params.colsMax ∧ FirstUnwritten s .stream s.arg0.toNat 1 (s.arg1.toNat - s.arg0.toNat) 1) ∧
    (rowCut.flags.ccRdy = true ∧ rowCut.flags.brRdy = true ∧ rowCut.flags.fault = false ∧ rowCut.br.mode = .plain ∧
      CcInv rowCut ∧ BrInv rowCut ∧ rowCut.cc.outbits = 0 ∧ rowCut.flags.ccEof = false ∧ rowCut.cc.next2d = true ∧
      FirstUnwritten rowCut .stream rowCut.br.pos.toNat 1 (rowCut.br.endIdx.toNat - rowCut.br.pos.toNat) 1 ∧
      (rowCut.brBits 1).length < 13) :=
  ⟨⟨{ tiny with arg0 := 30, arg1 := 32, arg2 := 32, stream := cells 30 [0] }, by decide +kernel⟩,
    by decide, by decide, by decide, by decide, busyRow_ccInv true 2, by decide, by decide, by decide, by decide,
    by decide +kernel, by decide +kernel⟩

/-- A table of ZRL, a run of 15 with size 1, and in a refinement pass a size of 2 and a run of 1. -/
def hRun : HufTable := tableOf [0, 4, 0, 0, 0, 0, 0, 0, 0, 0, 0, 0, 0, 0, 0, 0] [0xF0, 0xF1, 0x02, 0x11]

/-- `hufState` with that table in slot AC 2. -/
def runState (l : List Nat) (scan : Nat) : State :=
  { hufState l scan with ht := (hufState l scan).ht.set 6 (some hRun) }

/-- Each clause: a category of 0, three ZRL and a run beyond 63; in a first pass a coefficient before them; and over bands of
zeros a symbol of size 2, a ZRL, a run of 15 before a new coefficient, and a run of 1 that uses up the only zero. -/
theorem witness_BlockFaults :
    (∃ s : State, s.flags.hufRdy = true ∧ HufInv s ∧
      s.arg0.toNat < s.params.coefBlocks ∧ s.ht[slotOf .ac 2] = some hRun ∧ TableOk hRun ∧ s.ht[slotOf .dc 0] = some hDc ∧
      TableOk hDc ∧ takeSymbol hDc s.segmentEnd.bits = some (0, bitsMsb 14 0x7F) ∧
      takeExtend 0 (bitsMsb 14 0x7F) = some (0, bitsMsb 14 0x7F) ∧
      takeAcOverrun hRun 63 64 1 (bitsMsb 14 0x7F) = some ([], 64, bitsMsb 6 0x3F)) ∧
    (∃ s : State, s.flags.hufRdy = true ∧ HufInv s ∧
      s.arg0.toNat < s.params.coefBlocks ∧ s.ht[slotOf .ac 2] = some hRun ∧ s.huf.eobrun = 0 ∧
      takeAcOverrun hRun s.huf.se 64 s.huf.ss s.segmentEnd.bits = some ([(16, 1)], 64, bitsMsb 7 0x7E)) ∧
    ∀ p ∈ [(0x80, 0x0141, (FaultName.hufInvalidAcn, 2), 0, 0#32), (0x00, 0x0141, (.hufRunOverrun, 1), 1, 0#32),
        (0x40, 0x0141, (.hufRunOverrun, 2), 2, 0xFFFFFFFF#32), (0xEF, 0x0041, (.hufRunOverrun, 3), 3, 1#32)],
      let s := runState [p.1] p.2.1
      s.flags.hufRdy = true ∧ HufInv s ∧
      s.arg0.toNat < s.params.coefBlocks ∧ s.ht[slotOf .ac 2] = some hRun ∧ s.huf.acstate = 0 ∧ Written s .coef 0 1 64 ∧
      (takeRefineFault hRun (2 ^ s.huf.al) 65 s.huf.acnext
        ((List.range (s.huf.se + 1 - s.huf.ss)).map fun j =>
          (s.value .coef (64 * s.arg0.toNat + zz (s.huf.ss + j))).toInt) s.segmentEnd.bits).map (fun x => (x.2.1, x.2.2.1, x.2.2.2.1)) =
        some p.2.2 :=
  ⟨⟨runState [0x00, 0x7F] 0x0FC0, by decide +kernel⟩, ⟨runState [0x60, 0xFE] 0x0FC1, by decide +kernel⟩, by decide +kernel⟩

/-- A window at the end of STREAM, an empty one, and each form of the first two bytes, nothing written after them. -/
theorem witness_MqInitLoadsCode :
    (∃ s : State, s.arg0.toNat ≤ s.arg1.toNat ∧ s.arg1.toNat ≤ s.params.streamSize ∧
      WindowWritten s s.arg0.toNat (min s.arg1.toNat (s.arg0.toNat + 2)) ∧ s.arg0.toNat = 31 ∧
      s.byteAt s.arg1.toNat s.arg0.toNat ≠ 0xFF) ∧
    (∃ s : State, s.arg0.toNat ≤ s.arg1.toNat ∧ s.arg1.toNat ≤ s.params.streamSize ∧
      WindowWritten s s.arg0.toNat (min s.arg1.toNat (s.arg0.toNat + 2)) ∧ s.byteAt s.arg1.toNat s.arg0.toNat = 0xFF ∧
      0x8F < s.byteAt s.arg1.toNat (s.arg0.toNat + 1)) ∧
    (∃ s : State, s.arg0.toNat ≤ s.arg1.toNat ∧ s.arg1.toNat ≤ s.params.streamSize ∧
      WindowWritten s s.arg0.toNat (min s.arg1.toNat (s.arg0.toNat + 2)) ∧ s.byteAt s.arg1.toNat s.arg0.toNat = 0xFF ∧
      s.byteAt s.arg1.toNat (s.arg0.toNat + 1) = 0x8F ∧ s.arg0.toNat + 2 < s.arg1.toNat ∧ s.elem .stream 2 = none) :=
  ⟨⟨{ busy with arg0 := 31, arg1 := 32 }, by decide +kernel⟩, ⟨tiny, by decide +kernel⟩,
    ⟨{ tiny with stream := cells 0 [0xFF, 0x8F], arg1 := 32 }, by decide +kernel⟩⟩

/-- A decision that asks for the bytes 1 and 2 at its fourth shift, byte 3 unwritten. -/
def mqOpen : State := { mqState with stream := cells 0 [0x84, 0xC7, 0x3B], mq := { mqState.mq with clow := 0xE000, ct := 3, bp := 1 } }

/-- A state that reads on, one at the end of its window, and one that asks for the two bytes before an unwritten one. -/
theorem witness_MqReadbit :
    (∃ s : State, s.flags.mqRdy = true ∧ MqInv s ∧ 7 < s.params.cxEntries ∧ s.elem .cx 7 = some 0#8 ∧ (0#8).toNat / 2 ≤ 46 ∧
      MqReadable s (s.mqInterval (probRow 0).qe) (s.mqReduced (probRow 0).qe)) ∧
    (∃ s : State, s.flags.mqRdy = true ∧ MqInv s ∧ 0 < s.params.cxEntries ∧ s.elem .cx 0 = some 0x5D#8 ∧
      (0x5D#8).toNat / 2 ≤ 46 ∧ MqReadable s (s.mqInterval (probRow 46).qe) (s.mqReduced (probRow 46).qe) ∧
      s.mq.bp = s.mq.endIdx) ∧
    (∃ s : State, s.flags.mqRdy = true ∧ MqInv s ∧ 0 < s.params.cxEntries ∧ s.elem .cx 0 = some 0x06#8 ∧ (0x06#8).toNat / 2 ≤ 46 ∧
      MqReadable s (s.mqInterval (probRow 3).qe) (s.mqReduced (probRow 3).qe) ∧
      3 < s.mq.endIdx.toNat ∧ s.elem .stream 3 = none) :=
  ⟨⟨busy, by decide +kernel⟩,
    ⟨{ busy with cx := cells 0 [0x5D], mq := { busy.mq with bp := 32 } }, by decide +kernel⟩, ⟨mqOpen, by decide +kernel⟩⟩

/-- The two paths of MQ.READBIT: without renormalisation, and with it. -/
theorem witness_MqReadbitDecides :
    (∃ s : State, s.flags.mqRdy = true ∧ MqInv s ∧ 0 < s.params.cxEntries ∧ s.elem .cx 0 = some 0x06#8 ∧ (0x06#8).toNat / 2 ≤ 46 ∧
      MqReadable s (s.mqInterval (probRow 3).qe) (s.mqReduced (probRow 3).qe) ∧ (probRow 3).qe ≤ s.mq.chigh.toNat ∧
      0x8000 ≤ s.mq.a.toNat - (probRow 3).qe) ∧
    (∃ s : State, s.flags.mqRdy = true ∧ MqInv s ∧ 0 < s.params.cxEntries ∧ s.elem .cx 0 = some 0x06#8 ∧ (0x06#8).toNat / 2 ≤ 46 ∧
      MqReadable s (s.mqInterval (probRow 3).qe) (s.mqReduced (probRow 3).qe) ∧ s.mq.chigh.toNat < (probRow 3).qe) :=
  ⟨⟨{ mqState with stream := [], mq := { mqState.mq with chigh := 0x1288, a := 0xAF74 } }, by decide +kernel⟩,
    ⟨mqState, by decide +kernel⟩⟩

theorem witness_MqReadsOnlyItsWindow :
    (∀ a, mqState.mq.bp.toNat ≤ a → a < mqState.mq.endIdx.toNat →
      Memory.read? (w := 8) (cells 2 [0x3B, 0xFC]) a = mqState.stream.read? a) ∧
    (∃ t, exec (.mqReadbit 0) mqState = .next t) ∧
    (∀ a, tiny.arg0.toNat ≤ a → a < tiny.arg1.toNat → Memory.read? (w := 8) (cells 2 [0x3B]) a = tiny.stream.read? a) ∧
    ∃ t, exec .mqInit tiny = .next t := by
  refine ⟨fun a h1 h2 => ?_, ⟨_, rfl⟩, fun a _ h2 => absurd h2 (Nat.not_lt_zero a), ⟨_, rfl⟩⟩
  have h3 : 2 ≤ a := h1
  have h4 : a < 4 := h2
  obtain rfl | rfl : a = 2 ∨ a = 3 := by omega
  · decide
  · decide

theorem witness_windows : (∃ s : State, s.arg0.toNat ≤ s.arg1.toNat ∧ s.arg1.toNat ≤ s.params.streamSize ∧ s.arg0.toNat = 32) ∧
    (∃ s : State, s.arg0.toNat ≤ s.arg1.toNat ∧ s.arg1.toNat ≤ s.params.streamSize ∧ s.arg1.toNat = 0) :=
  ⟨⟨{ tiny with arg0 := 32, arg1 := 32 }, by decide⟩, ⟨tiny, by decide⟩⟩

/-- Sixteen bits in STUFF7 mode by three bytes, a stuffed one first, the rest of the window unwritten; too few bits in either mode;
and bits enough buffered before an unwritten byte. -/
theorem witness_BrReadbitsReads :
    (∃ s : State, s.flags.brRdy = true ∧ BrInv s ∧ BrFills s 16 3 ∧ 16 ≤ (s.brBits 3).length ∧ s.br.mode = .stuff7 ∧
      s.br.pos.toNat + 3 < s.br.endIdx.toNat ∧ s.elem .stream (s.br.pos.toNat + 3) = none) ∧
    (∃ s : State, s.flags.brRdy = true ∧ BrInv s ∧ BrFills s 16 1 ∧ (s.brBits 1).length = 15) ∧
    (∃ s : State, s.flags.brRdy = true ∧ BrInv s ∧ s.br.mode = .stuff7 ∧ BrFills s 1 0 ∧ (s.brBits 0).length < 1) ∧
    (∃ s : State, s.flags.brRdy = true ∧ BrInv s ∧ BrFills s 16 0 ∧ 16 ≤ (s.brBits 0).length ∧
      s.br.pos.toNat < s.br.endIdx.toNat ∧ s.elem .stream s.br.pos.toNat = none) :=
  ⟨⟨{ brState 2 0 0 .stuff7 true with stream := cells 2 [0x7F, 0x3C, 0xFF] }, by decide +kernel⟩,
    ⟨brState 6 0 7 .plain false, by decide +kernel⟩, ⟨brState 7 0 0 .stuff7 true, by decide +kernel⟩,
    ⟨{ brState 5 0 16 .plain false with stream := [] }, by decide +kernel⟩⟩

/-- No bit, fewer than N, and N and more with an unwritten byte after them. -/
theorem witness_BrPeekAndSkip :
    (∃ s : State, s.flags.brRdy = true ∧ BrInv s ∧ s.br.mode = .plain ∧ BrFills s 1 0 ∧ s.brBits 0 = []) ∧
    (∃ s : State, s.flags.brRdy = true ∧ BrInv s ∧ s.br.mode = .plain ∧ BrFills s 16 1 ∧ (s.brBits 1).length = 8) ∧
    (∃ s : State, s.flags.brRdy = true ∧ BrInv s ∧ s.br.mode = .plain ∧ BrFills s 13 2 ∧ (s.brBits 2).length = 16 ∧
      s.br.pos.toNat + 2 < s.br.endIdx.toNat ∧ s.elem .stream (s.br.pos.toNat + 2) = none) :=
  ⟨⟨brState 7 0 0 .plain false, by decide +kernel⟩, ⟨brState 6 0 0 .plain false, by decide +kernel⟩,
    ⟨{ brState 2 0 0 .plain false with stream := cells 2 [0x3C, 0x91] }, by decide +kernel⟩⟩

theorem witness_BrAlignAligns : (busy.flags.brRdy = true ∧ BrInv busy ∧ busy.br.mode = .plain) ∧
    (∃ s : State, s.flags.brRdy = true ∧ BrInv s ∧ s.br.mode = .stuff7 ∧ s.br.skip = true ∧ s.br.pos = s.br.endIdx) :=
  ⟨by decide, brState 7 0 0 .stuff7 true, by decide⟩

theorem witness_BrMarkerCommands :
    (∃ s : State, s.flags.brRdy = true ∧ BrInv s ∧ s.br.mode = .plain ∧ s.br.cnt.toNat % 8 = 0 ∧
      s.br.pos.toNat - s.br.cnt.toNat / 8 = 4 ∧ WindowWritten s 4 s.br.endIdx.toNat) ∧
    (∃ s : State, s.flags.brRdy = true ∧ BrInv s ∧ s.br.mode = .stuff7 ∧ s.br.cnt.toNat = 0 ∧ s.br.skip = false ∧
      WindowWritten s s.br.pos.toNat s.br.endIdx.toNat ∧ s.br.pos = s.br.endIdx) :=
  ⟨⟨brState 6 0xFF91 16 .plain false, by decide +kernel⟩, ⟨brState 7 0 0 .stuff7 false, by decide +kernel⟩⟩

theorem witness_HufSetUp :
    (5 < 64 ∧ 4 < 64 ∧ 13 < 16 ∧ 4 < 5) ∧ (14 < 16 ∧ 13 < 14) ∧
    (busy.flags.hufRdy = true ∧ ({ busy with arg0 := 32 } : State).arg0.toNat ≤ busy.huf.endIdx.toNat) ∧ 63 ≤ 63 ∧ 13 ≤ 13 := by decide

/-- A table that loads, one with too many codes of length 2 (the first such length), one with 272 codes. -/
theorem witness_HufLoadtableLoads :
    (∃ s : State, s.arg0.toNat + 16 ≤ s.params.tblSize ∧ Written s .tbl s.arg0.toNat 1 16 ∧
      codeCount (s.values .tbl s.arg0.toNat 1 16) = 4 ∧ s.arg0.toNat + 16 + 4 ≤ s.params.tblSize ∧
      CodesFit (s.values .tbl s.arg0.toNat 1 16) 16 ∧ Written s .tbl (s.arg0.toNat + 16) 1 4) ∧
    (∃ s : State, s.arg0.toNat + 16 ≤ s.params.tblSize ∧ Written s .tbl s.arg0.toNat 1 16 ∧
      codeCount (s.values .tbl s.arg0.toNat 1 16) = 4 ∧ s.arg0.toNat + 16 + 4 ≤ s.params.tblSize ∧
      codeSpace (s.values .tbl s.arg0.toNat 1 16) 1 = 1 ∧ codeSpace (s.values .tbl s.arg0.toNat 1 16) 2 = 5) ∧
    (∃ s : State, s.arg0.toNat + 16 ≤ s.params.tblSize ∧ Written s .tbl s.arg0.toNat 1 16 ∧
      256 < codeCount (s.values .tbl s.arg0.toNat 1 16)) :=
  ⟨⟨busy, by decide +kernel⟩, ⟨{ busy with tbl := cells 0 ([1, 3] ++ List.replicate 18 0) }, by decide +kernel⟩,
    ⟨{ busy with arg0 := 256, tbl := cells 256 (List.replicate 16 17) }, by decide +kernel⟩⟩

/-- The first code, and neighbouring codes of different lengths. -/
theorem witness_CodesCanonical : TableOk hDc ∧ hDc.codes.head? = some ⟨2, 0, 0⟩ ∧ hDc.codes[1]? = some ⟨2, 1, 2⟩ ∧
    hDc.codes[2]? = some ⟨3, 4, 3⟩ := by decide +kernel

/-- `hufState` with a window to the end of STREAM, of which no more is written. -/
def openState (l : List Nat) (scan : Nat) : State :=
  { hufState l scan with huf := { (hufState l scan).huf with endIdx := 32 } }

/-- A symbol of three bits before an unwritten byte. -/
theorem witness_HufDecodeReads :
    ∃ s : State, s.flags.hufRdy = true ∧ HufInv s ∧
      s.ht[slotOf .dc 0] = some hDc ∧ TableOk hDc ∧
      takeSymbol hDc s.segmentEnd.bits = some (3, [true, false, true, false, true]) ∧ s.huf.endIdx = 32 ∧ s.elem .stream 1 = none :=
  ⟨openState [0x95] 0, by decide +kernel⟩

/-- All the bits there are, N = 16, through a stuffed 0xFF; and none, N = 0. -/
theorem witness_HufReceiveReads :
    (∃ s : State, s.flags.hufRdy = true ∧ HufInv s ∧ 16 ≤ s.segmentEnd.bits.length) ∧
    (∃ s : State, s.flags.hufRdy = true ∧ HufInv s ∧ 0 ≤ s.segmentEnd.bits.length) :=
  ⟨⟨hufState [0xFF, 0x00, 0x40] 0, by decide +kernel⟩, ⟨hufState [] 0, by decide +kernel⟩⟩

/-- The last block: category 2, difference -3, one coefficient, end of block. -/
theorem witness_HufBaselineBlock :
    ∃ s : State, s.flags.hufRdy = true ∧ HufInv s ∧
      s.arg0.toNat = 1 ∧ s.arg0.toNat < s.params.coefBlocks ∧ s.ht[slotOf .dc 0] = some hDc ∧ TableOk hDc ∧
      s.ht[slotOf .ac 0] = some hAc ∧ TableOk hAc ∧
      takeSymbol hDc s.segmentEnd.bits = some (2, [false, false, false, true, true] ++ List.replicate 9 false) ∧
      takeExtend 2 ([false, false, false, true, true] ++ List.replicate 9 false) =
        some (-3, [false, true, true] ++ List.replicate 9 false) ∧
      takeAc hAc false 63 64 1 ([false, true, true] ++ List.replicate 9 false) = some ([(1, 1)], 0, List.replicate 7 false) :=
  ⟨{ hufState [0x46, 0x00] 0 with arg0 := 1 }, by decide +kernel⟩

theorem witness_HufDcFirstBlock :
    ∃ s : State, s.flags.hufRdy = true ∧ HufInv s ∧
      s.arg0.toNat < s.params.coefBlocks ∧ s.ht[slotOf .dc 0] = some hDc ∧ TableOk hDc ∧
      takeSymbol hDc s.segmentEnd.bits = some (3, [true, false, true, false, true]) ∧
      takeExtend 3 [true, false, true, false, true] = some (5, [false, true]) :=
  ⟨{ hufState [0x95] 0xD000 with arg0 := 1 }, by decide +kernel⟩

theorem witness_HufDcRefineBlock :
    ∃ s : State, s.flags.hufRdy = true ∧ HufInv s ∧
      s.arg0.toNat < s.params.coefBlocks ∧ s.elem .coef (64 * s.arg0.toNat) = some 0#16 ∧
      s.segmentEnd.bits = true :: List.replicate 7 false :=
  ⟨hufState [0x80] 0, by decide +kernel⟩

/-- Inside a run, and H7's first block: two coefficients and an EOB1. -/
theorem witness_HufAcFirstBlock :
    (∃ s : State, s.flags.hufRdy = true ∧ HufInv s ∧ s.arg0.toNat < s.params.coefBlocks ∧ s.ht[slotOf .ac 1] = some hAcp ∧
      TableOk hAcp ∧ s.huf.eobrun.toNat = 32767) ∧
    (∃ s : State, s.flags.hufRdy = true ∧ HufInv s ∧ s.arg0.toNat < s.params.coefBlocks ∧ s.ht[slotOf .ac 1] = some hAcp ∧
      TableOk hAcp ∧ s.huf.eobrun.toNat = 0 ∧
      takeAc hAcp true s.huf.se 64 s.huf.ss s.segmentEnd.bits = some ([(1, 1), (3, -1)], 2, [false, false, true, true, true])) :=
  ⟨⟨{ hufState [] 0x1141 with huf := { (hufState [] 0x1141).huf with eobrun := 32767 } }, by decide +kernel⟩,
    ⟨hufState [0x71, 0x67] 0x1141, by decide +kernel⟩⟩

/-- Inside a run, and H8. -/
theorem witness_HufAcRefineBlock :
    (∃ s : State, s.flags.hufRdy = true ∧ HufInv s ∧
      s.arg0.toNat < s.params.coefBlocks ∧ s.ht[slotOf .ac 1] = some hAcp ∧ TableOk hAcp ∧ Written s .coef 0 1 64 ∧
      s.huf.acstate = 4 ∧ s.huf.eobrun.toNat = 1 ∧
      refineCoefs (2 ^ s.huf.al)
        ((List.range (s.huf.se + 1 - s.huf.ss)).map fun j =>
          (s.value .coef (64 * s.arg0.toNat + zz (s.huf.ss + j))).toInt) s.segmentEnd.bits =
        some ([3, 0, -2, 0, 0], [false, true, true, true, false, false])) ∧
    (∃ s : State, s.flags.hufRdy = true ∧ HufInv s ∧
      s.arg0.toNat < s.params.coefBlocks ∧ s.ht[slotOf .ac 1] = some hAcp ∧ TableOk hAcp ∧ Written s .coef 0 1 64 ∧
      s.huf.acstate = 0 ∧
      ((List.range (s.huf.se + 1 - s.huf.ss)).map fun j =>
        (s.value .coef (64 * s.arg0.toNat + zz (s.huf.ss + j))).toInt) = [2, 0, -2, 0, 0] ∧
      takeRefine hAcp (2 ^ s.huf.al) 65 s.huf.acnext [2, 0, -2, 0, 0] s.segmentEnd.bits = some ([3, 0, -3, 1, 0], 1, 1, [])) :=
  ⟨⟨{ refineState with huf := { refineState.huf with acstate := 4, eobrun := 1 } }, by decide +kernel⟩,
    ⟨refineState, by decide +kernel⟩⟩

/-- The widest image, with unwritten bytes in the window, and an empty window. -/
theorem witness_CcittInitOpens :
    (∃ s : State, s.arg0.toNat ≤ s.arg1.toNat ∧ s.arg1.toNat ≤ s.params.streamSize ∧ 1 ≤ s.arg2.toNat ∧
      s.arg2.toNat = s.params.colsMax ∧ s.elem .stream 4 = none ∧ 4 < s.arg1.toNat ∧ ∀ kmode < 3,
        let u := s.setBr { pos := s.arg0, endIdx := s.arg1, buf := 0, cnt := 0, mode := .plain, skip := false }
        let l0 := dropFill u.brUnread
        let l := if lookAhead 12 l0 = 1 then l0.drop 12 else l0
        let rest := if kmode = 1 then l.drop 1 else l
        BrAhead u (u.brUnread.length - rest.length)) ∧
    (∃ s : State, s.arg0.toNat = s.arg1.toNat ∧ s.arg1.toNat ≤ s.params.streamSize ∧ s.arg2.toNat = 1 ∧
      s.arg2.toNat ≤ s.params.colsMax ∧ ∀ kmode < 3,
        let u := s.setBr { pos := s.arg0, endIdx := s.arg1, buf := 0, cnt := 0, mode := .plain, skip := false }
        let l0 := dropFill u.brUnread
        let l := if lookAhead 12 l0 = 1 then l0.drop 12 else l0
        let rest := if kmode = 1 then l.drop 1 else l
        BrAhead u (u.brUnread.length - rest.length)) :=
  ⟨⟨{ tiny with stream := cells 0 [0x00, 0x1A, 0x55, 0x55], arg1 := 32, arg2 := 32 }, by decide +kernel⟩,
    ⟨{ tiny with arg2 := 1 }, by decide +kernel⟩⟩

theorem witness_CcittReadbyteServes :
    (∃ s : State, s.flags.ccRdy = true ∧ s.flags.brRdy = true ∧ s.br.mode = .plain ∧ s.cc.outbits = 0 ∧ s.flags.ccEof = true) ∧
    (busy.flags.ccRdy = true ∧ busy.flags.brRdy = true ∧ busy.br.mode = .plain ∧ busy.cc.outbits ≠ 0 ∧
      busy.flags.fault = false ∧ CcInv busy) :=
  ⟨⟨{ tiny with flags := { ready with ccEof := true } }, by decide⟩,
    by decide, by decide, by decide, by decide, by decide, busy_ccInv⟩

/-- A row of one code, 17 white pixels, with unwritten bytes in the window after it. -/
def partRow : State := { busyRow false 0 with stream := cells 0 [0xAF, 0x55, 0x55] }

theorem partRow_ccInv : CcInv partRow := busyRow_ccInv false 0

theorem witness_CcittReadbyteCompletes :
    (busy.flags.ccRdy = true ∧ busy.flags.brRdy = true ∧ busy.flags.fault = false ∧ busy.br.mode = .plain ∧ CcInv busy ∧
      BrInv busy ∧ busy.cc.outbits ≠ 0) ∧
    (partRow.flags.ccRdy = true ∧ partRow.flags.brRdy = true ∧ partRow.flags.fault = false ∧ partRow.br.mode = .plain ∧
      CcInv partRow ∧ BrInv partRow ∧ partRow.cc.outbits = 0 ∧ partRow.flags.ccEof = false ∧ BrAhead partRow partRow.rowBits ∧
      partRow.elem .stream 3 = none ∧ 3 < partRow.br.endIdx.toNat) :=
  ⟨⟨by decide, by decide, by decide, by decide, busy_ccInv, by decide, by decide⟩,
    ⟨by decide, by decide, by decide, by decide, partRow_ccInv, by decide, by decide, by decide, by decide +kernel, by decide,
      by decide⟩⟩

/-- A row in each dimension, one the end of the data cuts, and one before unwritten bytes. -/
theorem witness_CcittReadbyteDecodes :
    (∃ s : State, s.flags.ccRdy = true ∧ s.flags.brRdy = true ∧ s.flags.fault = false ∧ s.br.mode = .plain ∧ CcInv s ∧ BrInv s ∧
      s.cc.outbits = 0 ∧ s.flags.ccEof = false ∧ BrAhead s s.rowBits ∧ s.cc.next2d = true) ∧
    (∃ s : State, s.flags.ccRdy = true ∧ s.flags.brRdy = true ∧ s.flags.fault = false ∧ s.br.mode = .plain ∧ CcInv s ∧ BrInv s ∧
      s.cc.outbits = 0 ∧ s.flags.ccEof = false ∧ BrAhead s s.rowBits ∧ s.cc.next2d = false) ∧
    (∃ s : State, s.flags.ccRdy = true ∧ s.flags.brRdy = true ∧ s.flags.fault = false ∧ s.br.mode = .plain ∧ CcInv s ∧ BrInv s ∧
      s.cc.outbits = 0 ∧ s.flags.ccEof = false ∧ BrAhead s s.rowBits ∧ s.brUnread = []) ∧
    (∃ s : State, s.flags.ccRdy = true ∧ s.flags.brRdy = true ∧ s.flags.fault = false ∧ s.br.mode = .plain ∧ CcInv s ∧ BrInv s ∧
      s.cc.outbits = 0 ∧ s.flags.ccEof = false ∧ BrAhead s s.rowBits ∧ s.elem .stream 3 = none ∧ 3 < s.br.endIdx.toNat) :=
  ⟨⟨busyRow true 2, by decide, by decide, by decide, by decide, busyRow_ccInv true 2, by decide, by decide, by decide,
      by decide +kernel, by decide⟩,
    ⟨busyRow false 2, by decide, by decide, by decide, by decide, busyRow_ccInv false 2, by decide, by decide, by decide,
      by decide +kernel, by decide⟩,
    ⟨busyRow true 32, by decide, by decide, by decide, by decide, busyRow_ccInv true 32, by decide, by decide, by decide,
      by decide +kernel, by decide +kernel⟩,
    ⟨partRow, by decide, by decide, by decide, by decide, partRow_ccInv, by decide, by decide, by decide,
      by decide +kernel, by decide, by decide⟩⟩

/-- The last block and the last table. -/
theorem witness_IdctBlockTransforms :
    ({ busy with arg0 := 1 } : State).arg0.toNat < busy.params.coefBlocks ∧ Written busy .coef (64 * 1) 1 64 ∧
    Written busy .qt (64 * 3) 1 64 := by decide +kernel

/-- A line that ends at the last word, and one element with odd phase. -/
theorem witness_IwtSr1dTransforms :
    (1 + (4 - 1) * 4 < busy.params.planeWords ∧ 3 + (4 - 1) * 4 < busy.params.planeWords ∧ Written busy .plane 3 4 4) ∧
    (15 + (1 - 1) * 1 < busy.params.planeWords ∧ Written busy .plane 15 1 1) := by decide +kernel

/-- W9: FWD53 of a signal that overflows. -/
theorem witness_Iwt53Reversible :
    fwd53 [2147483647, -2147483648, 5] = [-1610612738, -1073741826, 536870916] ∧
    (∃ s : State, s.arg1.toNat = 3 ∧ s.arg2.toNat = 1 ∧ s.arg0.toNat + (3 - 1) * s.arg2.toNat < s.params.planeWords ∧
      ∀ i, i < 3 → s.elem .plane (s.arg0.toNat + i * s.arg2.toNat) =
        some (BitVec.ofInt 32 ([-1610612738, -1073741826, 536870916].getD i 0))) :=
  ⟨by decide +kernel,
    { tiny with plane := signed [-1610612738, -1073741826, 536870916], arg1 := 3, arg2 := 1 }, by decide +kernel⟩

/-- The largest constant; two signals that agree about position 2 only. -/
theorem witness_Iwt53ConstantAndLocal :
    (2 ≤ 5 ∧ -(2 ^ 30) < (2 : Int) ^ 30 - 1 ∧ (2 : Int) ^ 30 - 1 < 2 ^ 30) ∧
    (∀ j : Int, 1 ≤ j → j ≤ 3 → extended [9, 1, 2, 3, 9] j = extended [8, 1, 2, 3, 7] j) := by
  refine ⟨by decide, fun j h1 h2 => ?_⟩
  obtain rfl | rfl | rfl : j = 1 ∨ j = 2 ∨ j = 3 := by omega
  all_goals decide

/-- An array that fills PLANE, and a row of one column with both phases odd. -/
theorem witness_IwtSr2dTransforms :
    (0 + 4 * 4 ≤ busy.params.planeWords ∧ Written busy .plane 0 1 (4 * 4)) ∧
    (15 + 1 * 1 ≤ busy.params.planeWords ∧ Written busy .plane 15 1 (1 * 1)) := by decide +kernel

/-! ## IDCT -/

/-- I2: C[0] = 512, every step 1. -/
def idctState (c : List Int) : State :=
  { tiny with coef := signed (c ++ List.replicate (64 - c.length) 0), qt := cells 0 (List.replicate 64 1) }

theorem test_idctBlock_dc :
    (issue 0x50000000#32 (idctState [512])).map (fun t => t.coef) = some (cells 0 (List.replicate 64 192)) := by
  decide +kernel

/-- I3: the first two rows. -/
theorem test_idctBlock :
    (issue 0x50000000#32 (idctState [80, -30, 0, 0, 0, 0, 0, 0, 25, 10])).map (fun t => t.coef.take 16) =
      some (cells 0 [140, 140, 141, 142, 143, 144, 145, 145, 139, 139, 140, 141, 142, 144, 144, 145]) := by decide +kernel

/-! ## IWT -/

/-- W1. -/
theorem test_iwtSr1d :
    (issue 0x60000000#32 { tiny with plane := signed [10, -3, 7, 2, 0, 5, -8, 1], arg1 := 8, arg2 := 1 }).map
        (fun t => t.plane) =
      some (signed [11, 6, 7, 4, -2, -1, -10, -9]) := by decide +kernel

/-- W11: one element, odd phase. -/
theorem test_iwtSr1d_one :
    (issue 0x60000002#32 { tiny with plane := signed [-7], arg1 := 1, arg2 := 1 }).map (fun t => t.plane) =
      some (signed [-4]) := by decide +kernel

/-- W12. -/
theorem test_iwtSr2d :
    (issue 0x61000000#32 { tiny with
      plane := signed [10, -3, 7, 2, 4, 1, -2, 0, -6, 5, 3, 8], arg1 := 4, arg2 := 3 }).map (fun t => t.plane) =
      some (signed [9, 5, 8, 10, 2, 3, 2, 7, -11, -1, 1, 9]) := by decide +kernel

/-- W18 and W21: the operation order of the 9/7 filter, over the recommended numerics of 45_wavelet_lifting.md R352. -/
theorem test_sr97_order :
    lineResult recommendedNumerics .irr97 false [0x40600000, 0xBFA00000] = [0x40840000, 0x4037FFFF] ∧
    lineResult recommendedNumerics .irr97 false [0x41000000, 0x00000000] = [0x40FFFFFF, 0x40FFFFFE] := by decide +kernel

/-- W13, the first two words. -/
theorem test_sr97_impulse :
    (lineResult recommendedNumerics .irr97 false (0x3F800000 :: List.replicate 7 0)).take 2 = [0x3F8EBB2C, 0x3F175D96] := by
  decide +kernel

end Sys2Proof.Tests
end

section
/-! O22: the reset state meets every invariant (00_scope.md R6, 70_reset_and_hazards.md R411). -/

namespace Sys2Proof.Machine

/-- No unit is ready after reset, so what R26, R28, R31 and R278 say of a ready unit holds there. -/
theorem unitInvs_powerOn (p : Params) :
    MqInv (State.powerOn p) ∧ BrInv (State.powerOn p) ∧ HufInv (State.powerOn p) ∧ CcInv (State.powerOn p) :=
  ⟨fun h => Bool.noConfusion h, fun h => Bool.noConfusion h, fun h => Bool.noConfusion h, fun h => Bool.noConfusion h⟩

/-- HUF_SCAN is 0x0FC0 after reset: the band 0 to 63 at bit position 0. -/
theorem scanInv_powerOn (p : Params) : ScanInv (State.powerOn p) := by
  show HufUnit.clear.ss ≤ HufUnit.clear.se ∧ HufUnit.clear.se ≤ 63 ∧ HufUnit.clear.al ≤ 13
  decide

/-- The table store is empty after reset. -/
theorem tablesInv_powerOn (p : Params) : TablesInv (State.powerOn p) := by
  intro k t ht
  have hnone : ∀ k : Fin 8, (State.powerOn p).ht[k] = none := by
    show ∀ k : Fin 8, (#v[none, none, none, none, none, none, none, none] : Vector (Option HufTable) 8)[k] = none
    decide
  rw [hnone k] at ht
  cases ht

/-- Settles O22: no unit is ready, the memories are empty, HUF_SCAN holds the whole band and no table is loaded. -/
theorem powerOnInv : Obligations.PowerOnInv := by
  intro p hp
  obtain ⟨hmq, hbr, hhuf, hcc⟩ := unitInvs_powerOn p
  exact ⟨hp, memoriesCanonical_powerOn p, hmq, hbr, scanInv_powerOn p, hhuf, tablesInv_powerOn p, hcc⟩

end Sys2Proof.Machine
end

section
/-! When a procedure is not refused: `Safe p s Q` says that `p`, started in `s`, ends in `Q` or stops with a fault of R371. One
rule per construct and per shared operation; the units' lemmas cite these (00_scope.md R10, 20_memory.md R75). -/

namespace Sys2Proof.Machine

variable {α β : Type}

/-- The stop is a fault of R371, not a refusal of the model. -/
def Faulted (e : Stop) (_ : State) : Prop := ∃ f info, e = .raise f info

@[simp] theorem faulted_raise (f : FaultName) (info : Nat) (s : State) : Faulted (.raise f info) s := ⟨f, info, rfl⟩

/-- `p` from `s` ends in `Q` or stops with a fault. -/
abbrev Safe (p : Proc α) (s : State) (Q : α → State → Prop) : Prop := Ends p s Q Faulted

/-- `p` keeps `I` and is not refused in a state that meets it. -/
def Runs (I : State → Prop) (p : Proc α) : Prop := ∀ s, I s → Safe p s fun _ => I

/-- A command whose body is not refused has a next state. -/
theorem runCommand_of_safe {p : Proc Unit} {s : State} {Q : Unit → State → Prop} (h : Safe p s Q) :
    ∃ t, runCommand p s = .next t := by
  obtain ⟨t, ht, -⟩ := runCommand_next (R := fun _ => True).2
    (h.mono (fun _ _ _ => trivial) fun _ _ ⟨f, info, he⟩ => ⟨f, info, he, trivial⟩)
  exact ⟨t, ht⟩

section Rules

variable {s : State} {Q : α → State → Prop}

theorem Safe.weaken {p : Proc α} {R : α → State → Prop} (h : Safe p s R) (hQ : ∀ a t, R a t → Q a t) : Safe p s Q :=
  h.mono hQ fun _ _ he => he

theorem safe_bind {p : Proc β} {f : β → Proc α} (h : Safe p s fun b t => Safe (f b) t Q) : Safe (p >>= f) s Q :=
  (ends_bind ..).2 h

/-- A sequence, from what is known of its first part. -/
theorem Safe.bind {p : Proc β} {f : β → Proc α} {R : β → State → Prop} (h : Safe p s R)
    (hf : ∀ b t, R b t → Safe (f b) t Q) : Safe (p >>= f) s Q :=
  safe_bind (h.weaken hf)

theorem safe_get {f : State → Proc α} (h : Safe (f s) s Q) : Safe (get >>= f) s Q := (ends_bind ..).2 h

theorem safe_ite {c : Prop} [Decidable c] {p q : Proc α} (hp : c → Safe p s Q) (hq : ¬ c → Safe q s Q) :
    Safe (if c then p else q) s Q := (ends_ite ..).2 ⟨hp, hq⟩

theorem safe_modifyFlags {f : Flags → Flags} {Q : Unit → State → Prop} (h : Q () (s.setFlags (f s.flags))) :
    Safe (modifyFlags f) s Q := h

theorem safe_modifyBr {f : BrUnit → BrUnit} {Q : Unit → State → Prop} (h : Q () (s.setBr (f s.br))) :
    Safe (modifyBr f) s Q := h

theorem safe_modifyCc {f : CcUnit → CcUnit} {Q : Unit → State → Prop} (h : Q () (s.setCc (f s.cc))) :
    Safe (modifyCc f) s Q := h

theorem safe_raise (f : FaultName) (info : Nat) : Safe (raise f info : Proc α) s Q := faulted_raise f info s

theorem safe_check {bad : Bool} {f : FaultName} {info : Nat} {Q : Unit → State → Prop} (h : bad = false → Q () s) :
    Safe (check bad f info) s Q := (ends_check ..).2 ⟨fun _ => faulted_raise f info s, h⟩

theorem safe_needReady {u : ReadyUnit} {Q : Unit → State → Prop} (h : u.ready s.flags = true → Q () s) :
    Safe (needReady u) s Q := safe_get (safe_check fun hu => h (by simpa using hu))

theorem safe_needTable {c : TClass} {id : Fin 4} {Q : Unit → State → Prop} (h : Q () s) : Safe (needTable c id) s Q :=
  safe_get (safe_check fun _ => h)

/-- The operand check of the INIT commands lets windows inside STREAM through. -/
theorem safe_checkWindow {Q : Unit → State → Prop}
    (h : s.arg0.toNat ≤ s.arg1.toNat → s.arg1.toNat ≤ s.params.streamSize → Q () s) : Safe checkWindow s Q := by
  refine safe_get (safe_check fun hw => ?_)
  simp only [badWindow, Bool.or_eq_false_iff, decide_eq_false_iff_not, Nat.not_lt] at hw
  exact h hw.1 hw.2

/-- ARG0 names a block of COEF. -/
abbrev BlockNamed (s : State) : Prop := s.arg0.toNat < s.params.coefBlocks

theorem safe_checkBlock {Q : Unit → State → Prop} (h : BlockNamed s → Q () s) : Safe checkBlock s Q := by
  refine safe_get (safe_check fun hb => h ?_)
  simpa using hb

/-- A read inside the space answers a written element or raises UNWRITTEN_READ. -/
theorem safe_memRead {sp : Space} {a : Nat} {Q : BitVec sp.width → State → Prop} (ha : a < s.sizeOf sp)
    (h : ∀ v, s.elem sp a = some v → Q v s) : Safe (memRead sp a) s Q :=
  (ends_memRead ..).2 ⟨fun hge => absurd ha (Nat.not_lt.2 hge), fun _ _ => faulted_raise _ _ _, fun _ => h⟩

theorem safe_memWrite {sp : Space} {a : Nat} {v : BitVec sp.width} {Q : Unit → State → Prop} (ha : a < s.sizeOf sp)
    (h : Q () (s.setMem sp ((s.mem sp).write a v))) : Safe (memWrite sp a v) s Q :=
  (ends_memWrite_of s _ ha).2 h

/-- A run of reads inside the space changes nothing and answers as many elements as it was asked for. -/
theorem safe_memReadRun {sp : Space} {stride : Nat} (n : Nat) : ∀ a, (∀ i, i < n → a + i * stride < s.sizeOf sp) →
    Safe (memReadRun sp a stride n) s fun l t => t = s ∧ l.length = n := by
  induction n with
  | zero => exact fun _ _ => ⟨rfl, rfl⟩
  | succ n ih =>
    intro a ha
    refine safe_bind (safe_memRead (by simpa using ha 0 (Nat.succ_pos n)) fun v _ => ?_)
    refine (ih (a + stride) fun i hi => ?_).bind fun vs t ht => ?_
    · have := ha (i + 1) (by omega)
      rw [Nat.succ_mul] at this
      omega
    · exact ⟨ht.1, congrArg Nat.succ ht.2⟩

/-- A run of writes inside the space. -/
theorem safe_memWriteRun {sp : Space} {stride : Nat} (l : List (BitVec sp.width)) : ∀ (s : State) (a : Nat),
    (∀ i, i < l.length → a + i * stride < s.sizeOf sp) →
      Safe (memWriteRun sp a stride l) s fun _ t => t.params = s.params := by
  induction l with
  | nil => exact fun _ _ _ => rfl
  | cons v l ih =>
    intro s a ha
    refine safe_bind (safe_memWrite (by simpa using ha 0 (Nat.succ_pos _)) ?_)
    refine (ih _ (a + stride) fun i hi => ?_).weaken fun _ t ht => ht.trans (State.setMem_params ..)
    have := ha (i + 1) (by simpa using hi)
    rw [Nat.succ_mul] at this
    rw [State.setMem_sizeOf]
    omega

/-- What `p` keeps whatever happens holds at its end too. -/
theorem Safe.and_keeps {p : Proc α} {K : State → Prop} (h : Safe p s Q) (hp : Keeps K p) (hs : K s) :
    Safe p s fun a t => Q a t ∧ K t :=
  (h.and (hp s hs)).mono (fun _ _ ht => ht) fun _ _ he => he.1

end Rules

section Runs

variable {I K : State → Prop}

theorem Runs.safe {p : Proc α} {s : State} (hp : Runs I p) (h : I s) : Safe p s fun _ _ => True :=
  (hp s h).weaken fun _ _ _ => trivial

theorem runs_pure (a : α) : Runs I (pure a) := fun _ h => h

theorem runs_bind {p : Proc β} {f : β → Proc α} (hp : Runs I p) (hf : ∀ b, Runs I (f b)) : Runs I (p >>= f) :=
  fun s h => (hp s h).bind fun b t ht => hf b t ht

theorem runs_get {f : State → Proc α} (hf : ∀ s, I s → Safe (f s) s fun _ => I) : Runs I (get >>= f) :=
  fun s h => safe_get (hf s h)

theorem runs_raise (f : FaultName) (info : Nat) : Runs I (raise f info : Proc α) := fun _ _ => safe_raise f info

theorem runs_check (bad : Bool) (f : FaultName) (info : Nat) : Runs I (check bad f info) := fun _ h => safe_check fun _ => h

theorem runs_ite (c : Prop) [Decidable c] {p q : Proc α} (hp : Runs I p) (hq : Runs I q) :
    Runs I (if c then p else q) := by split <;> assumption

/-- A further property, when `p` keeps it whatever happens. -/
theorem Runs.and {p : Proc α} (hp : Runs I p) (hk : Keeps K p) : Runs (fun s => I s ∧ K s) p :=
  fun s h => (hp s h.1).and_keeps hk h.2

end Runs

end Sys2Proof.Machine
end

section
/-! O23, the IDCT, IWT and MQ commands: every element they reach lies inside its space, and renormalisation ends
(44_idct.md R322, 45_wavelet_lifting.md R344, R345, 40_mq_decoder.md R142 to R146). -/

namespace Sys2Proof.Machine

/-! ## IDCT and IWT -/

theorem safe_idctBlockBody (qti : Fin 4) (s : State) : Safe (idctBlockBody qti) s fun _ _ => True := by
  refine safe_bind (safe_checkBlock fun hb => safe_get ?_)
  have hcoef : ∀ i, i < 64 → blockBase s + i * 1 < s.sizeOf .coef := fun i hi => by
    simp only [blockBase, State.sizeOf, Space.size]; omega
  have hqt : ∀ i, i < 64 → qtIndex qti 0 + i * 1 < s.sizeOf .qt := fun i hi => by
    simp only [qtIndex, State.sizeOf, Space.size, Config.qtTables]; omega
  refine (safe_memReadRun 64 _ hcoef).bind fun c t ht => ?_
  obtain ⟨rfl, -⟩ := ht
  refine (safe_memReadRun 64 _ hqt).bind fun q t' ht => ?_
  obtain ⟨rfl, -⟩ := ht
  refine (safe_memWriteRun _ _ _ fun i hi => ?_).weaken fun _ _ _ => trivial
  rw [List.length_map, idctBlock_length] at hi
  exact hcoef i hi

/-- A line whose elements lie in PLANE. -/
theorem safe_iwtLine {s : State} {a n stride : Nat} (f : Filter) (phase : Bool)
    (h : ∀ i, i < n → a + i * stride < s.params.planeWords) :
    Safe (iwtLine a n stride f phase) s fun _ t => t.params = s.params := by
  refine (safe_memReadRun n a h).bind fun w t ht => ?_
  obtain ⟨rfl, hw⟩ := ht
  refine safe_memWriteRun _ _ _ fun i hi => ?_
  rw [lineResult_length, hw] at hi
  exact h i hi

/-- Lines whose elements lie in PLANE. -/
theorem safe_iwtLines {n stride step : Nat} (f : Filter) (phase : Bool) (count : Nat) : ∀ (s : State) (a : Nat),
    (∀ c, c < count → ∀ i, i < n → a + c * step + i * stride < s.params.planeWords) →
      Safe (iwtLines n stride f phase step count a) s fun _ t => t.params = s.params := by
  induction count with
  | zero => exact fun _ _ _ => rfl
  | succ count ih =>
    intro s a h
    refine (safe_iwtLine f phase (by simpa using h 0 (Nat.succ_pos _))).bind fun _ t ht => ?_
    refine (ih t (a + step) fun c hc i hi => ?_).weaken fun _ u hu => hu.trans ht
    have := h (c + 1) (by omega) i hi
    rw [Nat.succ_mul] at this
    rw [ht]
    omega

theorem safe_iwtSr1dBody (f : Filter) (phase : Bool) (s : State) : Safe (iwtSr1dBody f phase) s fun _ _ => True := by
  refine safe_get (safe_bind (safe_check fun _ => safe_bind (safe_check fun hlast => safe_bind (safe_check fun _ => ?_))))
  replace hlast : s.arg0.toNat + (s.arg1.toNat - 1) * s.arg2.toNat < s.params.planeWords :=
    Nat.lt_of_not_le (of_decide_eq_false hlast)
  refine (safe_iwtLine f phase fun i hi => ?_).weaken fun _ _ _ => trivial
  have : i * s.arg2.toNat ≤ (s.arg1.toNat - 1) * s.arg2.toNat := Nat.mul_le_mul_right _ (by omega)
  omega

/-- Element `u` of row `v` lies inside a `w` by `h` array. -/
theorem row_major_lt {w h u v : Nat} (hu : u < w) (hv : v < h) : v * w + u < w * h := by
  have : (v + 1) * w ≤ h * w := Nat.mul_le_mul_right w hv
  rw [Nat.succ_mul] at this
  rw [Nat.mul_comm w h]
  omega

theorem safe_iwtSr2dBody (f : Filter) (pu pv : Bool) (s : State) : Safe (iwtSr2dBody f pu pv) s fun _ _ => True := by
  refine safe_get (safe_bind (safe_check fun _ => safe_bind (safe_check fun hlast => safe_bind (safe_check fun _ => ?_))))
  replace hlast : s.arg0.toNat + s.arg1.toNat * s.arg2.toNat ≤ s.params.planeWords :=
    Nat.le_of_not_lt (of_decide_eq_false hlast)
  refine (safe_iwtLines f pu _ s _ fun v hv u hu => ?_).bind fun _ t ht => ?_
  · have := row_major_lt hu hv
    omega
  · refine (safe_iwtLines f pv _ t _ fun u hu v hv => ?_).weaken fun _ _ _ => trivial
    have := row_major_lt hu hv
    rw [ht]
    omega

/-! ## MQ -/

/-- The MQ window ends inside STREAM. -/
abbrev MqWindow (s : State) : Prop := s.mq.endIdx.toNat ≤ s.params.streamSize

theorem runs_modifyMq {f : MqUnit → MqUnit} (hf : ∀ m, (f m).endIdx = m.endIdx) : Runs MqWindow (modifyMq f) := by
  intro s h
  show (f s.mq).endIdx.toNat ≤ s.params.streamSize
  rw [hf]
  exact h

/-- MqByte reads no byte at or beyond MQ_END. -/
theorem runs_mqByte (i : Nat) : Runs MqWindow (mqByte i) :=
  runs_get fun _ h => safe_ite
    (fun hi => safe_bind (safe_memRead (Nat.lt_of_lt_of_le hi h) fun _ _ => h)) fun _ => h

theorem runs_byteIn : Runs MqWindow byteIn := by
  have hmerge : ∀ add ct, Runs MqWindow (mqMerge add ct) := fun _ _ => runs_modifyMq fun _ => rfl
  have hadvance : Runs MqWindow mqAdvance := runs_modifyMq fun _ => rfl
  refine runs_get fun s => runs_bind (runs_mqByte _) (fun b => runs_ite _ ?_ ?_) s
  · refine runs_bind (runs_mqByte _) fun nb => runs_ite _ (hmerge _ _) ?_
    exact runs_bind hadvance fun _ => runs_bind (runs_mqByte _) fun _ => hmerge _ _
  · exact runs_bind hadvance fun _ => runs_bind (runs_mqByte _) fun _ => hmerge _ _

/-- RENORMD doubles the interval until its top bit is 1, so `k` rounds are enough when `2 ^ k` times it has got there. -/
theorem runs_renormD (k : Nat) : ∀ a, 1 ≤ a → a < 2 ^ 15 → 2 ^ 15 ≤ a * 2 ^ k → Runs MqWindow (renormD k a) := by
  induction k with
  | zero => intros; omega
  | succ k ih =>
    intro a h1 hlt hge
    have hdouble : a * 2 % 2 ^ 16 = a * 2 := Nat.mod_eq_of_lt (by omega)
    refine runs_get fun s => runs_bind (runs_ite _ runs_byteIn (runs_pure _)) (fun _ => ?_) s
    refine runs_bind (runs_modifyMq fun _ => rfl) fun _ t ht => safe_ite (fun _ => ht) fun htop => ?_
    rw [hdouble] at htop ⊢
    exact ih _ (by omega) (by omega) (by rw [mul_assoc, ← Nat.pow_succ']; exact hge) t ht

/-- The rows of R141 have 1 <= Qe < 2^15. -/
theorem mqRow_qe (idx : Nat) : 1 ≤ (mqRow idx).qe ∧ (mqRow idx).qe < 2 ^ 15 := by
  have hrows : ∀ r ∈ mqTable, 1 ≤ r.qe ∧ r.qe < 2 ^ 15 := by decide
  unfold mqRow
  by_cases h : idx < mqTable.length
  · rw [List.getD_eq_getElem _ _ h]
    exact hrows _ (List.getElem_mem h)
  · rw [List.getD_eq_default _ _ (Nat.not_lt.1 h)]
    decide

theorem safe_mqFinish {s : State} {cxi a : Nat} (o : MqDecision) (h : MqWindow s) (hc : cxi < s.params.cxEntries)
    (h1 : 1 ≤ a) (hlt : a < 2 ^ 15) : Safe (mqFinish cxi a o) s fun _ _ => True := by
  have hkeep : KeepsMq fun t => cxi < t.params.cxEntries := fun _ _ ht => ht
  refine ((runs_renormD 15 a h1 hlt (by omega) s h).and_keeps (keeps_renormD hkeep 15 a) hc).bind fun _ t ht => ?_
  exact safe_bind (safe_memWrite ht.2 trivial)

theorem safe_mqDecode {s : State} {cxi : Nat} (e : Byte) (h : MqWindow s) (hc : cxi < s.params.cxEntries)
    (ha : 0x8000 ≤ s.mq.a.toNat) : Safe (mqDecode cxi e) s fun _ _ => True := by
  obtain ⟨hq1, hq⟩ := mqRow_qe (e.toNat / 2)
  refine safe_get (safe_ite (fun _ => safe_mqFinish _ h hc hq1 hq) fun _ => safe_bind ?_)
  refine safe_ite (fun _ => trivial) fun hlow => safe_mqFinish _ h hc ?_ ?_ <;> omega

theorem safe_mqReadbitBody (cxi : Nat) {s : State} (h : MqInv s) : Safe (mqReadbitBody cxi) s fun _ _ => True := by
  refine safe_bind (safe_needReady fun hr => safe_get (safe_bind (safe_check fun hc => ?_)))
  obtain ⟨ha, -, -, -, hend, -⟩ := h hr
  simp only [decide_eq_false_iff_not, Nat.not_le] at hc
  exact safe_bind (safe_memRead hc fun e _ => safe_bind (safe_check fun _ => safe_mqDecode e hend hc ha))

theorem safe_mqInitBody (s : State) : Safe mqInitBody s fun _ _ => True := by
  refine safe_bind (safe_checkWindow fun _ hend => safe_get ?_)
  refine Safe.bind (R := fun _ => MqWindow) hend fun _ t ht => Runs.safe (I := MqWindow) ?_ ht
  refine runs_bind (runs_modifyMq fun _ => rfl) fun _ => runs_bind (runs_mqByte _) fun _ => ?_
  refine runs_bind (runs_modifyMq fun _ => rfl) fun _ => runs_bind runs_byteIn fun _ => ?_
  exact runs_bind (runs_modifyMq fun _ => rfl) fun _ _ hu => hu

end Sys2Proof.Machine
end

section
/-! O23, the HUF commands: HUF_POS stays inside its window, a block inside COEF, and no code is longer than 16 bits
(42_huffman_jpeg.md R211 to R226). -/

namespace Sys2Proof.Machine

/-! ## Bits and symbols -/

/-- The registers a procedure sets leave the window alone. -/
abbrev KeepsHufWindow (f : HufUnit → HufUnit) : Prop := ∀ h, (f h).pos = h.pos ∧ (f h).endIdx = h.endIdx

theorem HufWindow.modify {s : State} {f : HufUnit → HufUnit} (hf : KeepsHufWindow f) (h : HufWindow s) :
    HufWindow (s.setHuf (f s.huf)) := by
  obtain ⟨hpos, hend⟩ := hf s.huf
  simp only [HufWindow, State.setHuf_huf, State.setHuf_params, hpos, hend]
  exact h

/-- A read past the last bit of the segment is a fault (R211). -/
theorem SegmentStops.faulted {s t : State} {x : Stop} (h : SegmentStops s x t) : Faulted x t := ⟨_, _, h.1⟩

theorem runs_hufBit : Runs HufWindow hufBit := fun _ h =>
  (ends_hufBit_segment h).mono (fun _ _ ⟨_, _, hr⟩ => hr.window) fun _ _ he => he.2.faulted

theorem runs_receive (n : Nat) : Runs HufWindow (receive n) := fun _ h =>
  (ends_receive h).mono (fun _ _ ⟨_, _, hr⟩ => hr.window) fun _ _ he => he.2.faulted

theorem runs_extend (n : Nat) : Runs HufWindow (extend n) := fun _ h =>
  (ends_extend h).mono (fun _ _ ⟨_, _, hr⟩ => hr.window) fun _ _ he => he.2.faulted

/-- Only a code longer than `len` continues after `len` bits, and none is longer than 16. -/
theorem len_lt_of_codeContinues {t : HufTable} {len code : Nat} (h : codeContinues t.codes len code = true) : len < 16 := by
  obtain ⟨c, hc, hp⟩ := List.any_eq_true.1 h
  have := (HufTable.len_codes hc).2
  have := (of_decide_eq_true hp).1
  omega

/-- The walk of HufDecode ends within 16 bits. -/
theorem runs_hufWalk (t : HufTable) (k : Nat) : ∀ len code, len < 16 → len + k = 16 →
    Runs HufWindow (hufWalk t.codes k len code) := by
  induction k with
  | zero => intros; omega
  | succ k ih =>
    intro len code hlen hk
    refine runs_bind runs_hufBit fun b => ?_
    dsimp only
    split
    · exact runs_pure _
    · split
      · next hcont => exact ih _ _ (len_lt_of_codeContinues hcont) (by omega)
      · exact runs_raise _ _

theorem runs_hufDecode (c : TClass) (id : Fin 4) : Runs HufWindow (hufDecode c id) := by
  refine runs_get fun s hs => ?_
  split
  · exact runs_hufWalk _ 16 0 0 (by decide) rfl s hs
  · exact safe_raise _ _

/-! ## The commands without a block -/

theorem safe_hufInitBody (s : State) : Safe hufInitBody s fun _ _ => True := safe_bind (safe_checkWindow fun _ _ => trivial)

theorem safe_hufScancfgBody (ss se al : Nat) (s : State) : Safe (hufScancfgBody ss se al) s fun _ _ => True :=
  safe_bind (safe_check fun _ => trivial)

theorem safe_hufRestartBody (s : State) : Safe hufRestartBody s fun _ _ => True :=
  safe_bind (safe_needReady fun _ => safe_get (safe_bind (safe_check fun _ => trivial)))

/-- The window part of R31. -/
theorem HufInv.hufWindow {s : State} (h : HufInv s) (hr : s.flags.hufRdy = true) : HufWindow s := by
  obtain ⟨hpos, hend, -⟩ := h hr
  exact ⟨hpos, hend⟩

theorem safe_hufDecodeBody (c : TClass) (id : Fin 4) {s : State} (h : HufInv s) : Safe (hufDecodeBody c id) s fun _ _ => True :=
  safe_bind (safe_needReady fun hr => safe_bind (safe_needTable
    ((runs_hufDecode c id s (HufInv.hufWindow h hr)).bind fun _ _ _ => trivial)))

theorem safe_hufReceiveBody (n : Nat) {s : State} (h : HufInv s) : Safe (hufReceiveBody n) s fun _ _ => True :=
  safe_bind (safe_needReady fun hr => safe_bind (safe_check fun _ =>
    (runs_receive n s (HufInv.hufWindow h hr)).bind fun _ _ _ => trivial))

theorem safe_hufExtendBody (n : Nat) {s : State} (h : HufInv s) : Safe (hufExtendBody n) s fun _ _ => True :=
  safe_bind (safe_needReady fun hr => safe_bind (safe_check fun _ =>
    (runs_extend n s (HufInv.hufWindow h hr)).bind fun _ _ _ => trivial))

/-- The counts and the symbols that HUF.LOADTABLE reads lie in TBL, by its own checks (R213). -/
theorem safe_hufLoadtableBody (c : TClass) (id : Fin 4) (s : State) : Safe (hufLoadtableBody c id) s fun _ _ => True := by
  refine safe_get (safe_bind (safe_check fun hcount => ?_))
  have hcount := of_decide_eq_false hcount
  refine (safe_memReadRun 16 _ fun i hi => ?_).bind fun cnt t ht => ?_
  · simp only [tblIndex, State.sizeOf, Space.size]; omega
  obtain ⟨rfl, -⟩ := ht
  refine safe_bind (safe_check fun _ => safe_bind (safe_check fun hsym => safe_bind (safe_check fun _ => ?_)))
  have hsym := of_decide_eq_false hsym
  refine (safe_memReadRun _ _ fun i hi => ?_).bind fun _ _ _ => trivial
  simp only [tblIndex, State.sizeOf, Space.size]; omega

/-! ## The block commands -/

/-- The window of R31, and ARG0 names a block. -/
abbrev HufBlock (s : State) : Prop := HufWindow s ∧ BlockNamed s

/-- No HUF procedure moves ARG0 or the sizes. -/
theorem keepsHuf_blockNamed : KeepsHuf BlockNamed := fun _ _ h => h

theorem runs_block_hufBit : Runs HufBlock hufBit := runs_hufBit.and (keeps_hufBit keepsHuf_blockNamed)

theorem runs_block_receive (n : Nat) : Runs HufBlock (receive n) := (runs_receive n).and (keeps_receive keepsHuf_blockNamed n)

theorem runs_block_extend (n : Nat) : Runs HufBlock (extend n) := (runs_extend n).and (keeps_extend keepsHuf_blockNamed n)

theorem runs_block_hufDecode (c : TClass) (id : Fin 4) : Runs HufBlock (hufDecode c id) :=
  (runs_hufDecode c id).and (keeps_hufDecode keepsHuf_blockNamed c id)

theorem runs_block_modifyHuf {f : HufUnit → HufUnit} (hf : KeepsHufWindow f) : Runs HufBlock (modifyHuf f) :=
  fun _ h => ⟨h.1.modify hf, h.2⟩

theorem runs_putEobrun (v : Nat) : Runs HufBlock (putEobrun v) := runs_block_modifyHuf fun _ => ⟨rfl, rfl⟩

theorem runs_putAcstate (v : Nat) : Runs HufBlock (putAcstate v) := runs_block_modifyHuf fun _ => ⟨rfl, rfl⟩

/-- Coefficients are numbered 0 to 63. -/
theorem zigzag_getD_lt (k : Nat) : zigzag.getD k 0 < 64 := by
  by_cases h : k < zigzag.length
  · have hall : ∀ z ∈ zigzag, z < 64 := by decide
    rw [List.getD_eq_getElem _ _ h]
    exact hall _ (List.getElem_mem h)
  · rw [List.getD_eq_default _ _ (Nat.not_lt.1 h)]
    decide

/-- The block ARG0 names lies in COEF. -/
theorem coefIndex_lt {s : State} (h : BlockNamed s) (k : Nat) : coefIndex s k < s.sizeOf .coef := by
  have := zigzag_getD_lt k
  simp only [coefIndex, blockBase, State.sizeOf, Space.size]; omega

theorem blockBase_lt {s : State} (h : BlockNamed s) : blockBase s < s.sizeOf .coef := by
  simp only [blockBase, State.sizeOf, Space.size]; omega

/-- A coefficient written inside COEF. -/
theorem safe_block_memWrite {s : State} {z : Nat} {v : Half} (h : HufBlock s) (hz : z < s.sizeOf .coef) :
    Safe (memWrite .coef z v) s fun _ => HufBlock := safe_memWrite hz h

theorem runs_putCoef (k : Nat) (v : Int) : Runs HufBlock (putCoef k v) :=
  runs_get fun _ h => safe_block_memWrite h (coefIndex_lt h.2 k)

theorem runs_putDc (comp : Fin 4) (diff : Int) : Runs HufBlock (putDc comp diff) :=
  runs_bind (runs_block_modifyHuf fun _ => ⟨rfl, rfl⟩) fun _ => runs_get fun s h => runs_putCoef _ _ s h

theorem runs_dcCategory (dct : Fin 4) : Runs HufBlock (dcCategory dct) :=
  runs_bind (runs_block_hufDecode _ _) fun _ => runs_bind (runs_check _ _ _) fun _ => runs_pure _

theorem runs_acCoef (k size al : Nat) : Runs HufBlock (acCoef k size al) :=
  runs_bind (runs_check _ _ _) fun _ => runs_bind (runs_block_extend _) fun _ => runs_putCoef _ _

theorem runs_baselineAc (act : Fin 4) (fuel : Nat) : ∀ k, Runs HufBlock (baselineAc act fuel k) := by
  induction fuel with
  | zero => exact fun _ => runs_pure _
  | succ fuel ih =>
    refine fun k => runs_ite _ (runs_bind (runs_block_hufDecode _ _) fun rs => ?_) (runs_pure _)
    exact runs_ite _ (runs_ite _ (runs_pure _) (ih _)) (runs_bind (runs_acCoef _ _ _) fun _ => ih _)

/-- How every block command begins: the unit is ready and ARG0 names a block. -/
theorem safe_block {s : State} {p : Proc Unit} (h : HufInv s) (hp : HufBlock s → Safe p s fun _ _ => True) :
    Safe (needReady .huf >>= fun _ => checkBlock >>= fun _ => p) s fun _ _ => True :=
  safe_bind (safe_needReady fun hr => safe_bind (safe_checkBlock fun hb => hp ⟨HufInv.hufWindow h hr, hb⟩))

theorem safe_hufBlockBaselineBody (dct act comp : Fin 4) {s : State} (h : HufInv s) :
    Safe (hufBlockBaselineBody dct act comp) s fun _ _ => True := by
  refine safe_block h fun hb => safe_bind (safe_needTable (safe_bind (safe_needTable (Runs.safe ?_ hb))))
  refine runs_bind (runs_dcCategory _) fun _ => runs_bind (runs_block_extend _) fun _ => ?_
  exact runs_bind (runs_putDc _ _) fun _ => runs_baselineAc _ _ _

theorem safe_hufDcFirstBody (dct comp : Fin 4) {s : State} (h : HufInv s) :
    Safe (hufDcFirstBody dct comp) s fun _ _ => True := by
  refine safe_block h fun hb => safe_bind (safe_needTable (Runs.safe ?_ hb))
  refine runs_bind (runs_dcCategory _) fun _ => runs_bind (runs_block_extend _) fun _ => ?_
  exact runs_get fun t ht => runs_putDc _ _ t ht

/-- The element stays inside COEF while bits are read: the sizes do not move. -/
theorem runs_hufBit_at (z : Nat) : Runs (fun s => HufBlock s ∧ z < s.sizeOf .coef) hufBit :=
  runs_block_hufBit.and (keeps_hufBit fun _ _ h => h)

theorem safe_hufDcRefineBody {s : State} (h : HufInv s) : Safe hufDcRefineBody s fun _ _ => True := by
  refine safe_block h fun hb => safe_get (safe_bind (safe_memRead (blockBase_lt hb.2) fun _ _ => ?_))
  refine (runs_hufBit_at _ s ⟨hb, blockBase_lt hb.2⟩).bind fun _ t ht => ?_
  exact (safe_block_memWrite ht.1 ht.2).weaken fun _ _ _ => trivial

theorem runs_acFirstLoop (act : Fin 4) (e al fuel : Nat) : ∀ k, Runs HufBlock (acFirstLoop act e al fuel k) := by
  induction fuel with
  | zero => exact fun _ => runs_pure _
  | succ fuel ih =>
    refine fun k => runs_ite _ (runs_bind (runs_block_hufDecode _ _) fun rs => ?_) (runs_pure _)
    refine runs_ite _ (runs_ite _ ?_ (ih _)) (runs_bind (runs_acCoef _ _ _) fun _ => ih _)
    exact runs_bind (runs_block_receive _) fun _ => runs_putEobrun _

theorem safe_hufAcFirstBody (act : Fin 4) {s : State} (h : HufInv s) : Safe (hufAcFirstBody act) s fun _ _ => True := by
  refine safe_block h fun hb => safe_bind (safe_needTable (safe_get (Runs.safe ?_ hb)))
  exact runs_ite _ (runs_putEobrun _) (runs_acFirstLoop _ _ _ _ _)

theorem runs_refineSymbol (act : Fin 4) : Runs HufBlock (refineSymbol act) := by
  refine runs_bind (runs_block_hufDecode _ _) fun rs => runs_ite _ (runs_ite _ ?_ ?_) ?_
  · exact runs_bind (runs_block_receive _) fun _ => runs_bind (runs_putEobrun _) fun _ =>
      runs_bind (runs_putAcstate _) fun _ => runs_pure _
  · exact runs_bind (runs_putAcstate _) fun _ => runs_pure _
  · exact runs_bind (runs_check _ _ _) fun _ => runs_bind (runs_block_extend _) fun _ =>
      runs_bind (runs_block_modifyHuf fun _ => ⟨rfl, rfl⟩) fun _ => runs_bind (runs_putAcstate _) fun _ => runs_pure _

theorem safe_refineAt {s : State} (acstate z : Nat) (c r p : Int) (h : HufBlock s) (hz : z < s.sizeOf .coef) :
    Safe (refineAt acstate z c r p) s fun _ => HufBlock := by
  refine safe_ite (fun _ => safe_ite (fun _ => ?_) fun _ => ?_) fun _ => h
  · refine safe_bind ((runs_hufBit_at z s ⟨h, hz⟩).bind fun b t ht => ?_)
    exact safe_block_memWrite ht.1 ht.2
  · refine safe_ite (fun _ => ?_) fun _ => safe_ite (fun _ => ?_) fun _ => h
    · exact runs_bind (runs_ite _ (runs_putAcstate _) (runs_pure _)) (fun _ => runs_pure _) s h
    · exact safe_get ((safe_block_memWrite h hz).bind fun _ t ht =>
        runs_bind (runs_putAcstate _) (fun _ => runs_pure _) t ht)

theorem runs_refineLoop (act : Fin 4) (e : Nat) (p : Int) (fuel : Nat) :
    ∀ k r, Runs HufBlock (refineLoop act e p fuel k r) := by
  induction fuel with
  | zero => exact fun _ _ => runs_pure _
  | succ fuel ih =>
    refine fun k r => runs_ite _ (runs_get fun s h => ?_) (runs_pure _)
    refine safe_bind (safe_memRead (coefIndex_lt h.2 k) fun c _ => safe_ite (fun _ => ?_) fun _ => ?_)
    · exact runs_bind (runs_refineSymbol act) (fun _ => ih _ _) s h
    · exact (safe_refineAt _ _ _ _ _ h (coefIndex_lt h.2 k)).bind fun r' t ht => ih _ r' t ht

/-- The end of the band only moves registers. -/
theorem runs_refineEnd : Runs HufBlock refineEnd := by
  have hcount : Runs HufBlock countDownEobrun := runs_get fun s h => safe_ite
    (fun _ => safe_bind (runs_putEobrun _ (s.setFreeCtr _) h)) fun _ => runs_putEobrun _ s h
  refine runs_get fun s h => safe_ite (fun _ => ?_) fun _ => safe_check fun _ => h
  exact (hcount s h).bind fun _ t ht => safe_get (safe_ite (fun _ => runs_putAcstate _ t ht) fun _ => ht)

theorem safe_hufAcRefineBody (act : Fin 4) {s : State} (h : HufInv s) : Safe (hufAcRefineBody act) s fun _ _ => True := by
  refine safe_block h fun hb => safe_bind (safe_needTable (safe_get (Runs.safe ?_ hb)))
  exact runs_bind (runs_refineLoop _ _ _ _ _ _) fun _ => runs_refineEnd

end Sys2Proof.Machine
end

section
/-! O23, the BR commands: Fill reads no byte at or beyond BR_END, whatever has been written there, and in PLAIN mode it moves bits
from the window into BR_BUF and loses none (41_bitreader.md R181 to R190). -/

namespace Sys2Proof.Machine

/-- The part of R28 that keeps Fill inside STREAM. -/
structure BrWindow (s : State) : Prop where
  cnt : s.br.cnt.toNat ≤ 23
  pos : s.br.pos.toNat ≤ s.br.endIdx.toNat
  endIdx : s.br.endIdx.toNat ≤ s.params.streamSize

theorem BrInv.brWindow {s : State} (h : BrInv s) (hr : s.flags.brRdy = true) : BrWindow s := by
  obtain ⟨-, hcnt, hpos, hend, -⟩ := h hr
  exact ⟨hcnt, hpos, hend⟩

/-- What Fill does to the reader, with written bytes or without. -/
structure Refilled (s t : State) : Prop where
  window : BrWindow t
  mode : t.br.mode = s.br.mode
  bits : s.br.mode = .plain → t.bitsLeft = s.bitsLeft

theorem Refilled.refl {s : State} (h : BrWindow s) : Refilled s s := ⟨h, rfl, fun _ => rfl⟩

theorem Refilled.trans {s t u : State} (h : Refilled s t) (h' : Refilled t u) : Refilled s u :=
  ⟨h'.window, h'.mode.trans h.mode, fun hm => (h'.bits (h.mode.trans hm)).trans (h.bits hm)⟩

/-- A byte fetched moves BR_POS by one and adds `k` bits to BR_CNT, eight of them in PLAIN mode. -/
theorem refilled_byte {s : State} (h : BrWindow s) (hp : s.br.pos.toNat < s.br.endIdx.toNat) (hc : s.br.cnt.toNat < 16)
    {k : Nat} (hk : k ≤ 8) (hplain : s.br.mode = .plain → k = 8) (buf : Word) (skip : Bool) :
    Refilled s (s.setBr { s.br with pos := s.br.pos + 1, buf := buf, cnt := s.br.cnt + BitVec.ofNat 5 k, skip := skip }) ∧
      (s.br.cnt + BitVec.ofNat 5 k).toNat = s.br.cnt.toNat + k := by
  have hpos : (s.br.pos + 1).toNat = s.br.pos.toNat + 1 := pos_succ hp
  have hcnt : (s.br.cnt + BitVec.ofNat 5 k).toNat = s.br.cnt.toNat + k := by
    rw [BitVec.toNat_add, BitVec.toNat_ofNat]; omega
  refine ⟨⟨⟨?_, ?_, h.endIdx⟩, rfl, fun hm => ?_⟩, hcnt⟩
  · simp only [State.setBr_br, hcnt]; omega
  · simp only [State.setBr_br, hpos]; omega
  · have := hplain hm
    simp only [State.bitsLeft, State.setBr_br, hcnt, hpos]; omega

theorem safe_brFetch {s : State} (h : BrWindow s) (hp : s.br.pos.toNat < s.br.endIdx.toNat) (hc : s.br.cnt.toNat < 16) :
    Safe brFetch s fun _ t => Refilled s t ∧ s.br.cnt.toNat + 7 ≤ t.br.cnt.toNat := by
  refine safe_get (safe_bind (safe_memRead (Nat.lt_of_lt_of_le hp h.endIdx) fun b _ => (ends_modifyBr ..).2 ?_))
  split
  · next hm =>
    have hstuff : s.br.mode = .plain → 7 = 8 := fun hp' => by rw [hm.1] at hp'; cases hp'
    obtain ⟨hr, hcnt⟩ := refilled_byte h hp hc (by decide) hstuff _ _
    exact ⟨hr, hcnt.ge⟩
  · obtain ⟨hr, hcnt⟩ := refilled_byte h hp hc le_rfl (fun _ => rfl) _ _
    exact ⟨hr, (Nat.le_succ _).trans hcnt.ge⟩

/-- Fill(n) buffers `n` bits or reaches the end of the window. -/
theorem safe_brFill {n : Nat} (hn : n ≤ 16) {s : State} (h : BrWindow s) :
    Safe (brFill n) s fun _ t => Refilled s t ∧ (n ≤ t.br.cnt.toNat ∨ t.br.pos.toNat = t.br.endIdx.toNat) := by
  suffices ∀ (k : Nat) (t : State), BrWindow t → n ≤ t.br.cnt.toNat + 7 * k → Safe (brFillLoop n k) t fun _ u =>
      Refilled t u ∧ (n ≤ u.br.cnt.toNat ∨ u.br.pos.toNat = u.br.endIdx.toNat) from this n s h (by omega)
  intro k
  induction k with
  | zero => exact fun t ht hk => ⟨Refilled.refl ht, .inl (by omega)⟩
  | succ k ih =>
    refine fun t ht hk => safe_get (safe_ite (fun hc => ?_) fun hc => ⟨Refilled.refl ht, ?_⟩)
    · refine (safe_brFetch ht hc.2 (by omega)).bind fun _ u ⟨hu, hcnt⟩ => ?_
      exact (ih u hu.window (by omega)).weaken fun _ v hv => ⟨hu.trans hv.1, hv.2⟩
    · have := ht.pos
      omega

theorem checkBitCount_le {n : Nat} (h : decide (n = 0 ∨ 16 < n) = false) : 1 ≤ n ∧ n ≤ 16 := by
  have := of_decide_eq_false h
  omega

theorem safe_brReadbitsBody (n : Nat) {s : State} (h : BrInv s) : Safe (brReadbitsBody n) s fun _ _ => True :=
  safe_bind (safe_needReady fun hr => safe_bind (safe_check fun hn =>
    (safe_brFill (checkBitCount_le hn).2 (BrInv.brWindow h hr)).bind fun _ _ _ =>
      safe_get (safe_bind (safe_check fun _ => trivial))))

theorem safe_checkPlain {s : State} {Q : Unit → State → Prop} (h : s.br.mode = .plain → Q () s) : Safe checkPlain s Q := by
  refine safe_get (safe_check fun hm => h ?_)
  simpa using hm

theorem safe_brPeekbitsBody (n : Nat) {s : State} (h : BrInv s) : Safe (brPeekbitsBody n) s fun _ _ => True :=
  safe_bind (safe_needReady fun hr => safe_bind (safe_check fun hn => safe_bind (safe_checkPlain fun _ => safe_bind
    ((safe_brFill (checkBitCount_le hn).2 (BrInv.brWindow h hr)).bind fun _ _ _ => trivial))))

theorem safe_brSkipbitsBody (n : Nat) {s : State} (h : BrInv s) : Safe (brSkipbitsBody n) s fun _ _ => True :=
  safe_bind (safe_needReady fun hr => safe_bind (safe_check fun hn => safe_bind (safe_checkPlain fun _ =>
    (safe_brFill (checkBitCount_le hn).2 (BrInv.brWindow h hr)).bind fun _ _ _ => trivial)))

theorem safe_brInitBody (mode : BrMode) (s : State) : Safe (brInitBody mode) s fun _ _ => True :=
  safe_bind (safe_checkWindow fun _ _ => trivial)

theorem safe_brAlignBody (s : State) : Safe brAlignBody s fun _ _ => True := by
  refine safe_bind (safe_needReady fun _ => safe_get ?_)
  split <;> trivial

/-- LPos changes nothing. -/
theorem safe_brLPos (s : State) : Safe brLPos s fun _ t => t = s := by
  refine safe_get ?_
  split <;> exact safe_bind (safe_check fun _ => rfl)

/-- The two bytes BR.PEEKMARKER looks at lie before BR_END (R187). -/
theorem safe_brMarkerAt (l : Nat) (mark : Byte) {s : State} (h : BrWindow s) : Safe (brMarkerAt l mark) s fun _ _ => True := by
  refine safe_get (safe_ite (fun hl => ?_) fun _ => trivial)
  have hin : l + 1 < s.sizeOf .stream := Nat.lt_of_lt_of_le hl h.endIdx
  refine safe_bind (safe_memRead (Nat.lt_of_succ_lt hin) fun b _ => safe_ite (fun _ => ?_) fun _ => trivial)
  exact safe_bind (safe_memRead hin fun _ _ => trivial)

theorem safe_brPeekmarkerBody (mark : Byte) {s : State} (h : BrInv s) : Safe (brPeekmarkerBody mark) s fun _ _ => True := by
  refine safe_bind (safe_needReady fun hr => (safe_brLPos s).bind fun l t ht => ?_)
  subst ht
  exact (safe_brMarkerAt l mark (BrInv.brWindow h hr)).bind fun _ _ _ => trivial

theorem safe_brSkipbytesBody (s : State) : Safe brSkipbytesBody s fun _ _ => True :=
  safe_bind (safe_needReady fun _ => (safe_brLPos s).bind fun _ _ _ => trivial)

/-! ## Peek and Skip in PLAIN mode -/

/-- At most `n` bits of a PLAIN window are left. -/
structure BitsAtMost (n : Nat) (s : State) : Prop where
  window : BrWindow s
  mode : s.br.mode = .plain
  bits : s.bitsLeft ≤ n

theorem BitsAtMost.mono {m n : Nat} {s : State} (h : BitsAtMost m s) (hmn : m ≤ n) : BitsAtMost n s :=
  ⟨h.window, h.mode, h.bits.trans hmn⟩

theorem BitsAtMost.self {n : Nat} {s : State} (h : BitsAtMost n s) : BitsAtMost s.bitsLeft s := ⟨h.window, h.mode, le_rfl⟩

theorem BitsAtMost.refilled {n : Nat} {s t : State} (h : BitsAtMost n s) (ht : Refilled s t) : BitsAtMost n t :=
  ⟨ht.window, ht.mode.trans h.mode, (ht.bits h.mode).trans_le h.bits⟩

/-- Peek answers EOFV when no bit is left, and only then (R184). -/
theorem bitsLeft_pos_of_peekValue {n : Nat} {t : State} (h : t.br.peekValue n ≠ eofv) : 0 < t.bitsLeft := by
  by_contra h0
  have hc : t.br.cnt.toNat = 0 := by
    simp only [State.bitsLeft] at h0; omega
  exact h (if_pos hc)

theorem safe_brPeek {n k : Nat} (hk : k ≤ 16) {s : State} (h : BitsAtMost n s) :
    Safe (brPeek k) s fun v t => BitsAtMost n t ∧ (v ≠ eofv → 0 < n) := by
  refine (safe_brFill hk h.window).bind fun _ t ⟨ht, _⟩ => safe_get ?_
  have hn := h.refilled ht
  exact ⟨hn, fun hv => (bitsLeft_pos_of_peekValue hv).trans_le hn.bits⟩

/-- Keeping `k` of the buffered bits. -/
theorem BrWindow.keep {s : State} (h : BrWindow s) {k : Nat} (hk : k ≤ s.br.cnt.toNat) :
    BrWindow (s.setBr (s.br.keep k)) ∧ (s.br.keep k).cnt.toNat = k := by
  have hc : (s.br.keep k).cnt.toNat = k := by
    have := h.cnt
    simp only [BrUnit.keep, BitVec.toNat_ofNat]; omega
  exact ⟨⟨hc.le.trans (hk.trans h.cnt), h.pos, h.endIdx⟩, hc⟩

/-- Skip(k) takes at least a bit when one is left. -/
theorem safe_brSkip {n k : Nat} (hk0 : 1 ≤ k) (hk : k ≤ 16) {s : State} (h : BitsAtMost n s) :
    Safe (brSkip k) s fun _ t => BitsAtMost (n - 1) t := by
  refine (safe_brFill hk h.window).bind fun _ t ⟨ht, hfull⟩ => ?_
  have hn := h.refilled ht
  obtain ⟨hw, hc⟩ := hn.window.keep (Nat.sub_le t.br.cnt.toNat (min k t.br.cnt.toNat))
  refine ⟨hw, hn.mode, ?_⟩
  have hbits := hn.bits
  simp only [State.bitsLeft] at hbits
  show 8 * (t.br.endIdx.toNat - t.br.pos.toNat) + (t.br.keep _).cnt.toNat ≤ n - 1
  rw [hc]
  omega

end Sys2Proof.Machine
end

section
/-! O23, the rows of the CCITT unit: CC_CPOS stays inside the coding line, every code takes a bit, and a row ends with an element
of CLINE at CC_COLS or beyond (43_ccitt.md R267 to R274, R278 (c)). -/

namespace Sys2Proof.Machine

/-! ## Where the row stands -/

/-- CC_CPOS lies inside the line, and the line inside CLINE. -/
structure LineInside (s : State) : Prop where
  cpos : s.cc.cpos.toNat ≤ s.cc.cols.toNat
  cols : s.cc.cols.toNat ≤ s.params.colsMax

/-- Element `k` of the line, not before CC_CPOS, is at CC_COLS or beyond: no walk along the line passes it. -/
structure LineClosedAt (k : Nat) (s : State) : Prop where
  cpos : s.cc.cpos.toNat ≤ k
  inside : k ≤ s.cc.cols.toNat
  cols : s.cc.cols.toNat ≤ s.params.colsMax
  closed : ∃ v, s.clineAt k = some v ∧ s.cc.cols.toNat ≤ v

def LineClosed (s : State) : Prop := ∃ k, LineClosedAt k s

theorem LineClosedAt.lineInside {k : Nat} {s : State} (h : LineClosedAt k s) : LineInside s := ⟨h.cpos.trans h.inside, h.cols⟩

/-- A run that ends before CC_COLS is not the closing element. -/
theorem LineClosedAt.ne_of_lt {k i v : Nat} {s : State} (h : LineClosedAt k s) (hv : s.clineAt i = some v)
    (hlt : (v : Int) < s.columns) : i ≠ k := by
  rintro rfl
  obtain ⟨w, hw, hc⟩ := h.closed
  obtain rfl := Option.some.inj (hw.symm.trans hv)
  simp only [State.columns] at hlt
  omega

/-- The reference line has room for CC_COLS + 2 elements. -/
theorem LineInside.lt_rline {i : Nat} {s : State} (h : LineInside s) (hi : i ≤ s.cc.cols.toNat + 1) : i < s.sizeOf .rline := by
  have := h.cols
  simp only [State.sizeOf, Space.size]; omega

theorem LineClosed.lineInside {s : State} (h : LineClosed s) : LineInside s := h.elim fun _ hk => hk.lineInside

/-- At most `n` bits are left, and the line is as `K` says. -/
abbrev InRow (n : Nat) (K : State → Prop) (s : State) : Prop := BitsAtMost n s ∧ K s

theorem InRow.mono {m n : Nat} {K : State → Prop} {s : State} (h : InRow m K s) (hmn : m ≤ n) : InRow n K s :=
  ⟨h.1.mono hmn, h.2⟩

theorem InRow.self {n : Nat} {K : State → Prop} {s : State} (h : InRow n K s) : InRow s.bitsLeft K s := ⟨h.1.self, h.2⟩

theorem keepsBr_lineInside : KeepsBr LineInside := fun _ _ h => ⟨h.cpos, h.cols⟩

theorem keepsBr_lineClosed : KeepsBr LineClosed := fun _ _ ⟨k, h⟩ => ⟨k, h.cpos, h.inside, h.cols, h.closed⟩

section Bits

variable {n : Nat} {K : State → Prop} {s : State}

/-- The CCITT registers, the flags and the line memories are not the reader's. -/
theorem BitsAtMost.congr {t : State} (h : BitsAtMost n s) (hb : t.br = s.br) (hp : t.params = s.params) : BitsAtMost n t := by
  obtain ⟨hw, hm, hbits⟩ := h
  refine ⟨⟨hb ▸ hw.cnt, hb ▸ hw.pos, hb ▸ hp ▸ hw.endIdx⟩, hb ▸ hm, ?_⟩
  rw [State.bitsLeft, hb]
  exact hbits

theorem safe_row_brPeek (hK : KeepsBr K) {k : Nat} (hk : k ≤ 16) (h : InRow n K s) :
    Safe (brPeek k) s fun v t => InRow n K t ∧ (v ≠ eofv → 0 < n) :=
  ((safe_brPeek hk h.1).and_keeps (keeps_brPeek hK k) h.2).weaken fun _ _ ⟨⟨hb, hv⟩, ht⟩ => ⟨⟨hb, ht⟩, hv⟩

theorem safe_row_brSkip (hK : KeepsBr K) {k : Nat} (hk0 : 1 ≤ k) (hk : k ≤ 16) (h : InRow n K s) :
    Safe (brSkip k) s fun _ t => InRow (n - 1) K t :=
  (safe_brSkip hk0 hk h.1).and_keeps (keeps_brSkip hK k) h.2

theorem runs_brSkip (hK : KeepsBr K) {k : Nat} (hk0 : 1 ≤ k) (hk : k ≤ 16) : Runs (InRow n K) (brSkip k) :=
  fun _ h => (safe_row_brSkip hK hk0 hk h).weaken fun _ _ ht => ht.mono (Nat.sub_le n 1)

/-- What Match leaves: a code found took a bit. -/
def MatchLeaves {α : Type} (n : Nat) (K : State → Prop) (m : Matched α) (t : State) : Prop :=
  InRow n K t ∧ ∀ v, m = .ok v → 0 < n ∧ InRow (n - 1) K t

/-- Match begins with a look-ahead of 13 bits, which is EOFV when none is left. -/
theorem safe_look {α : Type} (hK : KeepsBr K) {f : Nat → Proc (Matched α)} (h : InRow n K s)
    (hf : ∀ look t, 0 < n → InRow n K t → Safe (f look) t (MatchLeaves n K)) :
    Safe (brPeek 13 >>= fun look => if look = eofv then pure .eof else f look) s (MatchLeaves n K) :=
  (safe_row_brPeek hK (by decide) h).bind fun look t ⟨ht, hpos⟩ =>
    safe_ite (fun _ => ⟨ht, fun _ hv => by cases hv⟩) fun heof => hf look t (hpos heof) ht

/-- Match takes the bits of the code it found. -/
theorem safe_takeCode {α : Type} (hK : KeepsBr K) {len : Nat} (hlen : 1 ≤ len ∧ len ≤ 13) (v : α) (hpos : 0 < n)
    (h : InRow n K s) : Safe (brSkip len >>= fun _ => pure (.ok v)) s (MatchLeaves n K) :=
  (safe_row_brSkip hK hlen.1 (by omega) h).bind fun _ _ ht => ⟨ht.mono (Nat.sub_le n 1), fun _ _ => ⟨hpos, ht⟩⟩

theorem matchLeaves_bad {α : Type} (h : InRow n K s) : MatchLeaves n K (.bad : Matched α) s := ⟨h, fun _ hv => by cases hv⟩

theorem runCodes_len (colour : Nat) : ∀ c ∈ runCodes colour, 1 ≤ c.len ∧ c.len ≤ 13 := by
  have hlen : ∀ k ∈ [0, 1], ∀ c ∈ runCodes k, 1 ≤ c.len ∧ c.len ≤ 13 := fun k hk c hc =>
    have hm := (runCodes_table k hk).2 c hc
    ⟨hm.1, hm.2.1⟩
  by_cases h : colour = 1
  · exact h ▸ hlen 1 (by decide)
  · rw [show runCodes colour = runCodes 0 by simp [runCodes, h]]
    exact hlen 0 (by decide)

theorem safe_matchRunCode (hK : KeepsBr K) (colour : Nat) (h : InRow n K s) : Safe (matchRunCode colour) s (MatchLeaves n K) := by
  refine safe_look hK h fun look t hpos ht => ?_
  split
  · next c hc => exact safe_takeCode hK (runCodes_len colour c (List.mem_of_find?_eq_some hc)) _ hpos ht
  · exact matchLeaves_bad ht

theorem safe_matchModeCode (hK : KeepsBr K) (h : InRow n K s) : Safe matchModeCode s (MatchLeaves n K) := by
  refine safe_look hK h fun look t hpos ht => ?_
  split
  · next c hc =>
    obtain ⟨h1, h13, -⟩ := modeCodes_table.2 c (List.mem_of_find?_eq_some hc)
    exact safe_takeCode hK ⟨h1, h13⟩ _ hpos ht
  · exact matchLeaves_bad ht

end Bits

/-! ## The line accesses -/

/-- A row being read: `n` bits at most are left, and CC_CPOS lies inside the line. -/
abbrev RowBegun (n : Nat) : State → Prop := InRow n LineInside

/-- A row that has been read to CC_COLS. -/
abbrev RowDone (n : Nat) : State → Prop := InRow n LineClosed

theorem RowDone.rowBegun {n : Nat} {s : State} (h : RowDone n s) : RowBegun n s := ⟨h.1, h.2.lineInside⟩

theorem rowBegun_setFlags {n : Nat} {s : State} (h : RowBegun n s) (f : Flags) : RowBegun n (s.setFlags f) :=
  ⟨h.1.congr rfl rfl, h.2.cpos, h.2.cols⟩

theorem rowDone_setFlags {n : Nat} {s : State} (h : RowDone n s) (f : Flags) : RowDone n (s.setFlags f) := by
  obtain ⟨hb, k, hk⟩ := h
  exact ⟨hb.congr rfl rfl, k, hk.cpos, hk.inside, hk.cols, hk.closed⟩

/-- A row being read has elements of the lines written. -/
theorem rowBegun_setMem {n : Nat} {s : State} (h : RowBegun n s) (sp : Space) (m : Memory sp.width) :
    RowBegun n (s.setMem sp m) := by
  refine ⟨h.1.congr (by simp) (by simp), ?_, ?_⟩
  · simpa using h.2.cpos
  · simpa using h.2.cols

/-- CC_CPOS is put inside the line. -/
theorem rowBegun_putCpos {n : Nat} {s : State} (h : RowBegun n s) {q : Nat} (hq : q ≤ s.cc.cols.toNat) :
    RowBegun n (s.setCc { s.cc with cpos := u32 q }) ∧ (u32 q).toNat = q := by
  have hc : (u32 q).toNat = q := by
    have := s.cc.cols.isLt
    simp only [u32, BitVec.toNat_ofNat]; omega
  exact ⟨⟨h.1.congr rfl rfl, hc.trans_le hq, h.2.cols⟩, hc⟩

section Line

variable {s : State}

theorem safe_readCline {i : Nat} {Q : Int → State → Prop} (hi : i ≤ s.params.colsMax)
    (h : ∀ v : Nat, s.clineAt i = some v → Q v s) : Safe (readCline i) s Q := by
  refine safe_bind (safe_memRead (Nat.lt_succ_of_le hi) fun v hv => h v.toNat ?_)
  rw [State.clineAt, hv]
  rfl

theorem safe_lineEnd {Q : Int → State → Prop} (hl : LineInside s)
    (h : ∀ v : Nat, s.clineAt s.cc.cpos.toNat = some v → Q v s) : Safe lineEnd s Q :=
  safe_get (safe_readCline (hl.cpos.trans hl.cols) h)

/-- Ref(i) is CC_COLS beyond the reference line (R270). -/
theorem safe_refLine {i : Nat} (hl : LineInside s) :
    Safe (refLine i) s fun b t => t = s ∧ (s.cc.cols.toNat + 1 < i → b = s.columns) := by
  refine safe_get (safe_ite (fun hi => ?_) fun _ => ⟨rfl, fun _ => rfl⟩)
  exact safe_bind (safe_memRead (hl.lt_rline hi) fun v _ => ⟨rfl, fun hb => absurd hi (Nat.not_le.2 hb)⟩)

/-- CC_CPOS at an element that is CC_COLS or more. -/
theorem lineClosed_of_end {v : Nat} (hl : LineInside s) (hv : s.clineAt s.cc.cpos.toNat = some v) (hc : s.cc.cols.toNat ≤ v) :
    LineClosed s := ⟨_, le_rfl, hl.cpos, hl.cols, v, hv, hc⟩

theorem clineAt_write (i : Nat) (v : Word) : (s.setMem .cline ((s.mem .cline).write i v)).clineAt i = some v.toNat := by
  simp [State.clineAt, State.elem_setMem_write]

theorem word32_columns : (word32 s.columns).toNat = s.cc.cols.toNat := by
  have := s.cc.cols.isLt
  rw [word32_eq, State.columns, BitVec.toNat_ofInt]
  omega

end Line

/-! ## AddPix and AddPixNeg -/

section Pixels

variable {n : Nat} {s : State}

/-- What extending the line to `q` leaves; `full` says that it was to reach CC_COLS. -/
structure Extended (n : Nat) (full : Prop) (q : Nat) (t : State) : Prop where
  row : RowBegun n t
  inside : q ≤ t.cc.cols.toNat
  closed : full → t.clineAt q = some t.cc.cols.toNat

theorem safe_writeEnd {full : Prop} {q : Nat} {a : Int} (h : RowBegun n s) (hq : q ≤ s.cc.cols.toNat)
    (ha : full → a = s.columns) : Safe (writeCline q a >>= fun _ => pure q) s (Extended n full) := by
  refine safe_bind ((ends_writeCline (hq.trans h.2.cols) a _ _).2 ⟨rowBegun_setMem h _ _, hq, fun hf => ?_⟩)
  rw [ha hf, clineAt_write, word32_columns]
  rfl

theorem safe_clampColumns (h : RowBegun n s) (a1 : Int) :
    Safe (clampColumns a1) s fun a t => RowBegun n t ∧ t.cc = s.cc ∧ (s.columns ≤ a1 → a = s.columns) :=
  safe_get (safe_ite (fun _ => ⟨rowBegun_setFlags h _, rfl, fun _ => rfl⟩) fun hlt =>
    ⟨h, rfl, fun hle => Int.le_antisymm (Int.not_lt.1 hlt) hle⟩)

theorem safe_extendLine (h : RowBegun n s) {p : Nat} (hp : p ≤ s.cc.cols.toNat) (a1 : Int) (colour : Nat) :
    Safe (extendLine p a1 colour) s (Extended n (s.columns ≤ a1)) := by
  refine (safe_clampColumns h a1).bind fun a t ⟨ht, hcc, ha⟩ => safe_get ?_
  have hcol : t.columns = s.columns := by rw [State.columns, State.columns, hcc]
  rw [← hcc] at hp
  rw [← hcol] at ha ⊢
  refine safe_ite (fun _ => safe_ite (fun _ => safe_bind ?_) fun hne => ?_) fun _ => safe_writeEnd ht hp ha
  · exact safe_writeEnd (rowBegun_setFlags ht _) hp fun _ => rfl
  · exact safe_writeEnd ht (by omega) ha

/-- The line extended, and CC_CPOS moved to its end. -/
theorem safe_extendToEnd (h : RowBegun n s) (a1 : Int) (colour : Nat) :
    Safe (extendLine s.cc.cpos.toNat a1 colour >>= putCpos) s
      fun _ t => RowBegun n t ∧ (s.columns ≤ a1 → LineClosed t) := by
  refine (safe_extendLine h h.2.cpos a1 colour).bind fun q t ht => ?_
  obtain ⟨hrow, hq⟩ := rowBegun_putCpos ht.row ht.inside
  refine ⟨hrow, fun hfull => lineClosed_of_end hrow.2 (v := t.cc.cols.toNat) ?_ le_rfl⟩
  rw [State.setCc_cc, hq]
  exact ht.closed hfull

/-- AddPix leaves the row open, and closed when the pixels reach CC_COLS (R268). -/
theorem safe_addPix (h : RowBegun n s) (a1 : Int) (colour : Nat) :
    Safe (addPix a1 colour) s fun _ t => RowBegun n t ∧ (s.columns ≤ a1 → LineClosed t) := by
  refine safe_get (safe_bind (safe_lineEnd h.2 fun v hv => safe_ite (fun _ => safe_extendToEnd h a1 colour) fun hlt => ?_))
  refine ⟨h, fun hfull => lineClosed_of_end h.2 hv ?_⟩
  simp only [State.columns] at hfull
  omega

theorem runs_addPix (a1 : Int) (colour : Nat) : Runs (RowBegun n) (addPix a1 colour) :=
  fun _ h => (safe_addPix h a1 colour).weaken fun _ _ ht => ht.1

theorem safe_backUp (a1 : Int) (p : Nat) (hp : p ≤ s.params.colsMax) : Safe (backUp a1 p) s fun q t => t = s ∧ q ≤ p := by
  induction p with
  | zero => exact ⟨rfl, le_rfl⟩
  | succ p ih =>
    refine safe_bind (safe_readCline (by omega) fun v _ => safe_ite (fun _ => ?_) fun _ => ⟨rfl, le_rfl⟩)
    exact (ih (by omega)).weaken fun _ _ ht => ⟨ht.1, ht.2.trans (Nat.le_succ p)⟩

theorem safe_clampZero (h : RowBegun n s) (a1 : Int) : Safe (clampZero a1) s fun _ t => RowBegun n t ∧ t.cc = s.cc :=
  safe_ite (fun _ => ⟨rowBegun_setFlags h _, rfl⟩) fun _ => ⟨h, rfl⟩

/-- AddPixNeg walks back inside the line (R269). -/
theorem runs_addPixNeg (a1 : Int) (colour : Nat) : Runs (RowBegun n) (addPixNeg a1 colour) := by
  refine runs_get fun s h => safe_bind (safe_lineEnd h.2 fun v _ => safe_ite (fun _ => ?_) fun _ =>
    safe_ite (fun _ => ?_) fun _ => h)
  · exact (safe_extendToEnd h a1 colour).weaken fun _ _ ht => ht.1
  · refine (safe_clampZero h a1).bind fun a t ⟨ht, hcc⟩ => ?_
    rw [← hcc]
    refine (safe_backUp a _ (ht.2.cpos.trans ht.2.cols)).bind fun q u ⟨hu, hq⟩ => ?_
    subst hu
    have hin : q ≤ u.cc.cols.toNat := hq.trans ht.2.cpos
    exact safe_bind ((ends_writeCline (hin.trans ht.2.cols) a _ _).2 (rowBegun_putCpos (rowBegun_setMem ht _ _) hin).1)

/-! ## Runs and one-dimensional rows -/

theorem safe_fillRow (h : RowBegun n s) : Safe fillRow s fun _ => RowDone n :=
  safe_get ((safe_addPix h _ _).weaken fun _ _ ht => ⟨ht.1.1, ht.2 le_rfl⟩)

theorem safe_rowEof (h : RowBegun n s) : Safe rowEof s fun _ => RowDone n :=
  (safe_fillRow h).bind fun _ _ ht => rowDone_setFlags ht _

theorem safe_rowBad (h : RowBegun n s) : Safe rowBad s fun _ => RowDone n :=
  safe_bind (safe_modifyFlags ((safe_fillRow (rowBegun_setFlags h _)).bind fun _ t ht =>
    runs_brSkip keepsBr_lineClosed (by decide) (by decide) t ht))

/-- What RunLen leaves: a row cut or spoilt is done, a run took a bit. -/
def RunLeaves (n : Nat) : Option Nat → State → Prop
  | none, t => RowDone n t
  | some _, t => 0 < n ∧ RowBegun (n - 1) t

theorem RunLeaves.mono {m : Nat} {r : Option Nat} {t : State} (h : RunLeaves m r t) (hmn : m ≤ n) : RunLeaves n r t := by
  cases r with
  | none => exact InRow.mono h hmn
  | some v => exact ⟨h.1.trans_le hmn, InRow.mono h.2 (Nat.sub_le_sub_right hmn 1)⟩

/-- Every code takes a bit, so fuel beyond the bits left is enough (R271). -/
theorem safe_runLenFrom (colour fuel : Nat) : ∀ {n : Nat} {s : State} (total : Nat), RowBegun n s → n < fuel →
    Safe (runLenFrom colour fuel total) s (RunLeaves n) := by
  induction fuel with
  | zero => intros; omega
  | succ fuel ih =>
    intro n s total h hn
    refine (safe_matchRunCode keepsBr_lineInside colour h).bind fun r t ⟨ht, hok⟩ => ?_
    cases r with
    | eof => exact (safe_rowEof ht).bind fun _ _ hu => hu
    | bad => exact (safe_rowBad ht).bind fun _ _ hu => hu
    | ok v =>
      obtain ⟨hpos, ht⟩ := hok v rfl
      exact safe_ite (fun _ => ⟨hpos, ht⟩) fun _ => (ih _ ht (by omega)).weaken fun _ _ hu => hu.mono (Nat.sub_le n 1)

theorem safe_runLen (h : RowBegun n s) (colour : Nat) : Safe (runLen colour) s (RunLeaves n) :=
  safe_get ((safe_runLenFrom colour _ 0 h.self (Nat.lt_succ_self _)).weaken fun _ _ ht => ht.mono h.1.bits)

/-- Every round of DecodeRow1D takes a bit or ends the row (R273). -/
theorem safe_row1DLoop (fuel : Nat) : ∀ {n : Nat} {s : State} (colour : Nat), RowBegun n s → n < fuel →
    Safe (row1DLoop fuel colour) s fun _ => RowDone n := by
  induction fuel with
  | zero => intros; omega
  | succ fuel ih =>
    intro n s colour h hn
    refine safe_get (safe_bind (safe_lineEnd h.2 fun v hv => safe_ite (fun _ => ?_) fun hend => ?_))
    · refine (safe_runLen h colour).bind fun r t ht => ?_
      cases r with
      | none => exact ht
      | some total =>
        obtain ⟨hpos, ht⟩ := ht
        refine safe_bind (safe_lineEnd ht.2 fun w _ => (runs_addPix _ _ t ht).bind fun _ u hu => ?_)
        exact (ih _ hu (by omega)).weaken fun _ _ hd => InRow.mono hd (Nat.sub_le n 1)
    · refine ⟨h.1, lineClosed_of_end h.2 hv ?_⟩
      simpa [State.columns] using hend

/-- A row begins at pixel 0. -/
theorem safe_startRow {p : Proc Unit} {Q : Unit → State → Prop} (h : RowBegun n s) (hp : ∀ t, RowBegun n t → Safe p t Q) :
    Safe (writeCline 0 0 >>= fun _ => putCpos 0 >>= fun _ => p) s Q :=
  safe_bind ((ends_writeCline (Nat.zero_le _) 0 _ _).2
    (safe_bind (hp _ (rowBegun_putCpos (rowBegun_setMem h _ _) (Nat.zero_le _)).1)))

theorem safe_decodeRow1D (h : RowBegun n s) : Safe decodeRow1D s fun _ => RowDone n :=
  safe_startRow h fun t ht => safe_get
    ((safe_row1DLoop _ 0 ht.self (by omega)).weaken fun _ _ hd => InRow.mono hd ht.1.bits)

end Pixels

end Sys2Proof.Machine
end

section
/-! O23, two-dimensional rows, what follows a row in the stream, and the CCITT commands: every hunt takes a bit a round, and
the walk along a decoded row stops at its last element (43_ccitt.md R272, R274 to R279). -/

namespace Sys2Proof.Machine

section Rows

variable {n : Nat} {s : State}

/-! ## Two-dimensional rows -/

theorem runs_refLine (i : Nat) : Runs (RowBegun n) (refLine i) := fun _ h =>
  (safe_refLine h.2).weaken fun _ _ ht => ht.1 ▸ h

/-- The reference line that the row leaves behind is copied up to its closing element. -/
theorem safe_copyLine {k : Nat} (fuel : Nat) : ∀ (i : Nat) (s : State), InRow n (LineClosedAt k) s → i ≤ k → k < i + fuel →
    Safe (copyLine fuel i) s fun _ t => RowBegun n t ∧ t.cc = s.cc := by
  induction fuel with
  | zero => intros; omega
  | succ fuel ih =>
    intro i s h hi hk
    obtain ⟨hb, hline⟩ := h
    have hin := hline.inside
    have hcols := hline.cols
    refine safe_get (safe_bind (safe_readCline (by omega) fun v hv => safe_ite (fun hlt => ?_) fun _ => ?_))
    · have hne := hline.ne_of_lt hv hlt
      refine safe_bind (safe_memWrite (hline.lineInside.lt_rline (by omega)) (ih (i + 1) _ ⟨?_, ?_⟩ (by omega) (by omega)))
      · exact hb.congr rfl rfl
      · exact ⟨hline.cpos, hline.inside, hline.cols, hline.closed⟩
    · exact ⟨⟨hb, hline.lineInside⟩, rfl⟩

theorem safe_terminateLine (m : Nat) : ∀ (j : Nat) (s : State), RowBegun n s → m ≤ s.cc.cols.toNat + 2 - j →
    Safe (terminateLine m j) s fun _ => RowBegun n := by
  induction m with
  | zero => exact fun _ _ h _ => h
  | succ m ih =>
    intro j s h hm
    refine safe_get (safe_bind (safe_memWrite (h.2.lt_rline (by omega)) (ih _ _ (rowBegun_setMem h _ _) ?_)))
    rw [State.setMem_cc]
    omega

/-- Adv goes two elements on a round and stops at CC_COLS beyond the line (R274). -/
theorem safe_advanceRef (fuel : Nat) : ∀ rp, s.cc.cols.toNat + 1 < rp + fuel → RowBegun n s →
    Safe (advanceRef (fuel + 1) rp) s fun _ => RowBegun n := by
  induction fuel with
  | zero =>
    intro rp hrp h
    refine safe_get ((safe_refLine h.2).bind fun b t ⟨ht, hb⟩ => ?_)
    subst ht
    exact safe_bind (safe_lineEnd h.2 fun v _ => safe_ite (fun hc => absurd (hb hrp) hc.2.ne) fun _ => h)
  | succ fuel ih =>
    intro rp hrp h
    refine safe_get ((safe_refLine h.2).bind fun b t ⟨ht, _⟩ => ?_)
    subst ht
    exact safe_bind (safe_lineEnd h.2 fun v _ => safe_ite (fun _ => ih (rp + 2) (by omega) h) fun _ => h)

theorem runs_adv (rp : Nat) : Runs (RowBegun n) (adv rp) := runs_get fun _ h => safe_advanceRef _ rp (by omega) h

/-- The coding line is full, or still open. -/
theorem safe_rowOpen (h : RowBegun n s) : Safe rowOpen s fun more t => RowBegun n t ∧ (more = false → RowDone n t) := by
  refine safe_get (safe_bind (safe_lineEnd h.2 fun v hv => ⟨h, fun hend => ⟨h.1, lineClosed_of_end h.2 hv ?_⟩⟩))
  simpa [State.columns] using hend

theorem runs_rowOpen : Runs (RowBegun n) rowOpen := fun _ h => (safe_rowOpen h).weaken fun _ _ ht => ht.1

theorem runs_lineEnd : Runs (RowBegun n) lineEnd := fun _ h => safe_lineEnd h.2 fun _ _ => h

theorem runs_modePass (rp colour : Nat) : Runs (RowBegun n) (modePass rp colour) :=
  runs_get fun s h => runs_bind (runs_refLine _) (fun _ => runs_bind (runs_addPix _ _) fun _ => runs_pure _) s h

/-- Both runs take a bit (R274). -/
theorem safe_modeHorizontal (h : RowBegun n s) (rp colour : Nat) : Safe (modeHorizontal rp colour) s (RunLeaves n) := by
  refine (safe_runLen h _).bind fun r1 t ht => ?_
  cases r1 with
  | none => exact ht
  | some t1 =>
    obtain ⟨hpos, ht⟩ := ht
    refine (safe_runLen ht _).bind fun r2 u hu => ?_
    cases r2 with
    | none => exact InRow.mono hu (Nat.sub_le n 1)
    | some t2 =>
      have hu : RowBegun (n - 1) u := InRow.mono hu.2 (Nat.sub_le _ 1)
      refine (runs_lineEnd u hu).bind fun e v hv => (runs_addPix _ _ v hv).bind fun _ v hv => ?_
      refine (runs_rowOpen v hv).bind fun more v hv => ?_
      refine Safe.bind (R := fun _ => RowBegun (n - 1)) (safe_ite (fun _ => ?_) fun _ => hv) fun _ w hw => ?_
      · exact runs_bind runs_lineEnd (fun _ => runs_addPix _ _) v hv
      · exact (runs_adv rp w hw).bind fun rp' x hx => ⟨hpos, hx⟩

theorem runs_modeRight (d rp colour : Nat) : Runs (RowBegun n) (modeRight d rp colour) :=
  runs_bind (runs_refLine _) fun _ => runs_bind (runs_addPix _ _) fun _ => runs_bind runs_rowOpen fun _ =>
    runs_ite _ (runs_adv _) (runs_pure _)

theorem runs_modeLeft (d rp colour : Nat) : Runs (RowBegun n) (modeLeft d rp colour) :=
  runs_bind (runs_refLine _) fun _ => runs_bind (runs_addPixNeg _ _) fun _ => runs_bind runs_rowOpen fun _ =>
    runs_ite _ (runs_adv _) (runs_pure _)

/-- Every round of DecodeRow2D takes a bit or ends the row (R274). -/
theorem safe_row2DLoop (fuel : Nat) : ∀ {n : Nat} {s : State} (rp colour : Nat), RowBegun n s → n < fuel →
    Safe (row2DLoop fuel rp colour) s fun _ => RowDone n := by
  induction fuel with
  | zero => intros; omega
  | succ fuel ih =>
    intro n s rp colour h hn
    -- one mode, then the rest of the row with a bit less
    have next : ∀ {p : Proc Nat} {t : State} (c : Nat), Runs (RowBegun (n - 1)) p → 0 < n → RowBegun (n - 1) t →
        Safe (p >>= fun rp' => row2DLoop fuel rp' c) t fun _ => RowDone n := fun c hp hpos ht =>
      (hp _ ht).bind fun rp' u hu => (ih rp' c hu (by omega)).weaken fun _ _ hd => InRow.mono hd (Nat.sub_le n 1)
    refine (safe_rowOpen h).bind fun more t ⟨ht, hdone⟩ => safe_ite (fun _ => ?_) fun hm => hdone (by simpa using hm)
    refine (safe_matchModeCode keepsBr_lineInside ht).bind fun m t ⟨ht, hok⟩ => ?_
    match m, hok with
    | .eof, _ => exact safe_rowEof ht
    | .bad, _ => exact safe_rowBad ht
    | .ok .pass, hok => exact next colour (runs_modePass _ _) (hok _ rfl).1 (hok _ rfl).2
    | .ok .horizontal, hok =>
      obtain ⟨hpos, ht⟩ := hok _ rfl
      refine (safe_modeHorizontal ht rp colour).bind fun r u hu => ?_
      cases r with
      | none => exact InRow.mono hu (Nat.sub_le n 1)
      | some rp' =>
        refine (ih rp' colour (InRow.mono hu.2 (Nat.sub_le _ 1)) (by omega)).weaken fun _ _ hd => ?_
        exact InRow.mono hd (Nat.sub_le n 1)
    | .ok (.right d), hok => exact next (1 - colour) (runs_modeRight _ _ _) (hok _ rfl).1 (hok _ rfl).2
    | .ok (.left d), hok => exact next (1 - colour) (runs_modeLeft _ _ _) (hok _ rfl).1 (hok _ rfl).2

theorem safe_decodeRow2D (h : RowDone n s) : Safe decodeRow2D s fun _ => RowDone n := by
  obtain ⟨k, hk⟩ := h.2
  have hin := hk.inside
  have hcols := hk.cols
  have hself : InRow s.bitsLeft (LineClosedAt k) s := ⟨h.1.self, hk⟩
  refine safe_get ((safe_copyLine _ 0 s hself (Nat.zero_le k) (by omega)).bind fun i t ⟨ht, hcc⟩ => ?_)
  refine (safe_terminateLine _ i t ht (by rw [hcc])).bind fun _ u hu => safe_startRow hu fun v hv => ?_
  exact (safe_row2DLoop _ 0 0 hv (by omega)).weaken fun _ _ hd => InRow.mono hd h.1.bits

/-! ## Between rows: the stream -/

/-- Peek and Skip after a row. -/
theorem safe_done_brPeek {k : Nat} (hk : k ≤ 16) (h : RowDone n s) :
    Safe (brPeek k) s fun v t => RowDone n t ∧ (v ≠ eofv → 0 < n) := safe_row_brPeek keepsBr_lineClosed hk h

theorem runs_done_brSkip {k : Nat} (hk0 : 1 ≤ k) (hk : k ≤ 16) : Runs (RowDone n) (brSkip k) :=
  runs_brSkip keepsBr_lineClosed hk0 hk

/-- A round of a hunt: a bit is skipped while one is left, and the hunt goes on with less. -/
theorem safe_huntOn {α : Type} {p : Proc α} {Q : α → State → Prop} (h : RowDone n s)
    (hp : ∀ t, RowDone (n - 1) t → Safe p t Q) : Safe (brSkip 1 >>= fun _ => p) s Q :=
  (safe_row_brSkip keepsBr_lineClosed le_rfl (by decide) h).bind fun _ t ht => hp t ht

theorem safe_skipZeros (fuel : Nat) : ∀ {n : Nat} {s : State}, RowDone n s → n < fuel →
    Safe (skipZeros fuel) s fun _ => RowDone n := by
  induction fuel with
  | zero => intros; omega
  | succ fuel ih =>
    intro n s h hn
    refine (safe_done_brPeek (by decide) h).bind fun v t ⟨ht, hpos⟩ => safe_ite (fun hv => ?_) fun _ => ht
    have hpos := hpos (hv ▸ by decide)
    exact safe_huntOn ht fun u hu => (ih hu (by omega)).weaken fun _ _ hd => InRow.mono hd (Nat.sub_le n 1)

theorem safe_huntEol (fuel : Nat) : ∀ {n : Nat} {s : State}, RowDone n s → n < fuel →
    Safe (huntEol fuel) s fun _ => RowDone n := by
  induction fuel with
  | zero => intros; omega
  | succ fuel ih =>
    intro n s h hn
    refine (safe_done_brPeek (by decide) h).bind fun v t ⟨ht, hpos⟩ => safe_ite (fun hv => ?_) fun _ => ht
    have hpos := hpos hv.1
    exact safe_huntOn ht fun u hu => (ih hu (by omega)).weaken fun _ _ hd => InRow.mono hd (Nat.sub_le n 1)

theorem safe_resyncLoop (fuel : Nat) : ∀ {n : Nat} {s : State}, RowDone n s → n < fuel →
    Safe (resyncLoop fuel) s fun _ => RowDone n := by
  induction fuel with
  | zero => intros; omega
  | succ fuel ih =>
    intro n s h hn
    refine (safe_done_brPeek (by decide) h).bind fun v t ⟨ht, hpos⟩ => ?_
    refine safe_ite (fun _ => rowDone_setFlags ht _) fun heof => safe_ite (fun _ => ht) fun _ => ?_
    have hpos := hpos heof
    exact safe_huntOn ht fun u hu => (ih hu (by omega)).weaken fun _ _ hd => InRow.mono hd (Nat.sub_le n 1)

/-- CCITT registers set that are neither CC_CPOS nor CC_COLS. -/
theorem lineClosed_setCc {c : CcUnit} (h : LineClosed s) (hcpos : c.cpos = s.cc.cpos) (hcols : c.cols = s.cc.cols) :
    LineClosed (s.setCc c) := by
  obtain ⟨k, hk⟩ := h
  exact ⟨k, hcpos ▸ hk.cpos, hcols ▸ hk.inside, hcols ▸ hk.cols, hcols ▸ hk.closed⟩

theorem runs_putNext2d (v : Nat) : Runs (RowDone n) (putNext2d v) := fun _ h =>
  ⟨h.1.congr rfl rfl, lineClosed_setCc h.2 rfl rfl⟩

theorem runs_done_flagEof : Runs (RowDone n) flagEof := fun _ h => rowDone_setFlags h _

theorem runs_readTag : Runs (RowDone n) readTag := fun _ h =>
  (safe_done_brPeek (by decide) h).bind fun _ t ht =>
    runs_bind (runs_putNext2d _) (fun _ => runs_done_brSkip le_rfl (by decide)) t ht.1

theorem runs_skipTag : Runs (RowDone n) skipTag :=
  runs_get fun s => runs_ite _ (runs_done_brSkip le_rfl (by decide)) (runs_pure _) s

theorem runs_eolCode : Runs (RowDone n) eolCode := runs_get fun _ h => safe_ite
  (fun _ => (safe_huntEol _ h.self (Nat.lt_succ_self _)).weaken fun _ _ ht => InRow.mono ht h.1.bits)
  fun _ => (safe_skipZeros _ h.self (Nat.lt_succ_self _)).weaken fun _ _ ht => InRow.mono ht h.1.bits

theorem runs_findEol : Runs (RowDone n) findEol :=
  runs_bind runs_eolCode fun _ => runs_ite _ (runs_bind (runs_done_brSkip (by decide) (by decide)) fun _ => runs_pure _)
    (runs_ite _ (runs_bind runs_done_flagEof fun _ => runs_pure _) (runs_pure _))

theorem runs_rowEnd : Runs (RowDone n) rowEnd :=
  runs_get fun s h => runs_ite _ (runs_bind runs_done_flagEof fun _ => runs_pure _) runs_findEol s h

theorem runs_skipEols (m : Nat) : Runs (RowDone n) (skipEols m) := by
  induction m with
  | zero => exact runs_pure _
  | succ m ih => exact runs_bind (runs_done_brSkip (by decide) (by decide)) fun _ => runs_bind runs_skipTag fun _ => ih

theorem runs_endOfBlock : Runs (RowDone n) endOfBlock := by
  refine runs_get fun s h => (safe_done_brPeek (by decide) h).bind fun v t ht => runs_ite _ ?_ (runs_pure _) t ht.1
  refine runs_bind (runs_done_brSkip (by decide) (by decide)) fun _ => runs_bind runs_skipTag fun _ => ?_
  exact runs_bind (runs_ite _ (runs_skipEols _) (runs_pure _)) fun _ => runs_done_flagEof

theorem runs_resync : Runs (RowDone n) resync := by
  refine runs_get fun s h => (safe_resyncLoop _ h.self (Nat.lt_succ_self _)).bind fun r t ht => safe_get ?_
  have ht : RowDone n t := InRow.mono ht h.1.bits
  cases r with
  | none => exact ht
  | some code =>
    refine runs_ite _ (runs_pure _) (runs_bind (runs_done_brSkip (by decide) (by decide)) fun _ => ?_) t ht
    refine runs_ite _ ?_ (runs_pure _)
    exact runs_bind (runs_done_brSkip le_rfl (by decide)) fun _ => runs_putNext2d _

theorem runs_brAlignPlain : Runs (RowDone n) brAlignPlain := by
  intro s h
  obtain ⟨hw, hc⟩ := h.1.window.keep (Nat.sub_le s.br.cnt.toNat (s.br.cnt.toNat % 8))
  refine ⟨⟨hw, h.1.mode, ?_⟩, keepsBr_lineClosed _ _ h.2⟩
  have hbits := h.1.bits
  simp only [State.bitsLeft] at hbits
  show 8 * (s.br.endIdx.toNat - s.br.pos.toNat) + (s.br.keep _).cnt.toNat ≤ n
  rw [hc]
  omega

/-! ## Between rows: the line -/

/-- NextRun stops at the closing element at the latest (R279). -/
theorem safe_nextRunLoop {k : Nat} (fuel : Nat) : ∀ s : State, LineClosedAt k s → k < s.cc.cpos.toNat + fuel →
    Safe (nextRunLoop fuel) s fun _ => LineClosed := by
  induction fuel with
  | zero => intro s h hk; have := h.cpos; omega
  | succ fuel ih =>
    intro s h hk
    refine safe_get (safe_ite (fun _ => ?_) fun _ => ⟨k, h⟩)
    refine safe_bind (safe_lineEnd h.lineInside fun v hv => safe_ite (fun hlt => safe_bind ?_) fun _ => ⟨k, h⟩)
    have hcpos := h.cpos
    have hin := h.inside
    have hne := h.ne_of_lt hv hlt
    have hc : (u32 (s.cc.cpos.toNat + 1)).toNat = s.cc.cpos.toNat + 1 := by
      have := s.cc.cols.isLt
      simp only [u32, BitVec.toNat_ofNat]; omega
    have hnext : LineClosedAt k (s.setCc { s.cc with cpos := u32 (s.cc.cpos.toNat + 1) }) :=
      ⟨hc.trans_le (by omega), h.inside, h.cols, h.closed⟩
    refine safe_bind (safe_lineEnd hnext.lineInside fun e _ => safe_bind (ih _ ?_ ?_))
    · exact ⟨hnext.cpos, hnext.inside, hnext.cols, hnext.closed⟩
    · show k < (u32 (s.cc.cpos.toNat + 1)).toNat + fuel
      omega

theorem runs_nextRun : Runs LineClosed nextRun := runs_get fun s ⟨_, hk⟩ =>
  safe_nextRunLoop _ s hk (by have := hk.inside; have := hk.cols; omega)

/-- Registers of the row set, but neither CC_CPOS nor CC_COLS. -/
theorem safe_closed_modifyCc {f : CcUnit → CcUnit} (hf : ∀ c, (f c).cpos = c.cpos ∧ (f c).cols = c.cols) (h : LineClosed s) :
    Safe (modifyCc f) s fun _ => LineClosed := safe_modifyCc (lineClosed_setCc h (hf s.cc).1 (hf s.cc).2)

/-- The row is output from its first run on. -/
theorem runs_rewind : Runs LineClosed (putCpos 0) := fun _ ⟨k, hk⟩ =>
  safe_modifyCc ⟨k, Nat.zero_le k, hk.inside, hk.cols, hk.closed⟩

theorem safe_postRow (h : RowDone n s) : Safe postRow s fun _ => LineClosed := by
  refine safe_get ((runs_ite _ runs_brAlignPlain (runs_pure _) s h).bind fun _ t ht => ?_)
  refine (runs_rowEnd t ht).bind fun gotEol t ht => safe_get ?_
  refine (runs_ite _ runs_readTag (runs_pure _) t ht).bind fun _ u hu => ?_
  refine (runs_ite _ runs_endOfBlock (runs_ite _ runs_resync (runs_pure _)) u hu).bind fun _ v hv => ?_
  refine (runs_rewind v hv.2).bind fun _ v hv => safe_bind (safe_readCline (Nat.zero_le _) fun e _ => ?_)
  generalize word32 (e : Int) = w
  refine Safe.bind (safe_closed_modifyCc (fun _ => ⟨rfl, rfl⟩) hv) fun _ x hx => (runs_nextRun x hx).bind fun _ y hy => ?_
  exact safe_closed_modifyCc (fun _ => ⟨rfl, rfl⟩) hy

/-! ## The commands -/

theorem safe_decodeRow (h : RowDone n s) : Safe decodeRow s fun _ => LineClosed := by
  have h := rowDone_setFlags h { s.flags with ccErr := false }
  refine safe_bind (safe_modifyFlags (safe_get (Safe.bind (R := fun _ => RowDone n) ?_ fun _ t ht => safe_postRow ht)))
  exact safe_ite (fun _ => safe_decodeRow2D h) fun _ => safe_decodeRow1D h.rowBegun

theorem runs_serveBits (fuel : Nat) : ∀ bits b, Runs LineClosed (serveBits fuel bits b) := by
  induction fuel with
  | zero => exact fun _ _ => runs_pure _
  | succ fuel ih =>
    refine fun bits b => runs_ite _ (runs_pure _) (runs_get fun s h => ?_)
    refine Safe.bind (safe_closed_modifyCc (fun _ => ⟨rfl, rfl⟩) h) fun _ t ht => safe_ite (fun _ => ?_) fun _ => ih _ _ t ht
    exact (runs_nextRun t ht).bind fun _ u hu => safe_get (safe_ite (fun _ => hu) fun _ => ih _ _ u hu)

theorem runs_servePixels : Runs LineClosed servePixels := by
  refine runs_get fun s h => safe_ite (fun _ => ?_) fun _ => runs_serveBits _ _ _ s h
  exact Safe.bind (safe_closed_modifyCc (fun _ => ⟨rfl, rfl⟩) h) fun _ t ht => (runs_nextRun t ht).bind fun _ _ hu => hu

theorem safe_serveByte (h : LineClosed s) : Safe serveByte s fun _ _ => True :=
  (runs_servePixels s h).bind fun _ _ _ => trivial

/-- What R278 (a) says between commands closes the line. -/
theorem CcInv.lineClosed (h : CcInv s) (hr : s.flags.ccRdy = true) (hf : s.flags.fault = false) : LineClosed s := by
  obtain ⟨-, hcols, ⟨k, hcpos, hin, hend, -⟩, -⟩ := h hr hf
  exact ⟨k, hcpos, hin, hcols, _, hend, le_rfl⟩

theorem safe_ccittReadbyteBody (hb : BrInv s) (hc : CcInv s) (hf : s.flags.fault = false) :
    Safe ccittReadbyteBody s fun _ _ => True := by
  refine safe_bind (safe_needReady fun hr => safe_get (safe_bind (safe_check fun hm => ?_)))
  obtain ⟨hcc, hbr⟩ : s.flags.ccRdy = true ∧ s.flags.brRdy = true := by simpa [ReadyUnit.ready] using hr
  have hm : s.br.mode = .plain := by simpa using hm
  have hline := CcInv.lineClosed hc hcc hf
  have hrow : RowDone s.bitsLeft s := ⟨⟨BrInv.brWindow hb hbr, hm, le_rfl⟩, hline⟩
  refine safe_ite (fun _ => safe_ite (fun _ => trivial) fun _ => ?_) fun _ => safe_serveByte hline
  exact (safe_decodeRow hrow).bind fun _ _ ht => safe_serveByte ht

theorem safe_openRows (kmode : Nat) (h : RowDone n s) : Safe (openRows kmode) s fun _ => RowDone n := by
  refine safe_get ((safe_skipZeros _ h.self (Nat.lt_succ_self _)).bind fun code t ht => ?_)
  refine (runs_ite _ (runs_done_brSkip (by decide) (by decide)) (runs_pure _) t (InRow.mono ht h.1.bits)).bind fun _ u hu => ?_
  refine (safe_done_brPeek (by decide) hu).bind fun v w hw => ?_
  exact runs_ite _ runs_done_flagEof (runs_ite _ runs_readTag (runs_pure _)) w hw.1

/-- The registers of CCITT.INIT before it makes the line white: `w` columns, CC_CPOS at 0, a window of `n` bits (R272). -/
structure CcittOpened (n : Nat) (w : Word) (s : State) : Prop where
  bits : BitsAtMost n s
  cols : s.cc.cols = w
  fits : w.toNat ≤ s.params.colsMax
  cpos : s.cc.cpos.toNat = 0

/-- A window inside STREAM is opened in PLAIN mode. -/
theorem safe_brOpen_plain (hpos : s.arg0.toNat ≤ s.arg1.toNat) (hend : s.arg1.toNat ≤ s.params.streamSize) :
    Safe (brOpen .plain) s fun _ t => BitsAtMost (8 * (s.arg1.toNat - s.arg0.toNat)) t ∧ t.params = s.params :=
  safe_get (safe_bind (safe_modifyBr (safe_modifyFlags ⟨⟨⟨Nat.zero_le _, hpos, hend⟩, rfl, le_rfl⟩, rfl⟩)))

/-- The white line: CLINE[0] is CC_COLS. -/
theorem safe_whiteLine {w : Word} (h : CcittOpened n w s) : Safe (writeCline 0 w.toNat) s fun _ => RowDone n := by
  have hv : ((w.toNat : Nat) : Int) = s.columns := by rw [State.columns, h.cols]
  rw [hv]
  refine (ends_writeCline (Nat.zero_le _) _ _ _).2 ⟨h.bits.congr rfl rfl, 0, h.cpos.le, Nat.zero_le _, h.cols ▸ h.fits, ?_⟩
  exact ⟨_, clineAt_write 0 _, word32_columns.ge⟩

theorem safe_ccittInitBody (kmode : Nat) (eoline balign eoblock black1 : Bool) (s : State) :
    Safe (ccittInitBody kmode eoline balign eoblock black1) s fun _ _ => True := by
  refine safe_bind (safe_check fun _ => safe_bind (safe_checkWindow fun hpos hend => safe_get ?_))
  refine safe_bind (safe_check fun hw => ?_)
  have hcols : s.arg2.toNat ≤ s.params.colsMax := by
    have := of_decide_eq_false hw
    omega
  refine (safe_brOpen_plain hpos hend).bind fun _ t ⟨hbits, hpar⟩ => ?_
  refine Safe.bind (R := fun _ => CcittOpened _ s.arg2)
    (safe_modifyCc ⟨hbits.congr rfl rfl, rfl, hpar ▸ hcols, rfl⟩) fun _ t ht => ?_
  refine Safe.bind (R := fun _ => CcittOpened _ s.arg2)
    (safe_modifyFlags ⟨ht.bits.congr rfl rfl, ht.cols, ht.fits, ht.cpos⟩) fun _ t ht => ?_
  exact (safe_whiteLine ht).bind fun _ t ht => (safe_openRows kmode ht).bind fun _ _ _ => trivial

end Rows

end Sys2Proof.Machine
end

section
/-! O23: every command, from a state with the invariants, completes or takes a fault (00_scope.md R10, 20_memory.md R75,
70_reset_and_hazards.md R432). -/

namespace Sys2Proof.Machine

/-- A command has a next state when its body is not refused. -/
theorem exec_next_of_safe {i : Instr} {p : Proc Unit} {s : State} {Q : Unit → State → Prop} (hi : exec i s = runCommand p s)
    (h : Safe p s Q) : ∃ t, exec i s = .next t := hi ▸ runCommand_of_safe h

/-- Settles O23: the body of each command reaches only elements of its spaces, and each of its loops ends, by the invariant of
its unit. -/
theorem everyCommandEnds : Obligations.EveryCommandEnds := by
  intro i s hinv hfault
  obtain ⟨-, -, hmq, hbr, -, hhuf, -, hcc⟩ := hinv
  cases i with
  | sysNop => exact ⟨s, rfl⟩
  | sysReset => exact ⟨resetRegisters s, rfl⟩
  | mqInit => exact exec_next_of_safe rfl (safe_mqInitBody s)
  | mqReadbit cxi => exact exec_next_of_safe rfl (safe_mqReadbitBody cxi hmq)
  | brInit mode => exact exec_next_of_safe rfl (safe_brInitBody mode s)
  | brReadbits n => exact exec_next_of_safe rfl (safe_brReadbitsBody n hbr)
  | brPeekbits n => exact exec_next_of_safe rfl (safe_brPeekbitsBody n hbr)
  | brSkipbits n => exact exec_next_of_safe rfl (safe_brSkipbitsBody n hbr)
  | brAlign => exact exec_next_of_safe rfl (safe_brAlignBody s)
  | brPeekmarker mark => exact exec_next_of_safe rfl (safe_brPeekmarkerBody mark hbr)
  | brSkipbytes => exact exec_next_of_safe rfl (safe_brSkipbytesBody s)
  | hufInit => exact exec_next_of_safe rfl (safe_hufInitBody s)
  | hufLoadtable c id => exact exec_next_of_safe rfl (safe_hufLoadtableBody c id s)
  | hufScancfg ss se al => exact exec_next_of_safe rfl (safe_hufScancfgBody ss se al s)
  | hufRestart => exact exec_next_of_safe rfl (safe_hufRestartBody s)
  | hufDecode c id => exact exec_next_of_safe rfl (safe_hufDecodeBody c id hhuf)
  | hufReceive n => exact exec_next_of_safe rfl (safe_hufReceiveBody n hhuf)
  | hufExtend n => exact exec_next_of_safe rfl (safe_hufExtendBody n hhuf)
  | hufBlockBaseline dct act comp => exact exec_next_of_safe rfl (safe_hufBlockBaselineBody dct act comp hhuf)
  | hufDcFirst dct comp => exact exec_next_of_safe rfl (safe_hufDcFirstBody dct comp hhuf)
  | hufDcRefine => exact exec_next_of_safe rfl (safe_hufDcRefineBody hhuf)
  | hufAcFirst act => exact exec_next_of_safe rfl (safe_hufAcFirstBody act hhuf)
  | hufAcRefine act => exact exec_next_of_safe rfl (safe_hufAcRefineBody act hhuf)
  | ccittInit kmode eoline balign eoblock black1 =>
    exact exec_next_of_safe rfl (safe_ccittInitBody kmode eoline balign eoblock black1 s)
  | ccittReadbyte => exact exec_next_of_safe rfl (safe_ccittReadbyteBody hbr hcc hfault)
  | idctBlock qti => exact exec_next_of_safe rfl (safe_idctBlockBody qti s)
  | iwtSr1d f phase => exact exec_next_of_safe rfl (safe_iwtSr1dBody f phase s)
  | iwtSr2d f phaseu phasev => exact exec_next_of_safe rfl (safe_iwtSr2dBody f phaseu phasev s)

end Sys2Proof.Machine
end

section
/-! O14, O15: which registers a command changes. A register that no shared update touches is changed by the commands of its own
unit only; no update touches the operands (10_state.md R21, R25 to R32, 30_encoding.md R101). -/

namespace Sys2Proof.Machine

/-- A view of the state that taking a fault, the flags, RES and the memory spaces are not part of. -/
structure RegisterView {α : Type} (g : State → α) : Prop where
  fault : ∀ s f info, g (takeFault f info s) = g s
  flags : ∀ s f, g (s.setFlags f) = g s
  res : ∀ s v, g (s.setRes v) = g s
  mem : ∀ s (sp : Space) m, g (s.setMem sp m) = g s

/-- A command changes a register view only when a unit whose registers the view holds runs it, or it is SYS.RESET. -/
theorem exec_registerView {α : Type} {g : State → α} (hg : RegisterView g) {i : Instr} {s t : State} (he : exec i s = .next t)
    (hi : i ≠ .sysReset) (hmq : unitOfInstr i = 1 → ∀ u m, g (u.setMq m) = g u)
    (hbr : unitOfInstr i = 2 ∨ unitOfInstr i = 4 → ∀ u m, g (u.setBr m) = g u)
    (hhuf : unitOfInstr i = 3 →
      ∀ u, (∀ m, g (u.setHuf m) = g u) ∧ (∀ m, g (u.setHt m) = g u) ∧ ∀ k, g (u.setFreeCtr k) = g u)
    (hcc : unitOfInstr i = 4 → ∀ u m, g (u.setCc m) = g u) : g t = g s := by
  refine exec_keeps (I := fun u => g u = g s) i s t he rfl (fun u f info h => (hg.fault u f info).trans h)
    (fun h => absurd h hi) (fun hu u m h => (hmq hu u m).trans h) (fun hu u m h => (hbr hu u m).trans h)
    (fun hu => ⟨fun u m h => ((hhuf hu u).1 m).trans h, fun u m h => ((hhuf hu u).2.1 m).trans h,
      fun u k h => ((hhuf hu u).2.2 k).trans h⟩)
    (fun hu u m h => (hcc hu u m).trans h) (fun u f _ h => (hg.flags u f).trans h) (fun _ u v h => (hg.res u v).trans h)
    fun sp _ u a v h _ => (hg.mem u sp _).trans h

theorem registerView_mq : RegisterView State.mq := ⟨fun _ _ _ => rfl, fun _ _ => rfl, fun _ _ => rfl, State.setMem_mq⟩

theorem registerView_br : RegisterView State.br := ⟨fun _ _ _ => rfl, fun _ _ => rfl, fun _ _ => rfl, State.setMem_br⟩

theorem registerView_cc : RegisterView State.cc := ⟨fun _ _ _ => rfl, fun _ _ => rfl, fun _ _ => rfl, State.setMem_cc⟩

theorem registerView_huf : RegisterView fun s => (s.huf, s.ht) :=
  ⟨fun _ _ _ => rfl, fun _ _ => rfl, fun _ _ => rfl, fun s sp m => by simp⟩

/-- Settles O14: the registers of a unit are a view that no other unit's updates touch. -/
theorem unitRegistersOwned : Obligations.UnitRegistersOwned := by
  intro i s t he hi
  refine ⟨fun h1 => ?_, fun h2 h4 => ?_, fun h3 => ?_, fun h4 => ?_⟩
  · exact exec_registerView registerView_mq he hi (fun h => absurd h h1) (fun _ _ _ => rfl)
      (fun _ _ => ⟨fun _ => rfl, fun _ => rfl, fun _ => rfl⟩) fun _ _ _ => rfl
  · exact exec_registerView registerView_br he hi (fun _ _ _ => rfl) (fun h => (h.elim h2 h4).elim)
      (fun _ _ => ⟨fun _ => rfl, fun _ => rfl, fun _ => rfl⟩) fun _ _ _ => rfl
  · exact Prod.mk.inj (exec_registerView registerView_huf he hi (fun _ _ _ => rfl) (fun _ _ _ => rfl)
      (fun h => absurd h h3) fun _ _ _ => rfl)
  · exact exec_registerView registerView_cc he hi (fun _ _ _ => rfl) (fun _ _ _ => rfl)
      (fun _ _ => ⟨fun _ => rfl, fun _ => rfl, fun _ => rfl⟩) fun h => absurd h h4

/-- CMD, the operands, and the model's own fields that a command finds. -/
def State.operands (s : State) : (Word × Params × List HostOp × Word) × Word × Word × Word × Word :=
  ((s.cmd, s.params, s.pending, s.portData), s.arg0, s.arg1, s.arg2, s.arg3)

theorem registerView_operands : RegisterView State.operands :=
  ⟨fun _ _ _ => rfl, fun _ _ => rfl, fun _ _ => rfl, fun s sp m => by simp [State.operands]⟩

/-- Settles O15: the operands are a view that no unit's updates touch, and SYS.RESET clears ARG0 to ARG3 alone. -/
theorem operandsKept : Obligations.OperandsKept := by
  intro i s t he
  by_cases hi : i = .sysReset
  · subst hi
    cases he
    exact ⟨rfl, rfl, rfl, rfl, fun h => absurd rfl h⟩
  · have hkept : t.operands = s.operands := exec_registerView registerView_operands he hi (fun _ _ _ => rfl) (fun _ _ _ => rfl)
      (fun _ _ => ⟨fun _ => rfl, fun _ => rfl, fun _ => rfl⟩) fun _ _ _ => rfl
    simp only [State.operands, Prod.mk.injEq] at hkept
    obtain ⟨⟨hcmd, hparams, hpending, hport⟩, hargs⟩ := hkept
    exact ⟨hcmd, hparams, hpending, hport, fun _ => hargs⟩

end Sys2Proof.Machine
end

section
/-! O9, O10: the host port (10_state.md R20 to R23, R29, 20_memory.md R85). -/

namespace Sys2Proof.Machine

/-! ## Bits as a number -/

/-- The number whose bit `k` is entry `k` of the list. -/
def bitsLsb : List Bool → Nat
  | [] => 0
  | b :: l => Nat.bit b (bitsLsb l)

theorem testBit_bitsLsb (l : List Bool) : ∀ k, (bitsLsb l).testBit k = l.getD k false := by
  induction l with
  | nil => exact fun k => by simp [bitsLsb]
  | cons b l ih =>
    rintro (_ | k)
    · exact Nat.testBit_bit_zero b _
    · rw [bitsLsb, Nat.testBit_bit_succ, ih]
      rfl

theorem bitsLsb_octet (a b c d e f g h : Bool) : bitsLsb [a, b, c, d, e, f, g, h] =
    a.toNat + b.toNat * 2 + c.toNat * 4 + d.toNat * 8 + e.toNat * 16 + f.toNat * 32 + g.toNat * 64 + h.toNat * 128 := by
  simp only [bitsLsb, Nat.bit_val]
  omega

/-- A register that packs bits has them at their places, and 0 above. -/
theorem getLsbD_bitsLsb {n : Nat} {l : List Bool} (hl : l.length ≤ n) (k : Nat) :
    (BitVec.ofNat n (bitsLsb l)).getLsbD k = l.getD k false := by
  rw [BitVec.getLsbD_ofNat, testBit_bitsLsb]
  by_cases hk : k < n
  · simp [hk]
  · rw [List.getD_eq_default _ _ (by omega), Bool.and_false]

/-- STATUS, bit by bit (R23). -/
theorem status_getLsbD (s : State) (k : Nat) : s.status.getLsbD k = s.statusBits.getD k false := by
  rw [State.status, Flags.status, u32, ← bitsLsb_octet]
  exact getLsbD_bitsLsb (by simp) k

/-- HUF_TVALID, slot by slot (R29). -/
theorem hufTvalid_getLsbD (s : State) (k : Nat) : s.hufTvalid.getLsbD k = (s.ht.toList.getD k none).isSome := by
  have hlist : s.ht.toList.map Option.isSome = [s.ht[0].isSome, s.ht[1].isSome, s.ht[2].isSome, s.ht[3].isSome,
      s.ht[4].isSome, s.ht[5].isSome, s.ht[6].isSome, s.ht[7].isSome] := by
    refine List.ext_getElem (by simp) fun n h1 h2 => ?_
    simp only [List.length_cons, List.length_nil] at h2
    interval_cases n <;> simp
  rw [State.hufTvalid, ← bitsLsb_octet, getLsbD_bitsLsb (by simp), ← hlist]
  exact List.getD_map (d := none) ..

/-! ## Registers -/

theorem u32_toNat_setWidth {w : Nat} (x : BitVec w) : u32 x.toNat = x.setWidth 32 := BitVec.ofNat_toNat 32 x

theorem u32_toNat_bool (b : Bool) : u32 b.toNat = if b then 1 else 0 := by cases b <;> rfl

theorem u32_brModeBit (m : BrMode) : u32 (brModeBit m) = if m = .stuff7 then 1 else 0 := by cases m <;> rfl

/-- HUF_SCAN is made of its three fields (R29). -/
theorem scan_fields (h : HufUnit) : h.scan.toNat = h.ss + h.se * 2 ^ 6 + h.al * 2 ^ 12 := by
  simp only [HufUnit.ss, HufUnit.se, HufUnit.al]
  omega

/-- CC_FLAGS is made of its five fields (R32). -/
theorem ccFlags_fields (c : CcUnit) : c.flags.toNat = c.kmode + c.eoline.toNat * 2 ^ 2 + c.balign.toNat * 2 ^ 3 +
    c.eoblock.toNat * 2 ^ 4 + c.black1.toNat * 2 ^ 5 := by
  have h : ∀ f : BitVec 6, f.toNat = f.toNat % 4 + (f.getLsbD 2).toNat * 2 ^ 2 + (f.getLsbD 3).toNat * 2 ^ 3 +
      (f.getLsbD 4).toNat * 2 ^ 4 + (f.getLsbD 5).toNat * 2 ^ 5 := by decide
  exact h c.flags

/-- Every register reads at its number as the tables have it. -/
theorem regRead_registerMap (s : State) : ∀ p ∈ s.registerMap, regRead s p.1 = p.2 := by
  simp only [State.registerMap, ← u32_toNat_setWidth, ← u32_toNat_bool, ← u32_brModeBit, ← scan_fields, ← ccFlags_fields,
    List.cons_append, List.nil_append, List.forall_mem_cons]
  simp [regRead, u32]

/-- A number of no register reads 0. -/
theorem regRead_unlisted {s : State} {r : Nat} (h6 : r ≠ 0x06) (h3c : r ≠ 0x3C) (h : ∀ p ∈ s.registerMap, r ≠ p.1) :
    regRead s r = 0 := by
  simp only [State.registerMap, List.cons_append, List.nil_append, List.forall_mem_cons, List.not_mem_nil, IsEmpty.forall_iff,
    implies_true, and_true] at h
  unfold regRead
  split
  on_goal -1 => rfl
  all_goals omega

theorem regWrite_ignored {r : Nat} (hr : 4 < r) (v : Word) (s : State) : regWrite r v s = .next s := by
  unfold regWrite
  split
  on_goal -1 => rfl
  all_goals omega

/-- The port reads the slots of HUF_TVALID, and 0 above bit 7. -/
theorem regRead_hufTvalid (s : State) (k : Nat) : (regRead s 0x3C).getLsbD k = (s.ht.toList.getD k none).isSome := by
  show (u32 s.hufTvalid.toNat).getLsbD k = _
  rw [← hufTvalid_getLsbD, u32_toNat_setWidth, BitVec.getLsbD_setWidth]
  by_cases hk : k < 32
  · simp [hk]
  · rw [BitVec.getLsbD_of_ge s.hufTvalid k (by omega), Bool.and_false]

/-! ## Host operations -/

theorem step_pending {s : State} {op : HostOp} {rest : List HostOp} (h : s.pending = op :: rest) :
    step s = hostStep op { s with pending := rest } := by
  rw [step, h]

/-- A host write inside a space that the host may write. -/
theorem hostMemWrite_next {s : State} {sp : Space} {a : Nat} (hw : sp.hostWritable = true) (ha : a < s.sizeOf sp) (v : Word) :
    hostMemWrite sp a v s = .next (s.setMem sp ((s.mem sp).write a (v.setWidth sp.width))) := by
  rw [hostMemWrite, if_neg (by simp [hw]), if_neg (Nat.not_le.2 ha)]

/-- A host read of a written element. -/
theorem hostMemRead_next {s : State} {sp : Space} {a : Nat} {v : BitVec sp.width} (ha : a < s.sizeOf sp)
    (hv : s.elem sp a = some v) : hostMemRead sp a s = .next { s with portData := portWord sp v } := by
  rw [hostMemRead, if_neg (Nat.not_le.2 ha), hv]

/-- The queue and the port's result are no part of the memory spaces. -/
theorem elem_port (s : State) (l : List HostOp) (d : Word) (sp : Space) (a : Nat) :
    ({ s with pending := l, portData := d } : State).elem sp a = s.elem sp a := by cases sp <;> rfl

theorem regRead_setMem (s : State) (sp : Space) (m : Memory sp.width) (r : Nat) : regRead (s.setMem sp m) r = regRead s r := by
  cases sp <;> rfl

/-- COEF elements are extended with their sign, the others with zeros (R85). -/
theorem portWord_setWidth (sp : Space) (v : Word) : portWord sp (v.setWidth sp.width) =
    if sp = .coef then (v.setWidth 16).signExtend 32 else (v.setWidth sp.width).setWidth 32 := by
  cases sp <;> simp [portWord, Space.signedElement]

/-- Settles O10: the register map number by number, the packed registers bit by bit, and the port's two operations on registers. -/
theorem hostRegisterPort : Obligations.HostRegisterPort := by
  intro s r v
  exact ⟨regRead_registerMap s, status_getLsbD s, regRead_hufTvalid s, fun id => ⟨rfl, rfl⟩, regRead_unlisted,
    fun rest h => step_pending h, rfl, rfl, rfl, rfl, fun hr => regWrite_ignored hr v s, fun rest h => step_pending h⟩

/-- Settles O9: the write puts the element, the read delivers it, and neither touches anything else. -/
theorem hostWritesAndReadsBack : Obligations.HostWritesAndReadsBack := by
  intro s sp a v rest hp hcl hrl ha
  have hw : sp.hostWritable = true := by cases sp <;> simp_all [Space.hostWritable]
  obtain ⟨q, hq⟩ : ∃ q : State, q = { s with pending := .memRead sp a :: rest } := ⟨_, rfl⟩
  obtain ⟨t, ht⟩ : ∃ t, t = q.setMem sp ((q.mem sp).write a (v.setWidth sp.width)) := ⟨_, rfl⟩
  have hqe : ∀ sp' b, q.elem sp' b = s.elem sp' b := hq ▸ elem_port s _ s.portData
  have hsize : q.sizeOf sp = s.sizeOf sp := by rw [hq]; rfl
  have hwrite : step s = .next t := by
    rw [step_pending hp, ← hq, ht]
    exact hostMemWrite_next hw (hsize ▸ ha) v
  have helem : t.elem sp a = some (v.setWidth sp.width) := by rw [ht, State.elem_setMem_write, if_pos rfl]
  have hother : ∀ sp' b, sp' ≠ sp ∨ b ≠ a → t.elem sp' b = s.elem sp' b := by
    intro sp' b hb
    rw [ht, ← hqe]
    by_cases hsp : sp' = sp
    · subst hsp
      rw [State.elem_setMem_write, if_neg (hb.resolve_left (not_not.2 rfl))]
    · exact State.elem_setMem_other _ _ hsp b
  have hpend : t.pending = .memRead sp a :: rest := by rw [ht, State.setMem_pending, hq]
  have hread : step t = .next { t with pending := rest, portData := portWord sp (v.setWidth sp.width) } := by
    rw [step_pending hpend]
    refine hostMemRead_next ?_ ((elem_port t rest t.portData sp a).trans helem)
    show a < t.sizeOf sp
    rw [ht, State.setMem_sizeOf, hsize]
    exact ha
  have hreg : ∀ r, regRead t r = regRead s r := fun r => by rw [ht, regRead_setMem, hq]; rfl
  exact ⟨t, _, hwrite, hread, helem, portWord_setWidth sp v, fun sp' b hb => (elem_port t _ _ sp' b).trans (hother sp' b hb),
    elem_port t _ _ sp a, hreg, rfl⟩

end Sys2Proof.Machine
end

section
/-! The CCITT procedures for invariants of the reader and of single flags. `CcittClosed` (Laws/CcittWalk.lean) asks for every
Fill(n) and every update of the flags but FAULT, which such an invariant does not survive; here a procedure peeks and skips 16 bits
at most and sets CC_EOF, CC_ERR, CC_WARN and CC_RDY alone (43_ccitt.md R260, R267 to R279). -/

namespace Sys2Proof.Machine

/-- The updates the CCITT procedures make, as they make them. -/
structure CcittKeeps (I : State → Prop) : Prop where
  cc : KeepsCc I
  flags : ∀ s eof err warn rdy, I s →
    I (s.setFlags { s.flags with ccEof := eof, ccErr := err, ccWarn := warn, ccRdy := rdy })
  cline : KeepsSpace I .cline
  rline : KeepsSpace I .rline
  peek : ∀ n, n ≤ 16 → Keeps I (brPeek n)
  skip : ∀ n, n ≤ 16 → Keeps I (brSkip n)
  align : Keeps I brAlignPlain

/-- `p` keeps `I` when the window ARG0, ARG1 lies inside STREAM. -/
def KeepsOnWindow {α : Type} (I : State → Prop) (p : Proc α) : Prop :=
  ∀ s, I s → s.arg0.toNat ≤ s.arg1.toNat → s.arg1.toNat ≤ s.params.streamSize → Ends p s (fun _ t => I t) fun _ t => I t

/-- The INIT commands check the window first. -/
theorem keeps_checkWindow_bind {α : Type} {I : State → Prop} {p : Proc α} (hp : KeepsOnWindow I p) :
    Keeps I (checkWindow >>= fun _ => p) := by
  intro s hs
  rw [ends_bind, checkWindow, ends_bind, ends_get, ends_check]
  refine ⟨fun _ => hs, fun hw => ?_⟩
  simp only [badWindow, Bool.or_eq_false_iff, decide_eq_false_iff_not, Nat.not_lt] at hw
  exact hp s hs hw.1 hw.2

theorem Keeps.onWindow {α : Type} {I : State → Prop} {p : Proc α} (hp : Keeps I p) : KeepsOnWindow I p :=
  fun s hs _ _ => hp s hs

/-- A command that needs its unit ready keeps `I`, when its body keeps what `I` says of the ready unit it starts from. -/
theorem keeps_needReady_bind {I : State → Prop} {R : State → State → Prop} {u : ReadyUnit} {p : Proc Unit}
    (hR : ∀ s, I s → u.ready s.flags = true → R s s) (hI : ∀ s t, I s → R s t → I t) (hp : ∀ s, Keeps (R s) p) :
    Keeps I (needReady u >>= fun _ => p) := by
  intro s hs
  rw [ends_bind, needReady, ends_bind, ends_get, ends_check]
  refine ⟨fun _ => hs, fun hr => ?_⟩
  exact (hp s s (hR s hs (by simpa using hr))).mono (fun _ t ht => hI s t hs ht) fun _ t ht => hI s t hs ht

section Reads

variable {I : State → Prop}

theorem keeps_readCline (i : Nat) : Keeps I (readCline i) := keeps_bind (keeps_memRead _ _) fun _ => keeps_pure _

theorem keeps_lineEnd : Keeps I lineEnd := keeps_get' fun _ => keeps_readCline _

theorem keeps_rowOpen : Keeps I rowOpen := keeps_get' fun _ => keeps_bind keeps_lineEnd fun _ => keeps_pure _

theorem keeps_refLine (i : Nat) : Keeps I (refLine i) :=
  keeps_get' fun _ => keeps_ite _ (keeps_bind (keeps_memRead _ _) fun _ => keeps_pure _) (keeps_pure _)

theorem keeps_backUp (a1 : Int) (p : Nat) : Keeps I (backUp a1 p) := by
  induction p with
  | zero => exact keeps_pure _
  | succ p ih => exact keeps_bind (keeps_readCline _) fun _ => keeps_ite _ ih (keeps_pure _)

theorem keeps_advanceRef (fuel : Nat) : ∀ rp, Keeps I (advanceRef fuel rp) := by
  induction fuel with
  | zero => exact fun _ => keeps_refuse _
  | succ fuel ih =>
    exact fun rp => keeps_get' fun _ => keeps_bind (keeps_refLine _) fun _ => keeps_bind keeps_lineEnd fun _ =>
      keeps_ite _ (ih _) (keeps_pure _)

theorem keeps_adv (rp : Nat) : Keeps I (adv rp) := keeps_get' fun _ => keeps_advanceRef _ _

end Reads

section Walk

variable {I : State → Prop} (h : CcittKeeps I)
include h

theorem CcittKeeps.keeps_flagDamaged : Keeps I flagDamaged := fun s hs => h.flags s _ _ _ _ hs

theorem CcittKeeps.keeps_flagEof : Keeps I flagEof := fun s hs => h.flags s _ _ _ _ hs

theorem CcittKeeps.keeps_putCpos (p : Nat) : Keeps I (putCpos p) := keeps_modifyCc h.cc _

theorem CcittKeeps.keeps_writeCline (i : Nat) (v : Int) : Keeps I (writeCline i v) :=
  keeps_memWrite fun s hs ha => h.cline s _ _ hs ha

theorem CcittKeeps.keeps_writeRline (i : Nat) (v : Int) : Keeps I (writeRline i v) :=
  keeps_memWrite fun s hs ha => h.rline s _ _ hs ha

/-! ## Pixels -/

theorem CcittKeeps.keeps_clampColumns (a1 : Int) : Keeps I (clampColumns a1) :=
  keeps_get' fun _ => keeps_ite _ (keeps_bind h.keeps_flagDamaged fun _ => keeps_pure _) (keeps_pure _)

theorem CcittKeeps.keeps_writeEnd (q : Nat) (a : Int) : Keeps I (writeCline q a >>= fun _ => pure q) :=
  keeps_bind (h.keeps_writeCline _ _) fun _ => keeps_pure _

theorem CcittKeeps.keeps_extendToEnd (p : Nat) (a1 : Int) (colour : Nat) : Keeps I (extendLine p a1 colour >>= putCpos) := by
  refine keeps_bind (keeps_bind (h.keeps_clampColumns a1) fun a => keeps_get' fun s => ?_) fun _ => h.keeps_putCpos _
  refine keeps_ite _ (keeps_ite _ ?_ (h.keeps_writeEnd _ _)) (h.keeps_writeEnd _ _)
  exact keeps_bind h.keeps_flagDamaged fun _ => h.keeps_writeEnd _ _

theorem CcittKeeps.keeps_addPix (a1 : Int) (colour : Nat) : Keeps I (addPix a1 colour) :=
  keeps_get' fun _ => keeps_bind keeps_lineEnd fun _ => keeps_ite _ (h.keeps_extendToEnd _ _ _) (keeps_pure _)

theorem CcittKeeps.keeps_clampZero (a1 : Int) : Keeps I (clampZero a1) :=
  keeps_ite _ (keeps_bind h.keeps_flagDamaged fun _ => keeps_pure _) (keeps_pure _)

theorem CcittKeeps.keeps_addPixNeg (a1 : Int) (colour : Nat) : Keeps I (addPixNeg a1 colour) := by
  refine keeps_get' fun s => keeps_bind keeps_lineEnd fun e => keeps_ite _ (h.keeps_extendToEnd _ _ _) ?_
  refine keeps_ite _ (keeps_bind (h.keeps_clampZero a1) fun a => ?_) (keeps_pure _)
  exact keeps_bind (keeps_backUp _ _) fun _ => keeps_bind (h.keeps_writeCline _ _) fun _ => h.keeps_putCpos _

/-! ## Codes and runs -/

theorem CcittKeeps.keeps_rowEof : Keeps I rowEof :=
  keeps_bind (keeps_get' fun _ => h.keeps_addPix _ _) fun _ => h.keeps_flagEof

theorem CcittKeeps.keeps_rowBad : Keeps I rowBad :=
  keeps_bind h.keeps_flagDamaged fun _ => keeps_bind (keeps_get' fun _ => h.keeps_addPix _ _) fun _ => h.skip 1 (by decide)

/-- No run code is longer than 13 bits, so Match stays within a look-ahead. -/
theorem CcittKeeps.keeps_matchRunCode (colour : Nat) : Keeps I (matchRunCode colour) := by
  refine keeps_bind (h.peek 13 (by decide)) fun look => keeps_ite _ (keeps_pure _) ?_
  split
  · next c hc =>
    have hlen := (runCodes_len colour c (List.mem_of_find?_eq_some hc)).2
    exact keeps_bind (h.skip _ (by omega)) fun _ => keeps_pure _
  · exact keeps_pure _

theorem CcittKeeps.keeps_matchModeCode : Keeps I matchModeCode := by
  refine keeps_bind (h.peek 13 (by decide)) fun look => keeps_ite _ (keeps_pure _) ?_
  split
  · next c hc =>
    have hlen := (modeCodes_table.2 c (List.mem_of_find?_eq_some hc)).2.1
    exact keeps_bind (h.skip _ (by omega)) fun _ => keeps_pure _
  · exact keeps_pure _

theorem CcittKeeps.keeps_runLenFrom (colour fuel : Nat) : ∀ total, Keeps I (runLenFrom colour fuel total) := by
  induction fuel with
  | zero => exact fun _ => keeps_refuse _
  | succ fuel ih =>
    refine fun total => keeps_bind (h.keeps_matchRunCode colour) fun r => ?_
    cases r with
    | eof => exact keeps_bind h.keeps_rowEof fun _ => keeps_pure _
    | bad => exact keeps_bind h.keeps_rowBad fun _ => keeps_pure _
    | ok v => exact keeps_ite _ (keeps_pure _) (ih _)

theorem CcittKeeps.keeps_runLen (colour : Nat) : Keeps I (runLen colour) := keeps_get' fun _ => h.keeps_runLenFrom _ _ _

theorem CcittKeeps.keeps_row1DLoop (fuel : Nat) : ∀ colour, Keeps I (row1DLoop fuel colour) := by
  induction fuel with
  | zero => exact fun _ => keeps_refuse _
  | succ fuel ih =>
    refine fun colour => keeps_get' fun s => keeps_bind keeps_lineEnd fun e => keeps_ite _ ?_ (keeps_pure _)
    refine keeps_bind (h.keeps_runLen colour) fun r => ?_
    cases r with
    | none => exact keeps_pure _
    | some total => exact keeps_bind keeps_lineEnd fun _ => keeps_bind (h.keeps_addPix _ _) fun _ => ih _

/-! ## Two-dimensional rows -/

theorem CcittKeeps.keeps_copyLine (fuel : Nat) : ∀ i, Keeps I (copyLine fuel i) := by
  induction fuel with
  | zero => exact fun _ => keeps_refuse _
  | succ fuel ih =>
    exact fun i => keeps_get' fun _ => keeps_bind (keeps_readCline _) fun _ => keeps_ite _
      (keeps_bind (h.keeps_writeRline _ _) fun _ => ih _) (keeps_pure _)

theorem CcittKeeps.keeps_terminateLine (n : Nat) : ∀ j, Keeps I (terminateLine n j) := by
  induction n with
  | zero => exact fun _ => keeps_pure _
  | succ n ih => exact fun j => keeps_get' fun _ => keeps_bind (h.keeps_writeRline _ _) fun _ => ih _

theorem CcittKeeps.keeps_modePass (rp colour : Nat) : Keeps I (modePass rp colour) :=
  keeps_get' fun _ => keeps_bind (keeps_refLine _) fun _ => keeps_bind (h.keeps_addPix _ _) fun _ => keeps_pure _

theorem CcittKeeps.keeps_modeHorizontal (rp colour : Nat) : Keeps I (modeHorizontal rp colour) := by
  refine keeps_bind (h.keeps_runLen _) fun r1 => ?_
  cases r1 with
  | none => exact keeps_pure _
  | some t1 =>
    refine keeps_bind (h.keeps_runLen _) fun r2 => ?_
    cases r2 with
    | none => exact keeps_pure _
    | some t2 =>
      refine keeps_bind keeps_lineEnd fun _ => keeps_bind (h.keeps_addPix _ _) fun _ => keeps_bind keeps_rowOpen fun _ => ?_
      refine keeps_bind (keeps_ite _ ?_ (keeps_pure _)) fun _ => keeps_bind (keeps_adv _) fun _ => keeps_pure _
      exact keeps_bind keeps_lineEnd fun _ => h.keeps_addPix _ _

theorem CcittKeeps.keeps_modeRight (d rp colour : Nat) : Keeps I (modeRight d rp colour) :=
  keeps_bind (keeps_refLine _) fun _ => keeps_bind (h.keeps_addPix _ _) fun _ => keeps_bind keeps_rowOpen fun _ =>
    keeps_ite _ (keeps_adv _) (keeps_pure _)

theorem CcittKeeps.keeps_modeLeft (d rp colour : Nat) : Keeps I (modeLeft d rp colour) :=
  keeps_bind (keeps_refLine _) fun _ => keeps_bind (h.keeps_addPixNeg _ _) fun _ => keeps_bind keeps_rowOpen fun _ =>
    keeps_ite _ (keeps_adv _) (keeps_pure _)

theorem CcittKeeps.keeps_row2DLoop (fuel : Nat) : ∀ rp colour, Keeps I (row2DLoop fuel rp colour) := by
  induction fuel with
  | zero => exact fun _ _ => keeps_refuse _
  | succ fuel ih =>
    refine fun rp colour => keeps_bind keeps_rowOpen fun more => keeps_ite _ ?_ (keeps_pure _)
    refine keeps_bind h.keeps_matchModeCode fun m => ?_
    match m with
    | .eof => exact h.keeps_rowEof
    | .bad => exact h.keeps_rowBad
    | .ok .pass => exact keeps_bind (h.keeps_modePass _ _) fun _ => ih _ _
    | .ok .horizontal =>
      refine keeps_bind (h.keeps_modeHorizontal _ _) fun r => ?_
      cases r with
      | none => exact keeps_pure _
      | some rp' => exact ih _ _
    | .ok (.right d) => exact keeps_bind (h.keeps_modeRight _ _ _) fun _ => ih _ _
    | .ok (.left d) => exact keeps_bind (h.keeps_modeLeft _ _ _) fun _ => ih _ _

theorem CcittKeeps.keeps_decodeRow1D : Keeps I decodeRow1D :=
  keeps_bind (h.keeps_writeCline _ _) fun _ => keeps_bind (h.keeps_putCpos _) fun _ =>
    keeps_get' fun _ => h.keeps_row1DLoop _ _

theorem CcittKeeps.keeps_decodeRow2D : Keeps I decodeRow2D :=
  keeps_get' fun _ => keeps_bind (h.keeps_copyLine _ _) fun _ => keeps_bind (h.keeps_terminateLine _ _) fun _ =>
    keeps_bind (h.keeps_writeCline _ _) fun _ => keeps_bind (h.keeps_putCpos _) fun _ => h.keeps_row2DLoop _ _ _

/-! ## Between rows -/

theorem CcittKeeps.keeps_nextRun : Keeps I nextRun := by
  suffices ∀ fuel, Keeps I (nextRunLoop fuel) from keeps_get' fun _ => this _
  intro fuel
  induction fuel with
  | zero => exact keeps_refuse _
  | succ fuel ih =>
    refine keeps_get' fun s => keeps_ite _ (keeps_bind keeps_lineEnd fun e => keeps_ite _ ?_ (keeps_pure _)) (keeps_pure _)
    exact keeps_bind (h.keeps_putCpos _) fun _ => keeps_bind keeps_lineEnd fun _ =>
      keeps_bind (keeps_modifyCc h.cc _) fun _ => ih

theorem CcittKeeps.keeps_skipZeros (fuel : Nat) : Keeps I (skipZeros fuel) := by
  induction fuel with
  | zero => exact keeps_refuse _
  | succ fuel ih =>
    exact keeps_bind (h.peek 12 (by decide)) fun _ => keeps_ite _ (keeps_bind (h.skip 1 (by decide)) fun _ => ih) (keeps_pure _)

theorem CcittKeeps.keeps_huntEol (fuel : Nat) : Keeps I (huntEol fuel) := by
  induction fuel with
  | zero => exact keeps_refuse _
  | succ fuel ih =>
    exact keeps_bind (h.peek 12 (by decide)) fun _ => keeps_ite _ (keeps_bind (h.skip 1 (by decide)) fun _ => ih) (keeps_pure _)

theorem CcittKeeps.keeps_resyncLoop (fuel : Nat) : Keeps I (resyncLoop fuel) := by
  induction fuel with
  | zero => exact keeps_refuse _
  | succ fuel ih =>
    exact keeps_bind (h.peek 13 (by decide)) fun _ => keeps_ite _ (keeps_bind h.keeps_flagEof fun _ => keeps_pure _)
      (keeps_ite _ (keeps_pure _) (keeps_bind (h.skip 1 (by decide)) fun _ => ih))

theorem CcittKeeps.keeps_readTag : Keeps I readTag :=
  keeps_bind (h.peek 1 (by decide)) fun _ => keeps_bind (keeps_modifyCc h.cc _) fun _ => h.skip 1 (by decide)

theorem CcittKeeps.keeps_skipTag : Keeps I skipTag := keeps_get' fun _ => keeps_ite _ (h.skip 1 (by decide)) (keeps_pure _)

theorem CcittKeeps.keeps_findEol : Keeps I findEol := by
  refine keeps_bind (keeps_get' fun s => keeps_ite _ (h.keeps_huntEol _) (h.keeps_skipZeros _)) fun code => ?_
  exact keeps_ite _ (keeps_bind (h.skip 12 (by decide)) fun _ => keeps_pure _)
    (keeps_ite _ (keeps_bind h.keeps_flagEof fun _ => keeps_pure _) (keeps_pure _))

theorem CcittKeeps.keeps_skipEols (n : Nat) : Keeps I (skipEols n) := by
  induction n with
  | zero => exact keeps_pure _
  | succ n ih => exact keeps_bind (h.skip 12 (by decide)) fun _ => keeps_bind h.keeps_skipTag fun _ => ih

theorem CcittKeeps.keeps_endOfBlock : Keeps I endOfBlock := by
  refine keeps_get' fun s => keeps_bind (h.peek 12 (by decide)) fun v => keeps_ite _ ?_ (keeps_pure _)
  refine keeps_bind (h.skip 12 (by decide)) fun _ => keeps_bind h.keeps_skipTag fun _ => ?_
  exact keeps_bind (keeps_ite _ (h.keeps_skipEols _) (keeps_pure _)) fun _ => h.keeps_flagEof

theorem CcittKeeps.keeps_resync : Keeps I resync := by
  refine keeps_get' fun s => keeps_bind (h.keeps_resyncLoop _) fun r => keeps_get' fun t => ?_
  cases r with
  | none => exact keeps_pure _
  | some code =>
    refine keeps_ite _ (keeps_pure _) (keeps_bind (h.skip 12 (by decide)) fun _ => keeps_ite _ ?_ (keeps_pure _))
    exact keeps_bind (h.skip 1 (by decide)) fun _ => keeps_modifyCc h.cc _

theorem CcittKeeps.keeps_postRow : Keeps I postRow := by
  refine keeps_get' fun s => keeps_bind (keeps_ite _ h.align (keeps_pure _)) fun _ => ?_
  refine keeps_bind (keeps_get' fun s => keeps_ite _ (keeps_bind h.keeps_flagEof fun _ => keeps_pure _) h.keeps_findEol)
    fun gotEol => keeps_get' fun t => keeps_bind (keeps_ite _ h.keeps_readTag (keeps_pure _)) fun _ => ?_
  refine keeps_bind (keeps_ite _ h.keeps_endOfBlock (keeps_ite _ h.keeps_resync (keeps_pure _))) fun _ => ?_
  refine keeps_bind (h.keeps_putCpos 0) fun _ => keeps_bind (keeps_readCline 0) fun _ => ?_
  exact keeps_bind (keeps_modifyCc h.cc _) fun _ => keeps_bind h.keeps_nextRun fun _ => keeps_modifyCc h.cc _

/-! ## The commands -/

theorem CcittKeeps.keeps_decodeRow : Keeps I decodeRow := by
  refine keeps_bind (fun s hs => h.flags s _ _ _ _ hs) fun _ => keeps_get' fun s => ?_
  exact keeps_bind (keeps_ite _ h.keeps_decodeRow2D h.keeps_decodeRow1D) fun _ => h.keeps_postRow

theorem CcittKeeps.keeps_serveBits (fuel : Nat) : ∀ bits b, Keeps I (serveBits fuel bits b) := by
  induction fuel with
  | zero => exact fun _ _ => keeps_pure _
  | succ fuel ih =>
    refine fun bits b => keeps_ite _ (keeps_pure _) (keeps_get' fun s => keeps_bind (keeps_modifyCc h.cc _) fun _ => ?_)
    refine keeps_ite _ (keeps_bind h.keeps_nextRun fun _ => keeps_get' fun t => ?_) (ih _ _)
    exact keeps_ite _ (keeps_pure _) (ih _ _)

theorem CcittKeeps.keeps_serveByte (hr : KeepsRes I) : Keeps I serveByte := by
  refine keeps_bind (keeps_get' fun s => keeps_ite _ ?_ (h.keeps_serveBits _ _ _)) fun b => keeps_get' fun t => keeps_putRes hr _
  exact keeps_bind (keeps_modifyCc h.cc _) fun _ => keeps_bind h.keeps_nextRun fun _ => keeps_pure _

theorem CcittKeeps.keeps_ccittReadbyteBody (hr : KeepsRes I) : Keeps I ccittReadbyteBody := by
  refine keeps_bind (keeps_needReady _) fun _ => keeps_get' fun s => keeps_bind (keeps_check _ _ _) fun _ => ?_
  refine keeps_ite _ (keeps_ite _ (keeps_putRes hr _) ?_) (h.keeps_serveByte hr)
  exact keeps_bind h.keeps_decodeRow fun _ => h.keeps_serveByte hr

theorem CcittKeeps.keeps_openRows (kmode : Nat) : Keeps I (openRows kmode) := by
  refine keeps_get' fun s => keeps_bind (h.keeps_skipZeros _) fun code => ?_
  refine keeps_bind (keeps_ite _ (h.skip 12 (by decide)) (keeps_pure _)) fun _ => keeps_bind (h.peek 1 (by decide)) fun v => ?_
  exact keeps_ite _ h.keeps_flagEof (keeps_ite _ h.keeps_readTag (keeps_pure _))

/-- CCITT.INIT, when opening a window that passed the operand check keeps `I`. -/
theorem CcittKeeps.keeps_ccittInitBody (hopen : KeepsOnWindow I (brOpen .plain)) (kmode : Nat)
    (eoline balign eoblock black1 : Bool) : Keeps I (ccittInitBody kmode eoline balign eoblock black1) := by
  refine keeps_bind (keeps_check _ _ _) fun _ => keeps_checkWindow_bind fun s hs hpos hend => ?_
  rw [ends_bind, ends_get, ends_bind, ends_check]
  refine ⟨fun _ => hs, fun _ => (ends_bind ..).2 ((hopen s hs hpos hend).mono (fun _ t ht => ?_) fun _ _ he => he)⟩
  refine keeps_bind (keeps_modifyCc h.cc _) (fun _ => ?_) t ht
  refine keeps_bind (fun s hs => h.flags s _ _ _ _ hs) fun _ => keeps_bind (h.keeps_writeCline _ _) fun _ => ?_
  exact keeps_bind (h.keeps_openRows _) fun _ s hs => h.flags s _ _ _ _ hs

end Walk
end Sys2Proof.Machine
end

section
/-! Which readiness flags a command changes: that of its own unit, and CCITT.INIT that of the reader too (10_state.md R23, 43_ccitt.md
R272). -/

namespace Sys2Proof.Machine

variable {I : State → Prop}

/-! The INIT commands, when `I` survives the one flag they set (Laws/Keeps.lean asks for every flag but FAULT). -/

theorem keeps_mqInitBody_of (h : KeepsMq I) (hf : ∀ s, I s → I (s.setFlags { s.flags with mqRdy := true })) :
    Keeps I mqInitBody := by
  refine keeps_bind keeps_checkWindow fun _ => keeps_get' fun s => ?_
  refine keeps_bind (keeps_modifyMq h _) fun _ => keeps_bind (keeps_modifyMq h _) fun _ => ?_
  refine keeps_bind (keeps_mqByte _) fun _ => keeps_bind (keeps_modifyMq h _) fun _ => ?_
  exact keeps_bind (keeps_byteIn h) fun _ => keeps_bind (keeps_modifyMq h _) fun _ => hf

theorem keeps_brOpen_of (h : KeepsBr I) (hf : ∀ s, I s → I (s.setFlags { s.flags with brRdy := true })) (mode : BrMode) :
    Keeps I (brOpen mode) := keeps_get' fun _ => keeps_bind (keeps_modifyBr h _) fun _ => hf

theorem keeps_hufInitBody_of (h : KeepsHuf I) (hf : ∀ s, I s → I (s.setFlags { s.flags with hufRdy := true })) :
    Keeps I hufInitBody :=
  keeps_bind keeps_checkWindow fun _ => keeps_get' fun _ => keeps_bind (keeps_modifyHuf h _) fun _ => hf

/-- The flag `c` is neither FAULT nor one that command `i` sets. -/
structure FlagSpared (c : Flags → Bool) (i : Instr) : Prop where
  fault : ∀ f, c { f with fault := true } = c f
  status : ∀ f eof err warn rdy, c { f with ccEof := eof, ccErr := err, ccWarn := warn, ccRdy := rdy } = c f
  mq : unitOfInstr i = 1 → ∀ f, c { f with mqRdy := true } = c f
  br : unitOfInstr i = 2 ∨ unitOfInstr i = 4 → ∀ f, c { f with brRdy := true } = c f
  huf : unitOfInstr i = 3 → ∀ f, c { f with hufRdy := true } = c f

/-- The flag `c` holds `b`. -/
abbrev FlagIs (c : Flags → Bool) (b : Bool) (s : State) : Prop := c s.flags = b

/-- A command but SYS.RESET leaves a flag that it does not set. -/
theorem exec_flag {c : Flags → Bool} {b : Bool} {i : Instr} {s t : State} (hc : FlagSpared c i) (he : exec i s = .next t)
    (hi : i ≠ .sysReset) (hb : FlagIs c b s) : FlagIs c b t := by
  have go : ∀ p, Keeps (FlagIs c b) p → runCommand p s = .next t → FlagIs c b t := fun p hp =>
    keeps_runCommand hp (fun u _ _ hu => (hc.fault u.flags).trans hu) hb
  have mq : KeepsMq (FlagIs c b) := fun _ _ h => h
  have br : KeepsBr (FlagIs c b) := fun _ _ h => h
  have huf : KeepsHuf (FlagIs c b) := fun _ _ h => h
  have res : KeepsRes (FlagIs c b) := fun _ _ h => h
  have mem : ∀ sp, KeepsSpace (FlagIs c b) sp := fun sp u a v h _ => (congrArg c (State.setMem_flags ..)).trans h
  have hopen : unitOfInstr i = 2 ∨ unitOfInstr i = 4 → ∀ mode, Keeps (FlagIs c b) (brOpen mode) := fun hu mode =>
    keeps_brOpen_of br (fun u h => (hc.br hu u.flags).trans h) mode
  have ccitt : CcittKeeps (FlagIs c b) :=
    ⟨fun _ _ h => h, fun u _ _ _ _ h => (hc.status u.flags _ _ _ _).trans h, mem _, mem _, fun n _ => keeps_brPeek br n,
      fun n _ => keeps_brSkip br n, keeps_modifyBr br _⟩
  cases i
  case sysNop => cases he; exact hb
  case sysReset => exact absurd rfl hi
  case mqInit => exact go _ (keeps_mqInitBody_of mq fun u h => (hc.mq rfl u.flags).trans h) he
  case mqReadbit => exact go _ (keeps_mqReadbitBody mq (mem _) res _) he
  case brInit => exact go _ (keeps_checkWindow_bind (hopen (.inl rfl) _).onWindow) he
  case brReadbits => exact go _ (keeps_brReadbitsBody br res _) he
  case brPeekbits => exact go _ (keeps_brPeekbitsBody br res _) he
  case brSkipbits => exact go _ (keeps_brSkipbitsBody br _) he
  case brAlign => exact go _ (keeps_brAlignBody br) he
  case brPeekmarker => exact go _ (keeps_brPeekmarkerBody res _) he
  case brSkipbytes => exact go _ (keeps_brSkipbytesBody br) he
  case hufInit => exact go _ (keeps_hufInitBody_of huf fun u h => (hc.huf rfl u.flags).trans h) he
  case hufLoadtable => exact go _ (keeps_hufLoadtableBody (fun _ _ h => h) _ _) he
  case hufScancfg => exact go _ (keeps_hufScancfgBody huf _ _ _) he
  case hufRestart => exact go _ (keeps_hufRestartBody huf) he
  case hufDecode => exact go _ (keeps_hufDecodeBody huf res _ _) he
  case hufReceive => exact go _ (keeps_hufReceiveBody huf res _) he
  case hufExtend => exact go _ (keeps_hufExtendBody huf res _) he
  case hufBlockBaseline => exact go _ (keeps_hufBlockBaselineBody huf (mem _) _ _ _) he
  case hufDcFirst => exact go _ (keeps_hufDcFirstBody huf (mem _) _ _) he
  case hufDcRefine => exact go _ (keeps_hufDcRefineBody huf (mem _)) he
  case hufAcFirst => exact go _ (keeps_hufAcFirstBody huf (mem _) _) he
  case hufAcRefine => exact go _ (keeps_hufAcRefineBody huf (mem _) (fun _ _ h => h) _) he
  case ccittInit => exact go _ (ccitt.keeps_ccittInitBody (hopen (.inr rfl) _).onWindow _ _ _ _ _) he
  case ccittReadbyte => exact go _ (ccitt.keeps_ccittReadbyteBody res) he
  case idctBlock => exact go _ (keeps_idctBlockBody (mem _) _) he
  case iwtSr1d => exact go _ (keeps_iwtSr1dBody (mem _) _ _) he
  case iwtSr2d => exact go _ (keeps_iwtSr2dBody (mem _) _ _ _) he

theorem exec_mqRdy {i : Instr} {s t : State} (he : exec i s = .next t) (hi : i ≠ .sysReset) (h1 : unitOfInstr i ≠ 1) :
    t.flags.mqRdy = s.flags.mqRdy :=
  exec_flag ⟨fun _ => rfl, fun _ _ _ _ _ => rfl, fun h => absurd h h1, fun _ _ => rfl, fun _ _ => rfl⟩ he hi rfl

theorem exec_brRdy {i : Instr} {s t : State} (he : exec i s = .next t) (hi : i ≠ .sysReset) (h2 : unitOfInstr i ≠ 2)
    (h4 : unitOfInstr i ≠ 4) : t.flags.brRdy = s.flags.brRdy :=
  exec_flag ⟨fun _ => rfl, fun _ _ _ _ _ => rfl, fun _ _ => rfl, fun h => (h.elim h2 h4).elim, fun _ _ => rfl⟩ he hi rfl

theorem exec_hufRdy {i : Instr} {s t : State} (he : exec i s = .next t) (hi : i ≠ .sysReset) (h3 : unitOfInstr i ≠ 3) :
    t.flags.hufRdy = s.flags.hufRdy :=
  exec_flag ⟨fun _ => rfl, fun _ _ _ _ _ => rfl, fun _ _ => rfl, fun _ _ => rfl, fun h => absurd h h3⟩ he hi rfl

end Sys2Proof.Machine
end

section
/-! O18: the MQ registers (10_state.md R26, 40_mq_decoder.md R143 to R147). MQ_CLOW holds MQ_CT unread bits at its top and zeros below,
so BYTEIN, which runs when MQ_CT is 0, finds it 0 and refills it; a stop in BYTEIN moves MQ_BP alone. -/

namespace Sys2Proof.Machine

/-- What R26 and R147 (iv) say of a ready MQ unit. -/
structure MqRegs (s : State) : Prop extends MqOk s where
  a : 0x8000 ≤ s.mq.a.toNat
  ct : s.mq.ct.toNat ≤ 8
  clow : s.mq.clow.toNat % 2 ^ (16 - s.mq.ct.toNat) = 0

theorem mqInv_iff {s : State} : MqInv s ↔ (s.flags.mqRdy = true → MqRegs s) := by
  refine forall_congr' fun _ => ⟨fun h => ?_, fun h => ?_⟩
  · obtain ⟨ha, -, hct, hbp, hend, hclow⟩ := h
    exact ⟨⟨hbp, hend⟩, ha, hct, hclow⟩
  · have := s.mq.a.isLt
    exact ⟨h.a, by omega, h.ct, h.bp, h.endIdx, h.clow⟩

/-- MqByte changes nothing, and at or beyond MQ_END it answers 0xFF (R142). -/
theorem ends_mqByte_window (i : Nat) (s : State) :
    Ends (mqByte i) s (fun b t => t = s ∧ (b ≠ 0xFF → i < s.mq.endIdx.toNat)) fun _ t => t = s := by
  rw [mqByte, ends_bind, ends_get, ends_ite]
  refine ⟨fun hi => ?_, fun _ => ⟨rfl, fun h => absurd rfl h⟩⟩
  rw [ends_bind]
  exact (keeps_memRead (I := (· = s)) .stream i s rfl).mono (fun _ _ ht => ⟨ht, fun _ => hi⟩) fun _ _ ht => ht

/-- BYTEIN done: MQ_CLOW holds MQ_CT fresh bits at its top, and MQ_A is as it was. -/
structure Refed (s t : State) : Prop where
  ok : MqOk t
  a : t.mq.a = s.mq.a
  ct : t.mq.ct.toNat = 7 ∨ t.mq.ct.toNat = 8
  clow : t.mq.clow.toNat % 2 ^ (16 - t.mq.ct.toNat) = 0

/-- BYTEIN stopped on its way: only MQ_BP may have moved. -/
structure FeedStopped (s t : State) : Prop where
  ok : MqOk t
  only : t.mq = { s.mq with bp := t.mq.bp }

theorem FeedStopped.refl {s : State} (h : MqOk s) : FeedStopped s s := ⟨h, rfl⟩

theorem mqMerge_refed {s t : State} (h : FeedStopped s t) (h0 : s.mq.clow = 0) {add ct : Nat}
    (hct : ct = 7 ∧ add % 2 ^ 9 = 0 ∨ ct = 8 ∧ add % 2 ^ 8 = 0) (E : Stop → State → Prop) :
    Ends (mqMerge add ct) t (fun _ => Refed s) E := by
  have hclow : t.mq.clow = 0 := by rw [h.only]; exact h0
  have ha : t.mq.a = s.mq.a := by rw [h.only]
  rw [mqMerge, ends_modifyMq]
  refine ⟨h.ok.setMq rfl rfl, ha, ?_, ?_⟩
  · obtain ⟨rfl, -⟩ | ⟨rfl, -⟩ := hct
    · exact .inl rfl
    · exact .inr rfl
  · simp only [State.setMq_mq, hclow, BitVec.toNat_ofNat]
    obtain ⟨rfl, hadd⟩ | ⟨rfl, hadd⟩ := hct
    · show (0 + add) % 2 ^ 16 % 2 ^ 9 = 0
      omega
    · show (0 + add) % 2 ^ 16 % 2 ^ 8 = 0
      omega

/-- A byte looked at from a state that BYTEIN may stop in. -/
theorem ends_mqByte_feed {s t : State} (h : FeedStopped s t) {α : Type} {i : Nat} {f : Nat → Proc α} {Q : α → State → Prop}
    (hf : ∀ b, (b ≠ 0xFF → i < t.mq.endIdx.toNat) → Ends (f b) t Q fun _ => FeedStopped s) :
    Ends (mqByte i >>= f) t Q fun _ => FeedStopped s := by
  rw [ends_bind]
  refine (ends_mqByte_window i t).mono (fun b u ⟨hu, hb⟩ => ?_) fun _ u hu => hu ▸ h
  subst hu
  exact hf b hb

/-- MQ_BP moves on inside the window, then the byte there is merged. -/
theorem ends_advanceMerge {s : State} (h : MqOk s) (h0 : s.mq.clow = 0) (hlt : s.mq.bp.toNat < s.mq.endIdx.toNat) {k ct : Nat}
    (hk : ct = 7 ∧ k = 9 ∨ ct = 8 ∧ k = 8) :
    Ends (mqAdvance >>= fun _ => mqByte (s.mq.bp.toNat + 1) >>= fun v => mqMerge (v * 2 ^ k) ct) s
      (fun _ => Refed s) fun _ => FeedStopped s := by
  rw [ends_bind, mqAdvance, ends_modifyMq]
  have hadv : FeedStopped s (s.setMq { s.mq with bp := s.mq.bp + 1 }) := ⟨(h.advance hlt).2.ok, rfl⟩
  refine ends_mqByte_feed hadv fun v _ => mqMerge_refed hadv h0 ?_ _
  obtain ⟨rfl, rfl⟩ | ⟨rfl, rfl⟩ := hk
  · exact .inl ⟨rfl, Nat.mul_mod_left ..⟩
  · exact .inr ⟨rfl, Nat.mul_mod_left ..⟩

/-- BYTEIN fills an empty MQ_CLOW (R143). -/
theorem ends_byteIn_empty {s : State} (h : MqOk s) (h0 : s.mq.clow = 0) :
    Ends byteIn s (fun _ => Refed s) fun _ => FeedStopped s := by
  have hs := FeedStopped.refl h
  rw [byteIn, ends_bind, ends_get]
  refine ends_mqByte_feed hs fun b hb => (ends_ite ..).2
    ⟨fun _ => ?_, fun hne => ends_advanceMerge h h0 (hb hne) (.inr ⟨rfl, rfl⟩)⟩
  refine ends_mqByte_feed hs fun nb hnb => (ends_ite ..).2 ⟨fun _ => ?_, fun hle => ?_⟩
  · exact mqMerge_refed hs h0 (.inr ⟨rfl, rfl⟩) _
  · exact ends_advanceMerge h h0 (Nat.lt_of_succ_lt (hnb (by omega))) (.inl ⟨rfl, rfl⟩)

/-! ## MQ.READBIT -/

theorem MqRegs.setMq {s : State} (h : MqRegs s) {m : MqUnit} (hb : m.bp = s.mq.bp) (he : m.endIdx = s.mq.endIdx)
    (ha : 0x8000 ≤ m.a.toNat) (hct : m.ct.toNat ≤ 8) (hclow : m.clow.toNat % 2 ^ (16 - m.ct.toNat) = 0) : MqRegs (s.setMq m) :=
  ⟨h.toMqOk.setMq hb he, ha, hct, hclow⟩

/-- A stop in BYTEIN leaves the registers in order. -/
theorem FeedStopped.regs {s t : State} (h : FeedStopped s t) (hs : MqRegs s) : MqRegs t := by
  have e := h.only
  refine ⟨h.ok, ?_, ?_, ?_⟩
  · rw [e]; exact hs.a
  · rw [e]; exact hs.ct
  · rw [e]; exact hs.clow

theorem Refed.regs {s t : State} (h : Refed s t) (hs : MqRegs s) : MqRegs t :=
  ⟨h.ok, h.a ▸ hs.a, by have := h.ct; omega, h.clow⟩

/-- With MQ_CT at 0 nothing is left in MQ_CLOW. -/
theorem MqRegs.clow_eq_zero {s : State} (h : MqRegs s) (hct : s.mq.ct = 0) : s.mq.clow = 0 := by
  have hclow := h.clow
  rw [hct] at hclow
  exact BitVec.eq_of_toNat_eq ((Nat.mod_eq_of_lt s.mq.clow.isLt).symm.trans hclow)

/-- RENORMD's refill: there is a bit to shift. -/
theorem ends_refill {s : State} (h : MqRegs s) :
    Ends (if s.mq.ct = 0 then byteIn else pure ()) s (fun _ t => MqRegs t ∧ 1 ≤ t.mq.ct.toNat) fun _ => MqRegs := by
  refine (ends_ite ..).2 ⟨fun hct => ?_, fun hct => ⟨h, ?_⟩⟩
  · refine (ends_byteIn_empty h.toMqOk (h.clow_eq_zero hct)).mono (fun _ t ht => ⟨ht.regs h, ?_⟩) fun _ t ht => ht.regs h
    have := ht.ct
    omega
  · exact Nat.pos_of_ne_zero fun h0 => hct (BitVec.eq_of_toNat_eq (by simpa using h0))

/-- `k` of the low bits shifted out of a half with `16 - ct` zeros at its end leave `ct - k` of them. -/
theorem shiftLeft_mod {x : BitVec 16} {ct k : Nat} (hk : k ≤ ct) (hct : ct ≤ 16) (hx : x.toNat % 2 ^ (16 - ct) = 0) :
    (x <<< k).toNat % 2 ^ (16 - (ct - k)) = 0 := by
  rw [BitVec.toNat_shiftLeft, Nat.shiftLeft_eq]
  refine Nat.mod_eq_zero_of_dvd ((Nat.dvd_mod_iff (pow_dvd_pow 2 (by omega))).2 ?_)
  rw [show 16 - (ct - k) = 16 - ct + k by omega, pow_add]
  exact Nat.mul_dvd_mul_right (Nat.dvd_of_mod_eq_zero hx) _

theorem ct_sub {ct : BitVec 4} {k : Nat} (hk : k ≤ ct.toNat) : (ct - BitVec.ofNat 4 k).toNat = ct.toNat - k := by
  have := ct.isLt
  rw [BitVec.toNat_sub, BitVec.toNat_ofNat]
  omega

/-- One place to the left (R146). -/
theorem MqRegs.shift {s : State} (h : MqRegs s) (hct : 1 ≤ s.mq.ct.toNat) (c : BitVec 16) :
    MqRegs (s.setMq { s.mq with chigh := c, clow := s.mq.clow <<< 1, ct := s.mq.ct - 1 }) := by
  have hle := h.ct
  have hsub : (s.mq.ct - 1).toNat = s.mq.ct.toNat - 1 := ct_sub hct
  refine h.setMq rfl rfl h.a (by simp only [hsub]; omega) ?_
  simp only [hsub]
  exact shiftLeft_mod hct (by omega) h.clow

theorem keeps_mqRegs_putA {a : Nat} (hlow : 2 ^ 15 ≤ a) (hhigh : a < 2 ^ 16) :
    Keeps MqRegs (modifyMq fun m => { m with a := BitVec.ofNat 16 a }) := by
  intro s h
  refine h.setMq rfl rfl ?_ h.ct h.clow
  simp only [BitVec.toNat_ofNat]
  omega

theorem keeps_mqRegs_renormD (k : Nat) : ∀ a, Keeps MqRegs (renormD k a) := by
  induction k with
  | zero => exact fun _ => keeps_refuse _
  | succ k ih =>
    refine fun a => keeps_get fun s h => (ends_bind ..).2 ((ends_refill h).mono (fun _ t ⟨ht, hct⟩ => ?_) fun _ _ he => he)
    rw [ends_bind, ends_modifyMq, ends_ite]
    have hu := ht.shift hct ((t.mq.chigh <<< 1) ||| (t.mq.clow >>> 15))
    exact ⟨fun htop => keeps_mqRegs_putA htop (Nat.mod_lt _ (by decide)) _ hu, fun _ => ih _ _ hu⟩

theorem keepsSpace_mqRegs (sp : Space) : KeepsSpace MqRegs sp := by
  intro s a v h _
  obtain ⟨⟨hbp, hend⟩, ha, hct, hclow⟩ := h
  exact ⟨⟨by simpa using hbp, by simpa using hend⟩, by simpa using ha, by simpa using hct, by simpa using hclow⟩

theorem keeps_mqRegs_putRes (v : Word) : Keeps MqRegs (putRes v) := fun _ h => ⟨⟨h.bp, h.endIdx⟩, h.a, h.ct, h.clow⟩

theorem keeps_mqRegs_mqFinish (cxi a : Nat) (o : MqDecision) : Keeps MqRegs (mqFinish cxi a o) :=
  keeps_bind (keeps_mqRegs_renormD 15 a) fun _ => keeps_bind (keeps_memWrite fun s => keepsSpace_mqRegs .cx s _ _) fun _ =>
    keeps_mqRegs_putRes _

theorem keeps_mqRegs_mqDecode (cxi : Nat) (e : Byte) : Keeps MqRegs (mqDecode cxi e) := by
  refine keeps_get fun s h => (ends_ite ..).2 ⟨fun _ => keeps_mqRegs_mqFinish _ _ _ s h, fun _ => ?_⟩
  have hsub : MqRegs (s.setMq { s.mq with chigh := s.mq.chigh - BitVec.ofNat 16 (mqRow (e.toNat / 2)).qe }) :=
    h.setMq rfl rfl h.a h.ct h.clow
  have := s.mq.a.isLt
  rw [ends_bind, ends_modifyMq, ends_ite]
  refine ⟨fun htop => keeps_bind (keeps_mqRegs_putA htop (by omega)) (fun _ => keeps_mqRegs_putRes _) _ hsub, fun _ => ?_⟩
  exact keeps_mqRegs_mqFinish _ _ _ _ hsub

theorem keeps_mqInv_mqReadbitBody (cxi : Nat) : Keeps MqInv (mqReadbitBody cxi) := by
  refine keeps_needReady_bind (R := fun _ => MqRegs) (fun s h => mqInv_iff.1 h) (fun _ t _ ht => mqInv_iff.2 fun _ => ht)
    fun _ => ?_
  refine keeps_get' fun s => keeps_bind (keeps_check _ _ _) fun _ => keeps_bind (keeps_memRead _ _) fun e => ?_
  exact keeps_bind (keeps_check _ _ _) fun _ => keeps_mqRegs_mqDecode _ _

/-! ## MQ.INIT -/

/-- MQ.INIT on its way: the window is set and MQ_CLOW is as it was or empty; the unit is not yet ready anew. -/
structure MqOpening (s t : State) : Prop where
  ok : MqOk t
  a : t.mq.a = s.mq.a
  ct : t.mq.ct = s.mq.ct
  clow : t.mq.clow = s.mq.clow ∨ t.mq.clow = 0
  flags : t.flags = s.flags

theorem MqOpening.mqInv {s t : State} (h : MqOpening s t) (hs : MqInv s) : MqInv t := by
  refine mqInv_iff.2 fun hr => ?_
  have hregs := mqInv_iff.1 hs (h.flags ▸ hr)
  refine ⟨h.ok, h.a ▸ hregs.a, h.ct ▸ hregs.ct, ?_⟩
  obtain hc | hc := h.clow
  · rw [hc, h.ct]
    exact hregs.clow
  · rw [hc]
    exact Nat.zero_mod _

theorem MqOpening.stopped {s t u : State} (h : MqOpening s t) (hu : FeedStopped t u) (hf : u.flags = s.flags) : MqOpening s u := by
  have e := hu.only
  refine ⟨hu.ok, ?_, ?_, ?_, hf⟩
  · rw [e]; exact h.a
  · rw [e]; exact h.ct
  · rw [e]; exact h.clow

/-- The last updates of MQ.INIT: seven of the fresh bits are shifted out, and the interval is 0x8000 (R144). -/
theorem Refed.opened {s t : State} (h : Refed s t) (f : Flags) (c : BitVec 16) :
    MqRegs ((t.setMq { t.mq with chigh := c, clow := t.mq.clow <<< 7, ct := t.mq.ct - 7, a := 0x8000 }).setFlags f) := by
  have h7 : 7 ≤ t.mq.ct.toNat ∧ t.mq.ct.toNat ≤ 8 := by have := h.ct; omega
  have hsub : (t.mq.ct - 7).toNat = t.mq.ct.toNat - 7 := ct_sub h7.1
  refine ⟨⟨h.ok.bp, h.ok.endIdx⟩, le_rfl, ?_, ?_⟩
  · show (t.mq.ct - 7).toNat ≤ 8
    omega
  · show (t.mq.clow <<< 7).toNat % 2 ^ (16 - (t.mq.ct - 7).toNat) = 0
    rw [hsub]
    exact shiftLeft_mod h7.1 (by omega) h.clow

theorem keeps_mqInv_mqInitBody : Keeps MqInv mqInitBody := by
  refine keeps_checkWindow_bind fun s h hpos hend => ?_
  rw [ends_bind, ends_get, ends_bind, ends_modifyMq, ends_bind, ends_modifyMq, ends_bind]
  have hset : MqOpening s ((s.setMq { s.mq with endIdx := s.arg1 }).setMq { s.mq with endIdx := s.arg1, bp := s.arg0 }) :=
    ⟨⟨hpos, hend⟩, rfl, rfl, .inl rfl, rfl⟩
  refine (ends_mqByte_window _ _).mono (fun b t ⟨ht, _⟩ => ?_) fun _ t ht => ht ▸ hset.mqInv h
  subst ht
  rw [ends_bind, ends_modifyMq, ends_bind]
  generalize hc : BitVec.ofNat 16 b = c
  have hempty : MqOpening s (s.setMq { s.mq with endIdx := s.arg1, bp := s.arg0, chigh := c, clow := 0 }) :=
    ⟨⟨hpos, hend⟩, rfl, rfl, .inr rfl, rfl⟩
  refine ((ends_byteIn_empty hempty.ok rfl).and (keeps_byteIn (I := fun u => u.flags = s.flags) (fun _ _ hf => hf) _
    hempty.flags)).mono (fun _ t ⟨ht, _⟩ => ?_) fun _ t ⟨ht, hf⟩ => (hempty.stopped ht hf).mqInv h
  rw [ends_bind, ends_modifyMq, ends_modifyFlags]
  exact mqInv_iff.2 fun _ => ht.opened _ _

/-! ## The other commands, and the step -/

theorem MqInv.congr {s t : State} (h : MqInv s) (hm : t.mq = s.mq) (hr : t.flags.mqRdy = s.flags.mqRdy)
    (hp : t.params = s.params) : MqInv t := by
  rw [MqInv, hm, hr, hp]
  exact h

theorem exec_keeps_mqInv {i : Instr} {s t : State} (h : MqInv s) (he : exec i s = .next t) : MqInv t := by
  have run : ∀ {p}, Keeps MqInv p → runCommand p s = .next t → MqInv t := fun hp => keeps_runCommand hp (fun _ _ _ hu => hu) h
  by_cases hi : i = .sysReset
  · subst hi
    cases he
    exact fun hr => Bool.noConfusion hr
  by_cases h1 : unitOfInstr i = 1
  · cases i with
    | mqInit => exact run keeps_mqInv_mqInitBody he
    | mqReadbit cxi => exact run (keeps_mqInv_mqReadbitBody cxi) he
    | _ => simp [unitOfInstr] at h1
  · exact MqInv.congr h ((unitRegistersOwned i s t he hi).1 h1) (exec_mqRdy he hi h1) (operandsKept i s t he).2.1

/-- Settles O18: MQ.INIT establishes the registers' invariant, MQ.READBIT keeps it, also where it stops, and nothing else touches
them. -/
theorem stepKeepsMq : Obligations.StepKeepsMq :=
  step_next (fun _ _ _ h he => exec_keeps_mqInv h he) (fun _ _ _ h => h) (fun _ _ _ _ _ _ _ _ _ h => h)
    (fun s sp a v h _ _ => MqInv.congr h (by simp) (by simp) (by simp)) fun _ _ hr => Bool.noConfusion hr

end Sys2Proof.Machine
end

section
/-! O19: the BR registers (10_state.md R28, 41_bitreader.md R181 to R188). Fill fetches a byte only while fewer than 16 bits are buffered
and BR_POS is before BR_END; every other command keeps the newest of the buffered bits, or none. -/

namespace Sys2Proof.Machine

/-- What R28 says of a ready reader. -/
structure BrRegs (s : State) : Prop extends BrWindow s where
  buf : s.br.buf.toNat < 2 ^ s.br.cnt.toNat
  skip : s.br.mode = .plain → s.br.skip = false

theorem brInv_iff {s : State} : BrInv s ↔ (s.flags.brRdy = true → BrRegs s) := by
  refine forall_congr' fun _ => ⟨fun h => ?_, fun h => ⟨h.buf, h.cnt, h.pos, h.endIdx, h.skip⟩⟩
  obtain ⟨hbuf, hcnt, hpos, hend, hskip⟩ := h
  exact ⟨⟨hcnt, hpos, hend⟩, hbuf, hskip⟩

theorem BrRegs.congr {s t : State} (h : BrRegs s) (hb : t.br = s.br) (hp : t.params = s.params) : BrRegs t := by
  obtain ⟨⟨hcnt, hpos, hend⟩, hbuf, hskip⟩ := h
  exact ⟨⟨hb ▸ hcnt, hb ▸ hpos, hb ▸ hp ▸ hend⟩, hb ▸ hbuf, hb ▸ hskip⟩

theorem keeps_brRegs_putRes (v : Word) : Keeps BrRegs (putRes v) := fun _ h => h.congr rfl rfl

/-! ## Fill -/

/-- `k` bits `x` of a byte go behind the buffered ones. -/
theorem BrRegs.fetched {s : State} (h : BrRegs s) (hp : s.br.pos.toNat < s.br.endIdx.toNat) (hc : s.br.cnt.toNat < 16)
    {k x : Nat} (hk : k ≤ 8) (hplain : s.br.mode = .plain → k = 8) (hx : x < 2 ^ k) {skip : Bool}
    (hskip : s.br.mode = .plain → skip = false) :
    BrRegs (s.setBr { s.br with
      pos := s.br.pos + 1, buf := (s.br.buf <<< k) ||| BitVec.ofNat 32 x, cnt := s.br.cnt + BitVec.ofNat 5 k, skip := skip }) := by
  obtain ⟨hr, hcnt⟩ := refilled_byte h.toBrWindow hp hc hk hplain ((s.br.buf <<< k) ||| BitVec.ofNat 32 x) skip
  refine ⟨hr.window, ?_, hskip⟩
  have hk8 : 2 ^ k ≤ 2 ^ 8 := Nat.pow_le_pow_right (by decide) hk
  have hbuf15 : 2 ^ s.br.cnt.toNat ≤ 2 ^ 15 := Nat.pow_le_pow_right (by decide) (by omega)
  have hx32 : (BitVec.ofNat 32 x).toNat = x := by rw [BitVec.toNat_ofNat]; exact Nat.mod_eq_of_lt (by omega)
  have hbuf := h.buf
  have hroom : (s.br.buf.toNat + 1) * 2 ^ k ≤ 2 ^ s.br.cnt.toNat * 2 ^ k := Nat.mul_le_mul_right _ hbuf
  have hfit : 2 ^ s.br.cnt.toNat * 2 ^ k ≤ 2 ^ 15 * 2 ^ 8 := Nat.mul_le_mul hbuf15 hk8
  rw [Nat.succ_mul] at hroom
  have hor : ((s.br.buf <<< k) ||| BitVec.ofNat 32 x).toNat = s.br.buf.toNat * 2 ^ k + x := by
    rw [or_toNat_of_lt _ _ (by omega) (by rwa [hx32]), hx32]
  show ((s.br.buf <<< k) ||| BitVec.ofNat 32 x).toNat < 2 ^ (s.br.cnt + BitVec.ofNat 5 k).toNat
  rw [hor, hcnt, pow_add]
  omega

theorem ends_brFetch_regs {s : State} (h : BrRegs s) (hp : s.br.pos.toNat < s.br.endIdx.toNat) (hc : s.br.cnt.toNat < 16) :
    Ends brFetch s (fun _ => BrRegs) fun _ => BrRegs := by
  rw [brFetch, ends_bind, ends_get, ends_bind]
  refine (keeps_memRead (I := (· = s)) .stream _ s rfl).mono (fun b t ht => ?_) fun _ t ht => ht ▸ h
  subst ht
  have hskip : t.br.mode = .plain → decide (t.br.mode = .stuff7 ∧ b.toNat = 0xFF) = false := fun hm => by simp [hm]
  rw [ends_modifyBr]
  split
  · next hm =>
    exact h.fetched hp hc (by decide) (fun hplain => by rw [hm.1] at hplain; cases hplain) (Nat.mod_lt _ (by decide)) hskip
  · exact h.fetched hp hc le_rfl (fun _ => rfl) b.isLt hskip

theorem keeps_brRegs_brFill {n : Nat} (hn : n ≤ 16) : Keeps BrRegs (brFill n) := by
  suffices ∀ k, Keeps BrRegs (brFillLoop n k) from this n
  intro k
  induction k with
  | zero => exact keeps_pure _
  | succ k ih =>
    refine keeps_get fun s h => (ends_ite ..).2 ⟨fun hc => ?_, fun _ => h⟩
    rw [ends_bind]
    exact (ends_brFetch_regs h hc.2 (by omega)).mono (fun _ t ht => ih t ht) fun _ _ he => he

/-! ## Bits kept, and none kept -/

theorem BrRegs.keep {s : State} (h : BrRegs s) {k : Nat} (hk : k ≤ s.br.cnt.toNat) : BrRegs (s.setBr (s.br.keep k)) := by
  obtain ⟨hw, hc⟩ := h.toBrWindow.keep hk
  refine ⟨hw, ?_, h.skip⟩
  show (BitVec.ofNat 32 (s.br.buf.toNat % 2 ^ k)).toNat < 2 ^ (s.br.keep k).cnt.toNat
  rw [hc, BitVec.toNat_ofNat]
  exact (Nat.mod_le _ _).trans_lt (Nat.mod_lt _ (by positivity))

theorem keeps_brRegs_keep {f : BrUnit → Nat} (hf : ∀ r, f r ≤ r.cnt.toNat) : Keeps BrRegs (modifyBr fun r => r.keep (f r)) :=
  fun _ h => h.keep (hf _)

theorem keeps_brRegs_brPeek {n : Nat} (hn : n ≤ 16) : Keeps BrRegs (brPeek n) :=
  keeps_bind (keeps_brRegs_brFill hn) fun _ => keeps_get' fun _ => keeps_pure _

theorem keeps_brRegs_brSkip {n : Nat} (hn : n ≤ 16) : Keeps BrRegs (brSkip n) :=
  keeps_bind (keeps_brRegs_brFill hn) fun _ => keeps_brRegs_keep fun _ => Nat.sub_le _ _

theorem keeps_brRegs_brAlignPlain : Keeps BrRegs brAlignPlain := keeps_brRegs_keep fun _ => Nat.sub_le _ _

/-- The buffer emptied, and BR_POS put inside the window. -/
theorem BrRegs.emptied {s : State} (h : BrRegs s) {p : Nat} (hp : p ≤ s.br.endIdx.toNat) {skip : Bool}
    (hskip : s.br.mode = .plain → skip = false) :
    BrRegs (s.setBr { s.br with cnt := 0, buf := 0, pos := u32 p, skip := skip }) := by
  refine ⟨⟨Nat.zero_le _, ?_, h.endIdx⟩, Nat.one_pos, hskip⟩
  show (BitVec.ofNat 32 p).toNat ≤ s.br.endIdx.toNat
  exact (BitVec.toNat_ofNat p 32).trans_le ((Nat.mod_le _ _).trans hp)

theorem keeps_brRegs_brAlignStuff7 : Keeps BrRegs brAlignStuff7 := by
  intro s h
  rw [brAlignStuff7, ends_modifyBr]
  split
  · exact h.emptied (Nat.min_le_right _ _) fun _ => rfl
  · exact ⟨⟨Nat.zero_le _, h.pos, h.endIdx⟩, Nat.one_pos, h.skip⟩

/-! ## The commands -/

/-- The command needs a ready reader. -/
theorem keeps_brInv_ready {p : Proc Unit} (hp : Keeps BrRegs p) : Keeps BrInv (needReady .br >>= fun _ => p) :=
  keeps_needReady_bind (R := fun _ => BrRegs) (fun _ h => brInv_iff.1 h) (fun _ _ _ ht => brInv_iff.2 fun _ => ht) fun _ => hp

theorem keeps_brInv_brReadbitsBody (n : Nat) : Keeps BrInv (brReadbitsBody n) := by
  refine keeps_brInv_ready fun s h => ?_
  rw [ends_bind, checkBitCount, ends_check]
  refine ⟨fun _ => h, fun hn => ?_⟩
  refine keeps_bind (keeps_brRegs_brFill (checkBitCount_le hn).2) (fun _ => keeps_get fun t ht => ?_) s h
  rw [ends_bind, ends_check]
  exact ⟨fun _ => ht, fun _ => keeps_brRegs_putRes _ _ (ht.keep (Nat.sub_le _ _))⟩

/-- PEEKBITS and SKIPBITS: their checks let counts up to 16 through. -/
theorem keeps_brInv_plain {n : Nat} {p : Proc Unit} (hp : n ≤ 16 → Keeps BrRegs p) :
    Keeps BrInv (needReady .br >>= fun _ => checkBitCount n >>= fun _ => checkPlain >>= fun _ => p) := by
  refine keeps_brInv_ready fun s h => ?_
  rw [ends_bind, checkBitCount, ends_check]
  exact ⟨fun _ => h, fun hn => keeps_bind keeps_checkPlain (fun _ => hp (checkBitCount_le hn).2) s h⟩

theorem keeps_brInv_brPeekbitsBody (n : Nat) : Keeps BrInv (brPeekbitsBody n) :=
  keeps_brInv_plain fun hn => keeps_bind (keeps_brRegs_brPeek hn) fun _ => keeps_brRegs_putRes _

theorem keeps_brInv_brSkipbitsBody (n : Nat) : Keeps BrInv (brSkipbitsBody n) := keeps_brInv_plain keeps_brRegs_brSkip

theorem keeps_brInv_brAlignBody : Keeps BrInv brAlignBody := by
  refine keeps_brInv_ready (keeps_get' fun s => ?_)
  split
  · exact keeps_brRegs_brAlignPlain
  · exact keeps_brRegs_brAlignStuff7

theorem keeps_brInv_brSkipbytesBody : Keeps BrInv brSkipbytesBody :=
  keeps_brInv_ready (keeps_bind keeps_brLPos fun _ => keeps_get' fun _ _ h => h.emptied (Nat.min_le_right _ _) fun _ => rfl)

/-- A window inside STREAM, nothing fetched from it (R182). -/
theorem keepsOnWindow_brInv_brOpen (mode : BrMode) : KeepsOnWindow BrInv (brOpen mode) := by
  intro s _ hpos hend
  rw [brOpen, ends_bind, ends_get, ends_bind, ends_modifyBr, ends_modifyFlags]
  exact brInv_iff.2 fun _ => ⟨⟨Nat.zero_le _, hpos, hend⟩, Nat.one_pos, fun _ => rfl⟩

/-- An operation of the reader that keeps its registers in order and leaves BR_RDY. -/
theorem keeps_brInv_of {α : Type} {p : Proc α} (hp : Keeps BrRegs p) (hr : ∀ b, Keeps (FlagIs Flags.brRdy b) p) :
    Keeps BrInv p := by
  intro s h
  cases hb : s.flags.brRdy with
  | true => exact (hp s (brInv_iff.1 h hb)).mono (fun _ _ ht => brInv_iff.2 fun _ => ht) fun _ _ ht => brInv_iff.2 fun _ => ht
  | false =>
    have hvac : ∀ t, FlagIs Flags.brRdy false t → BrInv t := fun t ht ht' => absurd (ht.symm.trans ht') (by decide)
    exact (hr false s hb).mono (fun _ t ht => hvac t ht) fun _ t ht => hvac t ht

theorem BrInv.congr {s t : State} (h : BrInv s) (hb : t.br = s.br) (hr : t.flags.brRdy = s.flags.brRdy)
    (hp : t.params = s.params) : BrInv t :=
  brInv_iff.2 fun ht => (brInv_iff.1 h (hr ▸ ht)).congr hb hp

/-- What the CCITT unit does to the reader. -/
theorem ccittKeeps_brInv : CcittKeeps BrInv where
  cc := fun _ _ h => h
  flags := fun _ _ _ _ _ h => h
  cline := fun _ _ _ h _ => h
  rline := fun _ _ _ h _ => h
  peek := fun n hn => keeps_brInv_of (keeps_brRegs_brPeek hn) fun _ => keeps_brPeek (fun _ _ h => h) n
  skip := fun n hn => keeps_brInv_of (keeps_brRegs_brSkip hn) fun _ => keeps_brSkip (fun _ _ h => h) n
  align := keeps_brInv_of keeps_brRegs_brAlignPlain fun _ => keeps_modifyBr (fun _ _ h => h) _

theorem exec_keeps_brInv {i : Instr} {s t : State} (h : BrInv s) (he : exec i s = .next t) : BrInv t := by
  have run : ∀ {p}, Keeps BrInv p → runCommand p s = .next t → BrInv t := fun hp => keeps_runCommand hp (fun _ _ _ hu => hu) h
  have res : KeepsRes BrInv := fun _ _ h => h
  by_cases hi : i = .sysReset
  · subst hi
    cases he
    exact fun hr => Bool.noConfusion hr
  by_cases hu : unitOfInstr i = 2 ∨ unitOfInstr i = 4
  · cases i with
    | brInit mode => exact run (keeps_checkWindow_bind (keepsOnWindow_brInv_brOpen mode)) he
    | brReadbits n => exact run (keeps_brInv_brReadbitsBody n) he
    | brPeekbits n => exact run (keeps_brInv_brPeekbitsBody n) he
    | brSkipbits n => exact run (keeps_brInv_brSkipbitsBody n) he
    | brAlign => exact run keeps_brInv_brAlignBody he
    | brPeekmarker mark => exact run (keeps_brPeekmarkerBody res mark) he
    | brSkipbytes => exact run keeps_brInv_brSkipbytesBody he
    | ccittInit => exact run (ccittKeeps_brInv.keeps_ccittInitBody (keepsOnWindow_brInv_brOpen .plain) _ _ _ _ _) he
    | ccittReadbyte => exact run (ccittKeeps_brInv.keeps_ccittReadbyteBody res) he
    | _ => simp [unitOfInstr] at hu
  · obtain ⟨h2, h4⟩ := not_or.1 hu
    exact BrInv.congr h ((unitRegistersOwned i s t he hi).2.1 h2 h4) (exec_brRdy he hi h2 h4) (operandsKept i s t he).2.1

/-- Settles O19: the INIT commands open a window inside STREAM, the commands that read bits keep the registers in order, also
where they stop, and nothing else touches them. -/
theorem stepKeepsBr : Obligations.StepKeepsBr :=
  step_next (fun _ _ _ h he => exec_keeps_brInv h he) (fun _ _ _ h => h) (fun _ _ _ _ _ _ _ _ _ h => h)
    (fun s sp a v h _ _ => BrInv.congr h (by simp) (by simp) (by simp)) fun _ _ hr => Bool.noConfusion hr

end Sys2Proof.Machine
end

section
/-! O20: the HUF registers and the table store (10_state.md R29 to R31, 42_huffman_jpeg.md R211 to R226). HufBit moves HUF_POS past a byte
only before HUF_END; HUF_EOBRUN gets a number of 15 bits and HUF_ACSTATE a state of R226; HUF_SCAN and the tables are written by one
command each. -/

namespace Sys2Proof.Machine

/-- The window and the block state of a ready HUF unit, with HUF_SCAN and the tables as in `s₀`. -/
structure HufRegs (s₀ s : State) : Prop where
  window : HufWindow s
  acstate : s.huf.acstate.toNat ≤ 4
  eobrun : s.huf.eobrun.toNat ≤ 32767
  scan : s.huf.scan = s₀.huf.scan
  ht : s.ht = s₀.ht

/-- The three invariants of O20. -/
structure HufInvs (s : State) : Prop where
  scan : ScanInv s
  huf : HufInv s
  tables : TablesInv s

theorem HufInvs.regs {s : State} (h : HufInvs s) (hr : s.flags.hufRdy = true) : HufRegs s s := by
  obtain ⟨hpos, hend, -, hac, -, -, -, heob⟩ := h.huf hr
  exact ⟨⟨hpos, hend⟩, hac, heob, rfl, rfl⟩

/-- HUF_SCAN alone is what `ScanInv` is about. -/
theorem ScanInv.congr {s t : State} (h : ScanInv s) (ht : t.huf.scan = s.huf.scan) : ScanInv t := by
  simp only [ScanInv, HufUnit.ss, HufUnit.se, HufUnit.al, ht]
  exact h

theorem hufInv_of {s : State} (hw : HufWindow s) (hac : s.huf.acstate.toNat ≤ 4) (heob : s.huf.eobrun.toNat ≤ 32767)
    (hs : ScanInv s) : HufInv s :=
  fun _ => ⟨hw.1, hw.2, Nat.le_of_lt_succ s.huf.bitcnt.isLt, hac, hs.1, hs.2.1, hs.2.2, heob⟩

theorem HufRegs.invs {s t : State} (h : HufRegs s t) (hs : HufInvs s) : HufInvs t := by
  have hscan : ScanInv t := hs.scan.congr h.scan
  refine ⟨hscan, hufInv_of h.window h.acstate h.eobrun hscan, ?_⟩
  rw [TablesInv, h.ht]
  exact hs.tables

theorem HufInvs.congr {s t : State} (h : HufInvs s) (hh : t.huf = s.huf) (ht : t.ht = s.ht)
    (hr : t.flags.hufRdy = s.flags.hufRdy) (hp : t.params = s.params) : HufInvs t := by
  refine ⟨h.scan.congr (by rw [hh]), ?_, ?_⟩
  · rw [HufInv, hh, hr, hp]
    exact h.huf
  · rw [TablesInv, ht]
    exact h.tables

/-! ## Updates -/

section Walk

variable {s₀ : State}

theorem keepsSpace_hufRegs : KeepsSpace (HufRegs s₀) .coef := fun _ _ _ h _ => ⟨h.window, h.acstate, h.eobrun, h.scan, h.ht⟩

theorem keepsRes_hufRegs : KeepsRes (HufRegs s₀) := fun _ _ h => ⟨h.window, h.acstate, h.eobrun, h.scan, h.ht⟩

theorem keepsFree_hufRegs : KeepsFree (HufRegs s₀) := fun _ _ h => ⟨h.window, h.acstate, h.eobrun, h.scan, h.ht⟩

theorem keeps_hufRegs_putEobrun {v : Nat} (hv : v < 2 ^ 15) : Keeps (HufRegs s₀) (putEobrun v) := by
  refine fun s h => ⟨h.window, h.acstate, ?_, h.scan, h.ht⟩
  show (BitVec.ofNat 16 v).toNat ≤ 32767
  rw [BitVec.toNat_ofNat]
  omega

theorem keeps_hufRegs_putAcstate {v : Nat} (hv : v ≤ 4) : Keeps (HufRegs s₀) (putAcstate v) := by
  refine fun s h => ⟨h.window, ?_, h.eobrun, h.scan, h.ht⟩
  show (BitVec.ofNat 3 v).toNat ≤ 4
  rw [BitVec.toNat_ofNat]
  omega

/-! ## Bits and symbols -/

/-- A byte is needed, and HUF_POS moves past it. -/
theorem keeps_hufRegs_nextByte {α : Type} {f : Byte → Proc α} (info : Nat) (hf : ∀ b, Keeps (HufRegs s₀) (f b)) :
    Keeps (HufRegs s₀) (hufNeedByte info >>= fun _ => hufFetch >>= f) := by
  intro s h
  rw [ends_bind, hufNeedByte, ends_bind, ends_get, ends_check]
  refine ⟨fun _ => h, fun hp => ?_⟩
  have hp : s.huf.pos.toNat < s.huf.endIdx.toNat := by simpa using hp
  rw [ends_bind, ends_hufFetch_elem h.window hp]
  cases s.elem .stream s.huf.pos.toNat with
  | none => exact h
  | some v => exact hf v _ ⟨h.window.advance hp s.huf.bits s.huf.bitcnt, h.acstate, h.eobrun, h.scan, h.ht⟩

theorem keeps_hufRegs_hufBit : Keeps (HufRegs s₀) hufBit := by
  have hset : ∀ c b, Keeps (HufRegs s₀) (modifyHuf fun h => { h with bits := b, bitcnt := c }) := fun c b s h =>
    ⟨h.window, h.acstate, h.eobrun, h.scan, h.ht⟩
  refine keeps_get fun s h => (ends_ite ..).2 ⟨fun _ => ⟨h.window, h.acstate, h.eobrun, h.scan, h.ht⟩, fun _ => ?_⟩
  refine keeps_hufRegs_nextByte 0 (fun b => ?_) s h
  refine keeps_bind (keeps_ite _ ?_ (keeps_pure _)) fun _ => keeps_bind (hset _ _) fun _ => keeps_pure _
  exact keeps_hufRegs_nextByte 1 fun _ => keeps_check _ _ _

theorem keeps_hufRegs_hufWalk (cs : List HufCode) (k : Nat) : ∀ len code, Keeps (HufRegs s₀) (hufWalk cs k len code) := by
  induction k with
  | zero => exact fun _ _ => keeps_refuse _
  | succ k ih =>
    refine fun len code => keeps_bind keeps_hufRegs_hufBit fun b => ?_
    dsimp only
    split
    · exact keeps_pure _
    · exact keeps_ite _ (ih _ _) (keeps_raise _ _)

theorem keeps_hufRegs_hufDecode (c : TClass) (id : Fin 4) : Keeps (HufRegs s₀) (hufDecode c id) := by
  refine keeps_get' fun s => ?_
  split
  · exact keeps_hufRegs_hufWalk _ _ _ _
  · exact keeps_raise _ _

theorem keeps_hufRegs_receiveFrom (n : Nat) : ∀ v, Keeps (HufRegs s₀) (receiveFrom n v) := by
  induction n with
  | zero => exact fun _ => keeps_pure _
  | succ n ih => exact fun _ => keeps_bind keeps_hufRegs_hufBit fun _ => ih _

theorem takeNum_lt {n v : Nat} {l rest : List Bool} (h : takeNum n l = some (v, rest)) : v < 2 ^ n := by
  unfold takeNum at h
  split at h
  · next hn =>
    obtain ⟨rfl, -⟩ := Prod.mk.inj (Option.some.inj h)
    have := numOf_lt (l.take n)
    rwa [List.length_take, Nat.min_eq_left hn] at this
  · cases h

/-- What follows Receive(n) gets a number of `n` bits. -/
theorem keeps_hufRegs_receive {α : Type} {n : Nat} {f : Nat → Proc α} (hf : ∀ v, v < 2 ^ n → Keeps (HufRegs s₀) (f v)) :
    Keeps (HufRegs s₀) (receive n >>= f) := by
  intro s h
  rw [ends_bind]
  refine ((ends_receive h.window).and (keeps_hufRegs_receiveFrom n 0 s h)).mono (fun v t ⟨⟨_, hv, _⟩, ht⟩ => ?_)
    fun _ _ he => he.2
  exact hf v (takeNum_lt hv) t ht

theorem keeps_hufRegs_extend (n : Nat) : Keeps (HufRegs s₀) (extend n) := keeps_hufRegs_receive fun _ _ => keeps_pure _

/-! ## Blocks -/

theorem keeps_hufRegs_putDc (comp : Fin 4) (diff : Int) : Keeps (HufRegs s₀) (putDc comp diff) :=
  keeps_bind (fun _ h => ⟨h.window, h.acstate, h.eobrun, h.scan, h.ht⟩) fun _ => keeps_get' fun _ =>
    keeps_putCoef keepsSpace_hufRegs _ _

theorem keeps_hufRegs_dcCategory (dct : Fin 4) : Keeps (HufRegs s₀) (dcCategory dct) :=
  keeps_bind (keeps_hufRegs_hufDecode _ _) fun _ => keeps_bind (keeps_check _ _ _) fun _ => keeps_pure _

theorem keeps_hufRegs_acCoef (k size al : Nat) : Keeps (HufRegs s₀) (acCoef k size al) :=
  keeps_bind (keeps_check _ _ _) fun _ => keeps_bind (keeps_hufRegs_extend _) fun _ => keeps_putCoef keepsSpace_hufRegs _ _

theorem keeps_hufRegs_baselineAc (act : Fin 4) (fuel : Nat) : ∀ k, Keeps (HufRegs s₀) (baselineAc act fuel k) := by
  induction fuel with
  | zero => exact fun _ => keeps_pure _
  | succ fuel ih =>
    refine fun k => keeps_ite _ (keeps_bind (keeps_hufRegs_hufDecode _ _) fun rs => ?_) (keeps_pure _)
    exact keeps_ite _ (keeps_ite _ (keeps_pure _) (ih _)) (keeps_bind (keeps_hufRegs_acCoef _ _ _) fun _ => ih _)

/-- A run of end-of-band blocks is shorter than 2^15: its exponent is below 15 (R225). -/
theorem keeps_hufRegs_acFirstLoop (act : Fin 4) (e al fuel : Nat) : ∀ k, Keeps (HufRegs s₀) (acFirstLoop act e al fuel k) := by
  induction fuel with
  | zero => exact fun _ => keeps_pure _
  | succ fuel ih =>
    refine fun k => keeps_ite _ (keeps_bind (keeps_hufRegs_hufDecode _ _) fun rs => ?_) (keeps_pure _)
    refine keeps_ite _ ?_ (keeps_bind (keeps_hufRegs_acCoef _ _ _) fun _ => ih _)
    split
    · next hr =>
      refine keeps_hufRegs_receive fun v hv => keeps_hufRegs_putEobrun ?_
      have : 2 ^ (rs / 16) ≤ 2 ^ 14 := Nat.pow_le_pow_right (by decide) (by omega)
      omega
    · exact ih _

theorem keeps_hufRegs_refineSymbol (act : Fin 4) : Keeps (HufRegs s₀) (refineSymbol act) := by
  refine keeps_bind (keeps_hufRegs_hufDecode _ _) fun rs => keeps_ite _ ?_ ?_
  · split
    · next hr =>
      refine keeps_hufRegs_receive fun v hv => keeps_bind (keeps_hufRegs_putEobrun ?_) fun _ =>
        keeps_bind (keeps_hufRegs_putAcstate le_rfl) fun _ => keeps_pure _
      have : 2 ^ (rs / 16) ≤ 2 ^ 14 := Nat.pow_le_pow_right (by decide) (by omega)
      omega
    · exact keeps_bind (keeps_hufRegs_putAcstate (by decide)) fun _ => keeps_pure _
  · refine keeps_bind (keeps_check _ _ _) fun _ => keeps_bind (keeps_hufRegs_extend _) fun v => ?_
    refine keeps_bind (fun _ h => ⟨h.window, h.acstate, h.eobrun, h.scan, h.ht⟩) fun _ => ?_
    exact keeps_bind (keeps_hufRegs_putAcstate (by split <;> decide)) fun _ => keeps_pure _

theorem keeps_hufRegs_refineAt (acstate z : Nat) (c r p : Int) : Keeps (HufRegs s₀) (refineAt acstate z c r p) := by
  have hput : ∀ v, Keeps (HufRegs s₀) (memWrite .coef z v) := fun v =>
    keeps_memWrite fun s hs ha => keepsSpace_hufRegs s z v hs ha
  refine keeps_ite _ (keeps_ite _ ?_ (keeps_ite _ ?_ (keeps_ite _ ?_ (keeps_pure _)))) (keeps_pure _)
  · exact keeps_bind (keeps_bind keeps_hufRegs_hufBit fun _ => hput _) fun _ => keeps_pure _
  · exact keeps_bind (keeps_ite _ (keeps_hufRegs_putAcstate (by split <;> decide)) (keeps_pure _)) fun _ => keeps_pure _
  · exact keeps_get' fun _ => keeps_bind (hput _) fun _ => keeps_bind (keeps_hufRegs_putAcstate (by decide)) fun _ => keeps_pure _

theorem keeps_hufRegs_refineLoop (act : Fin 4) (e : Nat) (p : Int) (fuel : Nat) :
    ∀ k r, Keeps (HufRegs s₀) (refineLoop act e p fuel k r) := by
  induction fuel with
  | zero => exact fun _ _ => keeps_pure _
  | succ fuel ih =>
    refine fun k r => keeps_ite _ (keeps_get' fun s => keeps_bind (keeps_memRead _ _) fun c => ?_) (keeps_pure _)
    exact keeps_ite _ (keeps_bind (keeps_hufRegs_refineSymbol act) fun _ => ih _ _)
      (keeps_bind (keeps_hufRegs_refineAt _ _ _ _ _) fun _ => ih _ _)

/-- HUF_EOBRUN counts down, and from 0 it gets the free value of 15 bits (log 11). -/
theorem keeps_hufRegs_countDownEobrun : Keeps (HufRegs s₀) countDownEobrun := by
  refine keeps_get fun s h => (ends_ite ..).2 ⟨fun _ => ?_, fun _ => ?_⟩
  · refine keeps_bind (keeps_modify (f := fun t => t.setFreeCtr (t.freeCtr + 1)) fun t => keepsFree_hufRegs t _) (fun _ => ?_) s h
    exact keeps_hufRegs_putEobrun (BitVec.isLt _)
  · have := h.eobrun
    exact keeps_hufRegs_putEobrun (by omega) s h

theorem keeps_hufRegs_refineEnd : Keeps (HufRegs s₀) refineEnd :=
  keeps_get' fun _ => keeps_ite _ (keeps_bind keeps_hufRegs_countDownEobrun fun _ => keeps_get' fun _ =>
    keeps_ite _ (keeps_hufRegs_putAcstate (by decide)) (keeps_pure _)) (keeps_check _ _ _)

end Walk

/-! ## The commands of a ready unit -/

/-- The command needs a ready unit. -/
theorem keeps_hufInvs_ready {p : Proc Unit} (hp : ∀ s₀, Keeps (HufRegs s₀) p) :
    Keeps HufInvs (needReady .huf >>= fun _ => p) :=
  keeps_needReady_bind (fun _ h => h.regs) (fun _ _ h ht => ht.invs h) hp

theorem keeps_hufInvs_hufDecodeBody (c : TClass) (id : Fin 4) : Keeps HufInvs (hufDecodeBody c id) :=
  keeps_hufInvs_ready fun _ => keeps_bind (keeps_needTable _ _) fun _ => keeps_bind (keeps_hufRegs_hufDecode _ _) fun _ =>
    keeps_putRes keepsRes_hufRegs _

theorem keeps_hufInvs_hufReceiveBody (n : Nat) : Keeps HufInvs (hufReceiveBody n) :=
  keeps_hufInvs_ready fun _ => keeps_bind (keeps_check _ _ _) fun _ => keeps_hufRegs_receive fun _ _ =>
    keeps_putRes keepsRes_hufRegs _

theorem keeps_hufInvs_hufExtendBody (n : Nat) : Keeps HufInvs (hufExtendBody n) :=
  keeps_hufInvs_ready fun _ => keeps_bind (keeps_check _ _ _) fun _ => keeps_bind (keeps_hufRegs_extend _) fun _ =>
    keeps_putRes keepsRes_hufRegs _

theorem keeps_hufInvs_hufBlockBaselineBody (dct act comp : Fin 4) : Keeps HufInvs (hufBlockBaselineBody dct act comp) := by
  refine keeps_hufInvs_ready fun _ => keeps_bind keeps_checkBlock fun _ => ?_
  refine keeps_bind (keeps_needTable _ _) fun _ => keeps_bind (keeps_needTable _ _) fun _ => ?_
  refine keeps_bind (keeps_hufRegs_dcCategory _) fun _ => keeps_bind (keeps_hufRegs_extend _) fun _ => ?_
  exact keeps_bind (keeps_hufRegs_putDc _ _) fun _ => keeps_hufRegs_baselineAc _ _ _

theorem keeps_hufInvs_hufDcFirstBody (dct comp : Fin 4) : Keeps HufInvs (hufDcFirstBody dct comp) := by
  refine keeps_hufInvs_ready fun _ => keeps_bind keeps_checkBlock fun _ => keeps_bind (keeps_needTable _ _) fun _ => ?_
  refine keeps_bind (keeps_hufRegs_dcCategory _) fun _ => keeps_bind (keeps_hufRegs_extend _) fun _ => ?_
  exact keeps_get' fun _ => keeps_hufRegs_putDc _ _

theorem keeps_hufInvs_hufDcRefineBody : Keeps HufInvs hufDcRefineBody := by
  refine keeps_hufInvs_ready fun _ => keeps_bind keeps_checkBlock fun _ => keeps_get' fun s => ?_
  refine keeps_bind (keeps_memRead _ _) fun _ => keeps_bind keeps_hufRegs_hufBit fun _ => ?_
  exact keeps_memWrite fun s hs ha => keepsSpace_hufRegs s _ _ hs ha

theorem keeps_hufInvs_hufAcFirstBody (act : Fin 4) : Keeps HufInvs (hufAcFirstBody act) := by
  refine keeps_hufInvs_ready fun _ => keeps_bind keeps_checkBlock fun _ => keeps_bind (keeps_needTable _ _) fun _ => ?_
  refine keeps_get fun s h => (ends_ite ..).2 ⟨fun _ => ?_, fun _ => keeps_hufRegs_acFirstLoop _ _ _ _ _ s h⟩
  have := h.eobrun
  exact keeps_hufRegs_putEobrun (by omega) s h

theorem keeps_hufInvs_hufAcRefineBody (act : Fin 4) : Keeps HufInvs (hufAcRefineBody act) := by
  refine keeps_hufInvs_ready fun _ => keeps_bind keeps_checkBlock fun _ => keeps_bind (keeps_needTable _ _) fun _ => ?_
  exact keeps_get' fun s => keeps_bind (keeps_hufRegs_refineLoop _ _ _ _ _ _) fun _ => keeps_hufRegs_refineEnd

theorem keeps_hufInvs_hufRestartBody : Keeps HufInvs hufRestartBody := by
  refine keeps_hufInvs_ready fun s₀ => keeps_get fun s h => ?_
  rw [ends_bind, ends_check]
  refine ⟨fun _ => h, fun hp => ⟨⟨?_, h.window.2⟩, Nat.zero_le _, Nat.zero_le _, h.scan, h.ht⟩⟩
  exact Nat.le_of_not_lt (of_decide_eq_false hp)

/-! ## The set-up commands -/

theorem keeps_hufInvs_hufInitBody : Keeps HufInvs hufInitBody := by
  refine keeps_checkWindow_bind fun s h hpos hend => ?_
  rw [ends_bind, ends_get, ends_bind, ends_modifyHuf, ends_modifyFlags]
  exact HufRegs.invs (s := s) ⟨⟨hpos, hend⟩, Nat.zero_le _, Nat.zero_le _, rfl, rfl⟩ h

/-- HUF.SCANCFG, its fields as wide as R102 makes them, checks the rest (R216). -/
theorem keeps_hufInvs_hufScancfgBody {ss se al : Nat} (hse : se < 64) : Keeps HufInvs (hufScancfgBody ss se al) := by
  intro s h
  rw [hufScancfgBody, ends_bind, ends_check]
  refine ⟨fun _ => h, fun hc => ?_⟩
  have hc := of_decide_eq_false hc
  rw [ends_modifyHuf]
  have hscan : ScanInv (s.setHuf { s.huf with scan := BitVec.ofNat 16 (al * 2 ^ 12 + se * 2 ^ 6 + ss) }) := by
    simp only [ScanInv, HufUnit.ss, HufUnit.se, HufUnit.al, State.setHuf_huf, BitVec.toNat_ofNat]
    omega
  refine ⟨hscan, fun hr => ?_, h.tables⟩
  have hregs := h.regs hr
  exact hufInv_of (s := s.setHuf _) hregs.window hregs.acstate hregs.eobrun hscan hr

/-- What HUF.LOADTABLE puts into a slot is a table it accepts (R213). -/
theorem tableOk_loaded {cnt val : List Byte} (hcnt : cnt.length = 16) (hval : val.length = histogramSum cnt)
    (hsum : histogramSum cnt ≤ 256) (hfit : overfullAt cnt 1 0 = none) : TableOk { count := countVector cnt, val := val } := by
  have hlist : (countVector cnt).toList = cnt := by
    refine List.ext_getElem (by simp [hcnt]) fun n h1 h2 => ?_
    simp [countVector, h2]
  rw [histogramSum_eq] at hval hsum
  rw [overfullAt_eq_none_iff, hcnt] at hfit
  show val.length = codeCount (countVector cnt).toList ∧ codeCount (countVector cnt).toList ≤ 256 ∧
    CodesFit (countVector cnt).toList 16
  rw [hlist]
  exact ⟨hval, hsum, hfit⟩

theorem tablesInv_set {s : State} (h : TablesInv s) (k : Fin 8) {t : HufTable} (ht : TableOk t) :
    TablesInv (s.setHt (s.ht.set k (some t))) := by
  intro j u hu
  simp only [State.setHt_ht, Fin.getElem_fin, Vector.getElem_set] at hu
  split at hu
  · cases hu
    exact ht
  · exact h j u hu

/-- A run of reads, wherever it goes, changes nothing and answers as many elements as it was asked for. -/
theorem ends_memReadRun_length {sp : Space} {stride : Nat} {s : State} (n : Nat) : ∀ a,
    Ends (memReadRun sp a stride n) s (fun l t => t = s ∧ l.length = n) fun _ t => t = s := by
  induction n with
  | zero => exact fun _ => ⟨rfl, rfl⟩
  | succ n ih =>
    intro a
    rw [memReadRun, ends_bind]
    refine (keeps_memRead (I := (· = s)) sp a s rfl).mono (fun v t ht => ?_) fun _ _ ht => ht
    subst ht
    rw [ends_bind]
    exact (ih _).mono (fun l u ⟨hu, hl⟩ => ⟨hu, congrArg Nat.succ hl⟩) fun _ _ hu => hu

theorem keeps_hufInvs_hufLoadtableBody (c : TClass) (id : Fin 4) : Keeps HufInvs (hufLoadtableBody c id) := by
  intro s h
  rw [hufLoadtableBody, ends_bind, ends_get, ends_bind, ends_check]
  refine ⟨fun _ => h, fun _ => ?_⟩
  rw [ends_bind]
  refine (ends_memReadRun_length 16 _).mono (fun cnt t ⟨ht, hcnt⟩ => ?_) fun _ t ht => ht ▸ h
  subst ht
  simp only [ends_bind, ends_check]
  refine ⟨fun _ => h, fun hsum => ⟨fun _ => h, fun _ => ⟨fun _ => h, fun hfit => ?_⟩⟩⟩
  refine (ends_memReadRun_length _ _).mono (fun val u ⟨hu, hval⟩ => ?_) fun _ u hu => hu ▸ h
  subst hu
  have htable : TableOk { count := countVector cnt, val := val } :=
    tableOk_loaded hcnt hval (Nat.le_of_not_lt (of_decide_eq_false hsum)) (by simpa using hfit)
  exact ⟨h.scan, h.huf, tablesInv_set h.tables _ htable⟩

/-! ## The other commands, and the step -/

/-- The registers after reset. -/
theorem HufInvs.of_clear {s : State} (p : Params) (hh : s.huf = (State.powerOn p).huf) (ht : s.ht = (State.powerOn p).ht)
    (hr : s.flags.hufRdy = false) : HufInvs s := by
  refine ⟨(scanInv_powerOn p).congr (by rw [hh]), fun h => absurd (hr.symm.trans h) (by decide), ?_⟩
  rw [TablesInv, ht]
  exact tablesInv_powerOn p

/-- A command that the decoder gives, so that HUF.SCANCFG has an SE of six bits, keeps the invariants. -/
theorem exec_keeps_hufInvs {i : Instr} {s t : State} (hse : ∀ ss se al, i = .hufScancfg ss se al → se < 64) (h : HufInvs s)
    (he : exec i s = .next t) : HufInvs t := by
  have run : ∀ {p}, Keeps HufInvs p → runCommand p s = .next t → HufInvs t := fun hp =>
    keeps_runCommand hp (fun _ _ _ hu => hu.congr rfl rfl rfl rfl) h
  by_cases hi : i = .sysReset
  · subst hi
    cases he
    exact .of_clear s.params rfl rfl rfl
  by_cases h3 : unitOfInstr i = 3
  · cases i with
    | hufInit => exact run keeps_hufInvs_hufInitBody he
    | hufLoadtable c id => exact run (keeps_hufInvs_hufLoadtableBody c id) he
    | hufScancfg ss se al => exact run (keeps_hufInvs_hufScancfgBody (hse ss se al rfl)) he
    | hufRestart => exact run keeps_hufInvs_hufRestartBody he
    | hufDecode c id => exact run (keeps_hufInvs_hufDecodeBody c id) he
    | hufReceive n => exact run (keeps_hufInvs_hufReceiveBody n) he
    | hufExtend n => exact run (keeps_hufInvs_hufExtendBody n) he
    | hufBlockBaseline dct act comp => exact run (keeps_hufInvs_hufBlockBaselineBody dct act comp) he
    | hufDcFirst dct comp => exact run (keeps_hufInvs_hufDcFirstBody dct comp) he
    | hufDcRefine => exact run keeps_hufInvs_hufDcRefineBody he
    | hufAcFirst act => exact run (keeps_hufInvs_hufAcFirstBody act) he
    | hufAcRefine act => exact run (keeps_hufInvs_hufAcRefineBody act) he
    | _ => simp [unitOfInstr] at h3
  · obtain ⟨hhuf, hht⟩ := (unitRegistersOwned i s t he hi).2.2.1 h3
    exact h.congr hhuf hht (exec_hufRdy he hi h3) (operandsKept i s t he).2.1

/-- SE is six bits of the word (R102). -/
theorem decode_hufScancfg_se {w : Word} {ss se al : Nat} (h : decode w = some (.hufScancfg ss se al)) : se < 64 := by
  unfold decode at h
  split at h <;> simp only [Option.ite_none_right_eq_some, Option.some.injEq, reduceCtorEq, and_false,
    Instr.hufScancfg.injEq] at h
  obtain ⟨-, -, rfl, -⟩ := h
  exact Nat.mod_lt _ (by decide)

/-- The unit registers, the flags but FAULT, and the sizes are as they were. -/
structure UnitsKept (s t : State) : Prop where
  mq : t.mq = s.mq
  br : t.br = s.br
  huf : t.huf = s.huf
  ht : t.ht = s.ht
  cc : t.cc = s.cc
  params : t.params = s.params
  flags : t.flags = { s.flags with fault := t.flags.fault }

/-- What a step can do: execute a command that the decoder gives, reset the block, or leave the units alone (R20, R113). -/
theorem step_cases {s t : State} (h : step s = .next t) :
    (∃ w i rest, decode w = some i ∧ exec i { s with pending := rest, cmd := w } = .next t) ∨
    (∃ rest, t = powerOnReset { s with pending := rest }) ∨ UnitsKept s t := by
  cases hp : s.pending with
  | nil =>
    rw [step, hp] at h
    cases h
    exact .inr (.inr ⟨rfl, rfl, rfl, rfl, rfl, rfl, rfl⟩)
  | cons op rest =>
    rw [step_pending hp] at h
    cases op with
    | regRead r => cases h; exact .inr (.inr ⟨rfl, rfl, rfl, rfl, rfl, rfl, rfl⟩)
    | powerOn => cases h; exact .inr (.inl ⟨rest, rfl⟩)
    | regWrite r v =>
      simp only [hostStep, regWrite] at h
      split at h
      · simp only [issueCommand] at h
        split at h
        · cases h; exact .inr (.inr ⟨rfl, rfl, rfl, rfl, rfl, rfl, rfl⟩)
        · split at h
          · cases h; exact .inr (.inr ⟨rfl, rfl, rfl, rfl, rfl, rfl, rfl⟩)
          · next i hi => exact .inl ⟨v, i, rest, hi, h⟩
      all_goals cases h; exact .inr (.inr ⟨rfl, rfl, rfl, rfl, rfl, rfl, rfl⟩)
    | memRead sp a =>
      simp only [hostStep, hostMemRead] at h
      split at h
      · cases h
      · split at h <;> cases h <;> exact .inr (.inr ⟨rfl, rfl, rfl, rfl, rfl, rfl, rfl⟩)
    | memWrite sp a v =>
      simp only [hostStep, hostMemWrite] at h
      split at h
      · cases h
      · split at h
        · cases h
        · cases h
          exact .inr (.inr ⟨by simp, by simp, by simp, by simp, by simp, by simp, by simp⟩)

/-- Settles O20: HUF.INIT opens a window inside STREAM, the commands that read bits keep the registers in order, also where they
stop; HUF.SCANCFG and HUF.LOADTABLE check what they set, and nothing else touches the unit. -/
theorem stepKeepsHuf : Obligations.StepKeepsHuf := by
  intro s t hscan hhuf htables hstep
  have h : HufInvs s := ⟨hscan, hhuf, htables⟩
  suffices HufInvs t from ⟨this.scan, this.huf, this.tables⟩
  obtain ⟨w, i, rest, hw, he⟩ | ⟨rest, rfl⟩ | hkept := step_cases hstep
  · have hlatched : HufInvs { s with pending := rest, cmd := w } := h.congr rfl rfl rfl rfl
    exact exec_keeps_hufInvs (fun _ _ _ hi => decode_hufScancfg_se (hw.trans (congrArg some hi))) hlatched he
  · exact .of_clear s.params rfl rfl rfl
  · exact h.congr hkept.huf hkept.ht (by rw [hkept.flags]) hkept.params

end Sys2Proof.Machine
end

section
/-! O12, O17: which memory spaces change. A step writes only elements that their space has, and a command only spaces that the access
summary lets it write (20_memory.md R70, R75, R86). -/

namespace Sys2Proof.Machine

/-- `I` speaks of the memory spaces and the sizes alone. -/
def OfMemories (I : State → Prop) : Prop :=
  ∀ u v : State, (∀ sp, v.mem sp = u.mem sp) → v.params = u.params → I u → I v

/-- A property of the memory spaces is kept by a command when the writes that the summary lists keep it. -/
theorem exec_keeps_ofMemories {I : State → Prop} (hI : OfMemories I) {i : Instr} {s t : State} (he : exec i s = .next t)
    (hw : ∀ sp, accessOf i sp = .w ∨ accessOf i sp = .rw → KeepsSpace I sp) (hs : I s) : I t :=
  exec_keeps i s t he hs (fun u _ _ => hI u _ (by simp) rfl) (fun _ u => hI u _ (by simp) rfl)
    (fun _ u _ => hI u _ (by simp) rfl) (fun _ u _ => hI u _ (by simp) rfl)
    (fun _ => ⟨fun u _ => hI u _ (by simp) rfl, fun u _ => hI u _ (by simp) rfl, fun u _ => hI u _ (by simp) rfl⟩)
    (fun _ u _ => hI u _ (by simp) rfl) (fun u _ _ => hI u _ (by simp) rfl) (fun _ u _ => hI u _ (by simp) rfl) hw

theorem ofMemories_memoriesCanonical : OfMemories MemoriesCanonical := fun _ _ hm hp h => memoriesCanonical_congr h hm hp

/-- Settles O17: commands and the host write only elements that a space has, and power-on reset empties every space. -/
theorem stepKeepsMemories : Obligations.StepKeepsMemories := by
  have hwrite : ∀ sp, KeepsSpace MemoriesCanonical sp := fun sp s a v h ha => memoriesCanonical_write s h sp a v ha
  have same := ofMemories_memoriesCanonical
  refine step_next (fun i s t h he => exec_keeps_ofMemories same he (fun sp _ => hwrite sp) h)
    (fun s _ _ => same s _ (by simp) rfl) (fun s _ _ _ _ _ _ _ _ => same s _ (fun sp => by cases sp <;> rfl) rfl)
    (fun s sp a v h _ ha => hwrite sp s a v h ha) fun s _ => ?_
  exact same _ _ (fun sp => by cases sp <;> rfl) rfl (memoriesCanonical_powerOn s.params)

/-- Settles O12: no update of a command is a write to a space that the summary lets it read at most. -/
theorem spacesWrittenOnlyAsListed : Obligations.SpacesWrittenOnlyAsListed := by
  intro i s t he sp hread a
  refine exec_keeps_ofMemories (I := fun u => u.elem sp a = s.elem sp a) (fun u v hm _ h => ?_) he (fun sp' hw u b x h _ => ?_) rfl
  · exact (congrArg (fun m => Memory.read? m a) (hm sp)).trans h
  · have hne : sp ≠ sp' := by
      rintro rfl
      obtain hr | hr := hread <;> simp [hr] at hw
    exact (State.elem_setMem_other u _ hne a).trans h

end Sys2Proof.Machine
end

section
/-! O13: a procedure is blind to a space when other contents there change neither what it does nor themselves. Every construct passes
that on, and an element access is blind to the other spaces; so each procedure is blind to the spaces it does not name
(20_memory.md R86). -/

namespace Sys2Proof.Machine

variable {α β : Type} {sp : Space}

/-- A result with other contents in one space. -/
def withMem (sp : Space) (m : Memory sp.width) : EStateM.Result Stop State α → EStateM.Result Stop State α
  | .ok a t => .ok a (t.setMem sp m)
  | .error e t => .error e (t.setMem sp m)

/-- With other contents in `sp`, `p` does the same and leaves them alone. -/
def Blind (sp : Space) (p : Proc α) : Prop := ∀ s m, p (s.setMem sp m) = withMem sp m (p s)

/-! ## Constructs -/

theorem blind_pure (a : α) : Blind sp (pure a) := fun _ _ => rfl

theorem blind_raise (f : FaultName) (info : Nat) : Blind sp (raise f info : Proc α) := fun _ _ => rfl

theorem blind_refuse (r : Refusal) : Blind sp (refuse r : Proc α) := fun _ _ => rfl

theorem blind_bind {p : Proc β} {f : β → Proc α} (hp : Blind sp p) (hf : ∀ b, Blind sp (f b)) : Blind sp (p >>= f) := by
  intro s m
  have e : ∀ u, (p >>= f) u = EStateM.bind p f u := fun _ => rfl
  rw [e, e, EStateM.bind, EStateM.bind, hp s m]
  cases p s with
  | ok b t => exact hf b t m
  | error e t => rfl

/-- A look at the state that does not depend on the space. -/
theorem blind_get {f : State → Proc α} (h : ∀ s, Blind sp (f s)) (hf : ∀ s m, f (s.setMem sp m) = f s := by simp) :
    Blind sp (get >>= f) := fun s m => (congrFun (hf s m) _).trans (h s s m)

theorem blind_ite (c : Prop) [Decidable c] {p q : Proc α} (hp : Blind sp p) (hq : Blind sp q) :
    Blind sp (if c then p else q) := by split <;> assumption

theorem blind_check (b : Bool) (f : FaultName) (info : Nat) : Blind sp (check b f info) :=
  blind_ite _ (blind_raise f info) (blind_pure ())

theorem blind_modify {f : State → State} (h : ∀ s m, f (s.setMem sp m) = (f s).setMem sp m) : Blind sp (modify f) :=
  fun s m => congrArg (EStateM.Result.ok PUnit.unit) (h s m)

theorem blind_modifyFlags (f : Flags → Flags) : Blind sp (modifyFlags f) := blind_modify fun _ _ => by cases sp <;> rfl

theorem blind_modifyMq (f : MqUnit → MqUnit) : Blind sp (modifyMq f) := blind_modify fun _ _ => by cases sp <;> rfl

theorem blind_modifyBr (f : BrUnit → BrUnit) : Blind sp (modifyBr f) := blind_modify fun _ _ => by cases sp <;> rfl

theorem blind_modifyHuf (f : HufUnit → HufUnit) : Blind sp (modifyHuf f) := blind_modify fun _ _ => by cases sp <;> rfl

theorem blind_modifyCc (f : CcUnit → CcUnit) : Blind sp (modifyCc f) := blind_modify fun _ _ => by cases sp <;> rfl

theorem blind_putRes (v : Word) : Blind sp (putRes v) := blind_modify fun _ _ => by cases sp <;> rfl

/-! ## Element accesses -/

theorem blind_memRead {sp' : Space} (hne : sp' ≠ sp) (a : Nat) : Blind sp (memRead sp' a) := by
  refine blind_get (fun s => blind_ite _ (blind_refuse _) ?_) fun s m => ?_
  · cases s.elem sp' a
    · exact blind_raise _ _
    · exact blind_pure _
  · rw [State.setMem_sizeOf, State.elem_setMem_other _ _ hne]

theorem State.setMem_comm (s : State) {sp' : Space} (hne : sp' ≠ sp) (m : Memory sp.width) (n : Memory sp'.width) :
    (s.setMem sp m).setMem sp' n = (s.setMem sp' n).setMem sp m := by
  cases sp <;> cases sp' <;> simp_all [State.setMem]

theorem blind_memWrite {sp' : Space} (hne : sp' ≠ sp) (a : Nat) (v : BitVec sp'.width) : Blind sp (memWrite sp' a v) := by
  intro s m
  have e : ∀ u : State, memWrite sp' a v u = (if u.sizeOf sp' ≤ a then refuse .blockAccessOutOfRange else
    set (u.setMem sp' ((u.mem sp').write a v)) : Proc Unit) u := fun _ => rfl
  rw [e, e, State.setMem_sizeOf, State.setMem_mem_other _ _ hne, s.setMem_comm hne]
  split <;> rfl

theorem blind_memReadRun {sp' : Space} (hne : sp' ≠ sp) (stride n : Nat) : ∀ a, Blind sp (memReadRun sp' a stride n) := by
  induction n with
  | zero => exact fun _ => blind_pure _
  | succ n ih => exact fun a => blind_bind (blind_memRead hne a) fun _ => blind_bind (ih _) fun _ => blind_pure _

theorem blind_memWriteRun {sp' : Space} (hne : sp' ≠ sp) (stride : Nat) (l : List (BitVec sp'.width)) :
    ∀ a, Blind sp (memWriteRun sp' a stride l) := by
  induction l with
  | nil => exact fun _ => blind_pure _
  | cons v l ih => exact fun a => blind_bind (blind_memWrite hne a v) fun _ => ih _

/-! ## Checks -/

/-- The operands and the sizes are no part of the spaces. -/
@[simp] theorem badWindow_setMem (s : State) (m : Memory sp.width) : badWindow (s.setMem sp m) = badWindow s := by simp [badWindow]

@[simp] theorem tblIndex_setMem (s : State) (m : Memory sp.width) (i : Nat) : tblIndex (s.setMem sp m) i = tblIndex s i := by
  simp [tblIndex]

@[simp] theorem blockBase_setMem (s : State) (m : Memory sp.width) : blockBase (s.setMem sp m) = blockBase s := by
  simp [blockBase]

@[simp] theorem coefIndex_setMem (s : State) (m : Memory sp.width) (k : Nat) : coefIndex (s.setMem sp m) k = coefIndex s k := by
  simp [coefIndex]

@[simp] theorem bitsLeft_setMem (s : State) (m : Memory sp.width) : (s.setMem sp m).bitsLeft = s.bitsLeft := by
  simp [State.bitsLeft]

@[simp] theorem columns_setMem (s : State) (m : Memory sp.width) : (s.setMem sp m).columns = s.columns := by simp [State.columns]

@[simp] theorem lastRow_setMem (s : State) (m : Memory sp.width) : lastRow (s.setMem sp m) = lastRow s := by simp [lastRow]

theorem blind_checkWindow : Blind sp checkWindow := blind_get fun _ => blind_check _ _ _

theorem blind_checkBlock : Blind sp checkBlock := blind_get fun _ => blind_check _ _ _

theorem blind_needReady (u : ReadyUnit) : Blind sp (needReady u) := blind_get fun _ => blind_check _ _ _

theorem blind_needTable (c : TClass) (id : Fin 4) : Blind sp (needTable c id) := blind_get fun _ => blind_check _ _ _

end Sys2Proof.Machine
end

section
/-! O13, the units that read bits: a procedure that names STREAM alone is blind to every other space, the HUF blocks to all but STREAM
and COEF, MQ.READBIT to all but STREAM and CX (20_memory.md R86). -/

namespace Sys2Proof.Machine

variable {sp : Space}

/-! ## MQ -/

section Mq

variable (h : .stream ≠ sp)
include h

theorem blind_mqByte (i : Nat) : Blind sp (mqByte i) :=
  blind_get fun _ => blind_ite _ (blind_bind (blind_memRead h _) fun _ => blind_pure _) (blind_pure _)

theorem blind_byteIn : Blind sp byteIn := by
  refine blind_get fun s => blind_bind (blind_mqByte h _) fun b => blind_ite _ ?_ ?_
  · refine blind_bind (blind_mqByte h _) fun nb => blind_ite _ (blind_modifyMq _) ?_
    exact blind_bind (blind_modifyMq _) fun _ => blind_bind (blind_mqByte h _) fun _ => blind_modifyMq _
  · exact blind_bind (blind_modifyMq _) fun _ => blind_bind (blind_mqByte h _) fun _ => blind_modifyMq _

theorem blind_mqInitBody : Blind sp mqInitBody := by
  refine blind_bind blind_checkWindow fun _ => blind_get fun s => ?_
  refine blind_bind (blind_modifyMq _) fun _ => blind_bind (blind_modifyMq _) fun _ => ?_
  refine blind_bind (blind_mqByte h _) fun _ => blind_bind (blind_modifyMq _) fun _ => ?_
  exact blind_bind (blind_byteIn h) fun _ => blind_bind (blind_modifyMq _) fun _ => blind_modifyFlags _

theorem blind_renormD (k : Nat) : ∀ a, Blind sp (renormD k a) := by
  induction k with
  | zero => exact fun _ => blind_refuse _
  | succ k ih =>
    refine fun a => blind_get fun s => blind_bind (blind_ite _ (blind_byteIn h) (blind_pure _)) fun _ => ?_
    exact blind_bind (blind_modifyMq _) fun _ => blind_ite _ (blind_modifyMq _) (ih _)

theorem blind_mqReadbitBody (hc : .cx ≠ sp) (cxi : Nat) : Blind sp (mqReadbitBody cxi) := by
  have hfin : ∀ a o, Blind sp (mqFinish cxi a o) := fun a o =>
    blind_bind (blind_renormD h 15 a) fun _ => blind_bind (blind_memWrite hc _ _) fun _ => blind_putRes _
  refine blind_bind (blind_needReady _) fun _ => blind_get fun s => blind_bind (blind_check _ _ _) fun _ => ?_
  refine blind_bind (blind_memRead hc _) fun e => blind_bind (blind_check _ _ _) fun _ => blind_get fun t => ?_
  refine blind_ite _ (hfin _ _) (blind_bind (blind_modifyMq _) fun _ => blind_ite _ ?_ (hfin _ _))
  exact blind_bind (blind_modifyMq _) fun _ => blind_putRes _

end Mq

/-! ## BR -/

theorem blind_brOpen (mode : BrMode) : Blind sp (brOpen mode) :=
  blind_get fun _ => blind_bind (blind_modifyBr _) fun _ => blind_modifyFlags _

theorem blind_brLPos : Blind sp brLPos := by
  refine blind_get fun s => ?_
  cases s.br.mode
  · exact blind_bind (blind_check _ _ _) fun _ => blind_pure _
  · exact blind_bind (blind_check _ _ _) fun _ => blind_pure _

theorem blind_brAlignBody : Blind sp brAlignBody := by
  refine blind_bind (blind_needReady _) fun _ => blind_get fun s => ?_
  cases s.br.mode
  · exact blind_modifyBr _
  · exact blind_modifyBr _

theorem blind_brSkipbytesBody : Blind sp brSkipbytesBody :=
  blind_bind (blind_needReady _) fun _ => blind_bind blind_brLPos fun _ => blind_get fun _ => blind_modifyBr _

theorem blind_checkPlain : Blind sp checkPlain := blind_get fun _ => blind_check _ _ _

section Br

variable (h : .stream ≠ sp)
include h

theorem blind_brFill (n : Nat) : Blind sp (brFill n) := by
  suffices ∀ k, Blind sp (brFillLoop n k) from this n
  intro k
  induction k with
  | zero => exact blind_pure _
  | succ k ih =>
    refine blind_get fun s => blind_ite _ (blind_bind ?_ fun _ => ih) (blind_pure _)
    exact blind_get fun _ => blind_bind (blind_memRead h _) fun _ => blind_modifyBr _

theorem blind_brPeek (n : Nat) : Blind sp (brPeek n) := blind_bind (blind_brFill h n) fun _ => blind_get fun _ => blind_pure _

theorem blind_brSkip (n : Nat) : Blind sp (brSkip n) := blind_bind (blind_brFill h n) fun _ => blind_modifyBr _

theorem blind_brReadbitsBody (n : Nat) : Blind sp (brReadbitsBody n) := by
  refine blind_bind (blind_needReady _) fun _ => blind_bind (blind_check _ _ _) fun _ => ?_
  refine blind_bind (blind_brFill h n) fun _ => blind_get fun s => blind_bind (blind_check _ _ _) fun _ => ?_
  exact blind_bind (blind_modifyBr _) fun _ => blind_putRes _

theorem blind_brPeekbitsBody (n : Nat) : Blind sp (brPeekbitsBody n) :=
  blind_bind (blind_needReady _) fun _ => blind_bind (blind_check _ _ _) fun _ => blind_bind blind_checkPlain fun _ =>
    blind_bind (blind_brPeek h n) fun _ => blind_putRes _

theorem blind_brSkipbitsBody (n : Nat) : Blind sp (brSkipbitsBody n) :=
  blind_bind (blind_needReady _) fun _ => blind_bind (blind_check _ _ _) fun _ => blind_bind blind_checkPlain fun _ =>
    blind_brSkip h n

theorem blind_brPeekmarkerBody (mark : Byte) : Blind sp (brPeekmarkerBody mark) := by
  refine blind_bind (blind_needReady _) fun _ => blind_bind blind_brLPos fun l => blind_bind ?_ fun _ => blind_putRes _
  refine blind_get fun s => blind_ite _ (blind_bind (blind_memRead h _) fun b => ?_) (blind_pure _)
  exact blind_ite _ (blind_bind (blind_memRead h _) fun _ => blind_pure _) (blind_pure _)

end Br

/-! ## HUF -/

section Huf

variable (h : .stream ≠ sp)
include h

theorem blind_hufFetch : Blind sp hufFetch :=
  blind_get fun _ => blind_bind (blind_memRead h _) fun _ => blind_bind (blind_modifyHuf _) fun _ => blind_pure _

theorem blind_hufBit : Blind sp hufBit := by
  have hneed : ∀ info, Blind sp (hufNeedByte info) := fun _ => blind_get fun _ => blind_check _ _ _
  have hcompanion : Blind sp hufCompanion :=
    blind_bind (hneed 1) fun _ => blind_bind (blind_hufFetch h) fun _ => blind_check _ _ _
  refine blind_get fun s => blind_ite _ (blind_bind (blind_modifyHuf _) fun _ => blind_pure _) ?_
  refine blind_bind (hneed 0) fun _ => blind_bind (blind_hufFetch h) fun b => ?_
  exact blind_bind (blind_ite _ hcompanion (blind_pure _)) fun _ => blind_bind (blind_modifyHuf _) fun _ => blind_pure _

theorem blind_hufWalk (cs : List HufCode) (k : Nat) : ∀ len code, Blind sp (hufWalk cs k len code) := by
  induction k with
  | zero => exact fun _ _ => blind_refuse _
  | succ k ih =>
    refine fun len code => blind_bind (blind_hufBit h) fun b => ?_
    dsimp only
    split
    · exact blind_pure _
    · exact blind_ite _ (ih _ _) (blind_raise _ _)

theorem blind_hufDecode (c : TClass) (id : Fin 4) : Blind sp (hufDecode c id) := by
  refine blind_get fun s => ?_
  cases s.ht[slotOf c id]
  · exact blind_raise _ _
  · exact blind_hufWalk h _ _ _ _

theorem blind_receive (n : Nat) : Blind sp (receive n) := by
  suffices ∀ v, Blind sp (receiveFrom n v) from this 0
  induction n with
  | zero => exact fun _ => blind_pure _
  | succ n ih => exact fun v => blind_bind (blind_hufBit h) fun _ => ih _

theorem blind_extend (n : Nat) : Blind sp (extend n) := blind_bind (blind_receive h n) fun _ => blind_pure _

theorem blind_hufDecodeBody (c : TClass) (id : Fin 4) : Blind sp (hufDecodeBody c id) :=
  blind_bind (blind_needReady _) fun _ => blind_bind (blind_needTable c id) fun _ =>
    blind_bind (blind_hufDecode h c id) fun _ => blind_putRes _

theorem blind_hufReceiveBody (n : Nat) : Blind sp (hufReceiveBody n) :=
  blind_bind (blind_needReady _) fun _ => blind_bind (blind_check _ _ _) fun _ =>
    blind_bind (blind_receive h n) fun _ => blind_putRes _

theorem blind_hufExtendBody (n : Nat) : Blind sp (hufExtendBody n) :=
  blind_bind (blind_needReady _) fun _ => blind_bind (blind_check _ _ _) fun _ =>
    blind_bind (blind_extend h n) fun _ => blind_putRes _

end Huf

theorem blind_hufInitBody : Blind sp hufInitBody :=
  blind_bind blind_checkWindow fun _ => blind_get fun _ => blind_bind (blind_modifyHuf _) fun _ => blind_modifyFlags _

theorem blind_hufScancfgBody (ss se al : Nat) : Blind sp (hufScancfgBody ss se al) :=
  blind_bind (blind_check _ _ _) fun _ => blind_modifyHuf _

theorem blind_hufRestartBody : Blind sp hufRestartBody :=
  blind_bind (blind_needReady _) fun _ => blind_get fun _ => blind_bind (blind_check _ _ _) fun _ => blind_modifyHuf _

theorem blind_hufLoadtableBody (ht : .tbl ≠ sp) (c : TClass) (id : Fin 4) : Blind sp (hufLoadtableBody c id) := by
  refine blind_get fun s => blind_bind (blind_check _ _ _) fun _ => blind_bind (blind_memReadRun ht _ _ _) fun cnt => ?_
  refine blind_bind (blind_check _ _ _) fun _ => blind_bind (blind_check _ _ _) fun _ => ?_
  refine blind_bind (blind_check _ _ _) fun _ => blind_bind (blind_memReadRun ht _ _ _) fun val => ?_
  exact blind_modify fun _ _ => by cases sp <;> rfl

/-! ## HUF blocks -/

section Blocks

variable (h : .stream ≠ sp) (hc : .coef ≠ sp)

include hc in
theorem blind_putCoef (k : Nat) (v : Int) : Blind sp (putCoef k v) := blind_get fun _ => blind_memWrite hc _ _

include hc in
theorem blind_putDc (comp : Fin 4) (diff : Int) : Blind sp (putDc comp diff) :=
  blind_bind (blind_modifyHuf _) fun _ => blind_get fun _ => blind_putCoef hc _ _

include h in
theorem blind_dcCategory (dct : Fin 4) : Blind sp (dcCategory dct) :=
  blind_bind (blind_hufDecode h _ _) fun _ => blind_bind (blind_check _ _ _) fun _ => blind_pure _

include h hc

theorem blind_acCoef (k size al : Nat) : Blind sp (acCoef k size al) :=
  blind_bind (blind_check _ _ _) fun _ => blind_bind (blind_extend h _) fun _ => blind_putCoef hc _ _

theorem blind_baselineAc (act : Fin 4) (fuel : Nat) : ∀ k, Blind sp (baselineAc act fuel k) := by
  induction fuel with
  | zero => exact fun _ => blind_pure _
  | succ fuel ih =>
    refine fun k => blind_ite _ (blind_bind (blind_hufDecode h _ _) fun rs => ?_) (blind_pure _)
    exact blind_ite _ (blind_ite _ (blind_pure _) (ih _)) (blind_bind (blind_acCoef h hc _ _ _) fun _ => ih _)

theorem blind_hufBlockBaselineBody (dct act comp : Fin 4) : Blind sp (hufBlockBaselineBody dct act comp) := by
  refine blind_bind (blind_needReady _) fun _ => blind_bind blind_checkBlock fun _ => ?_
  refine blind_bind (blind_needTable _ _) fun _ => blind_bind (blind_needTable _ _) fun _ => ?_
  refine blind_bind (blind_dcCategory h _) fun _ => blind_bind (blind_extend h _) fun _ => ?_
  exact blind_bind (blind_putDc hc _ _) fun _ => blind_baselineAc h hc _ _ _

theorem blind_hufDcFirstBody (dct comp : Fin 4) : Blind sp (hufDcFirstBody dct comp) := by
  refine blind_bind (blind_needReady _) fun _ => blind_bind blind_checkBlock fun _ => ?_
  refine blind_bind (blind_needTable _ _) fun _ => blind_bind (blind_dcCategory h _) fun _ => ?_
  exact blind_bind (blind_extend h _) fun _ => blind_get fun _ => blind_putDc hc _ _

theorem blind_hufDcRefineBody : Blind sp hufDcRefineBody := by
  refine blind_bind (blind_needReady _) fun _ => blind_bind blind_checkBlock fun _ => blind_get fun s => ?_
  exact blind_bind (blind_memRead hc _) fun _ => blind_bind (blind_hufBit h) fun _ => blind_memWrite hc _ _

theorem blind_acFirstLoop (act : Fin 4) (e al fuel : Nat) : ∀ k, Blind sp (acFirstLoop act e al fuel k) := by
  induction fuel with
  | zero => exact fun _ => blind_pure _
  | succ fuel ih =>
    refine fun k => blind_ite _ (blind_bind (blind_hufDecode h _ _) fun rs => ?_) (blind_pure _)
    refine blind_ite _ (blind_ite _ ?_ (ih _)) (blind_bind (blind_acCoef h hc _ _ _) fun _ => ih _)
    exact blind_bind (blind_receive h _) fun _ => blind_modifyHuf _

theorem blind_hufAcFirstBody (act : Fin 4) : Blind sp (hufAcFirstBody act) := by
  refine blind_bind (blind_needReady _) fun _ => blind_bind blind_checkBlock fun _ => ?_
  refine blind_bind (blind_needTable _ _) fun _ => blind_get fun s => ?_
  exact blind_ite _ (blind_modifyHuf _) (blind_acFirstLoop h hc _ _ _ _ _)

omit hc in
theorem blind_refineSymbol (act : Fin 4) : Blind sp (refineSymbol act) := by
  refine blind_bind (blind_hufDecode h _ _) fun rs => blind_ite _ (blind_ite _ ?_ ?_) ?_
  · exact blind_bind (blind_receive h _) fun _ => blind_bind (blind_modifyHuf _) fun _ =>
      blind_bind (blind_modifyHuf _) fun _ => blind_pure _
  · exact blind_bind (blind_modifyHuf _) fun _ => blind_pure _
  · exact blind_bind (blind_check _ _ _) fun _ => blind_bind (blind_extend h _) fun _ =>
      blind_bind (blind_modifyHuf _) fun _ => blind_bind (blind_modifyHuf _) fun _ => blind_pure _

theorem blind_refineAt (acstate z : Nat) (c r p : Int) : Blind sp (refineAt acstate z c r p) := by
  refine blind_ite _ (blind_ite _ ?_ (blind_ite _ ?_ (blind_ite _ ?_ (blind_pure _)))) (blind_pure _)
  · exact blind_bind (blind_bind (blind_hufBit h) fun _ => blind_memWrite hc _ _) fun _ => blind_pure _
  · exact blind_bind (blind_ite _ (blind_modifyHuf _) (blind_pure _)) fun _ => blind_pure _
  · exact blind_get fun _ => blind_bind (blind_memWrite hc _ _) fun _ => blind_bind (blind_modifyHuf _) fun _ => blind_pure _

theorem blind_refineLoop (act : Fin 4) (e : Nat) (p : Int) (fuel : Nat) : ∀ k r, Blind sp (refineLoop act e p fuel k r) := by
  induction fuel with
  | zero => exact fun _ _ => blind_pure _
  | succ fuel ih =>
    refine fun k r => blind_ite _ (blind_get fun s => blind_bind (blind_memRead hc _) fun c => ?_) (blind_pure _)
    exact blind_ite _ (blind_bind (blind_refineSymbol h act) fun _ => ih _ _)
      (blind_bind (blind_refineAt h hc _ _ _ _ _) fun _ => ih _ _)

omit h hc in
theorem blind_refineEnd : Blind sp refineEnd := by
  refine blind_get fun s => blind_ite _ ?_ (blind_check _ _ _)
  refine blind_bind (blind_get fun t => blind_ite _ ?_ (blind_modifyHuf _)) fun _ =>
    blind_get fun _ => blind_ite _ (blind_modifyHuf _) (blind_pure _)
  exact blind_bind (blind_modify fun _ _ => by cases sp <;> rfl) fun _ => blind_modifyHuf _

theorem blind_hufAcRefineBody (act : Fin 4) : Blind sp (hufAcRefineBody act) := by
  refine blind_bind (blind_needReady _) fun _ => blind_bind blind_checkBlock fun _ => ?_
  refine blind_bind (blind_needTable _ _) fun _ => blind_get fun s => ?_
  exact blind_bind (blind_refineLoop h hc _ _ _ _ _ _) fun _ => blind_refineEnd

end Blocks

/-! ## IDCT and IWT -/

theorem blind_idctBlockBody (hc : .coef ≠ sp) (hq : .qt ≠ sp) (qti : Fin 4) : Blind sp (idctBlockBody qti) := by
  refine blind_bind blind_checkBlock fun _ => blind_get fun s => blind_bind (blind_memReadRun hc _ _ _) fun c => ?_
  exact blind_bind (blind_memReadRun hq _ _ _) fun q => blind_memWriteRun hc _ _ _

theorem blind_iwtLine (hp : .plane ≠ sp) (a n s : Nat) (f : Filter) (ph : Bool) : Blind sp (iwtLine a n s f ph) :=
  blind_bind (blind_memReadRun hp _ _ _) fun _ => blind_memWriteRun hp _ _ _

theorem blind_iwtLines (hp : .plane ≠ sp) (n stride : Nat) (f : Filter) (ph : Bool) (step count : Nat) :
    ∀ a, Blind sp (iwtLines n stride f ph step count a) := by
  induction count with
  | zero => exact fun _ => blind_pure _
  | succ count ih => exact fun a => blind_bind (blind_iwtLine hp _ _ _ _ _) fun _ => ih _

theorem blind_iwtSr1dBody (hp : .plane ≠ sp) (f : Filter) (ph : Bool) : Blind sp (iwtSr1dBody f ph) :=
  blind_get fun _ => blind_bind (blind_check _ _ _) fun _ => blind_bind (blind_check _ _ _) fun _ =>
    blind_bind (blind_check _ _ _) fun _ => blind_iwtLine hp _ _ _ _ _

theorem blind_iwtSr2dBody (hp : .plane ≠ sp) (f : Filter) (pu pv : Bool) : Blind sp (iwtSr2dBody f pu pv) :=
  blind_get fun _ => blind_bind (blind_check _ _ _) fun _ => blind_bind (blind_check _ _ _) fun _ =>
    blind_bind (blind_check _ _ _) fun _ => blind_bind (blind_iwtLines hp _ _ _ _ _ _ _) fun _ =>
      blind_iwtLines hp _ _ _ _ _ _ _

end Sys2Proof.Machine
end

section
/-! O13, the CCITT unit, which names STREAM, CLINE and RLINE, and the statement over every command (20_memory.md R86). The walk is not
`CcittClosed`'s (Laws/CcittWalk.lean): a look at the state that is blind to STREAM need not be blind to other spaces. -/

namespace Sys2Proof.Machine

variable {sp : Space}

/-- The spaces of the CCITT unit. -/
structure OffCcitt (sp : Space) : Prop where
  stream : .stream ≠ sp
  cline : .cline ≠ sp
  rline : .rline ≠ sp

section Ccitt

variable (h : OffCcitt sp)
include h

/-! ## Lines -/

theorem blind_readCline (i : Nat) : Blind sp (readCline i) := blind_bind (blind_memRead h.cline _) fun _ => blind_pure _

theorem blind_writeCline (i : Nat) (v : Int) : Blind sp (writeCline i v) := blind_memWrite h.cline _ _

theorem blind_lineEnd : Blind sp lineEnd := blind_get fun _ => blind_readCline h _

omit h in
theorem blind_flagDamaged : Blind sp flagDamaged := blind_modifyFlags _

omit h in
theorem blind_flagEof : Blind sp flagEof := blind_modifyFlags _

theorem blind_refLine (i : Nat) : Blind sp (refLine i) :=
  blind_get fun _ => blind_ite _ (blind_bind (blind_memRead h.rline _) fun _ => blind_pure _) (blind_pure _)

theorem blind_extendLine (p : Nat) (a1 : Int) (colour : Nat) : Blind sp (extendLine p a1 colour) := by
  have hclamp : Blind sp (clampColumns a1) :=
    blind_get fun _ => blind_ite _ (blind_bind blind_flagDamaged fun _ => blind_pure _) (blind_pure _)
  have hend : ∀ q a, Blind sp (writeCline q a >>= fun _ => pure q) := fun q a =>
    blind_bind (blind_writeCline h q a) fun _ => blind_pure _
  refine blind_bind hclamp fun a => blind_get fun s => blind_ite _ (blind_ite _ ?_ (hend _ _)) (hend _ _)
  exact blind_bind blind_flagDamaged fun _ => hend _ _

theorem blind_addPix (a1 : Int) (colour : Nat) : Blind sp (addPix a1 colour) :=
  blind_get fun _ => blind_bind (blind_lineEnd h) fun _ => blind_ite _
    (blind_bind (blind_extendLine h _ _ _) fun _ => blind_modifyCc _) (blind_pure _)

theorem blind_backUp (a1 : Int) (p : Nat) : Blind sp (backUp a1 p) := by
  induction p with
  | zero => exact blind_pure _
  | succ p ih => exact blind_bind (blind_readCline h _) fun _ => blind_ite _ ih (blind_pure _)

theorem blind_addPixNeg (a1 : Int) (colour : Nat) : Blind sp (addPixNeg a1 colour) := by
  refine blind_get fun _ => blind_bind (blind_lineEnd h) fun _ => blind_ite _
    (blind_bind (blind_extendLine h _ _ _) fun _ => blind_modifyCc _) (blind_ite _ ?_ (blind_pure _))
  refine blind_bind (blind_ite _ (blind_bind blind_flagDamaged fun _ => blind_pure _) (blind_pure _)) fun _ => ?_
  exact blind_bind (blind_backUp h _ _) fun _ => blind_bind (blind_writeCline h _ _) fun _ => blind_modifyCc _

theorem blind_fillRow : Blind sp fillRow := blind_get fun _ => blind_addPix h _ _

theorem blind_rowEof : Blind sp rowEof := blind_bind (blind_fillRow h) fun _ => blind_flagEof

theorem blind_rowBad : Blind sp rowBad :=
  blind_bind blind_flagDamaged fun _ => blind_bind (blind_fillRow h) fun _ => blind_brSkip h.stream _

/-! ## Codes and rows -/

theorem blind_matchRunCode (colour : Nat) : Blind sp (matchRunCode colour) := by
  refine blind_bind (blind_brPeek h.stream _) fun look => blind_ite _ (blind_pure _) ?_
  cases matchRun (runCodes colour) look
  · exact blind_pure _
  · exact blind_bind (blind_brSkip h.stream _) fun _ => blind_pure _

theorem blind_matchModeCode : Blind sp matchModeCode := by
  refine blind_bind (blind_brPeek h.stream _) fun look => blind_ite _ (blind_pure _) ?_
  cases matchMode look
  · exact blind_pure _
  · exact blind_bind (blind_brSkip h.stream _) fun _ => blind_pure _

theorem blind_runLen (colour : Nat) : Blind sp (runLen colour) := by
  suffices ∀ fuel total, Blind sp (runLenFrom colour fuel total) from blind_get fun _ => this _ _
  intro fuel
  induction fuel with
  | zero => exact fun _ => blind_refuse _
  | succ fuel ih =>
    refine fun total => blind_bind (blind_matchRunCode h _) fun r => ?_
    cases r
    · exact blind_bind (blind_rowEof h) fun _ => blind_pure _
    · exact blind_bind (blind_rowBad h) fun _ => blind_pure _
    · exact blind_ite _ (blind_pure _) (ih _)

theorem blind_decodeRow1D : Blind sp decodeRow1D := by
  have hloop : ∀ fuel colour, Blind sp (row1DLoop fuel colour) := by
    intro fuel
    induction fuel with
    | zero => exact fun _ => blind_refuse _
    | succ fuel ih =>
      refine fun colour => blind_get fun s => blind_bind (blind_lineEnd h) fun e => blind_ite _ ?_ (blind_pure _)
      refine blind_bind (blind_runLen h _) fun r => ?_
      cases r
      · exact blind_pure _
      · exact blind_bind (blind_lineEnd h) fun _ => blind_bind (blind_addPix h _ _) fun _ => ih _
  exact blind_bind (blind_writeCline h _ _) fun _ => blind_bind (blind_modifyCc _) fun _ => blind_get fun _ => hloop _ _

theorem blind_copyLine (fuel : Nat) : ∀ i, Blind sp (copyLine fuel i) := by
  induction fuel with
  | zero => exact fun _ => blind_refuse _
  | succ fuel ih =>
    exact fun i => blind_get fun _ => blind_bind (blind_readCline h _) fun _ => blind_ite _
      (blind_bind (blind_memWrite h.rline _ _) fun _ => ih _) (blind_pure _)

theorem blind_terminateLine (n : Nat) : ∀ j, Blind sp (terminateLine n j) := by
  induction n with
  | zero => exact fun _ => blind_pure _
  | succ n ih => exact fun j => blind_get fun _ => blind_bind (blind_memWrite h.rline _ _) fun _ => ih _

theorem blind_adv (rp : Nat) : Blind sp (adv rp) := by
  suffices ∀ fuel rp, Blind sp (advanceRef fuel rp) from blind_get fun _ => this _ _
  intro fuel
  induction fuel with
  | zero => exact fun _ => blind_refuse _
  | succ fuel ih =>
    exact fun rp => blind_get fun _ => blind_bind (blind_refLine h _) fun _ => blind_bind (blind_lineEnd h) fun _ =>
      blind_ite _ (ih _) (blind_pure _)

theorem blind_rowOpen : Blind sp rowOpen := blind_get fun _ => blind_bind (blind_lineEnd h) fun _ => blind_pure _

theorem blind_modePass (rp colour : Nat) : Blind sp (modePass rp colour) :=
  blind_get fun _ => blind_bind (blind_refLine h _) fun _ => blind_bind (blind_addPix h _ _) fun _ => blind_pure _

theorem blind_modeHorizontal (rp colour : Nat) : Blind sp (modeHorizontal rp colour) := by
  refine blind_bind (blind_runLen h _) fun r1 => ?_
  cases r1
  · exact blind_pure _
  refine blind_bind (blind_runLen h _) fun r2 => ?_
  cases r2
  · exact blind_pure _
  refine blind_bind (blind_lineEnd h) fun _ => blind_bind (blind_addPix h _ _) fun _ => blind_bind (blind_rowOpen h) fun _ => ?_
  refine blind_bind (blind_ite _ ?_ (blind_pure _)) fun _ => blind_bind (blind_adv h _) fun _ => blind_pure _
  exact blind_bind (blind_lineEnd h) fun _ => blind_addPix h _ _

theorem blind_modeRight (d rp colour : Nat) : Blind sp (modeRight d rp colour) :=
  blind_bind (blind_refLine h _) fun _ => blind_bind (blind_addPix h _ _) fun _ => blind_bind (blind_rowOpen h) fun _ =>
    blind_ite _ (blind_adv h _) (blind_pure _)

theorem blind_modeLeft (d rp colour : Nat) : Blind sp (modeLeft d rp colour) :=
  blind_bind (blind_refLine h _) fun _ => blind_bind (blind_addPixNeg h _ _) fun _ => blind_bind (blind_rowOpen h) fun _ =>
    blind_ite _ (blind_adv h _) (blind_pure _)

theorem blind_row2DLoop (fuel : Nat) : ∀ rp colour, Blind sp (row2DLoop fuel rp colour) := by
  induction fuel with
  | zero => exact fun _ _ => blind_refuse _
  | succ fuel ih =>
    refine fun rp colour => blind_bind (blind_rowOpen h) fun more => blind_ite _ ?_ (blind_pure _)
    refine blind_bind (blind_matchModeCode h) fun m => ?_
    split
    · exact blind_rowEof h
    · exact blind_rowBad h
    · exact blind_bind (blind_modePass h _ _) fun _ => ih _ _
    · refine blind_bind (blind_modeHorizontal h _ _) fun r => ?_
      cases r
      · exact blind_pure _
      · exact ih _ _
    · exact blind_bind (blind_modeRight h _ _ _) fun _ => ih _ _
    · exact blind_bind (blind_modeLeft h _ _ _) fun _ => ih _ _

theorem blind_decodeRow2D : Blind sp decodeRow2D :=
  blind_get fun _ => blind_bind (blind_copyLine h _ _) fun _ => blind_bind (blind_terminateLine h _ _) fun _ =>
    blind_bind (blind_writeCline h _ _) fun _ => blind_bind (blind_modifyCc _) fun _ => blind_row2DLoop h _ _ _

/-! ## Between rows -/

theorem blind_nextRun : Blind sp nextRun := by
  suffices ∀ fuel, Blind sp (nextRunLoop fuel) from blind_get fun _ => this _
  intro fuel
  induction fuel with
  | zero => exact blind_refuse _
  | succ fuel ih =>
    refine blind_get fun s => blind_ite _ (blind_bind (blind_lineEnd h) fun e => blind_ite _ ?_ (blind_pure _)) (blind_pure _)
    exact blind_bind (blind_modifyCc _) fun _ => blind_bind (blind_lineEnd h) fun _ => blind_bind (blind_modifyCc _) fun _ => ih

theorem blind_skipZeros (fuel : Nat) : Blind sp (skipZeros fuel) := by
  induction fuel with
  | zero => exact blind_refuse _
  | succ fuel ih =>
    exact blind_bind (blind_brPeek h.stream _) fun _ => blind_ite _ (blind_bind (blind_brSkip h.stream _) fun _ => ih) (blind_pure _)

theorem blind_huntEol (fuel : Nat) : Blind sp (huntEol fuel) := by
  induction fuel with
  | zero => exact blind_refuse _
  | succ fuel ih =>
    exact blind_bind (blind_brPeek h.stream _) fun _ => blind_ite _ (blind_bind (blind_brSkip h.stream _) fun _ => ih) (blind_pure _)

theorem blind_readTag : Blind sp readTag :=
  blind_bind (blind_brPeek h.stream _) fun _ => blind_bind (blind_modifyCc _) fun _ => blind_brSkip h.stream _

theorem blind_skipTag : Blind sp skipTag := blind_get fun _ => blind_ite _ (blind_brSkip h.stream _) (blind_pure _)

theorem blind_rowEnd : Blind sp rowEnd := by
  have heof : Blind sp (flagEof >>= fun _ => pure false) := blind_bind blind_flagEof fun _ => blind_pure _
  have hcode : Blind sp eolCode := blind_get fun s => blind_ite _ (blind_huntEol h _) (blind_skipZeros h _)
  refine blind_get fun s => blind_ite _ heof (blind_bind hcode fun code => ?_)
  exact blind_ite _ (blind_bind (blind_brSkip h.stream _) fun _ => blind_pure _) (blind_ite _ heof (blind_pure _))

theorem blind_endOfBlock : Blind sp endOfBlock := by
  have hskip : ∀ n, Blind sp (skipEols n) := by
    intro n
    induction n with
    | zero => exact blind_pure _
    | succ n ih => exact blind_bind (blind_brSkip h.stream _) fun _ => blind_bind (blind_skipTag h) fun _ => ih
  refine blind_get fun s => blind_bind (blind_brPeek h.stream _) fun v => blind_ite _ ?_ (blind_pure _)
  refine blind_bind (blind_brSkip h.stream _) fun _ => blind_bind (blind_skipTag h) fun _ => ?_
  exact blind_bind (blind_ite _ (hskip _) (blind_pure _)) fun _ => blind_flagEof

theorem blind_resync : Blind sp resync := by
  have hhunt : ∀ fuel, Blind sp (resyncLoop fuel) := by
    intro fuel
    induction fuel with
    | zero => exact blind_refuse _
    | succ fuel ih =>
      refine blind_bind (blind_brPeek h.stream _) fun code => blind_ite _
        (blind_bind blind_flagEof fun _ => blind_pure _) (blind_ite _ (blind_pure _) ?_)
      exact blind_bind (blind_brSkip h.stream _) fun _ => ih
  refine blind_get fun s => blind_bind (hhunt _) fun r => blind_get fun t => ?_
  cases r
  · exact blind_pure _
  refine blind_ite _ (blind_pure _) (blind_bind (blind_brSkip h.stream _) fun _ => blind_ite _ ?_ (blind_pure _))
  exact blind_bind (blind_brSkip h.stream _) fun _ => blind_modifyCc _

theorem blind_postRow : Blind sp postRow := by
  refine blind_get fun s => blind_bind (blind_ite _ (blind_modifyBr _) (blind_pure _)) fun _ => ?_
  refine blind_bind (blind_rowEnd h) fun gotEol => blind_get fun t => ?_
  refine blind_bind (blind_ite _ (blind_readTag h) (blind_pure _)) fun _ => ?_
  refine blind_bind (blind_ite _ (blind_endOfBlock h) (blind_ite _ (blind_resync h) (blind_pure _))) fun _ => ?_
  refine blind_bind (blind_modifyCc _) fun _ => blind_bind (blind_readCline h _) fun _ => ?_
  exact blind_bind (blind_modifyCc _) fun _ => blind_bind (blind_nextRun h) fun _ => blind_modifyCc _

/-! ## The commands -/

theorem blind_ccittInitBody (kmode : Nat) (eoline balign eoblock black1 : Bool) :
    Blind sp (ccittInitBody kmode eoline balign eoblock black1) := by
  have hopen : Blind sp (openRows kmode) := by
    refine blind_get fun s => blind_bind (blind_skipZeros h _) fun code => ?_
    refine blind_bind (blind_ite _ (blind_brSkip h.stream _) (blind_pure _)) fun _ => blind_bind (blind_brPeek h.stream _) fun v => ?_
    exact blind_ite _ blind_flagEof (blind_ite _ (blind_readTag h) (blind_pure _))
  refine blind_bind (blind_check _ _ _) fun _ => blind_bind blind_checkWindow fun _ => blind_get fun s => ?_
  refine blind_bind (blind_check _ _ _) fun _ => blind_bind (blind_brOpen _) fun _ => blind_bind (blind_modifyCc _) fun _ => ?_
  refine blind_bind (blind_modifyFlags _) fun _ => blind_bind (blind_writeCline h _ _) fun _ => ?_
  exact blind_bind hopen fun _ => blind_modifyFlags _

theorem blind_decodeRow : Blind sp decodeRow := by
  refine blind_bind (blind_modifyFlags _) fun _ => blind_get fun s => ?_
  exact blind_bind (blind_ite _ (blind_decodeRow2D h) (blind_decodeRow1D h)) fun _ => blind_postRow h

theorem blind_serveBits (fuel : Nat) : ∀ bits b, Blind sp (serveBits fuel bits b) := by
  induction fuel with
  | zero => exact fun _ _ => blind_pure _
  | succ fuel ih =>
    refine fun bits b => blind_ite _ (blind_pure _) (blind_get fun s => blind_bind (blind_modifyCc _) fun _ => ?_)
    refine blind_ite _ (blind_bind (blind_nextRun h) fun _ => blind_get fun _ => ?_) (ih _ _)
    exact blind_ite _ (blind_pure _) (ih _ _)

theorem blind_serveByte : Blind sp serveByte := by
  refine blind_bind (blind_get fun s => blind_ite _ ?_ (blind_serveBits h _ _ _)) fun _ => blind_get fun _ => blind_putRes _
  exact blind_bind (blind_modifyCc _) fun _ => blind_bind (blind_nextRun h) fun _ => blind_pure _

theorem blind_ccittReadbyteBody : Blind sp ccittReadbyteBody := by
  refine blind_bind (blind_needReady _) fun _ => blind_get fun s => blind_bind (blind_check _ _ _) fun _ => ?_
  refine blind_ite _ (blind_ite _ (blind_putRes _) ?_) (blind_serveByte h)
  exact blind_bind (blind_decodeRow h) fun _ => blind_serveByte h

end Ccitt

/-! ## Every command -/

theorem takeFault_setMem (f : FaultName) (info : Nat) (s : State) (m : Memory sp.width) :
    takeFault f info (s.setMem sp m) = (takeFault f info s).setMem sp m := by cases sp <;> rfl

/-- The outcome of a command with other contents in one space. -/
theorem runCommand_blind {p : Proc Unit} (hp : Blind sp p) (s : State) (m : Memory sp.width) :
    runCommand p (s.setMem sp m) =
      match runCommand p s with
      | .next t => .next (t.setMem sp m)
      | .fault f => .fault f
      | .refused r => .refused r := by
  rw [runCommand, runCommand, hp s m]
  cases p s with
  | ok a t => rfl
  | error e t =>
    cases e with
    | raise f info => exact congrArg Host.Outcome.next (takeFault_setMem f info t m)
    | refuse r => rfl

/-- Settles O13: the body of each command names only spaces that the summary lists for it. -/
theorem blindToOtherSpaces : Obligations.BlindToOtherSpaces := by
  intro i sp m s hnone
  have ne : ∀ sp', decide (accessOf i sp' = .none) = false → sp' ≠ sp := fun sp' hne he => of_decide_eq_false hne (he ▸ hnone)
  cases i with
  | sysNop => exact runCommand_blind (blind_pure ()) s m
  | sysReset => exact runCommand_blind (blind_modify fun _ _ => by cases sp <;> rfl) s m
  | mqInit => exact runCommand_blind (blind_mqInitBody (ne _ rfl)) s m
  | mqReadbit cxi => exact runCommand_blind (blind_mqReadbitBody (ne .stream rfl) (ne .cx rfl) cxi) s m
  | brInit mode => exact runCommand_blind (blind_bind blind_checkWindow fun _ => blind_brOpen mode) s m
  | brReadbits n => exact runCommand_blind (blind_brReadbitsBody (ne .stream rfl) n) s m
  | brPeekbits n => exact runCommand_blind (blind_brPeekbitsBody (ne .stream rfl) n) s m
  | brSkipbits n => exact runCommand_blind (blind_brSkipbitsBody (ne .stream rfl) n) s m
  | brAlign => exact runCommand_blind blind_brAlignBody s m
  | brPeekmarker mark => exact runCommand_blind (blind_brPeekmarkerBody (ne .stream rfl) mark) s m
  | brSkipbytes => exact runCommand_blind blind_brSkipbytesBody s m
  | hufInit => exact runCommand_blind blind_hufInitBody s m
  | hufLoadtable c id => exact runCommand_blind (blind_hufLoadtableBody (ne .tbl rfl) c id) s m
  | hufScancfg ss se al => exact runCommand_blind (blind_hufScancfgBody ss se al) s m
  | hufRestart => exact runCommand_blind blind_hufRestartBody s m
  | hufDecode c id => exact runCommand_blind (blind_hufDecodeBody (ne .stream rfl) c id) s m
  | hufReceive n => exact runCommand_blind (blind_hufReceiveBody (ne .stream rfl) n) s m
  | hufExtend n => exact runCommand_blind (blind_hufExtendBody (ne .stream rfl) n) s m
  | hufBlockBaseline dct act comp =>
    exact runCommand_blind (blind_hufBlockBaselineBody (ne .stream rfl) (ne .coef rfl) dct act comp) s m
  | hufDcFirst dct comp =>
    exact runCommand_blind (blind_hufDcFirstBody (ne .stream rfl) (ne .coef rfl) dct comp) s m
  | hufDcRefine => exact runCommand_blind (blind_hufDcRefineBody (ne .stream rfl) (ne .coef rfl)) s m
  | hufAcFirst act => exact runCommand_blind (blind_hufAcFirstBody (ne .stream rfl) (ne .coef rfl) act) s m
  | hufAcRefine act => exact runCommand_blind (blind_hufAcRefineBody (ne .stream rfl) (ne .coef rfl) act) s m
  | ccittInit kmode eoline balign eoblock black1 =>
    exact runCommand_blind (blind_ccittInitBody ⟨ne _ rfl, ne _ rfl, ne _ rfl⟩ _ _ _ _ _) s m
  | ccittReadbyte =>
    exact runCommand_blind (blind_ccittReadbyteBody ⟨ne _ rfl, ne _ rfl, ne _ rfl⟩) s m
  | idctBlock qti => exact runCommand_blind (blind_idctBlockBody (ne .coef rfl) (ne .qt rfl) qti) s m
  | iwtSr1d f ph => exact runCommand_blind (blind_iwtSr1dBody (ne .plane rfl) f ph) s m
  | iwtSr2d f pu pv => exact runCommand_blind (blind_iwtSr2dBody (ne .plane rfl) f pu pv) s m

end Sys2Proof.Machine
end

section
/-! O29, O30: commands that stop at an unwritten element. `Misses p s sp a R` says that `p`, started in `s`, raises UNWRITTEN_READ at
element `a` of `sp`, in a state that meets `R` (20_memory.md R76, 60_exceptions.md R373). -/

namespace Sys2Proof.Machine

variable {α β : Type}

/-- `p` from `s` stops with UNWRITTEN_READ at element `a` of `sp`, and leaves a state that meets `R`. -/
abbrev Misses (p : Proc α) (s : State) (sp : Space) (a : Nat) (R : State → Prop) : Prop :=
  Ends p s (fun _ _ => False) fun e t => e = .raise .unwrittenRead (unwrittenInfo sp a) ∧ R t

/-- The fault is taken in the state the body left; FAULTARG has the space's number above the index (R373). -/
theorem Misses.next {p : Proc Unit} {s : State} {sp : Space} {a n : Nat} {R : State → Prop} (h : Misses p s sp a R) (hn : sp.id = n) :
    ∃ t, runCommand p s = .next (takeFault .unwrittenRead (n * 2 ^ 28 + a % 2 ^ 28) t) ∧ R t := by
  unfold runCommand
  unfold Misses Ends at h
  split at h
  · exact h.elim
  · next e t he =>
    obtain ⟨rfl, hR⟩ := h
    exact ⟨t, by rw [he, unwrittenInfo, hn], hR⟩

/-- The same when that state is known. -/
theorem Misses.next_eq {p : Proc Unit} {s t : State} {sp : Space} {a n : Nat} (h : Misses p s sp a (· = t)) (hn : sp.id = n) :
    runCommand p s = .next (takeFault .unwrittenRead (n * 2 ^ 28 + a % 2 ^ 28) t) := by
  obtain ⟨u, hu, rfl⟩ := h.next hn
  exact hu

/-- STREAM is space 1. -/
theorem Misses.next_stream {p : Proc Unit} {s : State} {a : Nat} {R : State → Prop} (h : Misses p s .stream a R) :
    ∃ t, runCommand p s = .next (takeFault .unwrittenRead (2 ^ 28 + a % 2 ^ 28) t) ∧ R t := by
  rw [← Nat.one_mul (2 ^ 28)]
  exact h.next rfl

theorem Misses.next_stream_eq {p : Proc Unit} {s t : State} {a : Nat} (h : Misses p s .stream a (· = t)) :
    runCommand p s = .next (takeFault .unwrittenRead (2 ^ 28 + a % 2 ^ 28) t) := by
  obtain ⟨u, hu, rfl⟩ := h.next_stream
  exact hu

section Rules

variable {s : State} {sp : Space} {a : Nat} {R : State → Prop}

theorem Misses.weaken {p : Proc α} {R' : State → Prop} (h : Misses p s sp a R) (hR : ∀ t, R t → R' t) : Misses p s sp a R' :=
  h.mono (fun _ _ hf => hf) fun _ t ⟨he, ht⟩ => ⟨he, hR t ht⟩

/-- What comes after the element asked for is not reached. -/
theorem Misses.bind {p : Proc β} (h : Misses p s sp a R) (f : β → Proc α) : Misses (p >>= f) s sp a R :=
  (ends_bind ..).2 (h.mono (fun _ _ hf => hf.elim) fun _ _ he => he)

/-- A procedure that ends before the element is asked for. -/
theorem misses_after {p : Proc β} {f : β → Proc α} {Q : β → State → Prop} (h : Ends p s Q fun _ _ => False)
    (hf : ∀ b t, Q b t → Misses (f b) t sp a R) : Misses (p >>= f) s sp a R :=
  (ends_bind ..).2 (h.mono hf fun _ _ he => he.elim)

theorem misses_get {f : State → Proc α} (h : Misses (f s) s sp a R) : Misses (get >>= f) s sp a R := (ends_bind ..).2 h

theorem misses_memRead (ha : a < s.sizeOf sp) (hn : s.elem sp a = none) (hR : R s) : Misses (memRead sp a) s sp a R :=
  (ends_memRead ..).2 ⟨fun h => absurd ha (Nat.not_lt.2 h), fun _ _ => ⟨rfl, hR⟩, fun _ v hv => by simp [hn] at hv⟩

/-- A check that lets the command through. -/
theorem misses_check {bad : Bool} {f : FaultName} {info : Nat} {p : Proc α} (hb : bad = false) (h : Misses p s sp a R) :
    Misses (check bad f info >>= fun _ => p) s sp a R :=
  (ends_bind ..).2 ((ends_check ..).2 ⟨fun ht => by simp [hb] at ht, fun _ => h⟩)

theorem misses_needReady {u : ReadyUnit} {p : Proc α} (hu : u.ready s.flags = true) (h : Misses p s sp a R) :
    Misses (needReady u >>= fun _ => p) s sp a R :=
  (ends_bind ..).2 ((ends_bind ..).2 ((ends_check ..).2 ⟨fun ht => by simp [hu] at ht, fun _ => h⟩))

theorem misses_needTable {c : TClass} {id : Fin 4} {t : HufTable} {p : Proc α} (ht : s.ht[slotOf c id] = some t)
    (h : Misses p s sp a R) : Misses (needTable c id >>= fun _ => p) s sp a R :=
  (ends_bind ..).2 ((ends_bind ..).2 ((ends_check ..).2 ⟨fun hf => by simp [ht] at hf, fun _ => h⟩))

theorem misses_checkBlock {p : Proc α} (hb : BlockNamed s) (h : Misses p s sp a R) :
    Misses (checkBlock >>= fun _ => p) s sp a R :=
  (ends_bind ..).2 ((ends_bind ..).2 ((ends_check ..).2 ⟨fun ht => absurd hb (by simpa using ht), fun _ => h⟩))

theorem misses_checkWindow {p : Proc α} (hlo : s.arg0.toNat ≤ s.arg1.toNat) (hhi : s.arg1.toNat ≤ s.params.streamSize)
    (h : Misses p s sp a R) : Misses (checkWindow >>= fun _ => p) s sp a R := by
  have hw : badWindow s = false := by
    rw [badWindow, decide_eq_false (Nat.not_lt.2 hlo), decide_eq_false (Nat.not_lt.2 hhi)]
    rfl
  exact (ends_bind ..).2 ((ends_bind ..).2 ((ends_check ..).2 ⟨fun ht => by simp [hw] at ht, fun _ => h⟩))

/-- The same, no register being changed. -/
theorem misses_memRead_same (ha : a < s.sizeOf sp) (hn : s.elem sp a = none) : Misses (memRead sp a) s sp a (· = s) :=
  misses_memRead ha hn rfl

/-- A run of reads stops at the first element that is not written, before anything is changed. -/
theorem misses_memReadRun {stride n j : Nat} (h : FirstUnwritten s sp a stride n j)
    (hsize : ∀ i, i ≤ j → a + i * stride < s.sizeOf sp) : Misses (memReadRun sp a stride n) s sp (a + j * stride) (· = s) := by
  induction n generalizing a j with
  | zero => exact absurd h.1 (Nat.not_lt_zero j)
  | succ n ih =>
    obtain ⟨hj, hw, hnone⟩ := h
    have hshift : ∀ i, a + stride + i * stride = a + (i + 1) * stride := fun i => by ring
    have h0 : a < s.sizeOf sp := by simpa using hsize 0 (Nat.zero_le j)
    cases j with
    | zero =>
      rw [Nat.zero_mul, Nat.add_zero] at hnone ⊢
      exact (misses_memRead_same h0 hnone).bind _
    | succ j =>
      have hfirst : s.elem sp a = some (s.value sp a) := State.value_of_isSome (by simpa using hw 0 (Nat.succ_pos j))
      refine (ends_bind ..).2 ((ends_memRead_of s _ h0 hfirst).2 (Misses.bind ?_ _))
      rw [← hshift]
      refine ih ⟨Nat.lt_of_succ_lt_succ hj, fun i hi => ?_, (hshift j).symm ▸ hnone⟩ fun i hi => ?_
      · rw [hshift]
        exact hw (i + 1) (Nat.succ_lt_succ hi)
      · rw [hshift]
        exact hsize (i + 1) (Nat.succ_le_succ hi)

end Rules

/-! ## CX, TBL, QT, COEF and one line of PLANE -/

section Commands

variable {s : State}

theorem exec_mqReadbit_unwritten (hr : s.flags.mqRdy = true) {cxi : Nat} (hc : cxi < s.params.cxEntries) (hn : s.elem .cx cxi = none) :
    exec (.mqReadbit cxi) s = .next (takeFault .unwrittenRead (2 * 2 ^ 28 + cxi % 2 ^ 28) s) := by
  refine Misses.next_eq (sp := .cx) (a := cxi) ?_ rfl
  unfold mqReadbitBody
  exact misses_needReady hr (misses_get (misses_check (decide_eq_false (Nat.not_le.2 hc)) ((misses_memRead_same hc hn).bind _)))

theorem exec_hufDcRefine_unwritten (hr : s.flags.hufRdy = true) (hb : BlockNamed s) (hn : s.elem .coef (blockBase s) = none) :
    exec .hufDcRefine s = .next (takeFault .unwrittenRead (5 * 2 ^ 28 + blockBase s % 2 ^ 28) s) := by
  refine Misses.next_eq (sp := .coef) (a := blockBase s) ?_ rfl
  unfold hufDcRefineBody
  exact misses_needReady hr (misses_checkBlock hb (misses_get ((misses_memRead_same (blockBase_lt hb) hn).bind _)))

/-- The counts of a table definition (R213). -/
theorem exec_hufLoadtable_unwritten_count {j : Nat} (c : TClass) (id : Fin 4) (hsize : s.arg0.toNat + 16 ≤ s.params.tblSize)
    (h : FirstUnwritten s .tbl s.arg0.toNat 1 16 j) :
    exec (.hufLoadtable c id) s = .next (takeFault .unwrittenRead (3 * 2 ^ 28 + (s.arg0.toNat + j) % 2 ^ 28) s) := by
  have hj := h.1
  have hrun := misses_memReadRun h fun i hi => show s.arg0.toNat + i * 1 < s.params.tblSize by omega
  rw [Nat.mul_one] at hrun
  refine Misses.next_eq (sp := .tbl) (a := s.arg0.toNat + j) ?_ rfl
  unfold hufLoadtableBody
  exact misses_get (misses_check (decide_eq_false (Nat.not_lt.2 hsize)) (hrun.bind _))

/-- Its symbols, when the counts pass the checks (R213). -/
theorem exec_hufLoadtable_unwritten_symbol {n j : Nat} (c : TClass) (id : Fin 4) (hcnt : Written s .tbl s.arg0.toNat 1 16)
    (hn : codeCount (s.values .tbl s.arg0.toNat 1 16) = n) (hsum : n ≤ 256) (hsize : s.arg0.toNat + 16 + n ≤ s.params.tblSize)
    (hfit : CodesFit (s.values .tbl s.arg0.toNat 1 16) 16) (h : FirstUnwritten s .tbl (s.arg0.toNat + 16) 1 n j) :
    exec (.hufLoadtable c id) s = .next (takeFault .unwrittenRead (3 * 2 ^ 28 + (s.arg0.toNat + 16 + j) % 2 ^ 28) s) := by
  have hj := h.1
  have hrun := misses_memReadRun h fun i hi => show s.arg0.toNat + 16 + i * 1 < s.params.tblSize by omega
  rw [Nat.mul_one] at hrun
  have hnone : overfullAt (s.values .tbl s.arg0.toNat 1 16) 1 0 = none :=
    (overfullAt_eq_none_iff _).2 ((s.values_length .tbl s.arg0.toNat 1 16).symm ▸ hfit)
  refine Misses.next_eq (sp := .tbl) (a := s.arg0.toNat + 16 + j) ?_ rfl
  unfold hufLoadtableBody
  refine misses_get (misses_check (decide_eq_false (by omega)) ?_)
  refine misses_after (ends_memReadRun 16 (tblIndex s 0) hcnt fun i hi => ?_) ?_
  · show s.arg0.toNat + i * 1 < s.params.tblSize
    omega
  · rintro cnt t ⟨rfl, rfl⟩
    simp only [tblIndex, Nat.add_zero, histogramSum_eq, hn]
    exact misses_check (decide_eq_false (Nat.not_lt.2 hsum)) (misses_check (decide_eq_false (Nat.not_lt.2 hsize))
      (misses_check (by rw [hnone]; rfl) (hrun.bind _)))

theorem block_lt (hb : BlockNamed s) {i : Nat} (hi : i < 64) : blockBase s + i * 1 < s.sizeOf .coef := by
  simp only [blockBase, State.sizeOf, Space.size]
  omega

theorem qtIndex_lt (qti : Fin 4) {i : Nat} (hi : i < 64) : qtIndex qti 0 + i * 1 < s.sizeOf .qt := by
  simp only [qtIndex, State.sizeOf, Space.size, Config.qtTables]
  omega

/-- The coefficients of a block (R322). -/
theorem exec_idctBlock_unwritten_coef {j : Nat} (qti : Fin 4) (hb : BlockNamed s) (h : FirstUnwritten s .coef (blockBase s) 1 64 j) :
    exec (.idctBlock qti) s = .next (takeFault .unwrittenRead (5 * 2 ^ 28 + (blockBase s + j) % 2 ^ 28) s) := by
  have hrun := misses_memReadRun h fun i hi => block_lt hb (Nat.lt_of_le_of_lt hi h.1)
  rw [Nat.mul_one] at hrun
  refine Misses.next_eq (sp := .coef) (a := blockBase s + j) ?_ rfl
  unfold idctBlockBody
  exact misses_checkBlock hb (misses_get (hrun.bind _))

/-- The quantisation steps, the coefficients being written (R322). -/
theorem exec_idctBlock_unwritten_step {j : Nat} (qti : Fin 4) (hb : BlockNamed s) (hcoef : Written s .coef (blockBase s) 1 64)
    (h : FirstUnwritten s .qt (qtIndex qti 0) 1 64 j) :
    exec (.idctBlock qti) s = .next (takeFault .unwrittenRead (4 * 2 ^ 28 + (qtIndex qti 0 + j) % 2 ^ 28) s) := by
  have hrun := misses_memReadRun h fun i hi => qtIndex_lt qti (Nat.lt_of_le_of_lt hi h.1)
  rw [Nat.mul_one] at hrun
  refine Misses.next_eq (sp := .qt) (a := qtIndex qti 0 + j) ?_ rfl
  unfold idctBlockBody
  refine misses_checkBlock hb (misses_get (misses_after (ends_memReadRun 64 _ hcoef fun i hi => block_lt hb hi) ?_))
  rintro c t ⟨rfl, -⟩
  exact hrun.bind _

/-- The phase check of R344 and R345: an odd phase has lines of one word. -/
theorem phase_allowed {ph : Bool} {n : Nat} (h : ph = true → n = 1) : (ph && decide (1 < n)) = false := by
  cases ph with
  | false => rfl
  | true => simp [h rfl]

/-- One line (R344). -/
theorem misses_iwtLine {a stride n j : Nat} (f : Filter) (ph : Bool) (h : FirstUnwritten s .plane a stride n j)
    (hsize : ∀ i, i ≤ j → a + i * stride < s.params.planeWords) :
    Misses (iwtLine a n stride f ph) s .plane (a + j * stride) (· = s) :=
  (misses_memReadRun h hsize).bind _

theorem exec_iwtSr1d_unwritten {j : Nat} (f : Filter) (ph : Bool) (hstride : 0 < s.arg2.toNat)
    (hlast : s.arg0.toNat + (s.arg1.toNat - 1) * s.arg2.toNat < s.params.planeWords) (hph : ph = true → s.arg1.toNat = 1)
    (h : FirstUnwritten s .plane s.arg0.toNat s.arg2.toNat s.arg1.toNat j) :
    exec (.iwtSr1d f ph) s =
      .next (takeFault .unwrittenRead (6 * 2 ^ 28 + (s.arg0.toNat + j * s.arg2.toNat) % 2 ^ 28) s) := by
  have hj := h.1
  have hline := misses_iwtLine f ph h fun i hi =>
    (Nat.add_le_add_left (Nat.mul_le_mul_right _ (by omega : i ≤ s.arg1.toNat - 1)) _).trans_lt hlast
  refine Misses.next_eq (sp := .plane) (a := s.arg0.toNat + j * s.arg2.toNat) ?_ rfl
  unfold iwtSr1dBody
  refine misses_get (misses_check (decide_eq_false (by omega)) (misses_check (decide_eq_false (Nat.not_le.2 hlast))
    (misses_check (phase_allowed hph) hline)))

end Commands

end Sys2Proof.Machine
end

section
/-! O29: rows of IWT.SR2D (45_wavelet_lifting.md R345), up to the row with the unwritten word. -/

namespace Sys2Proof.Machine

/-- The array with its first row at `a` and rows of `w` words, one after the other. -/
def State.rows (s : State) (a w : Nat) (v u : Nat) : Word := s.value .plane (a + v * w + u)

/-- What is left when the first `k` rows of `w` words from `a` have been through the horizontal pass: nothing else is changed. -/
structure RowsDone (s : State) (a w : Nat) (f : Filter) (ph : Bool) (k : Nat) (t : State) : Prop where
  only : t = { s with plane := t.plane }
  done : ∀ v u, v < k → u < w → t.elem .plane (a + v * w + u) = some (rowsPass f ph w (s.rows a w) v u)
  rest : ∀ sp b, (sp ≠ .plane ∨ b < a ∨ a + k * w ≤ b) → t.elem sp b = s.elem sp b

/-- A line depends on its own words only. -/
theorem lineWord_congr (f : Filter) (ph : Bool) {n : Nat} (hn : 1 ≤ n) {w w' : Nat → Word} (h : ∀ i, i < n → w i = w' i)
    (i : Nat) : lineWord f ph n w i = lineWord f ph n w' i := by
  have hreflect : (fun j => w (reflect n j)) = fun j => w' (reflect n j) := funext fun j => h _ (reflect_lt hn j)
  unfold lineWord
  rw [h 0 hn]
  split
  · rfl
  · cases f with
    | rev53 =>
      unfold lift53
      rw [show (fun j => (w (reflect n j)).toInt) = fun j => (w' (reflect n j)).toInt from
        funext fun j => congrArg _ (congrFun hreflect j)]
    | irr97 =>
      unfold lift97
      rw [show (fun j => Config.iwt97Num.dec (w (reflect n j))) = fun j => Config.iwt97Num.dec (w' (reflect n j)) from
        funext fun j => congrArg _ (congrFun hreflect j)]

variable {s t u : State} {a w : Nat} {f : Filter} {ph : Bool}

theorem RowsDone.refl (s : State) (a w : Nat) (f : Filter) (ph : Bool) : RowsDone s a w f ph 0 s :=
  ⟨rfl, fun _ _ hv => absurd hv (Nat.not_lt_zero _), fun _ _ _ => rfl⟩

/-- The first row, then the rows below it. -/
theorem RowsDone.cons {k : Nat} (h : RowsDone s a w f ph 1 t) (hk : RowsDone t (a + w) w f ph k u) :
    RowsDone s a w f ph (k + 1) u := by
  have hrow : ∀ v, a + (v + 1) * w = a + w + v * w := fun v => by ring
  have hbelow : ∀ v i, t.rows (a + w) w v i = s.rows a w (v + 1) i := fun v i => by
    rw [State.rows, State.rows, State.value, State.value, h.rest _ _ (.inr (.inr (by rw [Nat.one_mul, Nat.add_assoc]; omega))), hrow]
  refine ⟨?_, fun v i hv hi => ?_, fun sp b hb => ?_⟩
  · rw [hk.only, h.only]
  · cases v with
    | zero =>
      rw [Nat.zero_mul, Nat.add_zero, hk.rest _ _ (.inr (.inl (by omega)))]
      simpa using h.done 0 i Nat.one_pos hi
    | succ v =>
      rw [hrow, hk.done v i (Nat.lt_of_succ_lt_succ hv) hi, rowsPass, rowsPass, funext (hbelow v)]
  · rw [hrow] at hb
    have hle : a + w ≤ a + w + k * w := Nat.le_add_right ..
    rw [hk.rest sp b (hb.imp_right (Or.imp_left fun hlt => by omega)), h.rest sp b (hb.imp_right (Or.imp_right fun hge => by omega))]

/-- A written row. -/
theorem ends_iwtLine_row (hw : 0 < w) (hph : ph = true → w = 1) (hrow : Written s .plane a 1 w)
    (hsize : a + w ≤ s.params.planeWords) : Ends (iwtLine a w 1 f ph) s (fun _ t => RowsDone s a w f ph 1 t) fun _ _ => False := by
  have hin : ∀ i, i < w → a + i * 1 < s.sizeOf .plane := fun i hi => by
    show a + i * 1 < s.params.planeWords
    omega
  refine (ends_bind ..).2 ((ends_memReadRun w a hrow hin).mono ?_ fun _ _ h => h)
  rintro l t ⟨rfl, rfl⟩
  have hl : (t.values .plane a 1 w).length = w := t.values_length ..
  have hlen : (lineResult Config.iwt97Num f ph (t.values .plane a 1 w)).length = w := by rw [lineResult_length, hl]
  have hvals : ∀ i, i < w →
      (lineResult Config.iwt97Num f ph (t.values .plane a 1 w)).getD i 0 = rowsPass f ph w (t.rows a w) 0 i := fun i hi => by
    rw [lineResult_getD f ph _ (by rw [hl]; exact hw) (by rw [hl]; exact hph) (by rw [hl]; exact hi), hl]
    refine lineWord_congr f ph hw (fun j hj => ?_) i
    rw [State.values_getD _ _ _ _ _ hj, State.rows, Nat.zero_mul, Nat.add_zero, Nat.mul_one]
  refine (ends_memWriteRun Nat.one_pos _ t a (by rwa [hlen])).mono (fun _ u h => ⟨h.only, fun v i hv hi => ?_, fun sp b hb => ?_⟩)
    fun _ _ h => h
  · obtain rfl : v = 0 := by omega
    rw [Nat.zero_mul, Nat.add_zero, ← hvals i hi, ← h.at_run i (hlen.symm ▸ hi), Nat.mul_one]
  · refine h.off_run sp b (hb.imp_right fun hb i hi => ?_)
    rw [hlen] at hi
    omega

/-- The pass stops in the row with the first unwritten word, the rows above it being done. -/
theorem misses_iwtLines (hw : 0 < w) (hph : ph = true → w = 1) (count : Nat) : ∀ (s : State) (a j : Nat),
    FirstUnwritten s .plane a 1 (w * count) j → a + w * count ≤ s.params.planeWords →
      Misses (iwtLines w 1 f ph w count a) s .plane (a + j) (RowsDone s a w f ph (j / w)) := by
  induction count with
  | zero => exact fun s a j h _ => absurd h.1 (Nat.not_lt_zero j)
  | succ count ih =>
    intro s a j ⟨hj, hwritten, hnone⟩ hsize
    rw [Nat.mul_succ] at hj hsize
    rcases Nat.lt_or_ge j w with hlt | hge
    · have hline := misses_iwtLine f ph ⟨hlt, hwritten, hnone⟩ fun i hi => (by omega : a + i * 1 < s.params.planeWords)
      rw [Nat.mul_one] at hline
      refine Misses.bind (hline.mono (fun _ _ h => h) ?_) _
      rintro e t ⟨he, rfl⟩
      exact ⟨he, (Nat.div_eq_of_lt hlt).symm ▸ RowsDone.refl ..⟩
    · refine misses_after (ends_iwtLine_row hw hph (fun i hi => hwritten i (by omega)) (by omega)) fun _ t h => ?_
      have hbelow : ∀ i, t.elem .plane (a + w + i * 1) = s.elem .plane (a + (w + i) * 1) := fun i => by
        rw [h.rest .plane _ (.inr (.inr (by omega)))]
        congr 1
        omega
      have hparams : t.params = s.params := by rw [h.only]
      have hrec := ih t (a + w) (j - w) ⟨by omega, fun i hi => ?_, ?_⟩ (by rw [hparams]; omega)
      · rw [Nat.add_assoc, Nat.add_sub_cancel' hge] at hrec
        refine hrec.mono (fun _ _ h => h) fun e u ⟨he, hu⟩ => ⟨he, ?_⟩
        rw [Nat.div_eq_sub_div hw hge]
        exact h.cons hu
      · rw [hbelow]
        exact hwritten (w + i) (by omega)
      · rw [hbelow, Nat.add_sub_cancel' hge]
        exact hnone

/-- IWT.SR2D at an unwritten word of the array (R345). -/
theorem exec_iwtSr2d_unwritten {j : Nat} (f : Filter) (pu pv : Bool)
    (hsize : s.arg0.toNat + s.arg1.toNat * s.arg2.toNat ≤ s.params.planeWords)
    (hpu : pu = true → s.arg1.toNat = 1) (hpv : pv = true → s.arg2.toNat = 1)
    (h : FirstUnwritten s .plane s.arg0.toNat 1 (s.arg1.toNat * s.arg2.toNat) j) :
    ∃ t, exec (.iwtSr2d f pu pv) s = .next (takeFault .unwrittenRead (6 * 2 ^ 28 + (s.arg0.toNat + j) % 2 ^ 28) t) ∧
      RowsDone s s.arg0.toNat s.arg1.toNat f pu (j / s.arg1.toNat) t := by
  have hpos : 0 < s.arg1.toNat * s.arg2.toNat := Nat.zero_lt_of_lt h.1
  have hw : 0 < s.arg1.toNat := Nat.pos_of_mul_pos_right hpos
  have hh : 0 < s.arg2.toNat := Nat.pos_of_mul_pos_left hpos
  have hrows := misses_iwtLines (f := f) hw hpu s.arg2.toNat s s.arg0.toNat j h hsize
  refine Misses.next (sp := .plane) (a := s.arg0.toNat + j) ?_ rfl
  unfold iwtSr2dBody
  refine misses_get (misses_check (decide_eq_false (by omega)) (misses_check (decide_eq_false (Nat.not_lt.2 hsize))
    (misses_check (by rw [phase_allowed hpu, phase_allowed hpv]; rfl) (hrows.bind _))))

end Sys2Proof.Machine
end

section
/-! O29: the refinement pass of HUF.AC_REFINE, coefficient by coefficient, on a bit string (42_huffman_jpeg.md R226). The terms of the
claims (`takeRefine`, `refineSkip`, ...) take the coefficients of a symbol together; `refineRounds` takes them one by one, as the
machine does. -/

namespace Sys2Proof.Machine

/-- What the refinement machine holds between two coefficients: HUF_ACSTATE, the run count, HUF_ACNEXT, HUF_EOBRUN and the bits to
come. -/
structure RefineState where
  acstate : Nat
  run : Int
  acnext : Word
  eobrun : BitVec 16
  bits : List Bool

/-- State 0: the next symbol. -/
def readRefineSymbol (t : HufTable) (a : RefineState) : Option RefineState :=
  (takeSymbol t a.bits).bind fun (rs, l) =>
    if rs % 16 = 0 then
      if rs / 16 < 15 then
        (takeNum (rs / 16) l).map fun (v, l) =>
          { a with acstate := 4, run := (rs / 16 : Nat), eobrun := BitVec.ofNat 16 (v + 2 ^ (rs / 16)), bits := l }
      else some { a with acstate := 1, run := 16, bits := l }
    else if rs % 16 = 1 then
      (takeExtend 1 l).map fun (v, l) =>
        { a with acstate := if rs / 16 ≠ 0 then 2 else 3, run := (rs / 16 : Nat), acnext := word32 v, bits := l }
    else none

/-- The correction bit of a coefficient that is not 0. -/
def correctCoef (p c : Int) : List Bool → Option (Int × List Bool)
  | [] => none
  | b :: l => some (wrap16 (c + (if c < 0 then -1 else 1) * b.toNat * p), l)

/-- A zero in state 1 or 2: `next` is the state when it was the last of the run. -/
def RefineState.countZero (a : RefineState) (next : Nat) : RefineState :=
  { a with acstate := if a.run - 1 = 0 then next else a.acstate, run := a.run - 1 }

/-- States 1 to 4 at a zero. -/
def passZero (p : Int) (a : RefineState) : Option (RefineState × Int) :=
  match a.acstate with
  | 1 => some (a.countZero 0, 0)
  | 2 => some (a.countZero 3, 0)
  | 3 => some ({ a with acstate := 0 }, wrap16 (a.acnext.toInt * p))
  | 4 => some (a, 0)
  | _ => none

/-- States 1 to 4 at coefficient `c`: the new state and the new coefficient. -/
def passCoef (p : Int) (a : RefineState) (c : Int) : Option (RefineState × Int) :=
  if c = 0 then passZero p a
  else if 1 ≤ a.acstate ∧ a.acstate ≤ 4 then (correctCoef p c a.bits).map fun x => ({ a with bits := x.2 }, x.1)
  else none

/-- The rounds of a band: in state 0 a symbol before the coefficient. -/
def refineRounds (t : HufTable) (p : Int) : RefineState → List Int → Option (RefineState × List Int)
  | a, [] => some (a, [])
  | a, c :: cs =>
    (if a.acstate = 0 then readRefineSymbol t a else some a).bind fun a =>
      (passCoef p a c).bind fun x => (refineRounds t p x.1 cs).map fun y => (y.1, x.2 :: y.2)

theorem refineRounds_length {t : HufTable} {p : Int} (cs : List Int) : ∀ {a b : RefineState} {ds : List Int},
    refineRounds t p a cs = some (b, ds) → ds.length = cs.length := by
  induction cs with
  | nil =>
    intro a b ds h
    cases h
    rfl
  | cons c cs ih =>
    intro a b ds h
    obtain ⟨a', -, h⟩ := Option.bind_eq_some_iff.1 h
    obtain ⟨x, -, h⟩ := Option.bind_eq_some_iff.1 h
    obtain ⟨y, hy, h⟩ := Option.map_eq_some_iff.1 h
    cases h
    exact congrArg Nat.succ (ih hy)

/-! ## Reading the claims' terms -/

theorem refineCoefs_cons_zero {p : Int} {cs ds : List Int} {l m : List Bool} (h : refineCoefs p (0 :: cs) l = some (ds, m)) :
    ∃ es, refineCoefs p cs l = some (es, m) ∧ ds = 0 :: es := by
  rw [refineCoefs.eq_def] at h
  simp only [if_true] at h
  obtain ⟨x, hx, h⟩ := Option.map_eq_some_iff.1 h
  cases h
  exact ⟨x.1, hx, rfl⟩

theorem refineCoefs_cons_nonzero {p c : Int} {cs ds : List Int} {l m : List Bool} (hc : c ≠ 0)
    (h : refineCoefs p (c :: cs) l = some (ds, m)) :
    ∃ d l' es, correctCoef p c l = some (d, l') ∧ refineCoefs p cs l' = some (es, m) ∧ ds = d :: es := by
  rw [refineCoefs.eq_def] at h
  simp only [if_neg hc] at h
  cases l with
  | nil => cases h
  | cons b l =>
    obtain ⟨x, hx, h⟩ := Option.map_eq_some_iff.1 h
    cases h
    exact ⟨_, l, x.1, rfl, hx, rfl⟩

theorem refineCoefs_nil {p : Int} {ds : List Int} {l m : List Bool} (h : refineCoefs p [] l = some (ds, m)) : ds = [] ∧ m = l := by
  cases h
  exact ⟨rfl, rfl⟩

/-! ## Rounds in a row -/

section Refines

variable {t : HufTable} {p : Int}

/-- From state `a` before the coefficients `cs`, the machine comes to state `b` before `cs'` and makes `ds` of those between. -/
def Refines (t : HufTable) (p : Int) (a : RefineState) (cs ds : List Int) (b : RefineState) (cs' : List Int) : Prop :=
  refineRounds t p a cs = (refineRounds t p b cs').map fun x => (x.1, ds ++ x.2)

theorem Refines.refl (a : RefineState) (cs : List Int) : Refines t p a cs [] a cs := by
  simp [Refines]

theorem Refines.trans {a b c : RefineState} {cs cs' cs'' ds es : List Int} (h : Refines t p a cs ds b cs')
    (h' : Refines t p b cs' es c cs'') : Refines t p a cs (ds ++ es) c cs'' := by
  rw [Refines, h, h', Option.map_map]
  simp [Function.comp_def]

/-- To the end of the coefficients. -/
theorem Refines.done {a b : RefineState} {cs ds : List Int} (h : Refines t p a cs ds b []) : refineRounds t p a cs = some (b, ds) := by
  simpa [Refines, refineRounds] using h

/-- Rounds that lead to the end, then the rounds before. -/
theorem Refines.rounds {a b c : RefineState} {cs cs' ds es : List Int} (h : Refines t p a cs ds b cs')
    (h' : refineRounds t p b cs' = some (c, es)) : refineRounds t p a cs = some (c, ds ++ es) := by
  rw [h, h']
  rfl

theorem refines_symbol {a b : RefineState} (h0 : a.acstate = 0) (h : readRefineSymbol t a = some b) (hb : b.acstate ≠ 0) (c : Int)
    (cs : List Int) : Refines t p a (c :: cs) [] b (c :: cs) := by
  simp [Refines, refineRounds, h0, h, hb]

theorem refines_coef {a b : RefineState} {c d : Int} (ha : a.acstate ≠ 0) (h : passCoef p a c = some (b, d)) (cs : List Int) :
    Refines t p a (c :: cs) [d] b cs := by
  simp [Refines, refineRounds, ha, h]

/-- A coefficient that is not 0 takes its bit in every state but 0. -/
theorem refines_nonzero {a : RefineState} {c d : Int} {l : List Bool} (ha : 1 ≤ a.acstate ∧ a.acstate ≤ 4) (hc : c ≠ 0)
    (h : correctCoef p c a.bits = some (d, l)) (cs : List Int) : Refines t p a (c :: cs) [d] { a with bits := l } cs :=
  refines_coef (Nat.pos_iff_ne_zero.1 ha.1) (by rw [passCoef, if_neg hc, if_pos ha, h]; rfl) cs

theorem refines_zero {a b : RefineState} {d : Int} (ha : a.acstate ≠ 0) (h : passZero p a = some (b, d)) (cs : List Int) :
    Refines t p a (0 :: cs) [d] b cs :=
  refines_coef ha (by rw [passCoef, if_pos rfl, h]) cs

theorem passZero_count {a : RefineState} (ha : a.acstate = 1 ∨ a.acstate = 2) :
    passZero p a = some (a.countZero (if a.acstate = 1 then 0 else 3), 0) := by
  rcases ha with ha | ha <;> simp [passZero, ha]

/-- A zero that is not the last of the run. -/
theorem refines_count {a : RefineState} (ha : a.acstate = 1 ∨ a.acstate = 2) (hr : a.run ≠ 1) (cs : List Int) :
    Refines t p a (0 :: cs) [0] { a with run := a.run - 1 } cs := by
  have h := refines_zero (t := t) (p := p) (by omega) (passZero_count ha) cs
  rwa [RefineState.countZero, if_neg (by omega)] at h

/-- The last zero of the run. -/
theorem refines_count_last {a : RefineState} (ha : a.acstate = 1 ∨ a.acstate = 2) (hr : a.run = 1) (cs : List Int) :
    Refines t p a (0 :: cs) [0] { a with acstate := if a.acstate = 1 then 0 else 3, run := 0 } cs := by
  have h := refines_zero (t := t) (p := p) (by omega) (passZero_count ha) cs
  rw [RefineState.countZero, hr] at h
  exact h

/-! ## Bands without an end of the run -/

/-- State 4: the correction bits alone. -/
theorem refines_eob (cs : List Int) : ∀ {a : RefineState} {ds : List Int} {l : List Bool}, a.acstate = 4 →
    refineCoefs p cs a.bits = some (ds, l) → Refines t p a cs ds { a with bits := l } [] := by
  induction cs with
  | nil =>
    intro a ds l _ h
    obtain ⟨rfl, rfl⟩ := refineCoefs_nil h
    exact .refl ..
  | cons c cs ih =>
    intro a ds l ha h
    by_cases hc : c = 0
    · subst hc
      obtain ⟨es, hes, rfl⟩ := refineCoefs_cons_zero h
      exact (refines_zero (by omega) (by simp [passZero, ha]) cs).trans (ih ha hes)
    · obtain ⟨d, m, es, hd, hes, rfl⟩ := refineCoefs_cons_nonzero hc h
      exact (refines_nonzero (by omega) hc hd cs).trans (ih (a := { a with bits := m }) ha hes)

/-- State 3 with no zero left for the new coefficient. -/
theorem refines_put_overrun (cs : List Int) : ∀ {a : RefineState} {ds : List Int} {l : List Bool},
    a.acstate = 3 → cs.count 0 = 0 → refineCoefs p cs a.bits = some (ds, l) → Refines t p a cs ds { a with bits := l } [] := by
  induction cs with
  | nil =>
    intro a ds l _ _ h
    obtain ⟨rfl, rfl⟩ := refineCoefs_nil h
    exact .refl ..
  | cons c cs ih =>
    intro a ds l ha hz h
    have hc : c ≠ 0 := fun hc => by simp [hc] at hz
    rw [List.count_cons_of_ne (by simpa using hc)] at hz
    obtain ⟨d, m, es, hd, hes, rfl⟩ := refineCoefs_cons_nonzero hc h
    exact (refines_nonzero (by omega) hc hd cs).trans (ih (a := { a with bits := m }) ha hz hes)

/-- State 1 or 2 with too few zeros for the run. -/
theorem refines_skip_overrun (cs : List Int) : ∀ {a : RefineState} {ds : List Int} {l : List Bool},
    a.acstate = 1 ∨ a.acstate = 2 → (cs.count 0 : Int) < a.run → refineCoefs p cs a.bits = some (ds, l) →
      Refines t p a cs ds { a with run := a.run - (cs.count 0 : Nat), bits := l } [] := by
  induction cs with
  | nil =>
    intro a ds l _ _ h
    obtain ⟨rfl, rfl⟩ := refineCoefs_nil h
    simpa using Refines.refl a []
  | cons c cs ih =>
    intro a ds l ha hz h
    by_cases hc : c = 0
    · subst hc
      rw [List.count_cons_self] at hz ⊢
      obtain ⟨es, hes, rfl⟩ := refineCoefs_cons_zero h
      have hrest := ih (a := { a with run := a.run - 1 }) ha (by push_cast at hz ⊢; omega) hes
      have := (refines_count ha (by push_cast at hz; omega) cs).trans hrest
      rwa [sub_sub, add_comm 1 ((_ : Nat) : Int)] at this
    · rw [List.count_cons_of_ne (by simpa using hc)] at hz ⊢
      obtain ⟨d, m, es, hd, hes, rfl⟩ := refineCoefs_cons_nonzero hc h
      exact (refines_nonzero (by omega) hc hd cs).trans (ih (a := { a with bits := m }) ha hz hes)

/-- State 2 with just the zeros of the run: none is left for the new coefficient. -/
theorem refines_skip_put_overrun (cs : List Int) : ∀ {a : RefineState} {ds : List Int} {l : List Bool},
    a.acstate = 2 → (cs.count 0 : Int) = a.run → 1 ≤ a.run → refineCoefs p cs a.bits = some (ds, l) →
      Refines t p a cs ds { a with acstate := 3, run := 0, bits := l } [] := by
  induction cs with
  | nil =>
    intro a ds l _ hz h1 _
    simp at hz
    omega
  | cons c cs ih =>
    intro a ds l ha hz h1 h
    by_cases hc : c = 0
    · subst hc
      rw [List.count_cons_self] at hz
      obtain ⟨es, hes, rfl⟩ := refineCoefs_cons_zero h
      by_cases hr : a.run = 1
      · have hlast := refines_count_last (t := t) (p := p) (.inr ha) hr cs
        rw [ha] at hlast
        exact hlast.trans (refines_put_overrun cs (a := { a with acstate := 3, run := 0 }) rfl (by push_cast at hz; omega) hes)
      · exact (refines_count (.inr ha) hr cs).trans
          (ih (a := { a with run := a.run - 1 }) ha (by push_cast at hz; simp only; omega) (by simp only; omega) hes)
    · rw [List.count_cons_of_ne (by simpa using hc)] at hz
      obtain ⟨d, m, es, hd, hes, rfl⟩ := refineCoefs_cons_nonzero hc h
      exact (refines_nonzero (by omega) hc hd cs).trans (ih (a := { a with bits := m }) ha hz h1 hes)

/-! ## A run of zeros, and the new coefficient -/

theorem refines_skip (n : Nat) (cs : List Int) : ∀ {a : RefineState} {ds cs' : List Int} {l : List Bool},
    a.acstate = 1 ∨ a.acstate = 2 → a.run = n → 0 < n → refineSkip p n cs a.bits = some (ds, cs', l) →
      Refines t p a cs ds { a with acstate := if a.acstate = 1 then 0 else 3, run := 0, bits := l } cs' := by
  induction cs generalizing n with
  | nil =>
    intro a ds cs' l _ _ hn h
    obtain ⟨n, rfl⟩ := Nat.exists_eq_add_of_lt hn
    simp [refineSkip] at h
  | cons c cs ih =>
    intro a ds cs' l ha hr hn h
    obtain ⟨n, rfl⟩ := Nat.exists_eq_succ_of_ne_zero hn.ne'
    rw [refineSkip] at h
    obtain ⟨⟨es, m⟩, hes, h⟩ := Option.bind_eq_some_iff.1 h
    obtain ⟨⟨fs, cs'', m'⟩, hfs, h⟩ := Option.map_eq_some_iff.1 h
    cases h
    by_cases hc : c = 0
    · subst hc
      obtain ⟨gs, hgs, rfl⟩ := refineCoefs_cons_zero hes
      obtain ⟨rfl, rfl⟩ := refineCoefs_nil hgs
      rw [if_pos rfl] at hfs
      cases n with
      | zero =>
        rw [refineSkip] at hfs
        cases hfs
        simpa using refines_count_last ha (by omega) cs
      | succ n =>
        exact (refines_count ha (by omega) cs).trans
          (ih (n + 1) (a := { a with run := a.run - 1 }) ha (by simp only; omega) (Nat.succ_pos n) hfs)
    · obtain ⟨d, m'', gs, hd, hgs, rfl⟩ := refineCoefs_cons_nonzero hc hes
      obtain ⟨rfl, rfl⟩ := refineCoefs_nil hgs
      rw [if_neg hc] at hfs
      exact (refines_nonzero (by omega) hc hd cs).trans (ih (n + 1) (a := { a with bits := m }) ha hr hn hfs)

theorem refines_put {v : Int} (cs : List Int) : ∀ {a : RefineState} {ds cs' : List Int} {l : List Bool},
    a.acstate = 3 → a.acnext.toInt * p = v → refinePut p v cs a.bits = some (ds, cs', l) →
      Refines t p a cs ds { a with acstate := 0, bits := l } cs' := by
  induction cs with
  | nil =>
    intro a ds cs' l _ _ h
    cases h
  | cons c cs ih =>
    intro a ds cs' l ha hv h
    rw [refinePut] at h
    by_cases hc : c = 0
    · subst hc
      rw [if_pos rfl] at h
      cases h
      exact refines_zero (by omega) (by simp [passZero, ha, hv]) cs
    · rw [if_neg hc] at h
      obtain ⟨⟨es, m⟩, hes, h⟩ := Option.bind_eq_some_iff.1 h
      obtain ⟨⟨fs, cs'', m'⟩, hfs, h⟩ := Option.map_eq_some_iff.1 h
      cases h
      obtain ⟨d, m'', gs, hd, hgs, rfl⟩ := refineCoefs_cons_nonzero hc hes
      obtain ⟨rfl, rfl⟩ := refineCoefs_nil hgs
      exact (refines_nonzero (by omega) hc hd cs).trans (ih (a := { a with bits := m }) ha hv hfs)

end Refines

end Sys2Proof.Machine
end

section
/-! O29: what the claims say of a whole band (`takeRefine`, `takeRefineFault`) is what the rounds of the machine come to (R226). -/

namespace Sys2Proof.Machine

variable {t : HufTable} {p : Int}

theorem takeExtend_one {v : Int} {l m : List Bool} (h : takeExtend 1 l = some (v, m)) : v = 1 ∨ v = -1 := by
  obtain ⟨x, hx, h⟩ := Option.map_eq_some_iff.1 h
  cases h
  have := takeNum_lt hx
  unfold extendValue
  split <;> omega

/-- HUF_ACNEXT holds the value of Extend(1). -/
theorem word32_takeExtend_one {v : Int} {l m : List Bool} (h : takeExtend 1 l = some (v, m)) : (word32 v).toInt = v := by
  obtain rfl | rfl := takeExtend_one h <;> decide

/-! ## The kinds of symbol -/

section Symbols

variable {a : RefineState} {rs : Nat} {l : List Bool}

theorem readRefineSymbol_eob {v : Nat} {m : List Bool} (hs : takeSymbol t a.bits = some (rs, l)) (h0 : rs % 16 = 0)
    (h15 : rs / 16 < 15) (hv : takeNum (rs / 16) l = some (v, m)) : readRefineSymbol t a =
      some { a with acstate := 4, run := (rs / 16 : Nat), eobrun := BitVec.ofNat 16 (v + 2 ^ (rs / 16)), bits := m } := by
  rw [readRefineSymbol, hs, Option.bind_some]
  simp only [if_pos h0, if_pos h15, hv, Option.map_some]

theorem readRefineSymbol_zeros (hs : takeSymbol t a.bits = some (rs, l)) (h0 : rs % 16 = 0) (h15 : ¬ rs / 16 < 15) :
    readRefineSymbol t a = some { a with acstate := 1, run := 16, bits := l } := by
  rw [readRefineSymbol, hs, Option.bind_some]
  simp only [if_pos h0, if_neg h15]

theorem readRefineSymbol_coef {v : Int} {m : List Bool} (hs : takeSymbol t a.bits = some (rs, l)) (h1 : rs % 16 = 1)
    (hv : takeExtend 1 l = some (v, m)) : readRefineSymbol t a =
      some { a with acstate := if rs / 16 ≠ 0 then 2 else 3, run := (rs / 16 : Nat), acnext := word32 v, bits := m } := by
  rw [readRefineSymbol, hs, Option.bind_some]
  simp only [if_neg (by omega : ¬ rs % 16 = 0), if_pos h1, hv, Option.map_some]

end Symbols

/-! ## From a symbol to the next -/

section Runs

variable {a b : RefineState} {c : Int} {cs cs' cs'' ds es : List Int} {l m : List Bool} {rs : Nat} {v : Int}

/-- A run of 16 zeros. -/
theorem refines_zeros (ha : a.acstate = 0) (hs : takeSymbol t a.bits = some (rs, l)) (h0 : rs % 16 = 0) (h15 : ¬ rs / 16 < 15)
    (h : refineSkip p 16 (c :: cs) l = some (ds, cs', m)) :
    Refines t p a (c :: cs) ds { a with run := 0, bits := m } cs' := by
  have hskip := refines_skip 16 (c :: cs) (t := t) (a := { a with acstate := 1, run := 16, bits := l }) (.inl rfl) rfl (by omega) h
  have := (refines_symbol (p := p) ha (readRefineSymbol_zeros hs h0 h15) (by simp) c cs).trans hskip
  simpa [ha] using this

/-- A run of zeros and the new coefficient. -/
theorem refines_new (ha : a.acstate = 0) (hs : takeSymbol t a.bits = some (rs, l)) (h1 : rs % 16 = 1) {l' m' : List Bool}
    (hv : takeExtend 1 l = some (v, l')) (hskip : refineSkip p (rs / 16) (c :: cs) l' = some (ds, cs', m))
    (hput : refinePut p (v * p) cs' m = some (es, cs'', m')) :
    Refines t p a (c :: cs) (ds ++ es) { a with run := 0, acnext := word32 v, bits := m' } cs'' := by
  have hsym := refines_symbol (p := p) ha (readRefineSymbol_coef hs h1 hv) (by simp only; split <;> simp) c cs
  have hnext : (word32 v).toInt * p = v * p := by rw [word32_takeExtend_one hv]
  have hput := refines_put cs' (t := t) (a := ⟨3, 0, word32 v, a.eobrun, m⟩) rfl hnext hput
  simp only [ha]
  by_cases hr : rs / 16 = 0
  · rw [hr, refineSkip] at hskip
    cases hskip
    rw [if_neg (not_not.2 hr), hr] at hsym
    exact hsym.trans hput
  · rw [if_pos hr] at hsym
    have hskip := refines_skip (rs / 16) (c :: cs) (t := t) (a := ⟨2, (rs / 16 : Nat), word32 v, a.eobrun, l'⟩) (.inr rfl) rfl
      (Nat.pos_of_ne_zero hr) hskip
    exact (hsym.trans hskip).trans hput

end Runs

/-- A band that R226 gets through, or leaves in an end-of-band run. -/
theorem refineRounds_takeRefine (fuel : Nat) : ∀ {a : RefineState} {cs ds : List Int} {run : Nat} {nx : Word} {rest : List Bool},
    a.acstate = 0 → takeRefine t p fuel a.acnext cs a.bits = some (ds, run, nx, rest) →
      ∃ r, refineRounds t p a cs = some
        (⟨if run = 0 then 0 else 4, r, nx, if run = 0 then a.eobrun else BitVec.ofNat 16 run, rest⟩, ds) := by
  induction fuel with
  | zero =>
    intro a cs ds run nx rest _ h
    cases h
  | succ fuel ih =>
    intro a cs ds run nx rest ha h
    cases cs with
    | nil =>
      cases h
      exact ⟨a.run, by rw [refineRounds, if_pos rfl, if_pos rfl, ← ha]⟩
    | cons c cs =>
      rw [takeRefine] at h
      obtain ⟨⟨rs, l⟩, hs, h⟩ := Option.bind_eq_some_iff.1 h
      dsimp only at h
      by_cases h0 : rs % 16 = 0
      · rw [if_pos h0] at h
        by_cases h15 : rs / 16 < 15
        · rw [if_pos h15] at h
          obtain ⟨⟨v, m⟩, hv, h⟩ := Option.bind_eq_some_iff.1 h
          obtain ⟨⟨es, m'⟩, hes, h⟩ := Option.map_eq_some_iff.1 h
          cases h
          have hrun : v + 2 ^ (rs / 16) ≠ 0 := by positivity
          have := (refines_symbol ha (readRefineSymbol_eob hs h0 h15 hv) (by simp) c cs).trans
            (refines_eob (p := p) (c :: cs) (a := ⟨4, (rs / 16 : Nat), a.acnext, BitVec.ofNat 16 (v + 2 ^ (rs / 16)), m⟩) rfl hes)
          rw [if_neg hrun, if_neg hrun]
          exact ⟨_, this.done⟩
        · rw [if_neg h15] at h
          obtain ⟨⟨es, cs', m⟩, hskip, h⟩ := Option.bind_eq_some_iff.1 h
          obtain ⟨⟨fs, run', nx', m'⟩, hrec, h⟩ := Option.map_eq_some_iff.1 h
          cases h
          obtain ⟨r, hr⟩ := ih (a := { a with run := 0, bits := m }) ha hrec
          exact ⟨r, (refines_zeros ha hs h0 h15 hskip).rounds hr⟩
      · rw [if_neg h0] at h
        by_cases h1 : rs % 16 = 1
        · rw [if_pos h1] at h
          obtain ⟨⟨v, m⟩, hv, h⟩ := Option.bind_eq_some_iff.1 h
          obtain ⟨⟨es, cs', m'⟩, hskip, h⟩ := Option.bind_eq_some_iff.1 h
          obtain ⟨⟨fs, cs'', m''⟩, hput, h⟩ := Option.bind_eq_some_iff.1 h
          obtain ⟨⟨gs, run', nx', m'''⟩, hrec, h⟩ := Option.map_eq_some_iff.1 h
          cases h
          obtain ⟨r, hr⟩ := ih (a := { a with run := 0, acnext := word32 v, bits := m'' }) ha (by rwa [← word32_eq] at hrec)
          exact ⟨r, (refines_new ha hs h1 hv hskip hput).rounds hr⟩
        · rw [if_neg h1] at h
          cases h

/-- A band that ends inside a run, or before the new coefficient. -/
theorem refineRounds_takeRefineFault (fuel : Nat) : ∀ {a : RefineState} {cs ds : List Int} {n state : Nat} {nx : Word}
    {rest : List Bool}, a.acstate = 0 →
      takeRefineFault t p fuel a.acnext cs a.bits = some (ds, (.hufRunOverrun, n), state, nx, rest) →
        ∃ r, refineRounds t p a cs = some (⟨state, r, nx, a.eobrun, rest⟩, ds) := by
  induction fuel with
  | zero =>
    intro a cs ds n state nx rest _ h
    cases h
  | succ fuel ih =>
    intro a cs ds n state nx rest ha h
    cases cs with
    | nil => cases h
    | cons c cs =>
      rw [takeRefineFault] at h
      obtain ⟨⟨rs, l⟩, hs, h⟩ := Option.bind_eq_some_iff.1 h
      dsimp only at h
      by_cases h0 : rs % 16 = 0
      · rw [if_pos h0] at h
        by_cases h15 : rs / 16 < 15
        · rw [if_pos h15] at h
          cases h
        · rw [if_neg h15] at h
          by_cases hz : (c :: cs).count 0 < 16
          · rw [if_pos hz] at h
            obtain ⟨⟨es, m⟩, hes, h⟩ := Option.map_eq_some_iff.1 h
            cases h
            have := (refines_symbol ha (readRefineSymbol_zeros hs h0 h15) (by simp) c cs).trans
              (refines_skip_overrun (p := p) (c :: cs) (a := ⟨1, 16, a.acnext, a.eobrun, l⟩) (.inl rfl) (by simp only; omega) hes)
            exact ⟨_, this.done⟩
          · rw [if_neg hz] at h
            obtain ⟨⟨es, cs', m⟩, hskip, h⟩ := Option.bind_eq_some_iff.1 h
            obtain ⟨⟨fs, f, st, nx', m'⟩, hrec, h⟩ := Option.map_eq_some_iff.1 h
            cases h
            obtain ⟨r, hr⟩ := ih (a := { a with run := 0, bits := m }) ha hrec
            exact ⟨r, (refines_zeros ha hs h0 h15 hskip).rounds hr⟩
      · rw [if_neg h0] at h
        by_cases h1 : rs % 16 = 1
        · rw [if_pos h1] at h
          obtain ⟨⟨v, m⟩, hv, h⟩ := Option.bind_eq_some_iff.1 h
          have hsym := refines_symbol (p := p) ha (readRefineSymbol_coef hs h1 hv) (by simp only; split <;> simp) c cs
          dsimp only at h
          simp only [← word32_eq] at h
          by_cases hz : (c :: cs).count 0 < rs / 16
          · rw [if_pos hz] at h
            obtain ⟨⟨es, m'⟩, hes, h⟩ := Option.map_eq_some_iff.1 h
            cases h
            rw [if_pos (by omega)] at hsym
            exact ⟨_, (hsym.trans (refines_skip_overrun (c :: cs) (.inr rfl) (by simp only; omega) hes)).done⟩
          · rw [if_neg hz] at h
            by_cases hz : (c :: cs).count 0 = rs / 16
            · rw [if_pos hz] at h
              obtain ⟨⟨es, m'⟩, hes, h⟩ := Option.map_eq_some_iff.1 h
              cases h
              by_cases hr : rs / 16 = 0
              · rw [if_neg (by omega)] at hsym
                exact ⟨_, (hsym.trans (refines_put_overrun (c :: cs) rfl (by omega) hes)).done⟩
              · rw [if_pos hr] at hsym
                have hband := refines_skip_put_overrun (p := p) (c :: cs) (t := t) (a := ⟨2, (rs / 16 : Nat), word32 v, a.eobrun, m⟩) rfl
                  (by simp only; omega) (by simp only; omega) hes
                exact ⟨_, (hsym.trans hband).done⟩
            · rw [if_neg hz] at h
              obtain ⟨⟨es, cs', m'⟩, hskip, h⟩ := Option.bind_eq_some_iff.1 h
              obtain ⟨⟨fs, cs'', m''⟩, hput, h⟩ := Option.bind_eq_some_iff.1 h
              obtain ⟨⟨gs, f, st, nx', m'''⟩, hrec, h⟩ := Option.map_eq_some_iff.1 h
              cases h
              obtain ⟨r, hr⟩ := ih (a := { a with run := 0, acnext := word32 v, bits := m'' }) ha hrec
              exact ⟨r, (refines_new ha hs h1 hv hskip hput).rounds hr⟩
        · rw [if_neg h1] at h
          cases h

end Sys2Proof.Machine
end

section
/-! O29: HUF.AC_REFINE goes through a band as `refineRounds` says (42_huffman_jpeg.md R226). -/

namespace Sys2Proof.Machine

/-! ## The registers between two coefficients -/

/-- The registers of the refinement machine. -/
def HufUnit.refining (h : HufUnit) (a : RefineState) : HufUnit :=
  { h with acnext := a.acnext, acstate := BitVec.ofNat 3 a.acstate, eobrun := a.eobrun }

/-- HUF.AC_REFINE, started in `s`, has come to `a` in state `u`: beyond the coefficients nothing but the HUF registers has moved. -/
structure RefineAt (s : State) (a : RefineState) (u : State) : Prop where
  only : u = { s with coef := u.coef, huf := (s.hufLeft a.bits).refining a }
  segmentEnd : u.segmentEnd = { s.segmentEnd with bits := a.bits }
  suffix : a.bits <:+ s.segmentEnd.bits
  window : HufWindow u

/-- HufBit moves the cursor by STREAM and the cursor alone. -/
theorem hufAfter_refining (a : RefineState) (n : Nat) : ∀ {s u : State}, (∀ i, u.elem .stream i = s.elem .stream i) →
    u.huf = s.huf.refining a → u.hufAfter n = (s.hufAfter n).refining a := by
  induction n with
  | zero => exact fun _ hh => hh
  | succ n ih =>
    intro s u hs hh
    have hnext : u.hufNext = s.hufNext.refining a := by
      have hv : ∀ i, u.value .stream i = s.value .stream i := fun i => by rw [State.value, State.value, hs]
      unfold State.hufNext
      rw [hh]
      simp only [HufUnit.refining, hv]
      split <;> rfl
    exact ih (s := s.setHuf s.hufNext) (u := u.setHuf u.hufNext) (by simpa using hs) hnext

/-- The end of the segment depends on STREAM and the cursor alone. -/
theorem segmentEnd_congr {s u : State} (hs : ∀ i, u.elem .stream i = s.elem .stream i) (hpos : u.huf.pos = s.huf.pos)
    (hend : u.huf.endIdx = s.huf.endIdx) (hbits : u.huf.bits = s.huf.bits) (hcnt : u.huf.bitcnt = s.huf.bitcnt) :
    u.segmentEnd = s.segmentEnd := by
  rw [State.segmentEnd, State.segmentEnd, segmentFrom_congr hs, hpos, hend, hbits, hcnt]

section

variable {s u v : State} {a : RefineState}

theorem RefineAt.stream (h : RefineAt s a u) (i : Nat) : u.elem .stream i = s.elem .stream i := by
  rw [h.only]
  rfl

theorem RefineAt.huf (h : RefineAt s a u) : u.huf = (s.hufLeft a.bits).refining a := by
  rw [h.only]

theorem RefineAt.ht (h : RefineAt s a u) : u.ht = s.ht := by
  rw [h.only]

theorem RefineAt.arg0 (h : RefineAt s a u) : u.arg0 = s.arg0 := by
  rw [h.only]

theorem RefineAt.blockNamed (h : RefineAt s a u) (hb : BlockNamed s) : BlockNamed u := by
  rw [h.only]
  exact hb

theorem RefineAt.coefIndex (h : RefineAt s a u) (k : Nat) : coefIndex u k = Sys2Proof.Machine.coefIndex s k := by
  rw [Sys2Proof.Machine.coefIndex, Sys2Proof.Machine.coefIndex, blockBase, blockBase, h.arg0]

/-- A coefficient written. -/
theorem RefineAt.setCoef (h : RefineAt s a u) (m : Memory (Space.width .coef)) : RefineAt s a (u.setMem .coef m) where
  only := by
    conv_lhs => rw [h.only]
    rfl
  segmentEnd := h.segmentEnd ▸ segmentEnd_congr (fun _ => rfl) rfl rfl rfl rfl
  suffix := h.suffix
  window := h.window

/-- Other values of the registers. -/
theorem RefineAt.setRegs (h : RefineAt s a u) {b : RefineState} (hb : b.bits = a.bits) :
    RefineAt s b (u.setHuf (u.huf.refining b)) where
  only := by
    rw [h.huf, hb]
    conv_lhs => rw [h.only]
    rfl
  segmentEnd := by
    rw [hb, ← h.segmentEnd]
    exact segmentEnd_congr (fun _ => State.setHuf_elem ..) rfl rfl rfl rfl
  suffix := hb ▸ h.suffix
  window := h.window

/-- Bits read. -/
theorem RefineAt.read (h : RefineAt s a u) {l : List Bool} (hr : SegmentRead u l v) : RefineAt s { a with bits := l } v where
  only := by
    have hl : l.length ≤ a.bits.length := by
      have := hr.suffix.length_le
      rwa [h.segmentEnd] at this
    have hm := h.suffix.length_le
    have hleft : u.hufLeft l = (s.hufLeft l).refining a := by
      rw [State.hufLeft, h.segmentEnd, hufAfter_refining a _ (s := s.setHuf (s.hufLeft a.bits)) (by simpa using h.stream) h.huf,
        State.hufLeft, hufAfter_add, State.hufLeft]
      congr 2
      simp only
      omega
    rw [hr.only, hleft]
    conv_lhs => rw [h.only]
    rfl
  segmentEnd := by rw [hr.segmentEnd, h.segmentEnd]
  suffix := by
    have := hr.suffix
    rw [h.segmentEnd] at this
    exact this.trans h.suffix
  window := hr.window

theorem SegmentRead.elem {l : List Bool} (h : SegmentRead u l v) (sp : Space) (i : Nat) : v.elem sp i = u.elem sp i := by
  rw [h.only]
  exact State.setHuf_elem ..

/-- The refinement machine at the start of the command. -/
def State.refineStart (s : State) : RefineState := ⟨s.huf.acstate.toNat, 0, s.huf.acnext, s.huf.eobrun, s.segmentEnd.bits⟩

theorem RefineAt.start (h : HufWindow s) : RefineAt s s.refineStart s where
  only := by simp [State.refineStart, State.hufLeft, State.hufAfter, HufUnit.refining]
  segmentEnd := rfl
  suffix := List.suffix_refl _
  window := h

end

/-! ## One symbol, one coefficient -/

section

variable {s u : State} {a b : RefineState} {act : Fin 4} {t : HufTable} {p : Int}

theorem RefineAt.setHuf (h : RefineAt s a u) {m : HufUnit} (hb : b.bits = a.bits) (hm : m = u.huf.refining b) :
    RefineAt s b (u.setHuf m) := hm ▸ h.setRegs hb

theorem RefineAt.setAcstate (h : RefineAt s a u) (n : Nat) :
    RefineAt s { a with acstate := n } (u.setHuf { u.huf with acstate := BitVec.ofNat 3 n }) :=
  h.setHuf rfl (by rw [h.huf]; rfl)

/-- The run count is no register. -/
theorem RefineAt.setRun (h : RefineAt s a u) (r : Int) : RefineAt s { a with run := r } u :=
  ⟨h.only, h.segmentEnd, h.suffix, h.window⟩

theorem ends_refineSymbol (h : RefineAt s a u) (ht : s.ht[slotOf .ac act] = some t) (hok : TableOk t)
    (hr : readRefineSymbol t a = some b) :
    Ends (refineSymbol act) u (fun r v => r = b.run ∧ RefineAt s b v ∧ ∀ sp i, v.elem sp i = u.elem sp i) fun _ _ => False := by
  obtain ⟨⟨rs, l⟩, hs, hr⟩ := Option.bind_eq_some_iff.1 hr
  dsimp only at hr
  have hsym : takeSymbol t u.segmentEnd.bits = some (rs, l) := by rw [h.segmentEnd]; exact hs
  refine (ends_bind ..).2 ((ends_hufDecode h.window (h.ht ▸ ht) hok hsym).mono ?_ fun _ _ hf => hf)
  rintro rs v ⟨rfl, hv⟩
  have hread := h.read hv
  have hbits : v.segmentEnd.bits = l := by rw [hv.segmentEnd]
  by_cases h0 : rs % 16 = 0
  · rw [if_pos h0] at hr ⊢
    by_cases h15 : rs / 16 < 15
    · rw [if_pos h15] at hr ⊢
      obtain ⟨⟨x, m⟩, hx, hr⟩ := Option.map_eq_some_iff.1 hr
      cases hr
      refine (ends_bind ..).2 ((ends_receive hread.window).mono ?_ fun _ _ hf => ?_)
      · rintro y w ⟨rest, hy, hw⟩
        rw [hbits, hx] at hy
        cases hy
        have hm : { w.huf with eobrun := BitVec.ofNat 16 (x + 2 ^ (rs / 16)), acstate := BitVec.ofNat 3 4 } =
            w.huf.refining ⟨4, (rs / 16 : Nat), a.acnext, BitVec.ofNat 16 (x + 2 ^ (rs / 16)), m⟩ := by
          rw [(hread.read hw).huf]; rfl
        exact ⟨rfl, (hread.read hw).setHuf rfl hm, fun sp i => (State.setHuf_elem ..).trans ((hw.elem sp i).trans (hv.elem sp i))⟩
      · rw [hbits, hx] at hf
        cases hf.1
    · rw [if_neg h15] at hr ⊢
      cases hr
      exact ⟨rfl, (hread.setAcstate 1).setRun 16, fun sp i => (State.setHuf_elem ..).trans (hv.elem sp i)⟩
  · rw [if_neg h0] at hr ⊢
    by_cases h1 : rs % 16 = 1
    · rw [if_pos h1] at hr
      obtain ⟨⟨x, m⟩, hx, hr⟩ := Option.map_eq_some_iff.1 hr
      cases hr
      refine (ends_bind ..).2 ((ends_check ..).2 ⟨fun hc => absurd h1 (by simpa using hc), fun _ => ?_⟩)
      refine (ends_bind ..).2 ((ends_extend hread.window).mono ?_ fun _ _ hf => ?_)
      · rintro y w ⟨rest, hy, hw⟩
        rw [hbits, hx] at hy
        cases hy
        have hm : { w.huf with acnext := word32 x, acstate := BitVec.ofNat 3 (if rs / 16 ≠ 0 then 2 else 3) } =
            w.huf.refining ⟨if rs / 16 ≠ 0 then 2 else 3, (rs / 16 : Nat), word32 x, a.eobrun, m⟩ := by
          rw [(hread.read hw).huf]; rfl
        exact ⟨rfl, (hread.read hw).setHuf rfl hm, fun sp i => (State.setHuf_elem ..).trans ((hw.elem sp i).trans (hv.elem sp i))⟩
      · rw [hbits, hx] at hf
        cases hf.1
    · rw [if_neg h1] at hr
      cases hr

/-- State `b` with coefficient `d` at element `z`; every other element is as in `u`. -/
structure CoefRefined (s u : State) (b : RefineState) (z : Nat) (d : Int) (v : State) : Prop where
  at_state : RefineAt s b v
  at_coef : v.elem .coef z = some (BitVec.ofInt 16 d)
  rest : ∀ sp i, (sp ≠ .coef ∨ i ≠ z) → v.elem sp i = u.elem sp i

variable {z : Nat} {x : Half} {d : Int}

/-- A coefficient written. -/
theorem CoefRefined.write {v : State} (h : RefineAt s a v) (he : ∀ sp i, v.elem sp i = u.elem sp i) (c : Int) :
    CoefRefined s u a z (wrap16 c) (v.setMem .coef ((v.mem .coef).write z (half16 c))) where
  at_state := h.setCoef _
  at_coef := by rw [State.elem_setMem_write, if_pos rfl]; rfl
  rest sp i hne := by
    by_cases hsp : sp = .coef
    · subst hsp
      rw [State.elem_setMem_write, if_neg (hne.resolve_left fun hn => hn rfl), he]
    · rw [State.elem_setMem_other _ _ hsp, he]

/-- A zero left as it is. -/
theorem CoefRefined.keep {v : State} (h : RefineAt s a v) (he : ∀ sp i, v.elem sp i = u.elem sp i) (hx : u.elem .coef z = some x)
    (h0 : x.toInt = 0) : CoefRefined s u a z 0 v where
  at_state := h
  at_coef := by rw [he, hx, show x = BitVec.ofInt 16 0 from BitVec.eq_of_toInt_eq h0]
  rest sp i _ := he sp i

theorem ends_refineZero (h : RefineAt s a u) (hz : z < u.sizeOf .coef) (hx : u.elem .coef z = some x) (h0 : x.toInt = 0)
    (hp : passZero p a = some (b, d)) :
    Ends (refineZero a.acstate z a.run p) u (fun r v => r = b.run ∧ CoefRefined s u b z d v) fun _ _ => False := by
  have hcount : ∀ next, a.acstate = 1 ∨ a.acstate = 2 → (if a.acstate = 2 then 3 else 0) = next →
      Ends (refineZero a.acstate z a.run p) u (fun r v => r = (a.countZero next).run ∧ CoefRefined s u (a.countZero next) z 0 v)
        fun _ _ => False := by
    rintro next hs rfl
    rw [refineZero, if_pos hs, ends_bind]
    by_cases hr : a.run - 1 = 0
    · rw [if_pos hr, RefineState.countZero, if_pos hr]
      exact ⟨rfl, .keep ((h.setAcstate _).setRun _) (fun _ _ => State.setHuf_elem ..) hx h0⟩
    · rw [if_neg hr, RefineState.countZero, if_neg hr]
      exact ⟨rfl, .keep (h.setRun _) (fun _ _ => rfl) hx h0⟩
  unfold passZero at hp
  split at hp
  · next hs =>
    cases hp
    exact hcount 0 (.inl hs) (by rw [hs]; rfl)
  · next hs =>
    cases hp
    exact hcount 3 (.inr hs) (by rw [hs]; rfl)
  · next hs =>
    cases hp
    rw [refineZero, if_neg (by omega), if_pos hs, ends_bind, ends_get, ends_bind, ends_memWrite_of _ _ hz]
    have hnext : u.huf.acnext = a.acnext := by rw [h.huf]; rfl
    rw [hnext]
    have := CoefRefined.write (z := z) (h) (fun _ _ => rfl) (a.acnext.toInt * p)
    exact ⟨rfl, this.at_state.setAcstate 0, (State.setHuf_elem ..).trans this.at_coef,
      fun sp i hne => (State.setHuf_elem ..).trans (this.rest sp i hne)⟩
  · next hs =>
    cases hp
    rw [refineZero, if_neg (by omega), if_neg (by omega)]
    exact ⟨rfl, .keep h (fun _ _ => rfl) hx h0⟩
  · cases hp

theorem passZero_state {y : RefineState × Int} (hp : passZero p a = some y) : 1 ≤ a.acstate ∧ a.acstate ≤ 4 := by
  unfold passZero at hp
  split at hp
  · omega
  · omega
  · omega
  · omega
  · cases hp

theorem ends_refineAt (h : RefineAt s a u) (hz : z < u.sizeOf .coef) (hx : u.elem .coef z = some x)
    (hp : passCoef p a x.toInt = some (b, d)) :
    Ends (refineAt a.acstate z x.toInt a.run p) u (fun r v => r = b.run ∧ CoefRefined s u b z d v) fun _ _ => False := by
  unfold passCoef at hp
  split at hp
  · next h0 =>
    rw [refineAt, if_pos (passZero_state hp), if_neg (not_not.2 h0)]
    exact ends_refineZero h hz hx h0 hp
  · next h0 =>
    split at hp
    · next hs =>
      obtain ⟨⟨d', l⟩, hd, hp⟩ := Option.map_eq_some_iff.1 hp
      cases hp
      unfold correctCoef at hd
      split at hd
      · cases hd
      · next y l' hl =>
        cases hd
        have hbits : u.segmentEnd.bits = y :: l := by rw [h.segmentEnd, hl]
        rw [refineAt, if_pos hs, if_pos h0, refineNonzero, ends_bind, ends_bind]
        refine (ends_hufBit h.window hbits).mono ?_ fun _ _ hf => hf
        rintro _ v ⟨rfl, hv⟩
        rw [ends_memWrite_of _ _ (by rw [hv.only]; exact hz), ends_pure]
        exact ⟨rfl, .write (h.read hv) hv.elem _⟩
    · cases hp

end

end Sys2Proof.Machine
end

section
/-! O29: the loop of HUF.AC_REFINE over a band, and the command at an unwritten coefficient (42_huffman_jpeg.md R226). -/

namespace Sys2Proof.Machine

/-- No coefficient of the zig-zag order comes twice. -/
theorem zz_inj {i j : Nat} (hi : i < 64) (hj : j < 64) (h : zz i = zz j) : i = j := by
  have hall : ∀ i < 64, ∀ j < 64, zz i = zz j → i = j := by decide
  exact hall i hi j hj h

/-- Coefficients `ds` at the places of the band of `u` from `k` on; every other element is as in `u`. -/
structure BandRefined (u : State) (k : Nat) (ds : List Int) (v : State) : Prop where
  at_band : ∀ i, i < ds.length → v.elem .coef (coefIndex u (k + i)) = some (BitVec.ofInt 16 (ds.getD i 0))
  rest : ∀ sp b, (sp ≠ .coef ∨ ∀ i, i < ds.length → b ≠ coefIndex u (k + i)) → v.elem sp b = u.elem sp b

section

variable {s u v w : State} {a b c : RefineState} {k : Nat} {d : Int} {ds : List Int}

theorem coefIndex_inj {i j : Nat} (hi : i < 64) (hj : j < 64) (h : coefIndex u i = coefIndex u j) : i = j :=
  zz_inj hi hj (Nat.add_left_cancel h)

theorem BandRefined.refl (u : State) (k : Nat) : BandRefined u k [] u :=
  ⟨fun i hi => absurd hi (Nat.not_lt_zero i), fun _ _ _ => rfl⟩

theorem BandRefined.cons (h : CoefRefined s u b (coefIndex u k) d v) (hidx : ∀ i, coefIndex v i = coefIndex u i)
    (hk : k + ds.length < 64) (hds : BandRefined v (k + 1) ds w) : BandRefined u k (d :: ds) w := by
  have hshift : ∀ i, k + 1 + i = k + (i + 1) := fun i => by omega
  refine ⟨fun i hi => ?_, fun sp x hx => ?_⟩
  · cases i with
    | zero =>
      rw [hds.rest _ _ (.inr fun i hi hne => ?_)]
      · exact h.at_coef
      · rw [hidx] at hne
        have := coefIndex_inj (by omega) (by omega) hne
        omega
    | succ i =>
      rw [← hshift, ← hidx]
      exact hds.at_band i (Nat.lt_of_succ_lt_succ hi)
  · rw [hds.rest sp x (hx.imp_right fun hx i hi => ?_), h.rest sp x (hx.imp_right fun hx => hx 0 (Nat.succ_pos _))]
    rw [hidx, hshift]
    exact hx (i + 1) (Nat.succ_lt_succ hi)

end

section

variable {s : State} {act : Fin 4} {t : HufTable} {p : Int} {e : Nat} {Q : Unit → State → Prop} {E : Stop → State → Prop}

/-- The round of a coefficient. -/
theorem ends_refineLoop_coef {u : State} {a b : RefineState} {k fuel : Nat} {x : Half} {d : Int} (h : RefineAt s a u)
    (hz : coefIndex u k < u.sizeOf .coef) (hk : k ≤ e) (ha : a.acstate ≠ 0) (ha4 : a.acstate < 8)
    (hx : u.elem .coef (coefIndex u k) = some x) (hp : passCoef p a x.toInt = some (b, d))
    (hnext : ∀ v, CoefRefined s u b (coefIndex u k) d v → Ends (refineLoop act e p fuel (k + 1) b.run) v Q E) :
    Ends (refineLoop act e p (fuel + 1) k a.run) u Q E := by
  have hst : u.huf.acstate.toNat = a.acstate := by
    rw [h.huf]
    exact Nat.mod_eq_of_lt ha4
  have hst0 : u.huf.acstate ≠ 0 := fun h0 => ha (by rw [← hst, h0]; rfl)
  rw [refineLoop, if_pos hk, ends_bind, ends_get, ends_bind, ends_memRead_of _ _ hz hx, if_neg hst0, ends_bind, hst]
  refine (ends_refineAt h hz hx hp).mono ?_ fun _ _ hf => hf.elim
  rintro _ v ⟨rfl, hv⟩
  exact hnext v hv

/-- The round of a symbol, at a written coefficient. -/
theorem ends_refineLoop_symbol {u : State} {a b : RefineState} {k fuel : Nat} {x : Half} (h : RefineAt s a u)
    (ht : s.ht[slotOf .ac act] = some t) (hok : TableOk t) (hz : coefIndex u k < u.sizeOf .coef) (hk : k ≤ e) (ha : a.acstate = 0)
    (hx : u.elem .coef (coefIndex u k) = some x) (hr : readRefineSymbol t a = some b)
    (hnext : ∀ v, RefineAt s b v → (∀ sp i, v.elem sp i = u.elem sp i) → Ends (refineLoop act e p fuel k b.run) v Q E) :
    Ends (refineLoop act e p (fuel + 1) k a.run) u Q E := by
  have hst : u.huf.acstate = 0 := by
    rw [h.huf, HufUnit.refining, ha]
    rfl
  rw [refineLoop, if_pos hk, ends_bind, ends_get, ends_bind, ends_memRead_of _ _ hz hx, if_pos hst, ends_bind]
  refine (ends_refineSymbol h ht hok hr).mono ?_ fun _ _ hf => hf.elim
  rintro _ v ⟨rfl, hv, he⟩
  exact hnext v hv he

theorem passCoef_state {a : RefineState} {c : Int} {y : RefineState × Int} (hp : passCoef p a c = some y) :
    1 ≤ a.acstate ∧ a.acstate ≤ 4 := by
  unfold passCoef at hp
  split at hp
  · exact passZero_state hp
  · split at hp
    · next hs => exact hs
    · cases hp

/-- The loop goes through the coefficients `cs` from `k` on as `refineRounds` says, with two rounds at most for each, and then on from
there. -/
theorem ends_refineLoop (ht : s.ht[slotOf .ac act] = some t) (hok : TableOk t) (hb : BlockNamed s) (m : Nat) (cs : List Int) :
    ∀ {u : State} {a b : RefineState} {ds : List Int} {k fuel : Nat}, RefineAt s a u →
      (∀ i, i < cs.length → ∃ x, u.elem .coef (coefIndex u (k + i)) = some x ∧ x.toInt = cs.getD i 0) →
      refineRounds t p a cs = some (b, ds) → 2 * cs.length + m ≤ fuel → k + cs.length ≤ e + 1 → k + cs.length ≤ 64 →
      (∀ v fuel', RefineAt s b v → BandRefined u k ds v → m ≤ fuel' →
        Ends (refineLoop act e p fuel' (k + cs.length) b.run) v Q E) →
        Ends (refineLoop act e p fuel k a.run) u Q E := by
  induction cs with
  | nil =>
    intro u a b ds k fuel h _ hr hfuel _ _ hnext
    cases hr
    exact hnext u fuel h (.refl u k) (by simpa using hfuel)
  | cons c cs ih =>
    intro u a b ds k fuel h hx hr hfuel hke hk64 hnext
    simp only [List.length_cons] at hfuel hke hk64 hnext
    obtain ⟨x, hx0, rfl⟩ := hx 0 (Nat.succ_pos _)
    obtain ⟨a', ha', hr⟩ := Option.bind_eq_some_iff.1 hr
    obtain ⟨⟨b', d⟩, hp, hr⟩ := Option.bind_eq_some_iff.1 hr
    obtain ⟨⟨b'', es⟩, hes, hr⟩ := Option.map_eq_some_iff.1 hr
    cases hr
    have hs := passCoef_state hp
    have hlen : es.length = cs.length := refineRounds_length cs hes
    -- the coefficient itself, from a state with the elements of `u`
    have hcoef : ∀ v fuel, RefineAt s a' v → (∀ sp i, v.elem sp i = u.elem sp i) → 2 * cs.length + m ≤ fuel →
        Ends (refineLoop act e p (fuel + 1) k a'.run) v Q E := fun v fuel hv hve hf => by
      have hvu : ∀ i, coefIndex v i = coefIndex u i := fun i => (hv.coefIndex i).trans (h.coefIndex i).symm
      refine ends_refineLoop_coef hv (coefIndex_lt (hv.blockNamed hb) k) (by omega) (by omega) (by omega)
        (by rw [hvu, hve]; exact hx0) hp fun w hw => ?_
      have hwu : ∀ i, coefIndex w i = coefIndex u i := fun i => (hw.at_state.coefIndex i).trans (h.coefIndex i).symm
      have hwrest : CoefRefined s u b' (coefIndex u k) d w :=
        ⟨hw.at_state, by rw [← hvu]; exact hw.at_coef, fun sp i hne => (hw.rest sp i (by rwa [hvu])).trans (hve sp i)⟩
      refine ih hw.at_state (fun i hi => ?_) hes hf (by omega) (by omega) fun w' fuel' hw' hband hm => ?_
      · obtain ⟨y, hy, hyc⟩ := hx (i + 1) (Nat.succ_lt_succ hi)
        refine ⟨y, ?_, by simpa using hyc⟩
        rw [hwu, hwrest.rest _ _ (.inr fun hne => ?_), show k + 1 + i = k + (i + 1) by omega, hy]
        have := coefIndex_inj (by omega) (by omega) hne
        omega
      · rw [show k + 1 + cs.length = k + (cs.length + 1) by omega]
        exact hnext w' fuel' hw' (.cons hwrest hwu (show k + es.length < 64 by omega) hband) hm
    obtain ⟨fuel, rfl⟩ : ∃ n, fuel = n + 2 := ⟨fuel - 2, by omega⟩
    by_cases ha : a.acstate = 0
    · rw [if_pos ha] at ha'
      exact ends_refineLoop_symbol h ht hok (coefIndex_lt (h.blockNamed hb) k) (by omega) ha hx0 ha' fun v hv hve =>
        hcoef v fuel hv hve (by omega)
    · rw [if_neg ha] at ha'
      cases ha'
      exact hcoef u (fuel + 1) h (fun _ _ => rfl) (by omega)

end

/-! ## The command at an unwritten coefficient -/

/-- The coefficients of the band before the unwritten one are refined, and the registers are as there. -/
theorem exec_hufAcRefine_unwritten {s : State} {act : Fin 4} {t : HufTable} {j : Nat} {b : RefineState} {ds : List Int}
    (hr : s.flags.hufRdy = true) (hinv : HufInv s) (hb : BlockNamed s) (ht : s.ht[slotOf .ac act] = some t) (hok : TableOk t)
    (hj : s.huf.ss + j ≤ s.huf.se) (hw : ∀ k, k < j → (s.elem .coef (coefIndex s (s.huf.ss + k))).isSome = true)
    (hnone : s.elem .coef (coefIndex s (s.huf.ss + j)) = none)
    (hrounds : refineRounds t (2 ^ s.huf.al) s.refineStart
      ((List.range j).map fun k => (s.value .coef (coefIndex s (s.huf.ss + k))).toInt) = some (b, ds)) :
    ∃ u, exec (.hufAcRefine act) s =
        .next (takeFault .unwrittenRead (5 * 2 ^ 28 + coefIndex s (s.huf.ss + j) % 2 ^ 28) u) ∧
      RefineAt s b u ∧ BandRefined s s.huf.ss ds u := by
  have hse : s.huf.se < 64 := Nat.mod_lt _ (by omega)
  have hlen := refineRounds_length _ hrounds
  rw [List.length_map, List.length_range] at hlen
  refine Misses.next (sp := .coef) (p := hufAcRefineBody act) ?_ rfl
  unfold hufAcRefineBody
  refine misses_needReady hr (misses_checkBlock hb (misses_needTable ht (misses_get (Misses.bind ?_ _))))
  refine ends_refineLoop ht hok hb 1 _ (.start (hinv.hufWindow hr)) (fun i hi => ?_) hrounds ?_ ?_ ?_ fun v fuel hv hband hm => ?_
  · rw [List.length_map, List.length_range] at hi
    refine ⟨_, State.value_of_isSome (hw i hi), ?_⟩
    simp [hi]
  · rw [List.length_map, List.length_range]
    omega
  · rw [List.length_map, List.length_range]
    omega
  · rw [List.length_map, List.length_range]
    omega
  · obtain ⟨fuel, rfl⟩ := Nat.exists_eq_succ_of_ne_zero (by omega : fuel ≠ 0)
    have hidx := hv.coefIndex (s.huf.ss + j)
    have hmiss := misses_memRead (s := v) (sp := .coef) (R := fun u => RefineAt s b u ∧ BandRefined s s.huf.ss ds u)
      (coefIndex_lt (hv.blockNamed hb) (s.huf.ss + j)) ?_ ⟨hv, hband⟩
    · rw [List.length_map, List.length_range, refineLoop, if_pos hj]
      rw [← hidx]
      exact misses_get (hmiss.bind _)
    · rw [hidx, hband.rest _ _ (.inr fun i hi hne => ?_), hnone]
      have := coefIndex_inj (by omega) (by omega) hne
      omega

end Sys2Proof.Machine
end

section
/-! O29. -/

namespace Sys2Proof.Machine

/-- HUF.AC_REFINE in the words of the claim: `b` is the state the rounds over the written coefficients lead to. -/
theorem exec_hufAcRefine_unwritten_claim {s : State} {act : Fin 4} {t : HufTable} {j state run : Nat} {r : Int} {nx : Word}
    {rest : List Bool} {ds : List Int} (hr : s.flags.hufRdy = true) (hinv : HufInv s) (hb : BlockNamed s)
    (ht : s.ht[slotOf .ac act] = some t) (hok : TableOk t) (hj : s.huf.ss + j ≤ s.huf.se)
    (hw : ∀ k, k < j → (s.elem .coef (coefIndex s (s.huf.ss + k))).isSome = true)
    (hnone : s.elem .coef (coefIndex s (s.huf.ss + j)) = none)
    (hrounds : refineRounds t (2 ^ s.huf.al) s.refineStart
      ((List.range j).map fun k => (s.value .coef (coefIndex s (s.huf.ss + k))).toInt) =
        some (⟨state, r, nx, if run = 0 then s.huf.eobrun else BitVec.ofNat 16 run, rest⟩, ds)) :
    ∃ u, exec (.hufAcRefine act) s = .next u ∧ u.segmentEnd = { s.segmentEnd with bits := rest } ∧
      u = takeFault .unwrittenRead (5 * 2 ^ 28 + coefIndex s (s.huf.ss + j) % 2 ^ 28) { s with
        coef := u.coef
        huf := { s.hufLeft rest with
          acnext := nx, acstate := BitVec.ofNat 3 state
          eobrun := if run = 0 then s.huf.eobrun else BitVec.ofNat 16 run } } ∧
      (∀ k, k < j → u.elem .coef (coefIndex s (s.huf.ss + k)) = some (BitVec.ofInt 16 (ds.getD k 0))) ∧
      ∀ sp a, (sp ≠ .coef ∨ ∀ k, k < j → a ≠ coefIndex s (s.huf.ss + k)) → u.elem sp a = s.elem sp a := by
  have hlen := refineRounds_length _ hrounds
  rw [List.length_map, List.length_range] at hlen
  obtain ⟨u, hu, hat, hband, hrest⟩ := exec_hufAcRefine_unwritten hr hinv hb ht hok hj hw hnone hrounds
  rw [hlen] at hband hrest
  refine ⟨_, hu, ?_, ?_, fun k hk => ?_, fun sp a ha => ?_⟩
  · rw [← hat.segmentEnd]
    exact segmentEnd_congr (fun _ => takeFault_elem ..) rfl rfl rfl rfl
  · conv_lhs => rw [hat.only]
    rfl
  · rw [takeFault_elem, hband k hk]
  · rw [takeFault_elem, hrest sp a ha]

/-- Settles O29: MQ.READBIT, HUF.DC_REFINE, HUF.LOADTABLE, IDCT.BLOCK and IWT.SR1D stop before they change anything; for IWT.SR2D by
induction on the rows, for HUF.AC_REFINE on the coefficients of the band. -/
theorem unwrittenElements : Obligations.UnwrittenElements := by
  intro s
  refine ⟨fun hr _ hc hn => exec_mqReadbit_unwritten hr hc hn, fun c id j hsize => ⟨exec_hufLoadtable_unwritten_count c id hsize,
    fun hcnt hsum hsize hfit h => exec_hufLoadtable_unwritten_symbol c id hcnt rfl hsum hsize hfit h⟩,
    fun hb qti j => ⟨exec_idctBlock_unwritten_coef qti hb, fun hcoef h => ?_⟩,
    fun f ph j hstride hlast hph h => exec_iwtSr1d_unwritten f ph hstride hlast hph h, fun f pu pv j hsize hpu hpv h => ?_,
    fun hr hb hn => exec_hufDcRefine_unwritten hr hb hn, ?_⟩
  · have hstep := exec_idctBlock_unwritten_step qti hb hcoef h
    have hlt : qtIndex qti 0 + j < 2 ^ 28 := by have := h.1; unfold qtIndex; omega
    rwa [Nat.mod_eq_of_lt hlt] at hstep
  · obtain ⟨u, hu, hrows⟩ := exec_iwtSr2d_unwritten f pu pv hsize hpu hpv h
    refine ⟨_, hu, ?_, fun v i hv hi => ?_, fun sp a ha => ?_⟩
    · conv_lhs => rw [hrows.only]
      rfl
    · rw [takeFault_elem]
      exact hrows.done v i hv hi
    · rw [takeFault_elem, hrows.rest sp a ha]
  · intro act ac j ds state run nx rest hr hinv hb ht hok base hj hw hnone head hcase
    have hclaim : ∀ {r : Int}, _ := fun {r} hrounds => exec_hufAcRefine_unwritten_claim (r := r) (state := state) (run := run)
      (nx := nx) (rest := rest) (ds := ds) hr hinv hb ht hok hj hw hnone hrounds
    rcases hcase with ⟨h0, htake, rfl⟩ | ⟨h0, rfl, htake⟩ | ⟨h4, rfl, rfl, rfl, htake⟩
    · obtain ⟨r, hrounds⟩ := refineRounds_takeRefine (a := s.refineStart) 65 (congrArg BitVec.toNat h0) htake
      exact hclaim hrounds
    · obtain ⟨r, hrounds⟩ := refineRounds_takeRefineFault (a := s.refineStart) 65 (congrArg BitVec.toNat h0) htake
      exact hclaim hrounds
    · have hstate : s.refineStart.acstate = 4 := congrArg BitVec.toNat h4
      have hrounds := (refines_eob (t := ac) (a := s.refineStart) _ hstate htake).done
      rw [hstate] at hrounds
      exact hclaim hrounds

end Sys2Proof.Machine
end

section
/-! O30: the MQ unit at an unwritten byte of STREAM (40_mq_decoder.md R142 to R146). -/

namespace Sys2Proof.Machine

variable {α : Type}

section Bytes

variable {s : State} {R : State → Prop}

theorem misses_modifyMq {f : MqUnit → MqUnit} {p : Proc α} {sp : Space} {a : Nat} (h : Misses p (s.setMq (f s.mq)) sp a R) :
    Misses (modifyMq f >>= fun _ => p) s sp a R := (ends_bind ..).2 h

/-- MqByte of a written byte of the window. -/
theorem misses_after_mqByte {i : Nat} {b : Byte} {f : Nat → Proc α} {sp : Space} {a : Nat} (hi : i < s.mq.endIdx.toNat)
    (hend : s.mq.endIdx.toNat ≤ s.params.streamSize) (hb : s.elem .stream i = some b) (h : Misses (f b.toNat) s sp a R) :
    Misses (mqByte i >>= f) s sp a R := by
  refine misses_after (Q := fun x t => x = b.toNat ∧ t = s) ?_ (by rintro _ _ ⟨rfl, rfl⟩; exact h)
  rw [mqByte, ends_bind, ends_get, if_pos hi, ends_bind,
    ends_memRead_of s _ (show i < s.sizeOf .stream from Nat.lt_of_lt_of_le hi hend) hb]
  exact ⟨rfl, rfl⟩

theorem misses_mqByte {i : Nat} (hi : i < s.mq.endIdx.toNat) (hend : s.mq.endIdx.toNat ≤ s.params.streamSize)
    (hn : s.elem .stream i = none) {t : State} (ht : s = t) : Misses (mqByte i) s .stream i (· = t) := by
  unfold mqByte
  refine misses_get ?_
  rw [if_pos hi]
  exact (misses_memRead (show i < s.sizeOf .stream from Nat.lt_of_lt_of_le hi hend) hn ht).bind _

/-- BYTEIN at an unwritten byte at MQ_BP. -/
theorem misses_byteIn_here {i : Nat} (hbp : s.mq.bp.toNat = i) (hi : i < s.mq.endIdx.toNat)
    (hend : s.mq.endIdx.toNat ≤ s.params.streamSize) (hn : s.elem .stream i = none) : Misses byteIn s .stream i (· = s) := by
  subst hbp
  unfold byteIn
  exact misses_get ((misses_mqByte hi hend hn rfl).bind _)

/-- BYTEIN at a written byte with an unwritten one after it: MQ_BP has moved on to it unless the byte is 0xFF. -/
theorem misses_byteIn_next {i : Nat} {b : Byte} (hbp : s.mq.bp.toNat = i) (hi : i + 1 < s.mq.endIdx.toNat)
    (hend : s.mq.endIdx.toNat ≤ s.params.streamSize) (hb : s.elem .stream i = some b) (hn : s.elem .stream (i + 1) = none) :
    Misses byteIn s .stream (i + 1) (· = s.setMq { s.mq with bp := if b = 0xFF#8 then s.mq.bp else s.mq.bp + 1 }) := by
  subst hbp
  unfold byteIn
  refine misses_get (misses_after_mqByte (Nat.lt_of_succ_lt hi) hend hb ?_)
  by_cases hff : b = 0xFF#8
  · rw [if_pos ((byte_ff b).2 hff), if_pos hff]
    exact (misses_mqByte hi hend hn (State.setMq_self s).symm).bind _
  · rw [if_neg (mt (byte_ff b).1 hff), if_neg hff]
    refine misses_modifyMq (Misses.bind ?_ _)
    exact misses_mqByte (s := s.setMq { s.mq with bp := s.mq.bp + 1 }) hi hend (by simpa using hn) rfl

end Bytes

/-! ## MQ.INIT -/

section Init

variable {s : State} (hlo : s.arg0.toNat < s.arg1.toNat) (hhi : s.arg1.toNat ≤ s.params.streamSize)
include hlo hhi

theorem exec_mqInit_unwritten_first (hn : s.elem .stream s.arg0.toNat = none) :
    exec .mqInit s = .next (takeFault .unwrittenRead (2 ^ 28 + s.arg0.toNat % 2 ^ 28)
      (s.setMq { s.mq with endIdx := s.arg1, bp := s.arg0 })) := by
  refine Misses.next_stream_eq (a := s.arg0.toNat) ?_
  unfold mqInitBody
  refine misses_checkWindow (Nat.le_of_lt hlo) hhi (misses_get (misses_modifyMq (misses_modifyMq (Misses.bind ?_ _))))
  exact misses_mqByte hlo hhi (by simpa using hn) rfl

theorem exec_mqInit_unwritten_second {b : Byte} (hb : s.elem .stream s.arg0.toNat = some b) (hnext : s.arg0.toNat + 1 < s.arg1.toNat)
    (hn : s.elem .stream (s.arg0.toNat + 1) = none) :
    exec .mqInit s = .next (takeFault .unwrittenRead (2 ^ 28 + (s.arg0.toNat + 1) % 2 ^ 28)
      (s.setMq { s.mq with
        endIdx := s.arg1, bp := if b = 0xFF#8 then s.arg0 else s.arg0 + 1, chigh := b.setWidth 16, clow := 0 })) := by
  refine Misses.next_stream_eq (a := s.arg0.toNat + 1) ?_
  unfold mqInitBody
  refine misses_checkWindow (Nat.le_of_lt hlo) hhi (misses_get (misses_modifyMq (misses_modifyMq ?_)))
  refine misses_after_mqByte hlo hhi (by simpa using hb) (misses_modifyMq (Misses.bind ?_ _))
  rw [← BitVec.ofNat_toNat]
  exact misses_byteIn_next rfl hnext hhi (by simpa using hb) (by simpa using hn)

end Init

/-! ## The code register between two bytes -/

/-- MQ_CHIGH, MQ_CLOW, MQ_CT and MQ_BP, written from the code register. -/
def MqUnit.load (u : MqUnit) (m : MqCode) : MqUnit :=
  { u with chigh := BitVec.ofNat 16 (m.c / 2 ^ 16), clow := BitVec.ofNat 16 m.c, ct := BitVec.ofNat 4 m.ct, bp := BitVec.ofNat 32 m.bp }

/-- When only the code register has moved, it tells the state. -/
theorem MqMoved.eq_load {s t : State} (h : MqMoved s t) (ha : t.mq.a = s.mq.a) : t = s.setMq (s.mq.load t.mqCode) := by
  have hhigh : BitVec.ofNat 16 (t.mqCode.c / 2 ^ 16) = t.mq.chigh := BitVec.eq_of_toNat_eq (by
    have := t.mq.chigh.isLt
    have := t.mq.clow.isLt
    simp only [State.mqCode, BitVec.toNat_ofNat]
    omega)
  have hlow : BitVec.ofNat 16 t.mqCode.c = t.mq.clow := BitVec.eq_of_toNat_eq (by
    have := t.mq.clow.isLt
    simp only [State.mqCode, BitVec.toNat_ofNat]
    omega)
  have hct : BitVec.ofNat 4 t.mqCode.ct = t.mq.ct := by simp [State.mqCode]
  have hbp : BitVec.ofNat 32 t.mqCode.bp = t.mq.bp := by simp [State.mqCode]
  conv_lhs => rw [h.only]
  rw [MqUnit.load, hhigh, hlow, hct, hbp, ← ha, ← h.endIdx]

/-- One round of RENORMD up to the shift, when the bytes it asks for are written. -/
theorem ends_refill_code {s : State} (h : MqOk s) (hw : s.mqCode.ct = 0 → MqPairWritten s s.mqCode.bp) :
    Ends (if s.mq.ct = 0 then byteIn else pure ()) s
      (fun _ t => MqMoved s t ∧ t.mqCode = (if s.mqCode.ct = 0 then s.mqBytein s.mqCode else s.mqCode) ∧ t.mq.a = s.mq.a ∧
        t.mq.ct ≠ 0)
      fun _ _ => False := by
  by_cases hc : s.mq.ct = 0
  · have h0 : s.mqCode.ct = 0 := by simp [State.mqCode, hc]
    rw [if_pos hc, if_pos h0]
    exact ends_byteIn h (hw h0)
  · have h0 : s.mqCode.ct ≠ 0 := fun h0 => hc (BitVec.eq_of_toNat_eq (by simpa [State.mqCode] using h0))
    rw [if_neg hc, if_neg h0]
    exact ⟨⟨by simp, rfl, le_rfl, h⟩, rfl, rfl, hc⟩

/-- The shift of RENORMD. -/
def MqUnit.shifted (m : MqUnit) : MqUnit :=
  { m with chigh := (m.chigh <<< 1) ||| (m.clow >>> 15), clow := m.clow <<< 1, ct := m.ct - 1 }

theorem mqCode_shifted {t : State} (hct : t.mq.ct ≠ 0) :
    (t.setMq t.mq.shifted).mqCode = { t.mqCode with c := t.mqCode.c * 2 % 2 ^ 32, ct := t.mqCode.ct - 1 } := by
  have hct' : (t.mq.ct - 1).toNat = t.mq.ct.toNat - 1 := by
    have : t.mq.ct.toNat ≠ 0 := fun h0 => hct (BitVec.eq_of_toNat_eq (by simpa using h0))
    have := t.mq.ct.isLt
    rw [BitVec.toNat_sub]
    simp
    omega
  simp only [State.mqCode, State.setMq_mq, MqUnit.shifted, hct', shift_halves]

/-- RENORMD of the interval `a` stops in the BYTEIN of round `n`, which finds no bit left; the bytes asked for before are written. -/
theorem misses_renormD {x : Nat} {R : State → Prop} (k : Nat) : ∀ (n : Nat) (s : State) (a : Nat),
    MqOk s → a * 2 ^ n < 2 ^ 15 → n < k → (s.mqShifts n s.mqCode).ct = 0 →
    (∀ j, j < n → (s.mqShifts j s.mqCode).ct = 0 → MqPairWritten s (s.mqShifts j s.mqCode).bp) →
    (∀ t, MqMoved s t → t.mqCode = s.mqShifts n s.mqCode → t.mq.a = s.mq.a → Misses byteIn t .stream x R) →
      Misses (renormD k a) s .stream x R := by
  induction k with
  | zero => exact fun n s a _ _ hn => absurd hn (Nat.not_lt_zero n)
  | succ k ih =>
    intro n s a h ha hn hct hw hmiss
    rw [renormD]
    refine misses_get ?_
    cases n with
    | zero =>
      have hc : s.mq.ct = 0 := BitVec.eq_of_toNat_eq hct
      rw [if_pos hc]
      exact (hmiss s ⟨by simp, rfl, le_rfl, h⟩ rfl rfl).bind _
    | succ n =>
      have hdouble : a * 2 ^ (n + 1) = a * 2 * 2 ^ n := by ring
      rw [hdouble] at ha
      have ha2 : a * 2 < 2 ^ 15 := Nat.lt_of_le_of_lt (Nat.le_mul_of_pos_right _ (Nat.two_pow_pos n)) ha
      refine misses_after (ends_refill_code h fun h0 => hw 0 (Nat.succ_pos n) h0) ?_
      rintro _ t ⟨hm, hcode, hta, htc⟩
      have hmu : MqMoved s (t.setMq t.mq.shifted) := hm.trans ⟨by simp, rfl, le_rfl, hm.ok.setMq rfl rfl⟩
      have hcu : (t.setMq t.mq.shifted).mqCode = s.mqShifts 1 s.mqCode := by
        rw [mqCode_shifted htc, hcode]
        rfl
      have hshift : ∀ j, (t.setMq t.mq.shifted).mqShifts j (t.setMq t.mq.shifted).mqCode = s.mqShifts (j + 1) s.mqCode := fun j => by
        rw [hmu.shifts, hcu]
        rfl
      refine misses_modifyMq ?_
      simp only [Nat.mod_eq_of_lt (show a * 2 < 2 ^ 16 by omega)]
      rw [if_neg (Nat.not_le.2 ha2)]
      refine ih n (t.setMq t.mq.shifted) (a * 2) hmu.ok ha (Nat.lt_of_succ_lt_succ hn) (by rw [hshift]; exact hct)
        (fun j hj hc => ?_) fun v hv hcv hav => ?_
      · rw [hshift] at hc ⊢
        exact hmu.readable (hw (j + 1) (Nat.succ_lt_succ hj) hc)
      · exact hmiss v (hmu.trans hv) (hcv.trans (hshift n)) (hav.trans hta)

/-! ## MQ.READBIT -/

theorem mqShifts_succ (s : State) (n : Nat) : ∀ m, s.mqShifts (n + 1) m = s.mqShifts 1 (s.mqShifts n m) := by
  induction n with
  | zero => exact fun _ => rfl
  | succ n ih => exact fun m => ih _

/-- While bits are left, the shifts ask for no byte. -/
theorem mqShifts_of_le (s : State) (n : Nat) : ∀ m : MqCode, n ≤ m.ct →
    (s.mqShifts n m).ct = m.ct - n ∧ (s.mqShifts n m).bp = m.bp := by
  induction n with
  | zero => exact fun m _ => ⟨rfl, rfl⟩
  | succ n ih =>
    intro m hn
    rw [State.mqShifts, if_neg (by omega)]
    obtain ⟨hct, hbp⟩ := ih { m with c := m.c * 2 % 2 ^ 32, ct := m.ct - 1 } (by simp only; omega)
    exact ⟨by rw [hct]; simp only; omega, hbp⟩

theorem mqBytein_bp (s : State) (m : MqCode) : m.bp ≤ (s.mqBytein m).bp := by
  unfold State.mqBytein
  dsimp only
  split
  · exact Nat.le_succ _
  · split
    · exact le_rfl
    · exact Nat.le_succ _

theorem mqShifts_bp_mono (s : State) (n : Nat) : ∀ m : MqCode, m.bp ≤ (s.mqShifts n m).bp := by
  induction n with
  | zero => exact fun _ => le_rfl
  | succ n ih =>
    intro m
    refine Nat.le_trans ?_ (ih _)
    dsimp only
    split
    · exact mqBytein_bp s m
    · exact le_rfl

theorem mqShifts_bp_le (s : State) (m : MqCode) {j n : Nat} (h : j ≤ n) : (s.mqShifts j m).bp ≤ (s.mqShifts n m).bp := by
  induction h with
  | refl => exact le_rfl
  | step _ ih =>
    rw [mqShifts_succ]
    exact Nat.le_trans ih (mqShifts_bp_mono s 1 _)

/-- The bytes asked for before an unwritten byte are written: MQ_BP moves on at each of them, since an unwritten byte is no part of a
marker. -/
theorem mqShifts_pairWritten {s : State} {m : MqCode} {lo n j : Nat} (hlo : lo ≤ m.bp)
    (hw : WindowWritten s lo ((s.mqShifts n m).bp + 1)) (hin : (s.mqShifts n m).bp + 1 < s.mq.endIdx.toNat)
    (hn : s.elem .stream ((s.mqShifts n m).bp + 1) = none) (hj : j < n) (hct : (s.mqShifts j m).ct = 0) :
    MqPairWritten s (s.mqShifts j m).bp := by
  have hge : lo ≤ (s.mqShifts j m).bp := Nat.le_trans hlo (mqShifts_bp_mono s j m)
  have hle : (s.mqShifts j m).bp ≤ (s.mqShifts n m).bp := mqShifts_bp_le s m (Nat.le_of_lt hj)
  have hnext : (s.mqShifts j m).bp + 1 ≤ (s.mqShifts n m).bp := by
    by_contra hlt
    have heq : (s.mqShifts j m).bp = (s.mqShifts n m).bp := by omega
    have hbyte : s.byteAt s.mq.endIdx.toNat ((s.mqShifts n m).bp + 1) = 0 := by
      rw [State.byteAt, if_pos hin, State.value, hn]
      rfl
    have hmove : (s.mqShifts (j + 1) m).bp = (s.mqShifts j m).bp + 1 := by
      rw [mqShifts_succ, State.mqShifts, State.mqShifts, if_pos hct, State.mqBytein, heq, hbyte]
      dsimp only
      split
      · rfl
      · rw [if_neg (by omega)]
    have := mqShifts_bp_le s m (show j + 1 ≤ n from hj)
    omega
  intro i hi
  have := hw ((s.mqShifts j m).bp + i - lo) (by omega)
  rwa [show lo + ((s.mqShifts j m).bp + i - lo) * 1 = (s.mqShifts j m).bp + i * 1 by omega] at this

/-- MQ.READBIT comes to BYTEIN with the reduced interval shifted `n` times. -/
theorem exec_mqReadbit_unwritten_stream {s u : State} {cxi n x : Nat} {e : Byte} (hr : s.flags.mqRdy = true) (hinv : MqInv s)
    (hc : cxi < s.params.cxEntries) (he : s.elem .cx cxi = some e) (hidx : e.toNat / 2 ≤ 46)
    (hlt : s.mqInterval (probRow (e.toNat / 2)).qe * 2 ^ n < 0x8000)
    (hct : (s.mqShifts n (s.mqReduced (probRow (e.toNat / 2)).qe)).ct = 0)
    (hw : ∀ j, j < n → (s.mqShifts j (s.mqReduced (probRow (e.toNat / 2)).qe)).ct = 0 →
      MqPairWritten s (s.mqShifts j (s.mqReduced (probRow (e.toNat / 2)).qe)).bp)
    (hmiss : Misses byteIn (s.setMq (s.mq.load (s.mqShifts n (s.mqReduced (probRow (e.toNat / 2)).qe)))) .stream x (· = u)) :
    exec (.mqReadbit cxi) s = .next (takeFault .unwrittenRead (2 ^ 28 + x % 2 ^ 28) u) := by
  obtain ⟨ha, -, -, hbp, hend, -⟩ := hinv hr
  have hok : MqOk s := ⟨hbp, hend⟩
  have hrow := mqRow_qe (e.toNat / 2)
  rw [← mqRow_eq_probRow hidx] at *
  -- RENORMD from a state in which only the code register has moved
  have hrenorm : ∀ t a, MqMoved s t → t.mq.a = s.mq.a → t.mqCode = s.mqReduced (mqRow (e.toNat / 2)).qe →
      a = s.mqInterval (mqRow (e.toNat / 2)).qe → ∀ o, Misses (mqFinish cxi a o) t .stream x (· = u) := by
    rintro t a hm hta hcode rfl o
    have hpos : 1 ≤ s.mqInterval (mqRow (e.toNat / 2)).qe := by
      unfold State.mqInterval
      split <;> omega
    have hn : n < 15 := (Nat.pow_lt_pow_iff_right (by omega : 1 < 2)).1
      (Nat.lt_of_le_of_lt (Nat.le_mul_of_pos_left (2 ^ n) hpos) hlt)
    refine Misses.bind (misses_renormD 15 n t _ hm.ok hlt hn (by rw [hm.shifts, hcode]; exact hct) (fun j hj h0 => ?_)
      fun v hv hcv hav => ?_) _
    · rw [hm.shifts, hcode] at h0 ⊢
      exact hm.readable (hw j hj h0)
    · rw [(hm.trans hv).eq_load (hav.trans hta), hcv, hm.shifts, hcode]
      exact hmiss
  refine Misses.next_stream_eq (a := x) ?_
  unfold mqReadbitBody
  refine misses_needReady hr (misses_get (misses_check (decide_eq_false (Nat.not_le.2 hc)) ?_))
  refine misses_after (Q := fun v t => v = e ∧ t = s) ((ends_memRead_of s _ (show cxi < s.sizeOf .cx from hc) he).2 ⟨rfl, rfl⟩) ?_
  rintro v t ⟨rfl, rfl⟩
  refine misses_check (decide_eq_false (Nat.not_lt.2 hidx)) ?_
  unfold mqDecode
  refine misses_get ?_
  by_cases hlow : t.mq.chigh.toNat < (mqRow (v.toNat / 2)).qe
  · rw [if_pos hlow]
    exact hrenorm t _ ⟨by simp, rfl, le_rfl, hok⟩ rfl (by rw [State.mqReduced, if_pos hlow])
      (by rw [State.mqInterval, if_pos hlow]) _
  · have hint : t.mqInterval (mqRow (v.toNat / 2)).qe = t.mq.a.toNat - (mqRow (v.toNat / 2)).qe := by
      rw [State.mqInterval, if_neg hlow]
    have hint15 : t.mqInterval (mqRow (v.toNat / 2)).qe < 2 ^ 15 :=
      Nat.lt_of_le_of_lt (Nat.le_mul_of_pos_right _ (Nat.two_pow_pos n)) hlt
    rw [if_neg hlow]
    refine misses_modifyMq ?_
    rw [if_neg (by omega)]
    refine hrenorm (t.setMq { t.mq with chigh := t.mq.chigh - BitVec.ofNat 16 (mqRow (v.toNat / 2)).qe }) _
      ⟨by simp, rfl, le_rfl, hok.setMq rfl rfl⟩ rfl ?_ hint.symm _
    rw [State.mqReduced, if_neg hlow]
    have hsub : (t.mq.chigh - BitVec.ofNat 16 (mqRow (v.toNat / 2)).qe).toNat = t.mq.chigh.toNat - (mqRow (v.toNat / 2)).qe := by
      have := t.mq.chigh.isLt
      rw [BitVec.toNat_sub, BitVec.toNat_ofNat]
      omega
    simp only [State.mqCode, State.setMq_mq, hsub, MqCode.mk.injEq, and_true]
    omega

theorem mqReduced_ct_bp (s : State) (qe : Nat) : (s.mqReduced qe).ct = s.mqCode.ct ∧ (s.mqReduced qe).bp = s.mq.bp.toNat := by
  unfold State.mqReduced
  split <;> exact ⟨rfl, rfl⟩

section Readbit

variable {s : State} {cxi n : Nat} {e : Byte} (hr : s.flags.mqRdy = true) (hinv : MqInv s) (hc : cxi < s.params.cxEntries)
  (he : s.elem .cx cxi = some e) (hidx : e.toNat / 2 ≤ 46) {m : MqCode}
  (hm : s.mqShifts n (s.mqReduced (probRow (e.toNat / 2)).qe) = m)
  (hlt : s.mqInterval (probRow (e.toNat / 2)).qe * 2 ^ n < 0x8000) (hct : m.ct = 0)
include hr hinv hc he hidx hm hlt hct

/-- The first BYTEIN, at the byte at MQ_BP. -/
theorem exec_mqReadbit_unwritten_here (hfirst : n = s.mqCode.ct) (hin : m.bp < s.mq.endIdx.toNat) (hn : s.elem .stream m.bp = none) :
    exec (.mqReadbit cxi) s = .next (takeFault .unwrittenRead (2 ^ 28 + m.bp % 2 ^ 28)
      (s.setMq { s.mq with chigh := BitVec.ofNat 16 (m.c / 2 ^ 16), clow := BitVec.ofNat 16 m.c, ct := 0 })) := by
  obtain ⟨-, -, -, -, hend, -⟩ := hinv hr
  obtain ⟨hct0, hbp0⟩ := mqReduced_ct_bp s (probRow (e.toNat / 2)).qe
  have hbp : m.bp = s.mq.bp.toNat := by rw [← hm, (mqShifts_of_le s n _ (by omega)).2, hbp0]
  have hload : s.mq.load m = { s.mq with chigh := BitVec.ofNat 16 (m.c / 2 ^ 16), clow := BitVec.ofNat 16 m.c, ct := 0 } := by
    rw [MqUnit.load, hct, hbp, BitVec.ofNat_toNat, BitVec.setWidth_eq]
    rfl
  refine exec_mqReadbit_unwritten_stream hr hinv hc he hidx hlt (hm ▸ hct) (fun j hj h0 => ?_) ?_
  · rw [(mqShifts_of_le s j _ (by omega)).1] at h0
    omega
  · rw [hm, hload]
    exact misses_byteIn_here hbp.symm hin hend (by simpa using hn)

/-- A BYTEIN at the byte after the one at MQ_BP. -/
theorem exec_mqReadbit_unwritten_next (hw : WindowWritten s s.mq.bp.toNat (m.bp + 1)) (hin : m.bp + 1 < s.mq.endIdx.toNat)
    (hn : s.elem .stream (m.bp + 1) = none) :
    exec (.mqReadbit cxi) s = .next (takeFault .unwrittenRead (2 ^ 28 + (m.bp + 1) % 2 ^ 28)
      (s.setMq { s.mq with
        chigh := BitVec.ofNat 16 (m.c / 2 ^ 16), clow := BitVec.ofNat 16 m.c, ct := 0
        bp := BitVec.ofNat 32 (if s.value .stream m.bp = 0xFF#8 then m.bp else m.bp + 1) })) := by
  obtain ⟨-, -, -, -, hend, -⟩ := hinv hr
  have hbp0 := (mqReduced_ct_bp s (probRow (e.toNat / 2)).qe).2
  have hge : s.mq.bp.toNat ≤ m.bp := by rw [← hm, ← hbp0]; exact mqShifts_bp_mono s n _
  have hb : s.elem .stream m.bp = some (s.value .stream m.bp) := by
    have := hw (m.bp - s.mq.bp.toNat) (by omega)
    rw [show s.mq.bp.toNat + (m.bp - s.mq.bp.toNat) * 1 = m.bp by omega] at this
    exact State.value_of_isSome this
  have hbp : (BitVec.ofNat 32 m.bp).toNat = m.bp := by
    have := s.mq.endIdx.isLt
    rw [BitVec.toNat_ofNat]
    exact Nat.mod_eq_of_lt (by omega)
  refine exec_mqReadbit_unwritten_stream hr hinv hc he hidx hlt (hm ▸ hct) (fun j hj h0 => ?_) ?_
  · exact mqShifts_pairWritten (le_of_eq hbp0.symm) (by rwa [hm]) (by rwa [hm]) (by rwa [hm]) hj h0
  · rw [hm]
    have hmiss := misses_byteIn_next (s := s.setMq (s.mq.load m)) (i := m.bp) (b := s.value .stream m.bp) hbp hin hend
      (by simpa using hb) (by simpa using hn)
    refine hmiss.mono (fun _ _ h => h) ?_
    rintro x t ⟨hx, rfl⟩
    refine ⟨hx, ?_⟩
    rw [State.setMq_setMq, MqUnit.load, hct]
    split
    · rfl
    · rw [BitVec.ofNat_add]
      rfl

end Readbit

end Sys2Proof.Machine
end

section
/-! O30: the BR unit at an unwritten byte of STREAM (41_bitreader.md R181, R187). -/

namespace Sys2Proof.Machine

variable {s t : State} {n j : Nat}

theorem brBits_length_mono (s : State) {i j : Nat} (h : i ≤ j) : (s.brBits i).length ≤ (s.brBits j).length := by
  obtain ⟨k, rfl⟩ := Nat.exists_eq_add_of_le h
  rw [State.brBits, State.brBits, brBytes_add]
  simp only [List.length_append]
  omega

/-- A byte more gives seven bits at least. -/
theorem brBits_length_succ (s : State) (i : Nat) : (s.brBits i).length + 7 ≤ (s.brBits (i + 1)).length := by
  rw [State.brBits, State.brBits, brBytes_succ]
  split <;> simp only [List.length_append, bitsMsb_length] <;> omega

/-- Bytes fetched are no bits lost, whether the bytes to come are written or not. -/
theorem BrFetched.unread (h : BrFetched s j t) (hj : j ≤ s.br.endIdx.toNat - s.br.pos.toNat) : t.brUnread = s.brUnread := by
  have hval : ∀ a, t.value .stream a = s.value .stream a := fun a => by rw [h.only]; simp
  obtain ⟨k, hk⟩ : ∃ k, s.br.endIdx.toNat - s.br.pos.toNat = j + k := ⟨_, (Nat.add_sub_of_le hj).symm⟩
  rw [State.brUnread, h.bits, h.endIdx, h.pos, h.skip, brBytes_congr h.mode hval, State.brUnread, hk, brBytes_add, State.brBits,
    show s.br.endIdx.toNat - (s.br.pos.toNat + j) = k by omega, List.append_assoc]

/-- The bits BR has and gets depend on its registers and STREAM alone. -/
theorem brBits_congr (hb : t.br = s.br) (hs : ∀ a, t.value .stream a = s.value .stream a) (j : Nat) : t.brBits j = s.brBits j := by
  rw [State.brBits, State.brBits, hb, brBytes_congr (congrArg BrUnit.mode hb) hs]

theorem brAfter_congr (hb : t.br = s.br) (hs : ∀ a, t.value .stream a = s.value .stream a) (j n : Nat) :
    t.brAfter j n = s.brAfter j n := by
  rw [State.brAfter, State.brAfter, brBits_congr hb hs, hb, hs]

theorem brUnread_congr (hb : t.br = s.br) (hs : ∀ a, t.value .stream a = s.value .stream a) : t.brUnread = s.brUnread := by
  rw [State.brUnread, State.brUnread, hb, brBytes_congr (congrArg BrUnit.mode hb) hs]

theorem takeFault_brUnread (f : FaultName) (info : Nat) (s : State) : (takeFault f info s).brUnread = s.brUnread :=
  brUnread_congr rfl fun a => congrArg (Option.getD · 0) (takeFault_elem s f info .stream a)

/-- Byte `j` of those BR has still to fetch is the first that is not written. -/
abbrev BrGap (s : State) (j : Nat) : Prop :=
  FirstUnwritten s .stream s.br.pos.toNat 1 (s.br.endIdx.toNat - s.br.pos.toNat) j

/-- Fill(n) stops at the first byte that is not written, when those before it do not give `n` bits. -/
theorem misses_brFillLoop (he : s.br.endIdx.toNat ≤ s.params.streamSize)
    (hf : BrGap s j) (hl : (s.brBits j).length < n) (hn : n ≤ 16)
    (k : Nat) : ∀ {t : State} {i : Nat}, BrFetched s i t → i ≤ j → n ≤ t.br.cnt.toNat + 7 * k →
      Misses (brFillLoop n k) t .stream (s.br.pos.toNat + j) (BrFetched s j) := by
  obtain ⟨hj, hw, hnone⟩ := hf
  rw [Nat.mul_one] at hnone
  induction k with
  | zero =>
    intro t i h hi hk
    have := brBits_length_mono s hi
    rw [h.cnt] at hk
    omega
  | succ k ih =>
    intro t i h hi hk
    have hmono := brBits_length_mono s hi
    have hcnt := h.cnt
    rw [brFillLoop]
    refine misses_get ?_
    rw [if_pos ⟨by omega, by rw [h.pos, h.endIdx]; omega⟩]
    rcases Nat.eq_or_lt_of_le hi with rfl | hlt
    · have hin : s.br.pos.toNat + i < t.sizeOf .stream := by
        rw [h.only]
        exact Nat.lt_of_lt_of_le (by omega) he
      refine Misses.bind (misses_get (Misses.bind ?_ _)) _
      rw [h.pos]
      exact misses_memRead hin (by rw [h.only]; simpa using hnone) h
    · refine misses_after (ends_brFetch h he (by omega) (by omega) (by simpa using hw i hlt)) fun _ u hu => ih hu hlt ?_
      have := brBits_length_succ s i
      have := hu.cnt
      omega

theorem misses_brFill (h0 : BrFetched s 0 s) (he : s.br.endIdx.toNat ≤ s.params.streamSize)
    (hf : BrGap s j) (hl : (s.brBits j).length < n) (hn : n ≤ 16) :
    Misses (brFill n) s .stream (s.br.pos.toNat + j) (BrFetched s j) :=
  misses_brFillLoop he hf hl hn n h0 (Nat.zero_le j) (by omega)

/-! ## The commands -/

/-- LPos of an aligned reader. -/
theorem ends_brLPos {l : Nat} (hl : (s.br.mode = .plain ∧ s.br.cnt.toNat % 8 = 0 ∧ l = s.br.pos.toNat - s.br.cnt.toNat / 8) ∨
      (s.br.mode = .stuff7 ∧ s.br.cnt.toNat = 0 ∧ s.br.skip = false ∧ l = s.br.pos.toNat)) :
    Ends brLPos s (fun x t => x = l ∧ t = s) fun _ _ => False := by
  rw [brLPos, ends_bind, ends_get]
  rcases hl with ⟨hm, hc, rfl⟩ | ⟨hm, hc, hskip, rfl⟩
  · simp only [hm, ends_bind, ends_check]
    simp [hc]
  · simp only [hm, ends_bind, ends_check]
    simp [hc, hskip]

theorem misses_checkPlain {α : Type} {p : Proc α} {sp : Space} {a : Nat} {R : State → Prop} (hm : s.br.mode = .plain)
    (h : Misses p s sp a R) : Misses (checkPlain >>= fun _ => p) s sp a R :=
  (ends_bind ..).2 ((ends_bind ..).2 ((ends_check ..).2 ⟨fun ht => by simp [hm] at ht, fun _ => h⟩))

section Commands

variable (hr : s.flags.brRdy = true) (hinv : BrInv s)
include hr hinv

theorem brFetched_start : BrFetched s 0 s := by
  obtain ⟨hbuf, hcnt, -, -, hskip⟩ := hinv hr
  exact .refl hbuf hcnt hskip

theorem exec_brFill_unwritten {i : Instr} (hn1 : 1 ≤ n) (hn : n ≤ 16)
    (hf : BrGap s j) (hl : (s.brBits j).length < n)
    (hi : i = .brReadbits n ∨ (s.br.mode = .plain ∧ (i = .brPeekbits n ∨ i = .brSkipbits n))) :
    ∃ t, exec i s = .next (takeFault .unwrittenRead (2 ^ 28 + (s.br.pos.toNat + j) % 2 ^ 28) t) ∧ BrFetched s j t := by
  obtain ⟨-, -, -, he, -⟩ := hinv hr
  have hfill := misses_brFill (brFetched_start hr hinv) he hf hl hn
  have hcount : decide (n = 0 ∨ 16 < n) = false := decide_eq_false (by omega)
  rcases hi with rfl | ⟨hm, rfl | rfl⟩
  · refine Misses.next_stream (a := s.br.pos.toNat + j) ?_
    unfold brReadbitsBody
    exact misses_needReady hr (misses_check hcount (hfill.bind _))
  · refine Misses.next_stream (a := s.br.pos.toNat + j) ?_
    unfold brPeekbitsBody
    exact misses_needReady hr (misses_check hcount (misses_checkPlain hm ((hfill.bind _).bind _)))
  · refine Misses.next_stream (a := s.br.pos.toNat + j) ?_
    unfold brSkipbitsBody
    exact misses_needReady hr (misses_check hcount (misses_checkPlain hm (hfill.bind _)))

theorem exec_brPeekmarker_unwritten {l : Nat} (mark : Byte)
    (hl : (s.br.mode = .plain ∧ s.br.cnt.toNat % 8 = 0 ∧ l = s.br.pos.toNat - s.br.cnt.toNat / 8) ∨
      (s.br.mode = .stuff7 ∧ s.br.cnt.toNat = 0 ∧ s.br.skip = false ∧ l = s.br.pos.toNat)) (hin : l + 1 < s.br.endIdx.toNat) :
    (s.elem .stream l = none → exec (.brPeekmarker mark) s = .next (takeFault .unwrittenRead (2 ^ 28 + l % 2 ^ 28) s)) ∧
    (s.elem .stream l = some 0xFF#8 → s.elem .stream (l + 1) = none →
      exec (.brPeekmarker mark) s = .next (takeFault .unwrittenRead (2 ^ 28 + (l + 1) % 2 ^ 28) s)) := by
  obtain ⟨-, -, -, he, -⟩ := hinv hr
  have hsize : l + 1 < s.sizeOf .stream := Nat.lt_of_lt_of_le hin he
  have hbody : ∀ {x : Nat}, Misses (brMarkerAt l mark) s .stream x (· = s) →
      Misses (brPeekmarkerBody mark) s .stream x (· = s) := by
    intro x h
    unfold brPeekmarkerBody
    refine misses_needReady hr (misses_after (ends_brLPos hl) ?_)
    rintro _ t ⟨rfl, rfl⟩
    exact h.bind _
  refine ⟨fun hn => (hbody ?_).next_stream_eq, fun hff hn => (hbody ?_).next_stream_eq⟩
  · unfold brMarkerAt
    refine misses_get ?_
    rw [if_pos hin]
    exact (misses_memRead_same (Nat.lt_of_succ_lt hsize) hn).bind _
  · unfold brMarkerAt
    refine misses_get ?_
    rw [if_pos hin]
    refine misses_after (Q := fun x t => x = 0xFF#8 ∧ t = s) ((ends_memRead_of s _ (Nat.lt_of_succ_lt hsize) hff).2 ⟨rfl, rfl⟩) ?_
    rintro _ t ⟨rfl, rfl⟩
    exact (misses_memRead_same hsize hn).bind _

end Commands

end Sys2Proof.Machine
end

section
/-! O30: the first look-ahead of CCITT.INIT (43_ccitt.md R272). -/

namespace Sys2Proof.Machine

variable {s : State}

theorem misses_brPeek {n j : Nat} (h0 : BrFetched s 0 s) (he : s.br.endIdx.toNat ≤ s.params.streamSize)
    (hf : BrGap s j) (hl : (s.brBits j).length < n) (hn : n ≤ 16) :
    Misses (brPeek n) s .stream (s.br.pos.toNat + j) (BrFetched s j) :=
  (misses_brFill h0 he hf hl hn).bind _

/-- CC_FLAGS, field by field (R272). -/
theorem ccFlagsOf_fields {kmode : Nat} (h : kmode < 3) (eoline balign eoblock black1 : Bool) {c : CcUnit}
    (hc : c.flags = ccFlagsOf kmode eoline balign eoblock black1) :
    c.kmode = kmode ∧ c.eoline = eoline ∧ c.balign = balign ∧ c.eoblock = eoblock ∧ c.black1 = black1 := by
  have hall : ∀ k < 3, ∀ e b o l : Bool, (ccFlagsOf k e b o l).toNat % 4 = k ∧ (ccFlagsOf k e b o l).getLsbD 2 = e ∧
      (ccFlagsOf k e b o l).getLsbD 3 = b ∧ (ccFlagsOf k e b o l).getLsbD 4 = o ∧ (ccFlagsOf k e b o l).getLsbD 5 = l := by decide
  rw [CcUnit.kmode, CcUnit.eoline, CcUnit.balign, CcUnit.eoblock, CcUnit.black1, hc]
  exact hall kmode h eoline balign eoblock black1

/-- The registers of a window just opened in PLAIN mode (R182). -/
def State.openedBr (s : State) : BrUnit := { pos := s.arg0, endIdx := s.arg1, buf := 0, cnt := 0, mode := .plain, skip := false }

/-- The CCITT registers that CCITT.INIT sets. -/
def State.openedCc (s : State) (kmode : Nat) (eoline balign eoblock black1 : Bool) : CcUnit :=
  { cols := s.arg2, rows := s.arg3, flags := ccFlagsOf kmode eoline balign eoblock black1, row := 0, next2d := decide (kmode = 2)
    outbits := 0, cpos := 0 }

/-- The state in which CCITT.INIT looks ahead for the first time. -/
def State.opened (s : State) (kmode : Nat) (eoline balign eoblock black1 : Bool) : State :=
  { s with
    br := s.openedBr
    cc := s.openedCc kmode eoline balign eoblock black1
    cline := s.cline.write 0 (word32 s.arg2.toNat)
    flags := { s.flags with brRdy := true, ccEof := false, ccErr := false, ccWarn := false } }

/-- The registers `j` bytes later, `j` being 0 or 1. -/
theorem brAfter_opened {t : State} {j : Nat} (hb : t.br = s.openedBr) (hs : t.value .stream s.arg0.toNat = s.value .stream s.arg0.toNat)
    (hj : j < 2) : (t.brBits j).length = 8 * j ∧ t.brAfter j 0 = {
      pos := BitVec.ofNat 32 (s.arg0.toNat + j), endIdx := s.arg1, cnt := BitVec.ofNat 5 (8 * j)
      buf := if j = 0 then 0 else (s.value .stream s.arg0.toNat).setWidth 32, mode := .plain, skip := false } := by
  rcases (by omega : j = 0 ∨ j = 1) with rfl | rfl
  · have hbits : t.brBits 0 = [] := by
      rw [State.brBits, hb]
      rfl
    refine ⟨by rw [hbits]; rfl, ?_⟩
    rw [State.brAfter, hbits, hb]
    rfl
  · have hbits : t.brBits 1 = bitsMsb 8 (s.value .stream s.arg0.toNat).toNat := by
      rw [State.brBits, hb]
      simp [State.openedBr, brBytes, hs]
    have hnum : numOf (bitsMsb 8 (s.value .stream s.arg0.toNat).toNat) = (s.value .stream s.arg0.toNat).toNat := by
      rw [numOf_bitsMsb]
      exact Nat.mod_eq_of_lt (s.value .stream s.arg0.toNat).isLt
    refine ⟨by rw [hbits, bitsMsb_length], ?_⟩
    rw [State.brAfter, hbits, hb, List.drop_zero, hnum, bitsMsb_length, BitVec.ofNat_toNat]
    rfl

theorem opened_elem (kmode : Nat) (eoline balign eoblock black1 : Bool) :
    (s.opened kmode eoline balign eoblock black1).elem .cline 0 = some s.arg2 ∧
    ∀ sp a, sp ≠ .cline ∨ a ≠ 0 → (s.opened kmode eoline balign eoblock black1).elem sp a = s.elem sp a := by
  have hword : word32 (s.arg2.toNat : Int) = s.arg2 := by
    rw [word32_eq, BitVec.ofInt_natCast, BitVec.ofNat_toNat, BitVec.setWidth_eq]
  refine ⟨?_, fun sp a h => ?_⟩
  · exact (State.elem_setMem_write s .cline 0 _ 0).trans (by rw [if_pos rfl, hword])
  · by_cases hsp : sp = .cline
    · subst hsp
      exact (State.elem_setMem_write s .cline 0 _ a).trans (if_neg (h.resolve_left (not_not.2 rfl)))
    · cases sp with
      | cline => exact absurd rfl hsp
      | _ => rfl

theorem exec_ccittInit_unwritten {kmode j : Nat} (hk : kmode < 3) (eoline balign eoblock black1 : Bool)
    (hlo : s.arg0.toNat ≤ s.arg1.toNat) (hhi : s.arg1.toNat ≤ s.params.streamSize) (hc1 : 1 ≤ s.arg2.toNat)
    (hc : s.arg2.toNat ≤ s.params.colsMax) (hj : j < 2)
    (hf : FirstUnwritten s .stream s.arg0.toNat 1 (s.arg1.toNat - s.arg0.toNat) j) :
    ∃ t, exec (.ccittInit kmode eoline balign eoblock black1) s =
        .next (takeFault .unwrittenRead (2 ^ 28 + (s.arg0.toNat + j) % 2 ^ 28) t) ∧
      BrFetched (s.opened kmode eoline balign eoblock black1) j t := by
  refine Misses.next_stream (a := s.arg0.toNat + j) ?_
  unfold ccittInitBody
  refine misses_check (decide_eq_false (by omega)) (misses_checkWindow hlo hhi
    (misses_get (misses_check (decide_eq_false (by omega)) ?_)))
  rw [Misses, ends_bind, brOpen, ends_bind, ends_get, ends_bind, ends_modifyBr, ends_modifyFlags, ends_bind, ends_modifyCc, ends_bind,
    ends_modifyFlags, ends_bind, ends_writeCline (Nat.zero_le _)]
  have hval : ∀ a, (s.opened kmode eoline balign eoblock black1).value .stream a = s.value .stream a := fun _ => rfl
  obtain ⟨hlen, -⟩ := brAfter_opened (t := s.opened kmode eoline balign eoblock black1) rfl (hval _) hj
  have hpeek := misses_brPeek (s := s.opened kmode eoline balign eoblock black1) (n := 12)
    (.refl Nat.one_pos (Nat.zero_le _) fun _ => rfl) hhi hf (by omega) (by omega)
  refine Misses.bind (p := openRows kmode) ?_ _
  unfold openRows
  refine misses_get (Misses.bind ?_ _)
  rw [skipZeros]
  exact hpeek.bind _

end Sys2Proof.Machine
end

section
/-! O30: CCITT.READBYTE in the look-ahead of a row's first code (43_ccitt.md R273, R274). -/

namespace Sys2Proof.Machine

variable {s t u : State}

/-! ## The row before, as the reference line -/

/-- The run ends of a decoded row that lie inside it are those before its last element. -/
theorem lineEnds_eq {n : Nat} (h : RowLine s n) : s.lineEnds = (List.range n).map fun i => (s.clineAt i).getD 0 := by
  obtain ⟨hn, hlast, hbelow⟩ := h
  have hsplit : List.range (s.cc.cols.toNat + 1) = List.range n ++ (List.range (s.cc.cols.toNat + 1 - n)).map (n + ·) := by
    rw [← List.range_add, Nat.add_sub_cancel' (by omega)]
  obtain ⟨m, hm⟩ : ∃ m, s.cc.cols.toNat + 1 - n = m + 1 := ⟨s.cc.cols.toNat - n, by omega⟩
  rw [State.lineEnds, hsplit, List.map_append, List.takeWhile_append_of_pos, hm, List.range_succ_eq_map, List.map_cons, List.map_cons,
    List.takeWhile_cons_of_neg, List.append_nil]
  · simp [hlast]
  · intro e he
    obtain ⟨i, hi, rfl⟩ := List.mem_map.1 he
    obtain ⟨v, w, hv, -, -, hlt⟩ := hbelow i (List.mem_range.1 hi)
    simpa [hv] using hlt

theorem refEnd_lineEnds {n : Nat} (h : RowLine s n) (i : Nat) :
    refEnd s.cc.cols.toNat s.lineEnds i = if i < n then (s.clineAt i).getD 0 else s.cc.cols.toNat := by
  rw [refEnd, lineEnds_eq h]
  by_cases hi : i < n
  · rw [if_pos hi, List.getD_eq_getElem _ _ (by simpa using hi)]
    simp
  · rw [if_neg hi, List.getD_eq_default _ _ (by simpa using hi)]

/-- Only RLINE has changed since `s`, and its first `i` elements are those of CLINE. -/
structure LineCopied (s : State) (i : Nat) (t : State) : Prop where
  only : t = { s with rline := t.rline }
  copied : ∀ j, j < i → t.elem .rline j = s.elem .cline j

theorem LineCopied.cline {i : Nat} (h : LineCopied s i t) (j : Nat) : t.elem .cline j = s.elem .cline j := by
  rw [h.only]
  rfl

theorem ends_copyLine {n : Nat} (h : RowLine s n) (hcols : s.cc.cols.toNat ≤ s.params.colsMax) (fuel : Nat) :
    ∀ {i : Nat} {t : State}, LineCopied s i t → i ≤ n → n < i + fuel →
      Ends (copyLine fuel i) t (fun x u => x = n ∧ LineCopied s n u) fun _ _ => False := by
  obtain ⟨hn, hlast, hbelow⟩ := h
  induction fuel with
  | zero => intros; omega
  | succ fuel ih =>
    intro i t ht hi hfuel
    have hparams : t.params = s.params := by rw [ht.only]
    have hcc : t.columns = s.columns := by rw [ht.only]; rfl
    -- CLINE[i]
    have hread : ∀ v, s.clineAt i = some v → ∃ w : Word, t.elem .cline i = some w ∧ w.toNat = v := fun v hv => by
      rw [ht.cline]
      exact Option.map_eq_some_iff.1 hv
    have hin : i < t.sizeOf .cline := by
      simp only [State.sizeOf, Space.size, hparams]
      omega
    rw [copyLine, ends_bind, ends_get, ends_bind, readCline, ends_bind]
    rcases Nat.eq_or_lt_of_le hi with rfl | hlt
    · obtain ⟨w, hw, hwv⟩ := hread _ hlast
      rw [ends_memRead_of _ _ hin hw, ends_pure, if_neg (by rw [hcc, State.columns, hwv]; exact lt_irrefl _)]
      exact ⟨rfl, ht⟩
    · obtain ⟨v, -, hv, -, -, hvlt⟩ := hbelow i hlt
      obtain ⟨w, hw, rfl⟩ := hread v hv
      rw [ends_memRead_of _ _ hin hw, ends_pure, if_pos (by rw [hcc, State.columns]; exact_mod_cast hvlt), ends_bind, writeRline,
        ends_memWrite_of _ _ (by simp only [State.sizeOf, Space.size, hparams]; omega)]
      refine ih ⟨?_, fun j hj => ?_⟩ hlt (by omega)
      · conv_lhs => rw [ht.only]
        rfl
      · rw [State.elem_setMem_write]
        split
        · next hji =>
          rw [hji, ← ht.cline, hw, word32_eq, BitVec.ofInt_natCast, BitVec.ofNat_toNat, BitVec.setWidth_eq]
        · exact ht.copied j (by omega)

/-- The rest of the reference line is CC_COLS. -/
theorem ends_terminateLine (m : Nat) : ∀ {j : Nat} {t : State}, j + m ≤ t.params.colsMax + 2 →
    Ends (terminateLine m j) t (fun _ u => u = { t with rline := u.rline } ∧
      ∀ i, u.elem .rline i = if j ≤ i ∧ i < j + m then some (BitVec.ofNat 32 t.cc.cols.toNat) else t.elem .rline i)
      fun _ _ => False := by
  induction m with
  | zero => exact fun _ => ⟨rfl, fun i => by rw [if_neg (by omega)]⟩
  | succ m ih =>
    intro j t hj
    rw [terminateLine, ends_bind, ends_get, ends_bind, writeRline,
      ends_memWrite_of _ _ (show j < t.sizeOf .rline by simp only [State.sizeOf, Space.size]; omega)]
    refine (ih (by rw [State.setMem_params]; omega)).mono (fun _ u ⟨hu, hel⟩ => ⟨hu, fun i => ?_⟩) fun _ _ h => h
    have hcols : word32 t.columns = BitVec.ofNat 32 t.cc.cols.toNat := by rw [word32_eq, State.columns, BitVec.ofInt_natCast]
    rw [hel, State.elem_setMem_write, State.setMem_cc, hcols]
    by_cases hij : i = j
    · rw [if_neg (by omega), if_pos hij, if_pos (by omega)]
    · rw [if_neg hij]
      exact if_congr (by omega) rfl rfl

/-- The reference line of a two-dimensional row: the row before, closed by CC_COLS. -/
structure ReferenceLine (s t : State) : Prop where
  only : t = { s with rline := t.rline }
  line : ∀ i, i ≤ s.cc.cols.toNat + 1 → t.elem .rline i = some (BitVec.ofNat 32 (refEnd s.cc.cols.toNat s.lineEnds i))

theorem ends_referenceLine {n : Nat} (h : RowLine s n) (hcols : s.cc.cols.toNat ≤ s.params.colsMax) :
    Ends (copyLine (s.params.colsMax + 2) 0 >>= fun i => terminateLine (s.cc.cols.toNat + 2 - i) i) s (fun _ t => ReferenceLine s t)
      fun _ _ => False := by
  have hn := h.1
  rw [ends_bind]
  have hstart : LineCopied s 0 s := ⟨rfl, fun j hj => absurd hj (Nat.not_lt_zero j)⟩
  refine (ends_copyLine h hcols _ hstart (Nat.zero_le n) (by omega)).mono ?_ fun _ _ h => h
  rintro i t ⟨rfl, ht⟩
  have hparams : t.params = s.params := by rw [ht.only]
  have hcc : t.cc = s.cc := by rw [ht.only]
  refine (ends_terminateLine _ (by rw [hparams]; omega)).mono (fun _ u ⟨hu, hel⟩ => ⟨?_, fun j hj => ?_⟩) fun _ _ h => h
  · rw [hu, ht.only]
  · rw [hel, hcc, refEnd_lineEnds h]
    by_cases hji : j < i
    · obtain ⟨v, -, hv, -⟩ := h.2.2 j hji
      obtain ⟨w, hw, rfl⟩ := Option.map_eq_some_iff.1 hv
      rw [if_neg (by omega), if_pos hji, ht.copied j hji, hv, hw, Option.getD_some, BitVec.ofNat_toNat, BitVec.setWidth_eq]
    · rw [if_pos (by omega), if_neg hji]

end Sys2Proof.Machine
end

section
/-! O30: CCITT.READBYTE at the first code of a row, and the claim (43_ccitt.md R273, R274, 20_memory.md R76). -/

namespace Sys2Proof.Machine

variable {s t v : State} {j : Nat}

/-- A row just opened: pixel 0, CC_ERR cleared, and RLINE the row before when it is two-dimensional; nothing else is changed. -/
structure RowOpened (s v : State) : Prop where
  only : v = { s with
    cline := v.cline, rline := v.rline, cc := { s.cc with cpos := 0 }, flags := { s.flags with ccErr := false } }
  start : v.elem .cline 0 = some 0#32
  rest : ∀ sp a, (sp ≠ .cline ∨ a ≠ 0) → sp ≠ .rline → v.elem sp a = s.elem sp a
  reference : s.cc.next2d = true → ∀ i, i ≤ s.cc.cols.toNat + 1 →
    v.elem .rline i = some (BitVec.ofNat 32 (refEnd s.cc.cols.toNat s.lineEnds i))
  kept : s.cc.next2d = false → ∀ i, v.elem .rline i = s.elem .rline i

/-- A row just opened whose first look-ahead has fetched `j` bytes. -/
def FirstCodeCut (s : State) (j : Nat) (t : State) : Prop := ∃ v, RowOpened s v ∧ BrFetched v j t

theorem RowOpened.stream (h : RowOpened s v) (a : Nat) : v.elem .stream a = s.elem .stream a :=
  h.rest .stream a (.inl (by decide)) (by decide)

theorem RowOpened.value (h : RowOpened s v) (a : Nat) : v.value .stream a = s.value .stream a := by
  rw [State.value, State.value, h.stream]

theorem RowOpened.br (h : RowOpened s v) : v.br = s.br := by
  rw [h.only]

/-- What opens a row, RLINE being as the row wants it. -/
theorem misses_startRow {p : Proc Unit} {x : Nat} {R : State → Prop}
    (ht : t = { s with rline := t.rline, flags := { s.flags with ccErr := false } })
    (href : s.cc.next2d = true → ∀ i, i ≤ s.cc.cols.toNat + 1 →
      t.elem .rline i = some (BitVec.ofNat 32 (refEnd s.cc.cols.toNat s.lineEnds i)))
    (hkept : s.cc.next2d = false → ∀ i, t.elem .rline i = s.elem .rline i) (h : ∀ v, RowOpened s v → Misses p v .stream x R) :
    Misses (writeCline 0 0 >>= fun _ => putCpos 0 >>= fun _ => p) t .stream x R := by
  have hline : ∀ m i, ((t.setMem .cline m).setCc { t.cc with cpos := u32 0 }).elem .rline i = t.elem .rline i := fun m i => by
    rw [State.setCc_elem, State.elem_setMem_other _ _ (by decide)]
  rw [Misses, ends_bind, ends_writeCline (Nat.zero_le _), ends_bind, ends_putCpos]
  refine h _ ⟨?_, ?_, fun sp a hsp hrl => ?_, fun h2 i hi => (hline _ i).trans (href h2 i hi),
    fun h1 i => (hline _ i).trans (hkept h1 i)⟩
  · rw [ht]
    rfl
  · rw [State.setCc_elem, State.elem_setMem_write, if_pos rfl]
    rfl
  · have hts : t.elem sp a = s.elem sp a := by
      rw [ht]
      cases sp with
      | rline => exact absurd rfl hrl
      | _ => rfl
    rw [State.setCc_elem, ← hts]
    by_cases hc : sp = .cline
    · subst hc
      rw [State.elem_setMem_write, if_neg (hsp.resolve_left (not_not.2 rfl))]
    · rw [State.elem_setMem_other _ _ hc]

theorem ends_lineEnd_opened (hv : RowOpened s v) (hcols : 1 ≤ s.cc.cols.toNat) :
    Ends lineEnd v (fun e u => e < v.columns ∧ u = v) fun _ _ => False := by
  have hcpos : v.cc.cpos.toNat = 0 := by rw [hv.only]; rfl
  have hcol : v.columns = s.cc.cols.toNat := by rw [hv.only]; rfl
  rw [lineEnd, ends_bind, ends_get, hcpos, readCline, ends_bind,
    ends_memRead_of _ _ (show 0 < v.sizeOf .cline from Nat.succ_pos _) hv.start, ends_pure]
  refine ⟨?_, rfl⟩
  rw [hcol]
  exact_mod_cast hcols

section First

variable (hv : RowOpened s v) (h0 : BrFetched s 0 s) (he : s.br.endIdx.toNat ≤ s.params.streamSize)
  (hf : BrGap s j) (hl : (s.brBits j).length < 13)
include hv h0 he hf hl

theorem misses_brPeek_opened : Misses (brPeek 13) v .stream (s.br.pos.toNat + j) (FirstCodeCut s j) := by
  refine Misses.weaken (R := BrFetched v j) ?_ fun t ht => ⟨v, hv, ht⟩
  have hbr := hv.br
  obtain ⟨hj, hw, hnone⟩ := hf
  rw [← hbr] at hj hw hnone ⊢
  refine misses_brPeek (.refl ?_ ?_ ?_) ?_ ⟨hj, fun i hi => ?_, ?_⟩ ?_ (by omega)
  · rw [hbr]; exact h0.buf
  · rw [hbr]; exact h0.most
  · rw [hbr]; exact h0.plain
  · rw [hbr, hv.only]; exact he
  · rw [hv.stream]; exact hw i hi
  · rw [hv.stream]; exact hnone
  · rw [brBits_congr hbr hv.value]; exact hl

theorem misses_row1DLoop (hcols : 1 ≤ s.cc.cols.toNat) (fuel : Nat) :
    Misses (row1DLoop (fuel + 1) 0) v .stream (s.br.pos.toNat + j) (FirstCodeCut s j) := by
  have hpeek := misses_brPeek_opened hv h0 he hf hl
  rw [row1DLoop]
  refine misses_get (misses_after (ends_lineEnd_opened hv hcols) ?_)
  rintro e t ⟨hlt, rfl⟩
  rw [if_pos hlt]
  refine Misses.bind (misses_get ?_) _
  rw [runLenFrom]
  exact (hpeek.bind _).bind _

theorem misses_row2DLoop (hcols : 1 ≤ s.cc.cols.toNat) (fuel : Nat) :
    Misses (row2DLoop (fuel + 1) 0 0) v .stream (s.br.pos.toNat + j) (FirstCodeCut s j) := by
  have hpeek := misses_brPeek_opened hv h0 he hf hl
  have hopen : Ends rowOpen v (fun more t => more = true ∧ t = v) fun _ _ => False := by
    rw [rowOpen, ends_bind, ends_get, ends_bind]
    refine (ends_lineEnd_opened hv hcols).mono ?_ fun _ _ hf => hf
    rintro e t ⟨hlt, rfl⟩
    exact ⟨decide_eq_true hlt, rfl⟩
  rw [row2DLoop]
  refine misses_after hopen ?_
  rintro _ t ⟨rfl, rfl⟩
  exact (hpeek.bind _).bind _

end First

/-- A row whose first code is cut short by an unwritten byte: the row is open, a two-dimensional one with the row before in RLINE. -/
theorem exec_ccittReadbyte_unwritten (hrc : s.flags.ccRdy = true) (hrb : s.flags.brRdy = true) (hnf : s.flags.fault = false)
    (hm : s.br.mode = .plain) (hcc : CcInv s) (hbr : BrInv s) (hout : s.cc.outbits = 0) (heof : s.flags.ccEof = false)
    (hf : BrGap s j) (hl : (s.brBits j).length < 13) :
    ∃ t, exec .ccittReadbyte s = .next (takeFault .unwrittenRead (2 ^ 28 + (s.br.pos.toNat + j) % 2 ^ 28) t) ∧
      FirstCodeCut s j t := by
  obtain ⟨hcols1, hcols, ⟨n, -, hrow⟩, -⟩ := hcc hrc hnf
  obtain ⟨-, -, -, he, -⟩ := hbr hrb
  have h0 := brFetched_start hrb hbr
  have hrows : Misses (if s.cc.next2d then decodeRow2D else decodeRow1D) (s.setFlags { s.flags with ccErr := false }) .stream
      (s.br.pos.toNat + j) (FirstCodeCut s j) := by
    by_cases h2 : s.cc.next2d = true
    · rw [if_pos h2]
      unfold decodeRow2D
      have href := (ends_bind ..).1 (ends_referenceLine (s := s.setFlags { s.flags with ccErr := false }) hrow hcols)
      refine misses_get (misses_after href fun i t ht => misses_after ht fun _ u hu => misses_startRow (s := s) ?_ (fun _ => hu.line) ?_
        fun v hv => misses_row2DLoop hv h0 he hf hl hcols1 _)
      · rw [hu.only]
        rfl
      · exact fun h1 => absurd (h2.symm.trans h1) (by decide)
    · rw [if_neg h2]
      unfold decodeRow1D
      exact misses_startRow (s := s) rfl (fun h => absurd h h2) (fun _ _ => rfl) fun v hv =>
        misses_get (misses_row1DLoop hv h0 he hf hl hcols1 _)
  refine Misses.next_stream (a := s.br.pos.toNat + j) ?_
  unfold ccittReadbyteBody
  refine misses_needReady (by simp [ReadyUnit.ready, hrc, hrb]) (misses_get (misses_check (decide_eq_false (not_not.2 hm)) ?_))
  rw [if_pos hout, if_neg (by simp [heof])]
  refine Misses.bind (p := decodeRow) ?_ _
  unfold decodeRow
  exact (ends_bind ..).2 (misses_get (hrows.bind _))

/-- Settles O30: each unit is followed up to the byte it asks for, MQ by the rounds of RENORMD, BR by the bytes Fill has fetched, CCITT
by the row it has opened. -/
theorem unwrittenStream : Obligations.UnwrittenStream := by
  intro s
  refine ⟨fun hlo hhi => ⟨exec_mqInit_unwritten_first hlo hhi, fun _ => exec_mqInit_unwritten_second hlo hhi⟩,
    fun cxi e n hr hinv hc he hidx hlt hct => ⟨exec_mqReadbit_unwritten_here hr hinv hc he hidx rfl hlt hct,
      exec_mqReadbit_unwritten_next hr hinv hc he hidx rfl hlt hct⟩,
    fun hr hinv => ⟨fun n j hn1 hn hf hl i hi => ?_, fun mark _ => exec_brPeekmarker_unwritten hr hinv mark⟩, ?_, ?_⟩
  · obtain ⟨t, ht, hfetch⟩ := exec_brFill_unwritten hr hinv hn1 hn hf hl hi
    refine ⟨_, ht, ?_, ?_⟩
    · rw [takeFault_brUnread, hfetch.unread (Nat.le_of_lt hf.1)]
    · rw [hfetch.eq]
  · intro kmode eoline balign eoblock black1 j hk hlo hhi hc1 hc hj hf
    obtain ⟨t, ht, hfetch⟩ := exec_ccittInit_unwritten hk eoline balign eoblock black1 hlo hhi hc1 hc hj hf
    obtain ⟨-, hafter⟩ := brAfter_opened (t := s.opened kmode eoline balign eoblock black1) rfl rfl hj
    obtain ⟨hfirst, hrest⟩ := opened_elem (s := s) kmode eoline balign eoblock black1
    have hflags : t.cc.flags = ccFlagsOf kmode eoline balign eoblock black1 := by rw [hfetch.only]; rfl
    obtain ⟨hkm, heol, hbal, heob, hblack⟩ := ccFlagsOf_fields hk eoline balign eoblock black1 hflags
    have helem : ∀ sp a, t.elem sp a = (s.opened kmode eoline balign eoblock black1).elem sp a := fun sp a => by
      rw [hfetch.only, State.setBr_elem]
    refine ⟨_, ht, ?_, hkm, heol, hbal, heob, hblack, ?_, fun sp a ha => ?_⟩
    · rw [hfetch.eq, hafter]
      rfl
    · rw [takeFault_elem, helem, hfirst]
    · rw [takeFault_elem, helem, hrest sp a ha]
  · intro j hrc hrb hnf hm hcc hbr hout heof hf hl
    obtain ⟨t, ht, v, hv, hfetch⟩ := exec_ccittReadbyte_unwritten hrc hrb hnf hm hcc hbr hout heof hf hl
    have helem : ∀ sp a, t.elem sp a = v.elem sp a := fun sp a => by rw [hfetch.only, State.setBr_elem]
    have hjv : j ≤ v.br.endIdx.toNat - v.br.pos.toNat := by
      rw [hv.br]
      exact Nat.le_of_lt hf.1
    refine ⟨_, ht, ?_, ?_, ?_, fun h2 i hi => ?_, fun h1 i => ?_, fun sp a hsp hrl => ?_⟩
    · rw [takeFault_brUnread, hfetch.unread hjv, brUnread_congr hv.br hv.value]
    · conv_lhs => rw [hfetch.eq, brAfter_congr hv.br hv.value, hv.only]
      rw [hfetch.only]
      rfl
    · rw [takeFault_elem, helem, hv.start]
    · rw [takeFault_elem, helem, hv.reference h2 i hi]
    · rw [takeFault_elem, helem, hv.kept h1 i]
    · rw [takeFault_elem, helem, hv.rest sp a hsp hrl]

end Sys2Proof.Machine
end

section
/-! O2, O3: the encoder and the decoder undo each other. The sub-fields of a command lie side by side from IMM bit 0 up, so together
they make up an IMM with no bit above them (30_encoding.md R100 to R106). -/

namespace Sys2Proof

/-! ## Sub-fields -/

theorem bitsOf_lt (w : Word) (hi lo : Nat) : bitsOf w hi lo < 2 ^ (hi + 1 - lo) := Nat.mod_lt _ (by positivity)

theorem bitsOf_single (w : Word) (n : Nat) : bitsOf w n n = 0 ∨ bitsOf w n n = 1 := by
  have h := bitsOf_lt w n n
  rw [Nat.add_sub_cancel_left] at h
  omega

@[simp] theorem brModeBit_brModeOf (w : Word) (n : Nat) : brModeBit (brModeOf (bitsOf w n n)) = bitsOf w n n := by
  obtain h | h := bitsOf_single w n <;> rw [h] <;> rfl

@[simp] theorem tclassBit_tclassOf (w : Word) (n : Nat) : tclassBit (tclassOf (bitsOf w n n)) = bitsOf w n n := by
  obtain h | h := bitsOf_single w n <;> rw [h] <;> rfl

@[simp] theorem filterBit_filterOf (w : Word) (n : Nat) : filterBit (filterOf (bitsOf w n n)) = bitsOf w n n := by
  obtain h | h := bitsOf_single w n <;> rw [h] <;> rfl

@[simp] theorem bitsOf_beq_one_toNat (w : Word) (n : Nat) : (bitsOf w n n == 1).toNat = bitsOf w n n := by
  obtain h | h := bitsOf_single w n <;> rw [h] <;> rfl

/-- The IMM bits from 0 up, when the rest of IMM is 0. -/
theorem bitsOf_commandWord_low {u o k n : Nat} (hu : u < 16) (ho : o < 16) (hn : n < 24) (hk : k < 2 ^ (n + 1)) :
    bitsOf (commandWord u o k) n 0 = k := by
  have himm : k < 2 ^ 24 := hk.trans_le (Nat.pow_le_pow_right (by decide) hn)
  rw [bitsOf_commandWord hu ho himm hn (Nat.zero_le n), pow_zero, Nat.div_one, Nat.sub_zero, Nat.mod_eq_of_lt hk]

/-! ## From words to commands and back -/

theorem commandWord_of_fields {w : Word} {u o k : Nat} (hu : unitOf w = u) (ho : opOf w = o) (hk : k = immOf w) :
    commandWord u o k = w := by
  rw [← hu, ← ho, hk, commandWord_fields]

/-- What a row of the decoder has looked at: UNIT, OP, and the IMM bits the command does not define. The sub-fields are the rest. -/
theorem encode_of_decode {w : Word} {i : Instr} (h : decode w = some i) : encode i = w := by
  unfold decode at h
  split at h <;> simp only [Option.ite_none_right_eq_some, Option.some.injEq, reduceCtorEq, immWithin, Bool.and_eq_true,
    beq_iff_eq, decide_eq_true_eq] at h
  case h_4 hu ho => -- MQ.READBIT defines all of IMM
    subst h
    exact commandWord_of_fields hu ho rfl
  all_goals
    obtain ⟨hrest, rfl⟩ := h
    simp only [encode, brModeBit_brModeOf, tclassBit_tclassOf, filterBit_filterOf, bitsOf_beq_one_toNat, Fin.val_ofNat,
      BitVec.toNat_ofNat]
    refine commandWord_of_fields ‹_› ‹_› ?_
    simp only [immOf, bitsOf] at hrest ⊢
    omega

theorem wellFormed_of_decode {w : Word} {i : Instr} (h : decode w = some i) : i.wellFormed = true := by
  unfold decode at h
  split at h <;> simp only [Option.ite_none_right_eq_some, Option.some.injEq, reduceCtorEq] at h
  case h_4 =>
    subst h
    exact decide_eq_true (bitsOf_lt ..)
  all_goals
    obtain ⟨-, rfl⟩ := h
    simp [Instr.wellFormed, (bitsOf_lt ..).trans_eq]

/-- Settles O3: the word is put together again from the fields the decoder took it apart into. -/
theorem encodeDecode : Obligations.EncodeDecode := fun _ _ h => ⟨encode_of_decode h, wellFormed_of_decode h⟩

/-- The five commands whose IMM is a bit count N. -/
theorem decode_encode_count {n : Nat} (h : n < 32) :
    ∀ i ∈ [.brReadbits n, .brPeekbits n, .brSkipbits n, .hufReceive n, .hufExtend n], decode (encode i) = some i := by
  simp (disch := omega) only [List.forall_mem_cons, encode, decode, unitOf_commandWord, opOf_commandWord, immWithin_commandWord,
    bitsOf_commandWord_low]
  simp [h]

theorem decode_encode_hufScancfg {ss se al : Nat} (hss : ss < 64) (hse : se < 64) (hal : al < 16) :
    decode (encode (.hufScancfg ss se al)) = some (.hufScancfg ss se al) := by
  simp (disch := omega) only [encode, decode, unitOf_commandWord, opOf_commandWord, immWithin_commandWord, bitsOf_commandWord]
  rw [if_pos (decide_eq_true (by omega))]
  congr 2 <;> omega

theorem decode_encode_brPeekmarker (mark : Byte) : decode (encode (.brPeekmarker mark)) = some (.brPeekmarker mark) := by
  simp (disch := omega) only [encode, decode, unitOf_commandWord, opOf_commandWord, immWithin_commandWord,
    bitsOf_commandWord_low]
  rw [if_pos (decide_eq_true (by omega)), BitVec.ofNat_toNat, BitVec.setWidth_eq]

theorem decode_encode_mqReadbit {cxi : Nat} (h : cxi < 2 ^ 24) : decode (encode (.mqReadbit cxi)) = some (.mqReadbit cxi) := by
  simp (disch := omega) only [encode, decode, unitOf_commandWord, opOf_commandWord, bitsOf_commandWord_low]

/-- Settles O2: the sub-fields that are numbers are read back by the arithmetic of their places; a command with table numbers, modes
and flags alone has few words, and each is looked at. -/
theorem decodeEncode : Obligations.DecodeEncode := by
  intro i h
  cases i with
  | sysNop | sysReset | mqInit | brAlign | brSkipbytes | hufInit | hufRestart | hufDcRefine | ccittReadbyte => decide
  | mqReadbit cxi => exact decode_encode_mqReadbit (of_decide_eq_true h)
  | brInit mode => cases mode <;> decide
  | brReadbits n => exact decode_encode_count (of_decide_eq_true h) _ (by simp)
  | brPeekbits n => exact decode_encode_count (of_decide_eq_true h) _ (by simp)
  | brSkipbits n => exact decode_encode_count (of_decide_eq_true h) _ (by simp)
  | brPeekmarker mark => exact decode_encode_brPeekmarker mark
  | hufLoadtable c id => cases c <;> revert id <;> decide
  | hufScancfg ss se al =>
    simp only [Instr.wellFormed, Bool.and_eq_true, decide_eq_true_eq] at h
    obtain ⟨⟨hss, hse⟩, hal⟩ := h
    exact decode_encode_hufScancfg hss hse hal
  | hufDecode c id => cases c <;> revert id <;> decide
  | hufReceive n => exact decode_encode_count (of_decide_eq_true h) _ (by simp)
  | hufExtend n => exact decode_encode_count (of_decide_eq_true h) _ (by simp)
  | hufBlockBaseline dct act comp => revert dct act comp; decide
  | hufDcFirst dct comp => revert dct comp; decide
  | hufAcFirst act => revert act; decide
  | hufAcRefine act => revert act; decide
  | ccittInit kmode eoline balign eoblock black1 =>
    have hk : kmode < 4 := of_decide_eq_true h
    interval_cases kmode <;> revert eoline balign eoblock black1 <;> decide
  | idctBlock qti => revert qti; decide
  | iwtSr1d filter phase => cases filter <;> revert phase <;> decide
  | iwtSr2d filter phaseu phasev => cases filter <;> revert phaseu phasev <;> decide

end Sys2Proof
end

section
/-! O1: the words of R102 and R103, written out. -/

namespace Sys2Proof

/-- The word of a command, as the number its UNIT, OP and IMM make. -/
theorem decode_ofNat {i : Instr} {u o k n : Nat} (he : encode i = commandWord u o k) (hi : i.wellFormed = true)
    (hn : n = u * 2 ^ 28 + o * 2 ^ 24 + k) : decode (BitVec.ofNat 32 n) = some i := by
  rw [hn, ← commandWord, ← he]
  exact decodeEncode i hi

/-- Settles O1: the words with a number in IMM are those of the encoder; the others are few. -/
theorem decodeSpecWords : Obligations.DecodeSpecWords := by
  refine ⟨by decide, fun cxi h => ?_, fun mark => ?_, by decide, fun n h => ?_, by decide, fun ss se al hss hse hal => ?_, by decide,
    by decide, by decide, by decide, by decide⟩
  · exact decode_ofNat rfl (decide_eq_true h) (by omega)
  · exact decode_ofNat rfl rfl (by omega)
  · exact ⟨decode_ofNat rfl (decide_eq_true h) (by omega), decode_ofNat rfl (decide_eq_true h) (by omega),
      decode_ofNat rfl (decide_eq_true h) (by omega), decode_ofNat rfl (decide_eq_true h) (by omega),
      decode_ofNat rfl (decide_eq_true h) (by omega)⟩
  · exact decode_ofNat rfl (by simp [Instr.wellFormed, hss, hse, hal]) (by omega)

end Sys2Proof
end

section
/-! O4: the decoder and the match/mask map of R103 accept the same words. A mask is a field of set bits, or two of them, so a row
looks at UNIT, OP and the IMM bits its command does not define. -/

namespace Sys2Proof

/-! ## Masks -/

/-- Bits `hi` down to `lo` set, the others clear. -/
def fieldMask (hi lo : Nat) : Word := BitVec.ofNat 32 ((2 ^ (hi + 1 - lo) - 1) * 2 ^ lo)

/-- A field mask leaves the field, at its place. -/
theorem and_fieldMask_toNat {hi lo : Nat} (hh : hi < 32) (hl : lo ≤ hi) (w : Word) :
    (w &&& fieldMask hi lo).toNat = bitsOf w hi lo * 2 ^ lo := by
  have hbound : (2 ^ (hi + 1 - lo) - 1) * 2 ^ lo < 2 ^ 32 := by
    calc (2 ^ (hi + 1 - lo) - 1) * 2 ^ lo < 2 ^ (hi + 1 - lo) * 2 ^ lo :=
          Nat.mul_lt_mul_of_pos_right (Nat.sub_lt (by positivity) Nat.one_pos) (by positivity)
      _ = 2 ^ (hi + 1) := by rw [← pow_add, Nat.sub_add_cancel (by omega)]
      _ ≤ 2 ^ 32 := Nat.pow_le_pow_right (by decide) hh
  rw [BitVec.toNat_and, fieldMask, BitVec.toNat_ofNat, Nat.mod_eq_of_lt hbound, bitsOf, ← Nat.and_two_pow_sub_one_eq_mod,
    ← Nat.shiftLeft_eq, ← Nat.shiftLeft_eq, ← Nat.shiftRight_eq_div_pow]
  refine Nat.eq_of_testBit_eq fun i => ?_
  simp only [Nat.testBit_and, Nat.testBit_shiftLeft, Nat.testBit_shiftRight]
  by_cases h : lo ≤ i <;> simp [h]

theorem and_fieldMask_eq_zero {hi lo : Nat} (hh : hi < 32) (hl : lo ≤ hi) (w : Word) :
    w &&& fieldMask hi lo = 0 ↔ bitsOf w hi lo = 0 := by
  rw [← BitVec.toNat_inj, and_fieldMask_toNat hh hl]
  simp

/-- Under two masks, the second of which asks for zeros. -/
theorem and_or_eq_iff {w a b c : Word} (ha : c &&& a = c) (hb : c &&& b = 0) :
    w &&& (a ||| b) = c ↔ w &&& a = c ∧ w &&& b = 0 := by
  simp only [BitVec.eq_of_getLsbD_eq_iff, BitVec.getLsbD_and, BitVec.getLsbD_or, ← forall_and] at ha hb ⊢
  refine forall_congr' fun i => forall_congr' fun hi => ?_
  have hai := ha i hi
  have hbi := hb i hi
  generalize w.getLsbD i = x, a.getLsbD i = y, b.getLsbD i = z, c.getLsbD i = v at hai hbi ⊢
  revert x y z v
  simp

/-! ## Rows -/

/-- The row of a command that defines the low `k` IMM bits. -/
def mapRow (u o k : Nat) : Word × Word := (commandWord u o 0, fieldMask 31 k)

/-- The same, when bits `hi` down to `lo` among those are not defined either. -/
def gapRow (u o k hi lo : Nat) : Word × Word := (commandWord u o 0, fieldMask 31 k ||| fieldMask hi lo)

theorem opcodeMap_eq : opcodeMap =
    [mapRow 0 0 0, mapRow 0 1 0, mapRow 1 0 0, mapRow 1 1 24, mapRow 2 0 1, mapRow 2 1 5, mapRow 2 2 5, mapRow 2 3 5, mapRow 2 4 0,
      mapRow 2 5 8, mapRow 2 6 0, mapRow 3 0 0, mapRow 3 1 3, mapRow 3 2 16, mapRow 3 3 0, mapRow 3 4 3, mapRow 3 5 5, mapRow 3 6 5,
      mapRow 3 7 6, gapRow 3 8 6 3 2, mapRow 3 9 0, gapRow 3 10 4 1 0, gapRow 3 11 4 1 0, mapRow 4 0 6, mapRow 4 1 0, mapRow 5 0 2,
      mapRow 6 0 2, mapRow 6 1 3] := by decide

/-- A row is selected by its UNIT and OP, with the other IMM bits 0. -/
theorem selects_mapRow {w : Word} {u o k : Nat} (hu : u < 16) (ho : o < 16) (hk : k ≤ 24) :
    w &&& (mapRow u o k).2 = (mapRow u o k).1 ↔ unitOf w = u ∧ opOf w = o ∧ immWithin w k = true := by
  have hw := w.isLt
  have hsplit : w.toNat / 2 ^ k % 2 ^ (31 + 1 - k) * 2 ^ k + w.toNat % 2 ^ k = w.toNat := by
    rw [Nat.mod_eq_of_lt (Nat.div_lt_of_lt_mul _), Nat.div_add_mod']
    rwa [← pow_add, Nat.add_sub_cancel' (by omega)]
  have hrest := Nat.mod_lt w.toNat (Nat.two_pow_pos k)
  have hle : 2 ^ k ≤ 2 ^ 24 := Nat.pow_le_pow_right (by decide) hk
  have hlow : ∀ c r, r < 2 ^ k → (c * 2 ^ 24 + r) % 2 ^ k = r := fun c r hr => by
    rw [← Nat.sub_add_cancel hk, pow_add, ← Nat.mul_assoc, Nat.mul_comm _ (2 ^ k), Nat.mul_add_mod, Nat.mod_eq_of_lt hr]
  rw [mapRow, ← BitVec.toNat_inj, and_fieldMask_toNat (by decide) (by omega), commandWord_toNat hu ho (by decide), immWithin,
    decide_eq_true_eq]
  simp only [immOf, unitOf, opOf, bitsOf]
  constructor
  · intro h
    omega
  · rintro ⟨hu', ho', himm⟩
    have hrow := hlow (u * 16 + o) (w.toNat % 2 ^ 24) (by omega)
    rw [show (u * 16 + o) * 2 ^ 24 + w.toNat % 2 ^ 24 = w.toNat by omega] at hrow
    omega

theorem selects_gapRow {w : Word} {u o k hi lo : Nat} (hu : u < 16) (ho : o < 16) (hk : k ≤ 24) (hh : hi < 32) (hl : lo ≤ hi)
    (ha : commandWord u o 0 &&& fieldMask 31 k = commandWord u o 0) (hb : commandWord u o 0 &&& fieldMask hi lo = 0) :
    w &&& (gapRow u o k hi lo).2 = (gapRow u o k hi lo).1 ↔
      unitOf w = u ∧ opOf w = o ∧ (immWithin w k && bitsOf w hi lo == 0) = true := by
  have hrow : w &&& fieldMask 31 k = commandWord u o 0 ↔ _ := selects_mapRow hu ho hk
  rw [gapRow, and_or_eq_iff ha hb, hrow, and_fieldMask_eq_zero hh hl, Bool.and_eq_true, beq_iff_eq, and_assoc, and_assoc]

/-- MQ.READBIT defines all of IMM. -/
theorem immWithin_all (w : Word) : immWithin w 24 = true := decide_eq_true (bitsOf_lt w 23 0)

/-- The decoder's cases are the rows of the map. -/
theorem decode_isSome_iff (w : Word) : (decode w).isSome = true ↔ ∃ r ∈ opcodeMap, w &&& r.2 = r.1 := by
  rw [opcodeMap_eq]
  simp only [List.exists_mem_cons_iff, List.not_mem_nil, false_and, exists_false, or_false]
  simp (disch := decide) only [selects_mapRow, selects_gapRow]
  unfold decode
  split
  case h_29 => grind -- UNIT and OP of no row
  all_goals simp only [*, immWithin_all, Option.isSome_ite, Option.isSome_some, Nat.reduceEqDiff, and_true, true_and, and_false,
    false_and, or_false, false_or, zero_ne_one, one_ne_zero, or_true]

/-- Every mask covers UNIT and OP, so these are a selected row's own. -/
theorem match_of_selects {w : Word} {r : Word × Word} (hr : r ∈ opcodeMap) (h : w &&& r.2 = r.1) :
    r.1 = w &&& 0xFF000000#32 := by
  have hcover : ∀ r ∈ opcodeMap, r.2 &&& 0xFF000000#32 = 0xFF000000#32 ∧ r.1 &&& 0xFF000000#32 = r.1 := by simp [opcodeMap]
  obtain ⟨hmask, hmatch⟩ := hcover r hr
  rw [← hmatch, ← h, BitVec.and_assoc, hmask]

/-- Settles O4: the rows are the decoder's cases, and no two of them have the same UNIT and OP. -/
theorem opcodeMapDecides : Obligations.OpcodeMapDecides := by
  refine fun w => ⟨decode_isSome_iff w, fun r hr r' hr' h h' => ?_⟩
  have hdistinct : (opcodeMap.map Prod.fst).Nodup := by decide
  exact List.inj_on_of_nodup_map hdistinct hr hr' ((match_of_selects hr h).trans (match_of_selects hr' h').symm)

end Sys2Proof
end

section
/-! O24: commands that stop before they change anything, because a unit is not ready, the BR unit is in the wrong mode or off a byte
boundary, or a table slot is empty (30_encoding.md R113 steps 3 and 4, 60_exceptions.md R374). `Traps p s f info` says that `p`, started
in `s`, raises `f(info)` in that very state. -/

namespace Sys2Proof.Machine

variable {α β : Type}

/-- `p` from `s` raises `f(info)` with the state as it was. -/
abbrev Traps (p : Proc α) (s : State) (f : FaultName) (info : Nat) : Prop :=
  Ends p s (fun _ _ => False) fun e t => e = .raise f info ∧ t = s

/-- The check `p` lets `s` through. -/
abbrev Passes (p : Proc Unit) (s : State) : Prop := Ends p s (fun _ t => t = s) fun _ _ => False

section Rules

variable {s : State} {f : FaultName} {info : Nat}

/-- The fault is taken in the state the command was issued in (R373). -/
theorem Traps.next {p : Proc Unit} (h : Traps p s f info) : runCommand p s = .next (takeFault f info s) := by
  unfold runCommand
  unfold Traps Ends at h
  split at h
  · exact h.elim
  · next e t he =>
    obtain ⟨rfl, rfl⟩ := h
    rw [he]

/-- What comes after the fault is not reached. -/
theorem Traps.bind {p : Proc β} (h : Traps p s f info) (g : β → Proc α) : Traps (p >>= g) s f info :=
  (ends_bind ..).2 (h.mono (fun _ _ hf => hf.elim) fun _ _ he => he)

/-- A fault after a check that lets the command through. -/
theorem Passes.andThen {p : Proc Unit} {g : Unit → Proc α} (hp : Passes p s) (h : Traps (g ()) s f info) :
    Traps (p >>= g) s f info :=
  (ends_bind ..).2 (hp.mono (fun _ _ ht => ht ▸ h) fun _ _ he => he.elim)

theorem traps_get {g : State → Proc α} (h : Traps (g s) s f info) : Traps (get >>= g) s f info := (ends_bind ..).2 h

theorem traps_check {bad : Bool} (hb : bad = true) : Traps (check bad f info) s f info :=
  (ends_check ..).2 ⟨fun _ => ⟨rfl, rfl⟩, fun hf => by simp [hb] at hf⟩

theorem passes_check {bad : Bool} (hb : bad = false) : Passes (check bad f info) s :=
  (ends_check ..).2 ⟨fun ht => by simp [hb] at ht, fun _ => rfl⟩

theorem traps_needReady {u : ReadyUnit} (hu : u.ready s.flags = false) : Traps (needReady u) s .notInitialised u.id :=
  traps_get (traps_check (by rw [hu]; rfl))

theorem passes_needReady {u : ReadyUnit} (hu : u.ready s.flags = true) : Passes (needReady u) s :=
  (ends_bind ..).2 (passes_check (by rw [hu]; rfl))

theorem passes_checkBitCount {n : Nat} (h1 : 1 ≤ n) (h16 : n ≤ 16) : Passes (checkBitCount n) s :=
  passes_check (decide_eq_false (by omega))

theorem traps_checkPlain (hm : s.br.mode = .stuff7) : Traps checkPlain s .badMode 2 :=
  traps_get (traps_check (by rw [hm]; rfl))

/-- LPos, off a byte boundary (R189). -/
theorem traps_brLPos (h : (s.br.mode = .plain ∧ s.br.cnt.toNat % 8 ≠ 0) ∨
    (s.br.mode = .stuff7 ∧ (s.br.cnt.toNat ≠ 0 ∨ s.br.skip = true))) : Traps brLPos s .badMode 2 := by
  refine traps_get ?_
  obtain ⟨hm, hc⟩ | ⟨hm, hc⟩ := h <;> rw [hm]
  · exact (traps_check (decide_eq_true hc)).bind _
  · exact (traps_check (by simpa using hc)).bind _

theorem passes_checkBlock (hb : BlockNamed s) : Passes checkBlock s :=
  (ends_bind ..).2 (passes_check (decide_eq_false (Nat.not_le.2 hb)))

theorem traps_needTable {c : TClass} {id : Fin 4} (ht : s.ht[slotOf c id] = none) :
    Traps (needTable c id) s .hufNoTable (slotOf c id).val :=
  traps_get (traps_check (by rw [ht]; rfl))

theorem passes_needTable {c : TClass} {id : Fin 4} (ht : s.ht[slotOf c id] ≠ none) : Passes (needTable c id) s :=
  (ends_bind ..).2 (passes_check (Option.isNone_eq_false_iff.2 (Option.isSome_iff_ne_none.2 ht)))

/-- A command whose unit is not ready. -/
theorem notReady_next {u : ReadyUnit} {g : Unit → Proc Unit} (hu : u.ready s.flags = false) :
    runCommand (needReady u >>= g) s = .next (takeFault .notInitialised u.id s) :=
  ((traps_needReady hu).bind g).next

end Rules

/-- Settles O24: every command looks at its readiness first, then at its operands, then at the mode or the table slots, and changes
nothing before all of these let it through. -/
theorem notAvailableFaults : Obligations.NotAvailableFaults := by
  intro s
  refine ⟨fun hr cxi => notReady_next hr, fun hr i hi => ?_, fun hr i hi => ?_, fun hr => notReady_next ?_,
    fun hr => ⟨fun hm => ⟨fun n h1 h16 => ?_, fun hc => ?_⟩, fun hm => ?_⟩, fun dct act comp hr => ?_⟩
  · obtain rfl | rfl | ⟨n, rfl⟩ | ⟨n, rfl⟩ | ⟨n, rfl⟩ | ⟨m, rfl⟩ := hi <;> exact notReady_next hr
  · obtain rfl | rfl | ⟨c, d, rfl⟩ | ⟨n, rfl⟩ | ⟨n, rfl⟩ | ⟨d, a, c, rfl⟩ | ⟨d, c, rfl⟩ | ⟨a, rfl⟩ | ⟨a, rfl⟩ := hi <;>
      exact notReady_next hr
  · obtain h | h := hr <;> simp [ReadyUnit.ready, h]
  · have hready : Passes (needReady .br) s := passes_needReady hr
    have hcount : Passes (checkBitCount n) s := passes_checkBitCount h1 h16
    have hmode := traps_checkPlain hm
    exact ⟨(hready.andThen (hcount.andThen (hmode.bind _))).next, (hready.andThen (hcount.andThen (hmode.bind _))).next⟩
  · have hready : Passes (needReady .ccitt) s := passes_needReady (by simp [ReadyUnit.ready, hc, hr])
    exact (hready.andThen (traps_get ((traps_check (by rw [hm]; rfl)).bind _))).next
  · have hready : Passes (needReady .br) s := passes_needReady hr
    have hpos := traps_brLPos hm
    exact ⟨fun m => (hready.andThen (hpos.bind _)).next, (hready.andThen (hpos.bind _)).next⟩
  · have hready : Passes (needReady .huf) s := passes_needReady hr
    refine ⟨fun c id ht => (hready.andThen ((traps_needTable ht).bind _)).next, fun hb => ?_⟩
    have hblock := passes_checkBlock hb
    refine ⟨fun hdc => ?_, fun hac => ⟨fun hdc => ?_, ?_, ?_⟩⟩
    · have hslot := traps_needTable hdc
      exact ⟨(hready.andThen (hblock.andThen (hslot.bind _))).next, (hready.andThen (hblock.andThen (hslot.bind _))).next⟩
    · exact (hready.andThen (hblock.andThen ((passes_needTable hdc).andThen ((traps_needTable hac).bind _)))).next
    · exact (hready.andThen (hblock.andThen ((traps_needTable hac).bind _))).next
    · exact (hready.andThen (hblock.andThen ((traps_needTable hac).bind _))).next

end Sys2Proof.Machine
end

section
/-! O11: RES is written last. A command that faults stops before it, so RES is as it was (30_encoding.md R114, 60_exceptions.md
R373). -/

namespace Sys2Proof.Machine

variable {α β : Type} {r : Word}

/-- RES holds `r` and no fault is pending. -/
def ResHeld (r : Word) (s : State) : Prop := s.res = r ∧ s.flags.fault = false

/-- The updates of a unit but RES. -/
theorem keepsFlags_resHeld : KeepsFlags (ResHeld r) := fun _ _ hf h => ⟨h.1, hf.trans h.2⟩

theorem keepsSpace_resHeld (sp : Space) : KeepsSpace (ResHeld r) sp := fun s _ _ h _ => by
  simpa only [ResHeld, State.setMem_res, State.setMem_flags] using h

theorem keepsMq_resHeld : KeepsMq (ResHeld r) := fun _ _ h => h
theorem keepsBr_resHeld : KeepsBr (ResHeld r) := fun _ _ h => h
theorem keepsHuf_resHeld : KeepsHuf (ResHeld r) := fun _ _ h => h
theorem keepsCc_resHeld : KeepsCc (ResHeld r) := fun _ _ h => h

theorem keepsCcitt_resHeld : KeepsCcitt (ResHeld r) :=
  ⟨keepsBr_resHeld, keepsCc_resHeld, keepsFlags_resHeld, keepsSpace_resHeld _, keepsSpace_resHeld _⟩

/-- From a state where RES holds `r`, `p` ends with no fault pending, or stops with RES still `r`. -/
def WritesResLast (r : Word) (p : Proc Unit) : Prop :=
  ∀ s, ResHeld r s → Ends p s (fun _ t => t.flags.fault = false) fun _ t => t.res = r

theorem writesResLast_putRes (v : Word) : WritesResLast r (putRes v) := fun _ h => h.2

theorem Keeps.writesResLast {p : Proc Unit} (h : Keeps (ResHeld r) p) : WritesResLast r p :=
  fun s hs => (h s hs).mono (fun _ _ ht => ht.2) fun _ _ ht => ht.1

/-- What comes before the last part keeps RES. -/
theorem writesResLast_bind {p : Proc β} {f : β → Proc Unit} (hp : Keeps (ResHeld r) p) (hf : ∀ b, WritesResLast r (f b)) :
    WritesResLast r (p >>= f) :=
  fun s hs => (ends_bind ..).2 ((hp s hs).mono (fun b t ht => hf b t ht) fun _ _ ht => ht.1)

theorem writesResLast_get {f : State → Proc Unit} (hf : ∀ s, WritesResLast r (f s)) : WritesResLast r (get >>= f) :=
  fun s hs => hf s s hs

theorem writesResLast_ite (c : Prop) [Decidable c] {p q : Proc Unit} (hp : WritesResLast r p) (hq : WritesResLast r q) :
    WritesResLast r (if c then p else q) := by split <;> assumption

/-! ## The eight commands that write RES -/

theorem writesResLast_mqFinish (cxi a : Nat) (o : MqDecision) : WritesResLast r (mqFinish cxi a o) :=
  writesResLast_bind (keeps_renormD keepsMq_resHeld 15 a) fun _ =>
    writesResLast_bind (keeps_memWrite fun s hs ha => keepsSpace_resHeld .cx s _ _ hs ha) fun _ => writesResLast_putRes _

theorem writesResLast_mqDecode (cxi : Nat) (e : Byte) : WritesResLast r (mqDecode cxi e) := by
  refine writesResLast_get fun s => writesResLast_ite _ (writesResLast_mqFinish _ _ _) ?_
  refine writesResLast_bind (keeps_modifyMq keepsMq_resHeld _) fun _ => writesResLast_ite _ ?_ (writesResLast_mqFinish _ _ _)
  exact writesResLast_bind (keeps_modifyMq keepsMq_resHeld _) fun _ => writesResLast_putRes _

theorem writesResLast_mqReadbitBody (cxi : Nat) : WritesResLast r (mqReadbitBody cxi) :=
  writesResLast_bind (keeps_needReady _) fun _ => writesResLast_get fun _ => writesResLast_bind (keeps_check _ _ _) fun _ =>
    writesResLast_bind (keeps_memRead _ _) fun e => writesResLast_bind (keeps_check _ _ _) fun _ => writesResLast_mqDecode cxi e

theorem writesResLast_brReadbitsBody (n : Nat) : WritesResLast r (brReadbitsBody n) := by
  refine writesResLast_bind (keeps_needReady _) fun _ => writesResLast_bind (keeps_check _ _ _) fun _ => ?_
  refine writesResLast_bind (keeps_brFill keepsBr_resHeld n) fun _ => writesResLast_get fun s => ?_
  exact writesResLast_bind (keeps_check _ _ _) fun _ => writesResLast_bind (keeps_modifyBr keepsBr_resHeld _) fun _ =>
    writesResLast_putRes _

theorem writesResLast_brPeekbitsBody (n : Nat) : WritesResLast r (brPeekbitsBody n) :=
  writesResLast_bind (keeps_needReady _) fun _ => writesResLast_bind (keeps_check _ _ _) fun _ =>
    writesResLast_bind keeps_checkPlain fun _ => writesResLast_bind (keeps_brPeek keepsBr_resHeld n) fun _ =>
      writesResLast_putRes _

theorem keeps_brMarkerAt {I : State → Prop} (l : Nat) (mark : Byte) : Keeps I (brMarkerAt l mark) :=
  keeps_get' fun _ => keeps_ite _ (keeps_bind (keeps_memRead _ _) fun _ =>
    keeps_ite _ (keeps_bind (keeps_memRead _ _) fun _ => keeps_pure _) (keeps_pure _)) (keeps_pure _)

theorem writesResLast_brPeekmarkerBody (mark : Byte) : WritesResLast r (brPeekmarkerBody mark) :=
  writesResLast_bind (keeps_needReady _) fun _ => writesResLast_bind keeps_brLPos fun l =>
    writesResLast_bind (keeps_brMarkerAt l mark) fun _ => writesResLast_putRes _

theorem writesResLast_hufDecodeBody (c : TClass) (id : Fin 4) : WritesResLast r (hufDecodeBody c id) :=
  writesResLast_bind (keeps_needReady _) fun _ => writesResLast_bind (keeps_needTable c id) fun _ =>
    writesResLast_bind (keeps_hufDecode keepsHuf_resHeld c id) fun _ => writesResLast_putRes _

theorem writesResLast_hufReceiveBody (n : Nat) : WritesResLast r (hufReceiveBody n) :=
  writesResLast_bind (keeps_needReady _) fun _ => writesResLast_bind (keeps_check _ _ _) fun _ =>
    writesResLast_bind (keeps_receive keepsHuf_resHeld n) fun _ => writesResLast_putRes _

theorem writesResLast_hufExtendBody (n : Nat) : WritesResLast r (hufExtendBody n) :=
  writesResLast_bind (keeps_needReady _) fun _ => writesResLast_bind (keeps_check _ _ _) fun _ =>
    writesResLast_bind (keeps_extend keepsHuf_resHeld n) fun _ => writesResLast_putRes _

theorem writesResLast_serveByte : WritesResLast r serveByte :=
  writesResLast_bind (closed_servePixels keepsCcitt_resHeld.closed) fun _ => writesResLast_get fun _ => writesResLast_putRes _

theorem writesResLast_ccittReadbyteBody : WritesResLast r ccittReadbyteBody := by
  refine writesResLast_bind (keeps_needReady _) fun _ => writesResLast_get fun s => ?_
  refine writesResLast_bind (keeps_check _ _ _) fun _ => writesResLast_ite _ ?_ writesResLast_serveByte
  refine writesResLast_ite _ (writesResLast_putRes _) ?_
  exact writesResLast_bind (closed_decodeRow keepsCcitt_resHeld.closed) fun _ => writesResLast_serveByte

/-! ## All commands -/

/-- A command that does not write RES keeps it, whether it completes or faults. -/
theorem exec_keeps_res {i : Instr} {s t : State} (he : exec i s = .next t) (hw : writesRes i = false) (hi : i ≠ .sysReset) :
    t.res = s.res :=
  exec_keeps (I := fun u => u.res = s.res) i s t he rfl (fun _ _ _ h => h) (fun h => absurd h hi) (fun _ _ _ h => h)
    (fun _ _ _ h => h) (fun _ => ⟨fun _ _ h => h, fun _ _ h => h, fun _ _ h => h⟩) (fun _ _ _ h => h) (fun _ _ _ h => h)
    (fun hr => by simp [hw] at hr) fun sp _ u a v h _ => (State.setMem_res u sp _).trans h

/-- A command that writes RES last has not written it when it faults. -/
theorem runCommand_res_of_fault {p : Proc Unit} {s t : State} (hp : WritesResLast s.res p) (hs : s.flags.fault = false)
    (he : runCommand p s = .next t) (ht : t.flags.fault = true) : t.res = s.res :=
  (runCommand_all (R := fun u => u.flags.fault = true → u.res = s.res)).2
    ((hp s ⟨rfl, hs⟩).mono (fun _ _ hu hf => by simp [hu] at hf) fun _ _ hu _ _ _ _ => hu) t he ht

/-- No command changes RES and faults. -/
theorem exec_res_of_fault {i : Instr} {s t : State} (he : exec i s = .next t) (hs : s.flags.fault = false)
    (ht : t.flags.fault = true) : t.res = s.res := by
  cases i with
  | sysReset => cases he; cases ht
  | mqReadbit cxi => exact runCommand_res_of_fault (writesResLast_mqReadbitBody cxi) hs he ht
  | brReadbits n => exact runCommand_res_of_fault (writesResLast_brReadbitsBody n) hs he ht
  | brPeekbits n => exact runCommand_res_of_fault (writesResLast_brPeekbitsBody n) hs he ht
  | brPeekmarker mark => exact runCommand_res_of_fault (writesResLast_brPeekmarkerBody mark) hs he ht
  | hufDecode c id => exact runCommand_res_of_fault (writesResLast_hufDecodeBody c id) hs he ht
  | hufReceive n => exact runCommand_res_of_fault (writesResLast_hufReceiveBody n) hs he ht
  | hufExtend n => exact runCommand_res_of_fault (writesResLast_hufExtendBody n) hs he ht
  | ccittReadbyte => exact runCommand_res_of_fault writesResLast_ccittReadbyteBody hs he ht
  | _ => exact exec_keeps_res he rfl (by simp)

/-- Settles O11: what a command does before it writes RES keeps RES and FAULT, and the write is its last act. -/
theorem resWritersOnly : Obligations.ResWritersOnly :=
  fun _ _ _ he => ⟨exec_keeps_res he, exec_res_of_fault he⟩

end Sys2Proof.Machine
end

section
/-! O5, O7: the issue of a command word, and the SYS commands (30_encoding.md R111 to R113, 60_exceptions.md R376,
70_reset_and_hazards.md R411). -/

namespace Sys2Proof.Machine

/-- A legal word is executed, in the fault state SYS.RESET alone (R113). -/
theorem issueCommand_legal {w : Word} {i : Instr} {s : State} (hf : s.flags.fault = false ∨ w = resetWord)
    (hd : decode w = some i) : issueCommand w s = exec i { s with cmd := w } := by
  have hgate : ¬ (s.flags.fault = true ∧ w ≠ resetWord) := fun ⟨h, hw⟩ => hf.elim (fun h' => by simp [h'] at h) hw
  rw [issueCommand]
  simp only [hd]
  exact if_neg hgate

/-- Settles O5: the step performs the write, and the write issues the word. -/
theorem stepRunsDecoded : Obligations.StepRunsDecoded := by
  intro s w rest i hp hf hd
  rw [step_pending hp]
  exact issueCommand_legal hf hd

/-- After SYS.RESET HUF_SCAN reads 0x0FC0 and every other register but CMD reads 0, as do the numbers of no register. -/
theorem regRead_resetRegisters (s : State) {r : Nat} (hr : r ≠ 0x00) :
    regRead (resetRegisters s) r = if r = 0x3B then 0x0FC0#32 else 0#32 := by
  unfold regRead
  split
  on_goal 1 => exact absurd rfl hr
  on_goal -1 => exact (if_neg ‹_›).symm
  all_goals rfl

theorem resetRegisters_slot (s : State) (k : Fin 8) : (resetRegisters s).ht[k] = none := by
  rw [resetRegisters_ht]
  revert k
  decide

/-- Settles O7: SYS.NOP is the empty procedure, SYS.RESET the reset of the registers. -/
theorem sysCommands : Obligations.SysCommands := by
  intro s
  exact ⟨rfl, resetRegisters s, rfl, fun _ => regRead_resetRegisters s, rfl, resetRegisters_slot s, rfl, resetRegisters_elem s, rfl,
    rfl, rfl, rfl⟩

end Sys2Proof.Machine
end

section
/-! O33, O34: MQ.READBIT when the bytes it asks for are written (40_mq_decoder.md R145, R146). It has two ends: the interval is still
large and only MQ_A, MQ_CHIGH and RES change, or it is renormalised and the context entry is rewritten. -/

namespace Sys2Proof.Machine

variable {α : Type}

/-- A check that lets the command through is no part of what comes after it. -/
theorem Passes.ends_then {p : Proc Unit} {s : State} {g : Unit → Proc α} {Q : α → State → Prop} {E : Stop → State → Prop}
    (hp : Passes p s) (h : Ends (g ()) s Q E) : Ends (p >>= g) s Q E :=
  (ends_bind ..).2 (hp.mono (fun _ _ ht => ht ▸ h) fun _ _ he => he.elim)

/-! ## The row and the decision -/

/-- The rows of R141 lead to rows of R141. -/
theorem probRow_next_le (idx : Nat) : (probRow idx).nmps ≤ 46 ∧ (probRow idx).nlps ≤ 46 := by
  have hrows : ∀ r ∈ probRows, r.nmps ≤ 46 ∧ r.nlps ≤ 46 := by decide
  unfold probRow
  by_cases h : idx < probRows.length
  · rw [List.getD_eq_getElem _ _ h]
    exact hrows _ (List.getElem_mem h)
  · rw [List.getD_eq_default _ _ (Nat.le_of_not_lt h)]
    decide

/-- The less probable symbol is decoded when exactly one of the two comparisons of R145 holds. -/
def State.mqLps (s : State) (qe : Nat) : Bool := decide (s.mq.chigh.toNat < qe) != decide (s.mq.a.toNat - qe < qe)

/-- The decision, by the row and the MPS of the entry. -/
def State.mqDecision (s : State) (row : MqRow) (mps : Bool) : MqDecision :=
  if s.mqLps row.qe then lpsDecision row mps else mpsDecision row mps

/-- The first comparison holds: the intervals are exchanged when the second holds too. -/
theorem mqDecision_of_below {s : State} {row : MqRow} {mps : Bool} (h : s.mq.chigh.toNat < row.qe) : s.mqDecision row mps =
    if s.mq.a.toNat - row.qe < row.qe then mpsDecision row mps else lpsDecision row mps := by
  by_cases ha : s.mq.a.toNat - row.qe < row.qe <;> simp [State.mqDecision, State.mqLps, h, ha]

theorem mqDecision_of_above {s : State} {row : MqRow} {mps : Bool} (h : ¬ s.mq.chigh.toNat < row.qe) : s.mqDecision row mps =
    if s.mq.a.toNat - row.qe < row.qe then lpsDecision row mps else mpsDecision row mps := by
  by_cases ha : s.mq.a.toNat - row.qe < row.qe <;> simp [State.mqDecision, State.mqLps, h, ha]

/-- The decision as RES gives it. -/
theorem mqDecision_d (s : State) (row : MqRow) (mps : Bool) :
    u32 (s.mqDecision row mps).d.toNat = if mps != s.mqLps row.qe then 1 else 0 := by
  unfold State.mqDecision
  cases s.mqLps row.qe <;> cases mps <;> rfl

theorem mqDecision_idx_le (s : State) (idx : Nat) (mps : Bool) : (s.mqDecision (probRow idx) mps).idx ≤ 46 := by
  obtain ⟨hmps, hlps⟩ := probRow_next_le idx
  unfold State.mqDecision
  split
  · exact hlps
  · exact hmps

/-- The entry that is written, by its two fields. -/
theorem mqDecision_entry (s : State) (row : MqRow) (mps : Bool) :
    cxEntry (s.mqDecision row mps).idx (s.mqDecision row mps).mps =
      if s.mqLps row.qe then BitVec.ofNat 8 (row.nlps * 2 + (if row.switch != mps then 1 else 0))
      else BitVec.ofNat 8 (row.nmps * 2 + (if mps then 1 else 0)) := by
  unfold State.mqDecision
  cases s.mqLps row.qe
  · cases mps <;> rfl
  · cases mps <;> cases hw : row.switch <;> simp [lpsDecision, cxEntry, hw]

/-- The index of an entry is its upper seven bits (R36). -/
theorem cxEntry_index {idx : Nat} (h : idx ≤ 46) (mps : Bool) : (cxEntry idx mps).toNat / 2 = idx := by
  rw [cxEntry, BitVec.toNat_ofNat]
  cases mps
  · rw [Bool.toNat_false]
    omega
  · rw [Bool.toNat_true]
    omega

/-! ## The code register -/

/-- No borrow when Qe is not above MQ_CHIGH. -/
theorem chigh_sub {c : BitVec 16} {qe : Nat} (h : qe ≤ c.toNat) : c - BitVec.ofNat 16 qe = BitVec.ofNat 16 (c.toNat - qe) := by
  refine BitVec.eq_of_toNat_eq ?_
  have := c.isLt
  rw [BitVec.toNat_sub, BitVec.toNat_ofNat, BitVec.toNat_ofNat]
  omega

/-- MQ_CHIGH less Qe is the code register less `Qe * 2^16`. -/
theorem mqCode_reduced {s : State} {qe : Nat} (h : qe ≤ s.mq.chigh.toNat) :
    (s.setMq { s.mq with chigh := s.mq.chigh - BitVec.ofNat 16 qe }).mqCode = s.mqReduced qe := by
  have := s.mq.chigh.isLt
  rw [State.mqReduced, if_neg (Nat.not_lt.2 h), chigh_sub h]
  simp only [State.mqCode, State.setMq_mq, BitVec.toNat_ofNat, MqCode.mk.injEq, and_true]
  omega

/-! ## The renormalising end -/

/-- What MQ.READBIT leaves when it renormalises the interval `a` and the code register `m` and decides `o`: the MQ registers after some
rounds of R146, the new entry, and RES. -/
structure MqRenormed (s : State) (cxi a : Nat) (m : MqCode) (o : MqDecision) (t : State) : Prop where
  moved : MqMoved s (s.setMq t.mq)
  only : t = ((s.setMq t.mq).setMem .cx (s.cx.write cxi (cxEntry o.idx o.mps))).setRes (u32 o.d.toNat)
  rounds : ∃ k, 1 ≤ k ∧ k ≤ 15 ∧ 0x8000 ≤ t.mq.a.toNat ∧ t.mq.a.toNat = a * 2 ^ k ∧ t.mqCode = s.mqShifts k m

section

variable {s t : State} {cxi a : Nat} {m : MqCode} {o : MqDecision}

theorem MqRenormed.elem (h : MqRenormed s cxi a m o t) (sp : Space) (b : Nat) :
    t.elem sp b = (s.setMem .cx (s.cx.write cxi (cxEntry o.idx o.mps))).elem sp b := by
  rw [h.only, State.setRes_elem]
  cases sp <;> rfl

theorem MqRenormed.elem_cx (h : MqRenormed s cxi a m o t) : t.elem .cx cxi = some (cxEntry o.idx o.mps) := by
  rw [h.elem]
  exact (State.elem_setMem_write s .cx cxi _ cxi).trans (if_pos rfl)

theorem MqRenormed.elem_other (h : MqRenormed s cxi a m o t) {sp : Space} {b : Nat} (hne : sp ≠ .cx ∨ b ≠ cxi) :
    t.elem sp b = s.elem sp b := by
  rw [h.elem]
  by_cases hsp : sp = .cx
  · subst hsp
    exact (State.elem_setMem_write s .cx cxi _ b).trans (if_neg (hne.resolve_left fun hn => hn rfl))
  · exact State.elem_setMem_other s _ hsp b

theorem MqRenormed.res (h : MqRenormed s cxi a m o t) : t.res = u32 o.d.toNat := by rw [h.only, State.setRes_res]

theorem MqRenormed.frame (h : MqRenormed s cxi a m o t) : t = { s with mq := t.mq, cx := t.cx, res := t.res } := by
  conv_lhs => rw [h.only]
  rw [h.res, h.only]
  rfl

end

/-- RENORMD from a state in which only the code register has moved, then the entry and RES. -/
theorem ends_mqFinish {s t : State} {cxi a : Nat} {m : MqCode} (hm : MqMoved s t) (hcode : t.mqCode = m) (ha : 1 ≤ a)
    (hlt : a < 2 ^ 15) (hc : cxi < s.params.cxEntries) (hw : MqReadable s a m) (o : MqDecision) :
    Ends (mqFinish cxi a o) t (fun _ u => MqRenormed s cxi a m o u) fun _ _ => False := by
  have hread : ∀ j, j < 15 → a * 2 ^ j < 0x8000 → (t.mqShifts j t.mqCode).ct = 0 →
      MqPairWritten t (t.mqShifts j t.mqCode).bp := by
    intro j hj hlow h0
    rw [hm.shifts, hcode] at h0 ⊢
    exact hm.readable (hw j hj hlow h0)
  rw [mqFinish, ends_bind]
  refine (ends_renormD 15 t a hm.ok ha hlt (by omega) hread).mono ?_ fun _ _ hf => hf
  rintro _ v ⟨hv, k, h1, h15, hak, htop, hcv⟩
  have hsv := hm.trans hv
  have honly := hsv.only
  rw [ends_bind, ends_memWrite_of v _ (show cxi < v.sizeOf .cx by rw [honly]; exact hc), ends_putRes]
  have hmq : ((v.setMem .cx ((v.mem .cx).write cxi (cxEntry o.idx o.mps))).setRes (u32 o.d.toNat)).mq = v.mq := rfl
  refine ⟨?_, ?_, k, h1, h15, htop, hak, hcv.trans ?_⟩
  · rw [hmq, ← honly]
    exact hsv
  · rw [hmq, ← honly]
    conv_rhs => rw [show s.cx = v.cx by rw [honly]; rfl]
    rfl
  · rw [hm.shifts, hcode]

/-! ## The command -/

section Readbit

variable {s : State} {cxi : Nat} {e : Byte} (hr : s.flags.mqRdy = true) (hc : cxi < s.params.cxEntries)
  (he : s.elem .cx cxi = some e)
include hr hc he

/-- The checks of readiness and of the context index, and the entry's read. -/
theorem ends_mqReadbitBody {Q : Unit → State → Prop} {E : Stop → State → Prop}
    (h : Ends (check (decide (46 < e.toNat / 2)) .badContextState e.toNat >>= fun _ => mqDecode cxi e) s Q E) :
    Ends (mqReadbitBody cxi) s Q E := by
  unfold mqReadbitBody
  refine Passes.ends_then (passes_needReady hr) ((ends_bind ..).2 ?_)
  exact Passes.ends_then (passes_check (decide_eq_false (Nat.not_le.2 hc)))
    ((ends_bind ..).2 ((ends_memRead_of s _ (show cxi < s.sizeOf .cx from hc) he).2 h))

/-- An index above 46 (R145). -/
theorem exec_mqReadbit_badContextState (hidx : 46 < e.toNat / 2) :
    exec (.mqReadbit cxi) s = .next (takeFault .badContextState e.toNat s) :=
  Traps.next (p := mqReadbitBody cxi) (ends_mqReadbitBody hr hc he ((traps_check (decide_eq_true hidx)).bind _))

variable (hidx : e.toNat / 2 ≤ 46)
include hidx

theorem ends_mqReadbitBody_decode {Q : Unit → State → Prop} {E : Stop → State → Prop} (h : Ends (mqDecode cxi e) s Q E) :
    Ends (mqReadbitBody cxi) s Q E :=
  ends_mqReadbitBody hr hc he (Passes.ends_then (passes_check (decide_eq_false (Nat.not_lt.2 hidx))) h)

/-- The path without renormalisation. -/
theorem exec_mqReadbit_direct {row : MqRow} (hrow : row = probRow (e.toNat / 2)) (hhigh : row.qe ≤ s.mq.chigh.toNat)
    (htop : 0x8000 ≤ s.mq.a.toNat - row.qe) :
    exec (.mqReadbit cxi) s = .next ((s.setMq { s.mq with
      a := BitVec.ofNat 16 (s.mq.a.toNat - row.qe), chigh := BitVec.ofNat 16 (s.mq.chigh.toNat - row.qe) }).setRes
        (if e.getLsbD 0 then 1 else 0)) := by
  refine runCommand_of_ok (p := mqReadbitBody cxi) (ends_mqReadbitBody_decode hr hc he hidx ?_)
  rw [mqDecode, ends_bind, ends_get, mqRow_eq_probRow hidx, ← hrow]
  dsimp only
  rw [if_neg (Nat.not_lt.2 hhigh), ends_bind, ends_modifyMq, if_pos (show 2 ^ 15 ≤ _ from htop), ends_bind, ends_modifyMq,
    ends_putRes, chigh_sub hhigh,
    State.setMq_setMq]
  cases e.getLsbD 0 <;> rfl

/-- The path with renormalisation. -/
theorem exec_mqReadbit_renormed {row : MqRow} (hrow : row = probRow (e.toNat / 2)) (hinv : MqInv s)
    (hw : MqReadable s (s.mqInterval row.qe) (s.mqReduced row.qe))
    (hlow : s.mq.chigh.toNat < row.qe ∨ s.mq.a.toNat - row.qe < 0x8000) :
    ∃ t, exec (.mqReadbit cxi) s = .next t ∧
      MqRenormed s cxi (s.mqInterval row.qe) (s.mqReduced row.qe) (s.mqDecision row (e.getLsbD 0)) t := by
  obtain ⟨ha, -, -, hbp, hend, -⟩ := hinv hr
  have hok : MqOk s := ⟨hbp, hend⟩
  rw [← mqRow_eq_probRow hidx] at hrow
  have hqe := mqRow_qe (e.toNat / 2)
  rw [← hrow] at hqe
  refine runCommand_next (p := mqReadbitBody cxi).2 (ends_mqReadbitBody_decode hr hc he hidx ?_)
  refine Ends.mono (E := fun _ _ => False) ?_ (fun _ _ h => h) fun _ _ hf => hf.elim
  rw [mqDecode, ends_bind, ends_get, ← hrow]
  dsimp only
  by_cases hhigh : s.mq.chigh.toNat < row.qe
  · have hint : s.mqInterval row.qe = row.qe := if_pos hhigh
    rw [if_pos hhigh, ← mqDecision_of_below hhigh]
    rw [hint] at hw ⊢
    exact ends_mqFinish ⟨by simp, rfl, le_rfl, hok⟩ (if_pos hhigh).symm hqe.1 hqe.2 hc hw _
  · have hint : s.mqInterval row.qe = s.mq.a.toNat - row.qe := if_neg hhigh
    have hsmall := hlow.resolve_left hhigh
    rw [if_neg hhigh, ends_bind, ends_modifyMq, if_neg (by omega), ← mqDecision_of_above hhigh]
    rw [hint] at hw ⊢
    have hmoved : MqMoved s (s.setMq { s.mq with chigh := s.mq.chigh - BitVec.ofNat 16 row.qe }) :=
      ⟨by simp, rfl, le_rfl, hok.setMq rfl rfl⟩
    exact ends_mqFinish hmoved (mqCode_reduced (Nat.not_lt.1 hhigh)) (by omega) hsmall hc hw _

end Readbit

/-! ## The statements -/

/-- Settles O34: the decision is read off the two comparisons, and RENORMD's rounds are those of `mqShifts`. -/
theorem mqReadbitDecides : Obligations.MqReadbitDecides := by
  intro s cxi e hr hinv hc he hidx row hw mps a lps
  by_cases hlow : s.mq.chigh.toNat < row.qe ∨ a < 0x8000
  · obtain ⟨t, ht, hn⟩ := exec_mqReadbit_renormed hr hc he hidx rfl hinv hw hlow
    refine ⟨t, ht, fun ⟨hhigh, htop⟩ => (hlow.elim (Nat.not_lt.2 hhigh) (Nat.not_lt.2 htop)).elim,
      fun _ => ⟨hn.rounds, ?_, ?_⟩⟩
    · rw [hn.res, mqDecision_d]
      rfl
    · rw [hn.elem_cx, mqDecision_entry]
      rfl
  · obtain ⟨hhigh, htop⟩ := not_or.1 hlow
    exact ⟨_, exec_mqReadbit_direct hr hc he hidx rfl (Nat.not_lt.1 hhigh) (Nat.not_lt.1 htop), fun _ => rfl,
      fun h => absurd h hlow⟩

/-- Settles O33: both ends complete, the registers' invariant is kept (O18), and MQ_BP only moves on inside the window. -/
theorem mqReadbitCompletes : Obligations.MqReadbitCompletes := by
  intro s cxi e hr hinv hc he hidx hw
  obtain ⟨-, -, -, hbp, -, -⟩ := hinv hr
  generalize hrow : probRow (e.toNat / 2) = row at hw
  by_cases hlow : s.mq.chigh.toNat < row.qe ∨ s.mq.a.toNat - row.qe < 0x8000
  · obtain ⟨t, ht, hn⟩ := exec_mqReadbit_renormed hr hc he hidx hrow.symm hinv hw hlow
    have hok : t.mq.bp.toNat ≤ t.mq.endIdx.toNat := hn.moved.ok.bp
    have hend : t.mq.endIdx = s.mq.endIdx := hn.moved.endIdx
    have hmono : s.mq.bp.toNat ≤ t.mq.bp.toNat := hn.moved.bp
    refine ⟨t, ht, hn.frame, fun sp b => hn.elem_other, ?_, ⟨_, hn.elem_cx, ?_⟩, exec_keeps_mqInv hinv ht, hend, hmono,
      fun heq => ?_⟩
    · rw [hn.res, mqDecision_d]
      split
      · exact .inr rfl
      · exact .inl rfl
    · have hle := mqDecision_idx_le s (e.toNat / 2) (e.getLsbD 0)
      rw [hrow] at hle
      rw [cxEntry_index hle]
      exact hle
    · rw [hend, ← heq] at hok
      exact BitVec.eq_of_toNat_eq (Nat.le_antisymm hok hmono)
  · have ht := exec_mqReadbit_direct hr hc he hidx hrow.symm (by omega) (by omega)
    refine ⟨_, ht, rfl, fun sp b _ => by simp, ?_, ⟨e, by simpa using he, hidx⟩, exec_keeps_mqInv hinv ht, rfl, le_rfl,
      fun _ => rfl⟩
    rw [State.setRes_res]
    split
    · exact .inr rfl
    · exact .inl rfl

end Sys2Proof.Machine
end

section
/-! O32: MQ.INIT when the first two bytes of the window are written (40_mq_decoder.md R144). -/

namespace Sys2Proof.Machine

theorem passes_checkWindow {s : State} (hlo : s.arg0.toNat ≤ s.arg1.toNat) (hhi : s.arg1.toNat ≤ s.params.streamSize) :
    Passes checkWindow s := by
  refine (ends_bind ..).2 (passes_check ?_)
  rw [badWindow, decide_eq_false (Nat.not_lt.2 hlo), decide_eq_false (Nat.not_lt.2 hhi)]
  rfl

/-- Seven places to the left, on the two halves. -/
theorem shift_halves_seven (h l : BitVec 16) :
    ((h <<< 7) ||| (l >>> 9)).toNat * 2 ^ 16 + (l <<< 7).toNat = (h.toNat * 2 ^ 16 + l.toNat) * 2 ^ 7 % 2 ^ 32 := by
  have hl := l.isLt
  have e : ((h <<< 7) ||| (l >>> 9)).toNat = 2 ^ 7 * (h.toNat % 2 ^ 9) + l.toNat / 2 ^ 9 := by
    rw [BitVec.toNat_or, BitVec.toNat_shiftLeft, BitVec.toNat_ushiftRight, Nat.shiftLeft_eq, Nat.shiftRight_eq_div_pow,
      show h.toNat * 2 ^ 7 % 2 ^ 16 = 2 ^ 7 * (h.toNat % 2 ^ 9) by omega]
    exact (Nat.two_pow_add_eq_or_of_lt (show l.toNat / 2 ^ 9 < 2 ^ 7 by omega) _).symm
  rw [e, BitVec.toNat_shiftLeft, Nat.shiftLeft_eq]
  omega

theorem byteAt_le (s : State) (e i : Nat) : s.byteAt e i ≤ 0xFF := by
  unfold State.byteAt
  split
  · exact Nat.le_of_lt_succ (s.value .stream i).isLt
  · exact le_rfl

/-- MQ.INIT before its BYTEIN: the window is set, and its first byte is in MQ_CHIGH. -/
def State.mqWindow (s : State) : State :=
  s.setMq { s.mq with
    endIdx := s.arg1, bp := s.arg0, chigh := BitVec.ofNat 16 (s.byteAt s.arg1.toNat s.arg0.toNat), clow := 0 }

theorem mqWindow_byteAt (s : State) (e i : Nat) : s.mqWindow.byteAt e i = s.byteAt e i := by
  simp [State.byteAt, State.mqWindow]

theorem mqWindow_code (s : State) :
    s.mqWindow.mqCode = { c := s.byteAt s.arg1.toNat s.arg0.toNat * 2 ^ 16, ct := s.mq.ct.toNat, bp := s.arg0.toNat } := by
  have := byteAt_le s s.arg1.toNat s.arg0.toNat
  have hzero : (0 : BitVec 16).toNat = 0 := rfl
  simp only [State.mqCode, State.mqWindow, State.setMq_mq, BitVec.toNat_ofNat, MqCode.mk.injEq, and_true, hzero]
  omega

/-- The code register after that BYTEIN, by the first two bytes: no carry leaves it. -/
theorem mqWindow_bytein {s : State} {b0 b1 : Nat} (h0 : s.byteAt s.arg1.toNat s.arg0.toNat = b0)
    (h1 : s.byteAt s.arg1.toNat (s.arg0.toNat + 1) = b1) :
    s.mqWindow.mqBytein s.mqWindow.mqCode =
      if b0 ≠ 0xFF then { c := b0 * 2 ^ 16 + b1 * 2 ^ 8, ct := 8, bp := s.arg0.toNat + 1 }
      else if 0x8F < b1 then { c := 0xFF * 2 ^ 16 + 0xFF00, ct := 8, bp := s.arg0.toNat }
      else { c := 0xFF * 2 ^ 16 + b1 * 2 ^ 9, ct := 7, bp := s.arg0.toNat + 1 } := by
  have hle0 := h0 ▸ byteAt_le s s.arg1.toNat s.arg0.toNat
  have hle1 := h1 ▸ byteAt_le s s.arg1.toNat (s.arg0.toNat + 1)
  rw [mqWindow_code, State.mqBytein, show s.mqWindow.mq.endIdx = s.arg1 from rfl]
  simp only [mqWindow_byteAt, h0, h1]
  split
  · rw [Nat.mod_eq_of_lt (by omega)]
  · next hff =>
    rw [not_not.1 hff]
    split
    · rfl
    · rw [Nat.mod_eq_of_lt (by omega)]

/-- The last updates of MQ.INIT: seven places to the left, the interval 0x8000, and MQ_RDY. -/
def State.mqStarted (u : State) : State :=
  (u.setMq { u.mq with
    chigh := (u.mq.chigh <<< 7) ||| (u.mq.clow >>> 9), clow := u.mq.clow <<< 7, ct := u.mq.ct - 7, a := 0x8000 }).setFlags
      { u.flags with mqRdy := true }

theorem mqStarted_code {u : State} (hct : 7 ≤ u.mqCode.ct) :
    u.mqStarted.mqCode = { c := u.mqCode.c * 2 ^ 7 % 2 ^ 32, ct := u.mqCode.ct - 7, bp := u.mqCode.bp } := by
  have hsub : (u.mq.ct - 7).toNat = u.mq.ct.toNat - 7 := ct_sub hct
  simp only [State.mqCode, State.mqStarted, State.setFlags_mq, State.setMq_mq, hsub, shift_halves_seven]

/-- MQ.INIT is BYTEIN between the two. -/
theorem ends_mqInitBody {s : State} (hlo : s.arg0.toNat ≤ s.arg1.toNat) (hhi : s.arg1.toNat ≤ s.params.streamSize)
    (hw : WindowWritten s s.arg0.toNat (min s.arg1.toNat (s.arg0.toNat + 2))) :
    Ends mqInitBody s (fun _ t => ∃ u, t = u.mqStarted ∧ MqMoved s.mqWindow u ∧ Refed s.mqWindow u ∧
      u.mqCode = s.mqWindow.mqBytein s.mqWindow.mqCode) fun _ _ => False := by
  have hpair : ∀ m : MqUnit, m.endIdx = s.arg1 → MqPairWritten (s.setMq m) s.arg0.toNat := by
    rintro m hm i hi
    simpa using hw i (by simpa [hm] using hi)
  have hok : MqOk s.mqWindow := ⟨hlo, hhi⟩
  have hbyte : Ends (mqByte s.arg0.toNat) (s.setMq { s.mq with endIdx := s.arg1, bp := s.arg0 })
      (fun b t => b = s.byteAt s.arg1.toNat s.arg0.toNat ∧ t = s.setMq { s.mq with endIdx := s.arg1, bp := s.arg0 })
      fun _ _ => False :=
    (ends_mqByte ⟨hlo, hhi⟩ (hpair _ rfl) le_rfl (Nat.le_succ _) ..).2 ⟨by simp [State.byteAt], rfl⟩
  unfold mqInitBody
  refine Passes.ends_then (passes_checkWindow hlo hhi) ?_
  rw [ends_bind, ends_get, ends_bind, ends_modifyMq, ends_bind, ends_modifyMq, ends_bind]
  refine hbyte.mono ?_ fun _ _ hf => hf
  rintro _ _ ⟨rfl, rfl⟩
  rw [ends_bind, ends_modifyMq, ends_bind]
  refine ((ends_byteIn hok (hpair _ rfl)).and (ends_byteIn_empty hok rfl)).mono ?_ fun _ _ hf => hf.1
  rintro _ u ⟨⟨hm, hcode, -, -⟩, hfed⟩
  rw [ends_bind, ends_modifyMq, ends_modifyFlags]
  exact ⟨u, rfl, hm, hfed, hcode⟩

/-- Settles O32: BYTEIN merges the second byte with the first (R143), and seven of its bits are shifted out. -/
theorem mqInitLoadsCode : Obligations.MqInitLoadsCode := by
  intro s hlo hhi hw b0 b1
  obtain ⟨t, ht, u, rfl, hm, hfed, hcode⟩ := runCommand_next (p := mqInitBody).2
    ((ends_mqInitBody hlo hhi hw).mono (fun _ _ h => h) fun _ _ hf => hf.elim)
  have hctu : u.mqCode.ct = 7 ∨ u.mqCode.ct = 8 := hfed.ct
  have hstart := mqStarted_code (show 7 ≤ u.mqCode.ct by omega)
  have h0 : b0 ≤ 0xFF := byteAt_le ..
  have h1 : b1 ≤ 0xFF := byteAt_le ..
  refine ⟨_, ht, ?_, fun sp a => ?_, rfl, hm.endIdx, mqInv_iff.2 fun _ => hfed.opened _ _, ?_⟩
  · conv_lhs => rw [hm.only]
    rfl
  · rw [hm.only]
    simp [State.mqStarted, State.mqWindow]
  · show (u.mqStarted.mqCode.c, u.mqStarted.mqCode.ct, u.mqStarted.mqCode.bp) = _
    rw [hstart, hcode, mqWindow_bytein (b0 := b0) (b1 := b1) rfl rfl]
    clear_value b0 b1
    by_cases hff : b0 ≠ 0xFF
    · simp only [if_pos hff, Prod.mk.injEq, and_true]
      omega
    · by_cases hmark : 0x8F < b1
      · simp only [if_neg hff, if_pos hmark, Prod.mk.injEq, and_true]
        omega
      · simp only [if_neg hff, if_neg hmark, Prod.mk.injEq, and_true]
        omega

end Sys2Proof.Machine
end

section
/-! O28: faults of the data before a block is touched (40_mq_decoder.md R145, 42_huffman_jpeg.md R214, R222, R223). The walk of
HufDecode fails at the first bits that begin no code; a category is looked at when its symbol has been read. -/

namespace Sys2Proof.Machine

variable {α β : Type}

/-! ## The bits of a code -/

theorem HufCode.bits_eq_iff {c : HufCode} (hc : c.code < 2 ^ c.len) (l : List Bool) :
    c.bits = l ↔ c.len = l.length ∧ c.code = numOf l := by
  constructor
  · rintro rfl
    exact ⟨(bitsMsb_length ..).symm, by rw [HufCode.bits, numOf_bitsMsb, Nat.mod_eq_of_lt hc]⟩
  · rintro ⟨hl, hn⟩
    rw [HufCode.bits, hl, hn, bitsMsb_numOf]

/-- Bits that begin a code are its upper part. -/
theorem HufCode.prefix_bits_iff {c : HufCode} (hc : c.code < 2 ^ c.len) {l : List Bool} (hl : l.length ≤ c.len) :
    l <+: c.bits ↔ c.code / 2 ^ (c.len - l.length) = numOf l := by
  have hlt : c.code / 2 ^ (c.len - l.length) < 2 ^ l.length := by
    refine Nat.div_lt_of_lt_mul ?_
    rwa [← pow_add, Nat.sub_add_cancel hl]
  rw [List.prefix_iff_eq_take, HufCode.bits, bitsMsb_take _ hl]
  constructor
  · intro h
    have hn := congrArg numOf h
    rwa [numOf_bitsMsb, Nat.mod_eq_of_lt hlt, eq_comm] at hn
  · intro h
    rw [h, bitsMsb_numOf]

/-- The walk's two questions about the bits read so far: are they a code, do they begin a longer one. -/
theorem codeFound_eq_none_iff {t : HufTable} (ht : TableOk t) {l : List Bool} {n : Nat} (hl : l.length = n) :
    codeFound t.codes n (numOf l) = none ↔ ∀ d ∈ t.codes, d.bits ≠ l := by
  subst hl
  unfold codeFound
  rw [List.find?_eq_none]
  refine forall₂_congr fun d hd => ?_
  rw [decide_eq_true_eq, Ne, HufCode.bits_eq_iff (HufTable.code_lt ht hd)]

theorem codeContinues_iff {t : HufTable} (ht : TableOk t) {l : List Bool} {n : Nat} (hl : l.length = n) :
    codeContinues t.codes n (numOf l) = true ↔ ∃ d ∈ t.codes, l <+: d.bits ∧ n < d.len := by
  subst hl
  unfold codeContinues
  rw [List.any_eq_true]
  refine exists_congr fun d => and_congr_right fun hd => ?_
  rw [decide_eq_true_eq, and_comm]
  exact and_congr_left fun hl => (HufCode.prefix_bits_iff (HufTable.code_lt ht hd) (Nat.le_of_lt hl)).symm

/-- Bits that begin a longer code are no code themselves. -/
theorem codeFound_of_prefix {t : HufTable} (ht : TableOk t) {l : List Bool} {n : Nat} (hl : l.length = n) {d : HufCode}
    (hd : d ∈ t.codes) (hp : l <+: d.bits) (hlt : n < d.len) : codeFound t.codes n (numOf l) = none := by
  refine (codeFound_eq_none_iff ht hl).2 ?_
  rintro c hc rfl
  obtain rfl := code_unique ht hc hd hp (List.prefix_refl _)
  exact absurd hl (Nat.ne_of_gt (hlt.trans_eq (bitsMsb_length ..).symm))

theorem numOf_take_succ {l : List Bool} {n : Nat} (hn : n < l.length) :
    numOf (l.take n) * 2 + (l[n]).toNat = numOf (l.take (n + 1)) := by
  rw [List.take_succ_eq_append_getElem hn, numOf_append]
  simp [numOf]

/-! ## A fault with the bits read before it taken -/

/-- `p` from `s` raises `f(info)` once the bits of the segment are taken but for `rest`. -/
abbrev RaisesAt (p : Proc α) (s : State) (rest : List Bool) (f : FaultName) (info : Nat) : Prop :=
  Ends p s (fun _ _ => False) fun x t => x = .raise f info ∧ SegmentRead s rest t

variable {s : State} {rest : List Bool} {f : FaultName} {info : Nat}

/-- What comes after the fault is not reached. -/
theorem RaisesAt.bind {p : Proc β} (h : RaisesAt p s rest f info) (g : β → Proc α) : RaisesAt (p >>= g) s rest f info :=
  (ends_bind ..).2 (h.mono (fun _ _ hf => hf.elim) fun _ _ he => he)

/-- The fault is taken with the registers as R211 leaves them (R373). -/
theorem RaisesAt.next {p : Proc Unit} (h : RaisesAt p s rest f info) :
    ∃ t, runCommand p s = .next t ∧ t.segmentEnd = { s.segmentEnd with bits := rest } ∧
      t = takeFault f info (s.setHuf (s.hufLeft rest)) := by
  refine runCommand_next.2 (h.mono (fun _ _ hf => hf.elim) ?_)
  rintro _ t ⟨rfl, hread⟩
  refine ⟨f, info, rfl, ?_, congrArg _ hread.only⟩
  rw [← hread.segmentEnd]
  exact segmentEnd_congr (fun _ => takeFault_elem ..) rfl rfl rfl rfl

/-! ## HufDecode -/

section Invalid

variable {t : HufTable} (ht : TableOk t) {l : List Bool} {n : Nat} (hn : n ≤ l.length)
  (hbad : ∀ d ∈ t.codes, ¬ l.take n <+: d.bits)
  (hgood : ∀ m, 1 ≤ m → m < n → ∃ d ∈ t.codes, l.take m <+: d.bits ∧ m < d.len)
include ht hn hbad hgood

/-- The walk goes on while the bits begin a code, and fails at bit `n`. -/
theorem raises_hufWalk (k : Nat) : ∀ (j : Nat) (s : State), HufWindow s → s.segmentEnd.bits = l.drop j → j < n → n ≤ j + k →
    RaisesAt (hufWalk t.codes k j (numOf (l.take j))) s (l.drop n) .hufInvalidSequence n := by
  induction k with
  | zero => intros; omega
  | succ k ih =>
    intro j s hs hbits hj hk
    have hjl : j < l.length := Nat.lt_of_lt_of_le hj hn
    have hlen : (l.take (j + 1)).length = j + 1 := List.length_take_of_le hjl
    rw [List.drop_eq_getElem_cons hjl] at hbits
    rw [hufWalk, RaisesAt, ends_bind]
    refine (ends_hufBit hs hbits).mono ?_ fun _ _ hf => hf.elim
    rintro _ u ⟨rfl, hread⟩
    dsimp only
    rw [numOf_take_succ hjl]
    rcases Nat.eq_or_lt_of_le (Nat.succ_le_of_lt hj) with rfl | hlt
    · have hfound := (codeFound_eq_none_iff ht hlen).2 fun d hd he => hbad d hd (he ▸ List.prefix_refl _)
      have hcont := mt (codeContinues_iff ht hlen).1 fun ⟨d, hd, hp, _⟩ => hbad d hd hp
      rw [hfound]
      dsimp only
      rw [if_neg hcont]
      exact ⟨rfl, hread⟩
    · obtain ⟨d, hd, hp, hdl⟩ := hgood (j + 1) (Nat.succ_pos j) hlt
      rw [codeFound_of_prefix ht hlen hd hp hdl]
      dsimp only
      rw [if_pos ((codeContinues_iff ht hlen).2 ⟨d, hd, hp, hdl⟩)]
      refine (ih (j + 1) u hread.window (by rw [hread.segmentEnd]) hlt (by omega)).mono (fun _ _ hf => hf) ?_
      rintro x v ⟨hx, hv⟩
      exact ⟨hx, hread.trans hv⟩

end Invalid

theorem ends_hufDecode_slot {c : TClass} {id : Fin 4} {t : HufTable} (hslot : s.ht[slotOf c id] = some t) {Q : Nat → State → Prop}
    {E : Stop → State → Prop} : Ends (hufDecode c id) s Q E ↔ Ends (hufWalk t.codes 16 0 0) s Q E := by
  simp only [hufDecode, ends_bind, ends_get, hslot]

theorem hufLeft_drop {n : Nat} (hn : n ≤ s.segmentEnd.bits.length) : s.hufLeft (s.segmentEnd.bits.drop n) = s.hufAfter n := by
  rw [State.hufLeft, List.length_drop, Nat.sub_sub_self hn]

/-- The DC symbol, when its category is above 16. -/
theorem raises_dcCategory {id : Fin 4} {t : HufTable} {v : Nat} (hs : HufWindow s) (hslot : s.ht[slotOf .dc id] = some t)
    (ht : TableOk t) (hv : takeSymbol t s.segmentEnd.bits = some (v, rest)) (h16 : 16 < v) :
    RaisesAt (dcCategory id) s rest .hufBadCategory v := by
  rw [dcCategory, RaisesAt, ends_bind]
  refine (ends_hufDecode hs hslot ht hv).mono ?_ fun _ _ hf => hf.elim
  rintro _ u ⟨rfl, hread⟩
  refine ((traps_check (decide_eq_true h16)).bind _).mono (fun _ _ hf => hf) ?_
  rintro x _ ⟨hx, rfl⟩
  exact ⟨hx, hread⟩

/-! ## The statement -/

/-- Settles O28: the context entry is looked at before anything is changed; the other faults come when the bits of a symbol have been
read. -/
theorem dataFaults : Obligations.DataFaults := by
  intro s
  refine ⟨fun hr cxi e hc he hidx => exec_mqReadbit_badContextState hr hc he hidx, fun hr hinv c id tab hslot ht => ?_⟩
  intro e
  have hs := hinv.hufWindow hr
  have hready : Passes (needReady .huf) s := passes_needReady hr
  have htable : Passes (needTable c id) s := passes_needTable (by rw [hslot]; exact Option.some_ne_none tab)
  refine ⟨fun n h1 h16 hn hbad hgood => ?_, ?_⟩
  · have hdecode : RaisesAt (hufDecode c id) s (e.bits.drop n) .hufInvalidSequence n :=
      (ends_hufDecode_slot hslot).2 (raises_hufWalk ht hn hbad hgood 16 0 s hs rfl h1 (by omega))
    rw [← hufLeft_drop hn]
    exact RaisesAt.next (p := hufDecodeBody c id) (hready.ends_then (htable.ends_then (hdecode.bind _)))
  · rintro v rest rfl hv h16 hb comp i hi
    have hcat := raises_dcCategory hs hslot ht hv h16
    have hblock : Passes checkBlock s := passes_checkBlock hb
    obtain rfl | ⟨act, rfl, hac⟩ := hi
    · exact RaisesAt.next (p := hufDcFirstBody id comp) (hready.ends_then (hblock.ends_then (htable.ends_then (hcat.bind _))))
    · exact RaisesAt.next (p := hufBlockBaselineBody id act comp)
        (hready.ends_then (hblock.ends_then (htable.ends_then ((passes_needTable hac).ends_then (hcat.bind _)))))

end Sys2Proof.Machine
end

section
/-! O35: the MQ commands and the bytes outside the window (40_mq_decoder.md R142, 20_memory.md R77). `Blind` (O13) asks for any contents
of a space; here STREAM may be exchanged in a state whose window holds the same bytes, from MQ_BP on. -/

namespace Sys2Proof.Machine

variable {α β : Type} {m : Memory 8} {s : State}

/-- `m` has the bytes of STREAM from MQ_BP up to MQ_END. -/
def SameWindow (m : Memory 8) (s : State) : Prop :=
  ∀ a, s.mq.bp.toNat ≤ a → a < s.mq.endIdx.toNat → m.read? a = s.stream.read? a

/-- With `m` as STREAM `p` does the same from `s`, and where it ends, `Q` holds. -/
structure BlindAt (m : Memory 8) (p : Proc α) (s : State) (Q : α → State → Prop) : Prop where
  same : p (s.setMem .stream m) = withMem .stream m (p s)
  ends : Ends p s Q fun _ _ => True

/-! ## Constructs -/

/-- A procedure that does not look at STREAM. -/
theorem Blind.blindAt {p : Proc α} {Q : α → State → Prop} (hp : Blind .stream p) (h : Ends p s Q fun _ _ => True) :
    BlindAt m p s Q :=
  ⟨hp s m, h⟩

/-- The same, when it keeps what is needed after it. -/
theorem Blind.blindAt_keeps {p : Proc α} {I : State → Prop} (hp : Blind .stream p) (hk : Keeps I p) (h : I s) :
    BlindAt m p s fun _ => I :=
  hp.blindAt ((hk s h).mono (fun _ _ hq => hq) fun _ _ _ => trivial)

theorem BlindAt.bind {p : Proc β} {f : β → Proc α} {R : β → State → Prop} {Q : α → State → Prop} (hp : BlindAt m p s R)
    (hf : ∀ b t, R b t → BlindAt m (f b) t Q) : BlindAt m (p >>= f) s Q := by
  obtain ⟨hsame, hends⟩ := hp
  refine ⟨?_, (ends_bind ..).2 (hends.mono (fun b t hb => (hf b t hb).ends) fun _ _ h => h)⟩
  have e : ∀ u, (p >>= f) u = EStateM.bind p f u := fun _ => rfl
  rw [e, e, EStateM.bind, EStateM.bind, hsame]
  unfold Ends at hends
  cases hps : p s with
  | ok b t =>
    rw [hps] at hends
    exact (hf b t hends).same
  | error x t => rfl

theorem blindAt_get {f : State → Proc α} {Q : α → State → Prop} (h : BlindAt m (f s) s Q)
    (hf : f (s.setMem .stream m) = f s := by simp) : BlindAt m (get >>= f) s Q :=
  ⟨(congrFun hf _).trans h.same, (ends_bind ..).2 h.ends⟩

/-- An update of the MQ registers, followed with the registers it leaves. -/
theorem blindAt_modifyMq_bind {f : MqUnit → MqUnit} {p : Proc α} {Q : α → State → Prop}
    (h : BlindAt m p (s.setMq (f s.mq)) Q) : BlindAt m (modifyMq f >>= fun _ => p) s Q := by
  refine ((blind_modifyMq f).blindAt (Q := fun _ t => t = s.setMq (f s.mq)) rfl).bind ?_
  rintro _ _ rfl
  exact h

theorem blindAt_ite {c : Prop} [Decidable c] {p q : Proc α} {Q : α → State → Prop} (hp : c → BlindAt m p s Q)
    (hq : ¬ c → BlindAt m q s Q) : BlindAt m (if c then p else q) s Q := by
  split
  · exact hp ‹_›
  · exact hq ‹_›

/-- The outcome of a command with `m` as STREAM. -/
theorem BlindAt.next {p : Proc Unit} {Q : Unit → State → Prop} (h : BlindAt m p s Q) {t : State} (ht : runCommand p s = .next t) :
    runCommand p (s.setMem .stream m) = .next (t.setMem .stream m) := by
  unfold runCommand at ht ⊢
  rw [h.same]
  cases hps : p s with
  | ok a u =>
    rw [hps] at ht
    cases ht
    rfl
  | error x u =>
    rw [hps] at ht
    cases x with
    | raise f info =>
      cases ht
      exact congrArg Host.Outcome.next (takeFault_setMem (sp := .stream) f info u m)
    | refuse r => cases ht

/-! ## The window -/

theorem SameWindow.setMq (h : SameWindow m s) {u : MqUnit} (hb : s.mq.bp.toNat ≤ u.bp.toNat) (he : u.endIdx = s.mq.endIdx) :
    SameWindow m (s.setMq u) :=
  fun a hlo hhi => h a (Nat.le_trans hb hlo) (he ▸ hhi)

/-- An update of the MQ registers that leaves the window alone. -/
theorem blindAt_modifyMq (h : SameWindow m s) (f : MqUnit → MqUnit) (hb : (f s.mq).bp = s.mq.bp)
    (he : (f s.mq).endIdx = s.mq.endIdx) : BlindAt m (modifyMq f) s fun _ => SameWindow m :=
  (blind_modifyMq f).blindAt (h.setMq (le_of_eq (congrArg _ hb.symm)) he)

/-- A byte inside the window. -/
theorem blindAt_memRead {i : Nat} (h : m.read? i = s.stream.read? i) : BlindAt m (memRead .stream i) s fun _ t => t = s := by
  refine ⟨?_, (keeps_memRead (I := (· = s)) .stream i s rfl).mono (fun _ _ h => h) fun _ _ _ => trivial⟩
  have helem : (s.setMem .stream m).elem .stream i = s.elem .stream i := h
  refine (blindAt_get (Q := fun _ _ => True) ?_ ?_).same
  · refine blindAt_ite (fun _ => (blind_refuse _).blindAt trivial) fun _ => ?_
    cases s.elem .stream i
    · exact (blind_raise _ _).blindAt trivial
    · exact (blind_pure _).blindAt trivial
  · rw [State.setMem_sizeOf, helem]

/-- MqByte at or after MQ_BP, inside the window or beyond it. -/
theorem blindAt_mqByte (h : SameWindow m s) {i : Nat} (hi : s.mq.bp.toNat ≤ i) :
    BlindAt m (mqByte i) s fun b t => t = s ∧ (b ≠ 0xFF → i < s.mq.endIdx.toNat) := by
  refine ⟨?_, (ends_mqByte_window i s).mono (fun _ _ h => h) fun _ _ _ => trivial⟩
  refine (blindAt_get (Q := fun _ _ => True) (blindAt_ite (fun hin => ?_) fun _ => ?_)).same
  · exact (blindAt_memRead (h i hi hin)).bind fun _ _ _ => (blind_pure _).blindAt trivial
  · exact (blind_pure _).blindAt trivial

/-- MQ_BP moves on inside the window, and the byte there is merged. -/
theorem blindAt_advanceMerge (h : SameWindow m s) (hlt : s.mq.bp.toNat < s.mq.endIdx.toNat) (k ct : Nat) :
    BlindAt m (mqAdvance >>= fun _ => mqByte (s.mq.bp.toNat + 1) >>= fun v => mqMerge (v * 2 ^ k) ct) s
      fun _ => SameWindow m := by
  have hbp : (s.mq.bp + 1).toNat = s.mq.bp.toNat + 1 := pos_succ hlt
  have hadv : SameWindow m (s.setMq { s.mq with bp := s.mq.bp + 1 }) := h.setMq (hbp ▸ Nat.le_succ _) rfl
  refine blindAt_modifyMq_bind ((blindAt_mqByte hadv (le_of_eq hbp)).bind ?_)
  rintro v _ ⟨rfl, -⟩
  exact blindAt_modifyMq hadv _ rfl rfl

theorem blindAt_byteIn (h : SameWindow m s) : BlindAt m byteIn s fun _ => SameWindow m := by
  refine blindAt_get ((blindAt_mqByte h le_rfl).bind ?_)
  rintro b _ ⟨rfl, hb⟩
  refine blindAt_ite (fun _ => (blindAt_mqByte h (Nat.le_succ _)).bind ?_) fun hne => blindAt_advanceMerge h (hb hne) 8 8
  rintro nb _ ⟨rfl, hnb⟩
  refine blindAt_ite (fun _ => blindAt_modifyMq h _ rfl rfl) fun hle => ?_
  exact blindAt_advanceMerge h (Nat.lt_of_succ_lt (hnb (by omega))) 9 7

theorem blindAt_renormD (k : Nat) : ∀ (s : State) (a : Nat), SameWindow m s → BlindAt m (renormD k a) s fun _ => SameWindow m := by
  induction k with
  | zero => exact fun _ _ _ => (blind_refuse _).blindAt trivial
  | succ k ih =>
    intro s a h
    have hrefill : BlindAt m (if s.mq.ct = 0 then byteIn else pure ()) s fun _ => SameWindow m :=
      blindAt_ite (fun _ => blindAt_byteIn h) fun _ => (blind_pure _).blindAt h
    refine blindAt_get (hrefill.bind fun _ t ht => (blindAt_modifyMq ht _ rfl rfl).bind fun _ u hu => ?_)
    exact blindAt_ite (fun _ => blindAt_modifyMq hu _ rfl rfl) fun _ => ih u _ hu

/-! ## The commands -/

theorem blindAt_mqFinish (h : SameWindow m s) (cxi a : Nat) (o : MqDecision) :
    BlindAt m (mqFinish cxi a o) s fun _ => SameWindow m := by
  have hcx : Space.cx ≠ .stream := by decide
  refine (blindAt_renormD 15 s a h).bind fun _ t ht => ?_
  refine ((blind_memWrite hcx _ _).blindAt_keeps (keeps_memWrite fun _ hu _ => hu) ht).bind fun _ u hu => ?_
  exact (blind_putRes _).blindAt_keeps (fun _ hv => hv) hu

theorem blindAt_mqDecode (h : SameWindow m s) (cxi : Nat) (e : Byte) : BlindAt m (mqDecode cxi e) s fun _ => SameWindow m := by
  refine blindAt_get (blindAt_ite (fun _ => blindAt_mqFinish h _ _ _) fun _ => ?_)
  refine (blindAt_modifyMq h _ rfl rfl).bind fun _ t ht => blindAt_ite (fun _ => ?_) fun _ => blindAt_mqFinish ht _ _ _
  exact (blindAt_modifyMq ht _ rfl rfl).bind fun _ u hu => (blind_putRes _).blindAt_keeps (fun _ hv => hv) hu

theorem blindAt_mqReadbitBody (h : SameWindow m s) (cxi : Nat) : BlindAt m (mqReadbitBody cxi) s fun _ => SameWindow m := by
  have hcx : Space.cx ≠ .stream := by decide
  refine ((blind_needReady _).blindAt_keeps (keeps_needReady _) h).bind fun _ t ht => blindAt_get ?_
  refine ((blind_check _ _ _).blindAt_keeps (keeps_check _ _ _) ht).bind fun _ u hu => ?_
  refine ((blind_memRead hcx _).blindAt_keeps (keeps_memRead _ _) hu).bind fun e v hv => ?_
  exact ((blind_check _ _ _).blindAt_keeps (keeps_check _ _ _) hv).bind fun _ w hw => blindAt_mqDecode hw _ _

/-- MQ.INIT opens the window of ARG0 and ARG1 before it asks for a byte. -/
theorem blindAt_mqInitBody (h : ∀ a, s.arg0.toNat ≤ a → a < s.arg1.toNat → m.read? a = s.stream.read? a) :
    BlindAt m mqInitBody s fun _ => SameWindow m := by
  have hopen : SameWindow m (s.setMq { s.mq with endIdx := s.arg1, bp := s.arg0 }) := h
  refine (blind_checkWindow.blindAt_keeps (I := (· = s)) keeps_checkWindow rfl).bind fun _ t ht => ?_
  subst ht
  refine blindAt_get (blindAt_modifyMq_bind (blindAt_modifyMq_bind ((blindAt_mqByte hopen le_rfl).bind ?_)))
  rintro b _ ⟨rfl, -⟩
  refine (blindAt_modifyMq hopen _ rfl rfl).bind fun _ u hu => (blindAt_byteIn hu).bind fun _ v hv => ?_
  exact (blindAt_modifyMq hv _ rfl rfl).bind fun _ w hw => (blind_modifyFlags _).blindAt_keeps (fun _ hx => hx) hw

/-- Settles O35: BYTEIN looks at MQ_BP and the byte after it, and MQ_BP only moves on. -/
theorem mqReadsOnlyItsWindow : Obligations.MqReadsOnlyItsWindow := by
  intro s m
  exact ⟨fun h cxi _ ht => (blindAt_mqReadbitBody h cxi).next ht, fun h _ ht => (blindAt_mqInitBody h).next ht⟩

end Sys2Proof.Machine
end

section
/-! O37, O38: the commands that read bits (41_bitreader.md R181, R183 to R185, R190). Fill leaves the registers of `State.brAfter`, and to
take bits is to keep the newest of those buffered: what R190 says of the unread bits is proved of the registers alone (`BrTaken`), apart
from what the commands do. -/

namespace Sys2Proof.Machine

variable {s t : State} {n m j : Nat}

/-! ## Stops -/

/-- A procedure that does not stop has a result. -/
theorem Ends.result {α : Type} {p : Proc α} {Q : α → State → Prop} (h : Ends p s Q fun _ _ => False) : ∃ a t, Q a t := by
  unfold Ends at h
  split at h
  · exact ⟨_, _, h⟩
  · exact h.elim

/-- A body that raises `f(info)` in the state `t` makes the command take that fault there (R373). -/
theorem runCommand_of_raise {p : Proc Unit} {f : FaultName} {info : Nat}
    (h : Ends p s (fun _ _ => False) fun e u => e = .raise f info ∧ u = t) : runCommand p s = .next (takeFault f info t) := by
  obtain ⟨u, hu, rfl⟩ := runCommand_next (R := (· = takeFault f info t)).2
    (h.mono (fun _ _ hf => hf.elim) fun _ _ ⟨he, hu⟩ => ⟨f, info, he, hu ▸ rfl⟩)
  exact hu

theorem passes_needBr (hr : s.flags.brRdy = true) : Passes (needReady .br) s := passes_needReady hr

theorem passes_checkPlain (hm : s.br.mode = .plain) : Passes checkPlain s :=
  (ends_bind ..).2 (passes_check (by rw [hm]; rfl))

/-! ## Bits taken from the buffer -/

/-- Taking more bits than there are leaves none. -/
theorem drop_bitsMsb (k n v : Nat) : (bitsMsb k v).drop n = bitsMsb (k - n) v := by
  rcases Nat.le_total n k with h | h
  · exact bitsMsb_drop v h
  · rw [List.drop_eq_nil_of_le (by rwa [bitsMsb_length]), Nat.sub_eq_zero_of_le h, bitsMsb_zero]

/-- The buffered bits that are taken are unread bits taken; there may be fewer than asked for when the window is used up. -/
theorem brUnread_keep_sub (hw : BrWindow t) (h : n ≤ t.br.cnt.toNat ∨ t.br.pos.toNat = t.br.endIdx.toNat) :
    (t.setBr (t.br.keep (t.br.cnt.toNat - n))).brUnread = t.brUnread.drop n := by
  obtain ⟨-, hcnt⟩ := hw.keep (Nat.sub_le t.br.cnt.toNat n)
  have hbits : bitsMsb (t.br.keep (t.br.cnt.toNat - n)).cnt.toNat (t.br.keep (t.br.cnt.toNat - n)).buf.toNat =
      (bitsMsb t.br.cnt.toNat t.br.buf.toNat).drop n := by
    rw [hcnt, drop_bitsMsb, BrUnit.keep, BitVec.toNat_ofNat, Nat.mod_eq_of_lt ((Nat.mod_le _ _).trans_lt t.br.buf.isLt), bitsMsb_mod]
  rw [State.brUnread, State.setBr_br, hbits, State.brUnread, List.drop_append, bitsMsb_length,
    brBytes_congr (t := t.setBr (t.br.keep _)) (s := t) rfl (fun _ => State.setBr_value ..)]
  rcases h with h | h
  · rw [Nat.sub_eq_zero_of_le h, List.drop_zero]
    rfl
  · have hnone : t.br.endIdx.toNat - t.br.pos.toNat = 0 := by omega
    simp [BrUnit.keep, hnone, brBytes]

/-! ## Bytes fetched -/

/-- The unread bits are those buffered once `j` bytes are fetched, and those of the other bytes. -/
theorem brBits_prefix (hj : j ≤ s.br.endIdx.toNat - s.br.pos.toNat) : s.brBits j <+: s.brUnread := by
  obtain ⟨k, hk⟩ := Nat.exists_eq_add_of_le hj
  rw [State.brUnread, hk, brBytes_add, ← List.append_assoc]
  exact List.prefix_append ..

theorem BrFills.length_le (hf : BrFills s m j) : (s.brBits j).length ≤ s.brUnread.length := (brBits_prefix hf.1).length_le

/-- Fill goes on until there are enough bits or no byte is left. -/
theorem BrFills.enough (hf : BrFills s m j) : m ≤ (s.brBits j).length ∨ s.br.pos.toNat + j = s.br.endIdx.toNat := by
  obtain ⟨-, -, -, henough⟩ := hf
  exact henough

/-- When Fill leaves fewer bits than asked for, no byte is left. -/
theorem BrFills.used_up (hf : BrFills s m j) (hl : (s.brBits j).length < m) : s.br.pos.toNat + j = s.br.endIdx.toNat :=
  hf.enough.resolve_left (Nat.not_le.2 hl)

/-- Those bits are then all there are. -/
theorem BrFills.brUnread_eq (hf : BrFills s m j) (hl : (s.brBits j).length < m) : s.brUnread = s.brBits j := by
  have hend := hf.used_up hl
  rw [State.brUnread, State.brBits, show s.br.endIdx.toNat - s.br.pos.toNat = j by omega]

/-- The first bits that Fill(n) was asked for are the first unread ones. -/
theorem BrFills.take_eq (hf : BrFills s n j) : (s.brBits j).take n = s.brUnread.take n := by
  rcases Nat.lt_or_ge (s.brBits j).length n with hl | hl
  · rw [hf.brUnread_eq hl]
  · obtain ⟨rest, hrest⟩ := brBits_prefix hf.1
    rw [← hrest, List.take_append_of_le_length hl]

/-- A look-ahead sees no more than Fill has fetched for it. -/
theorem BrFills.lookAhead_eq (hf : BrFills s n j) (hn : 1 ≤ n) : lookAhead n s.brUnread = lookAhead n (s.brBits j) := by
  rcases Nat.lt_or_ge (s.brBits j).length n with hl | hl
  · rw [hf.brUnread_eq hl]
  · have hlen := hf.length_le
    have hne : s.brBits j ≠ [] := List.ne_nil_of_length_pos (by omega)
    have hne' : s.brUnread ≠ [] := List.ne_nil_of_length_pos (by omega)
    rw [lookAhead, lookAhead, if_neg hne, if_neg hne', List.take_append_of_le_length hl,
      List.take_append_of_le_length (by omega), hf.take_eq]

/-- The registers of R28 once `j` bytes are fetched. -/
theorem BrFetched.regs (h : BrFetched s j t) (hs : BrRegs s) (hj : j ≤ s.br.endIdx.toNat - s.br.pos.toNat) : BrRegs t := by
  have hpos := h.pos
  have hle := hs.pos
  refine ⟨⟨h.most, ?_, ?_⟩, h.buf, h.plain⟩
  · rw [hpos, h.endIdx]
    omega
  · rw [h.only, State.setBr_br, State.setBr_params, h.endIdx]
    exact hs.endIdx

/-- To keep the newest of the bits fetched is to take the others. -/
theorem BrFetched.keep (h : BrFetched s j t) (n : Nat) : t.br.keep ((s.brBits j).length - n) = s.brAfter j n := by
  have hdrop : (s.brBits j).drop n = bitsMsb ((s.brBits j).length - n) t.br.buf.toNat := by
    rw [← h.bits, drop_bitsMsb, bitsMsb_length]
  rw [State.brAfter, hdrop, bitsMsb_length, numOf_bitsMsb, BrUnit.keep, h.br]
  rfl

/-- `t` has the reader of `s` once `j` bytes are fetched and `n` bits taken: no unread bit is lost but those (R190). -/
structure BrTaken (s : State) (j n : Nat) (t : State) : Prop where
  unread : t.brUnread = s.brUnread.drop n
  pos : t.br.pos.toNat = s.br.pos.toNat + j
  cnt : t.br.cnt.toNat = (s.brBits j).length - n
  regs : BrRegs t

/-- A state with the registers of `State.brAfter` has taken the bits, whatever else a command wrote in it. -/
theorem BrFetched.taken {u : State} (h : BrFetched s j u) (hs : BrRegs s) (hf : BrFills s m j) (hn : n ≤ m)
    (hbr : t.br = s.brAfter j n) (hstream : ∀ a, t.elem .stream a = s.elem .stream a) (hpar : t.params = s.params) :
    BrTaken s j n t := by
  have hu : BrRegs u := h.regs hs hf.1
  have hkeep : u.br.keep (u.br.cnt.toNat - n) = t.br := by rw [h.cnt, h.keep, hbr]
  obtain ⟨-, hcnt⟩ := hu.toBrWindow.keep (Nat.sub_le u.br.cnt.toNat n)
  have hend : n ≤ u.br.cnt.toNat ∨ u.br.pos.toNat = u.br.endIdx.toNat := by
    rw [h.cnt, h.pos, h.endIdx]
    exact hf.enough.imp_left hn.trans
  have hunread := brUnread_keep_sub hu.toBrWindow hend
  have hregs := hu.keep (Nat.sub_le u.br.cnt.toNat n)
  rw [hkeep] at hunread hregs hcnt
  refine ⟨?_, ?_, hcnt.trans (by rw [h.cnt]), hregs.congr rfl ?_⟩
  · rw [← h.unread hf.1, ← hunread]
    refine brUnread_congr rfl fun a => ?_
    rw [State.setBr_value, State.value, hstream, h.only, State.setBr_value, State.value]
  · rw [← hkeep]
    exact h.pos
  · rw [hpar, h.only]
    rfl

/-! ## The commands -/

section Commands

variable (hr : s.flags.brRdy = true) (hinv : BrInv s) (h16 : n ≤ 16) (hf : BrFills s n j)
include hr hinv h16 hf

/-- The bytes that `BrFills` tells can be fetched. -/
theorem brFetched_brAfter : BrFetched s j (s.setBr (s.brAfter j 0)) := by
  obtain ⟨-, -, -, hend, -⟩ := hinv hr
  obtain ⟨-, t, ht⟩ := (ends_brFillLoop h16 hend hf n s 0 (brFetched_start hr hinv) (Nat.zero_le _) (by omega)).result
  exact ht.eq ▸ ht

/-- A sequence that begins with Fill(n). -/
theorem ends_brFill_then {α : Type} {p : Proc α} {Q : α → State → Prop} {E : Stop → State → Prop}
    (h : Ends p (s.setBr (s.brAfter j 0)) Q E) : Ends (brFill n >>= fun _ => p) s Q E :=
  (ends_bind ..).2 ((ends_brFill_exact h16 hr hinv hf).mono (fun _ _ ht => ht ▸ h) fun _ _ he => he.elim)

theorem exec_brReadbits_enough (h1 : 1 ≤ n) (hl : n ≤ (s.brBits j).length) : exec (.brReadbits n) s =
    .next ((s.setBr (s.brAfter j n)).setRes (u32 (numOf ((s.brBits j).take n)))) := by
  have hfetch := brFetched_brAfter hr hinv h16 hf
  have hcnt : (s.brAfter j 0).cnt.toNat = (s.brBits j).length := hfetch.cnt
  have hkeep : (s.brAfter j 0).keep ((s.brBits j).length - n) = s.brAfter j n := hfetch.keep n
  have hres : (s.brAfter j 0).buf.toNat / 2 ^ ((s.brBits j).length - n) = numOf ((s.brBits j).take n) := by
    have hbits : bitsMsb (s.brAfter j 0).cnt.toNat (s.brAfter j 0).buf.toNat = s.brBits j := hfetch.bits
    have hbuf : (s.brAfter j 0).buf.toNat < 2 ^ (s.brAfter j 0).cnt.toNat := hfetch.buf
    rw [← hbits, bitsMsb_length, bitsMsb_take _ (by omega), numOf_bitsMsb, Nat.mod_eq_of_lt]
    refine Nat.div_lt_of_lt_mul ?_
    rwa [← pow_add, Nat.sub_add_cancel (by omega)]
  refine runCommand_of_ok (p := brReadbitsBody n) ?_
  refine (passes_needBr hr).ends_then ((passes_checkBitCount h1 h16).ends_then (ends_brFill_then hr hinv h16 hf ?_))
  rw [ends_bind, ends_get]
  refine (passes_check (decide_eq_false ?_)).ends_then ?_
  · rw [State.setBr_br, hcnt]
    omega
  · rw [ends_bind, ends_modifyBr, ends_putRes, State.setBr_setBr, State.setBr_br, hcnt, hkeep, hres]

theorem exec_brReadbits_short (h1 : 1 ≤ n) (hl : (s.brBits j).length < n) : exec (.brReadbits n) s =
    .next (takeFault .brEof (s.brBits j).length (s.setBr (s.brAfter j 0))) := by
  have hcnt : (s.brAfter j 0).cnt.toNat = (s.brBits j).length := (brFetched_brAfter hr hinv h16 hf).cnt
  refine runCommand_of_raise (p := brReadbitsBody n) ?_
  refine (passes_needBr hr).ends_then ((passes_checkBitCount h1 h16).ends_then (ends_brFill_then hr hinv h16 hf ?_))
  rw [ends_bind, ends_get, State.setBr_br, hcnt]
  exact (traps_check (decide_eq_true hl)).bind _

theorem exec_brPeekbits (h1 : 1 ≤ n) (hm : s.br.mode = .plain) : exec (.brPeekbits n) s =
    .next ((s.setBr (s.brAfter j 0)).setRes (u32 (lookAhead n (s.brBits j)))) := by
  have hfetch := brFetched_brAfter hr hinv h16 hf
  have hpeek : (s.brAfter j 0).peekValue n = lookAhead n (s.brBits j) := by
    rw [← hf.lookAhead_eq h1, ← hfetch.unread hf.1]
    refine peekValue_eq hfetch.buf ?_ h1
    rw [hfetch.cnt, hfetch.pos]
    exact hf.enough
  refine runCommand_of_ok (p := brPeekbitsBody n) ?_
  refine (passes_needBr hr).ends_then ((passes_checkBitCount h1 h16).ends_then ((passes_checkPlain hm).ends_then ?_))
  rw [ends_bind]
  refine ends_brFill_then hr hinv h16 hf ?_
  rw [ends_bind, ends_get, ends_pure, ends_putRes, State.setBr_br, hpeek]

theorem exec_brSkipbits (h1 : 1 ≤ n) (hm : s.br.mode = .plain) : exec (.brSkipbits n) s =
    .next (s.setBr (s.brAfter j n)) := by
  have hfetch := brFetched_brAfter hr hinv h16 hf
  have hcnt : (s.brAfter j 0).cnt.toNat = (s.brBits j).length := hfetch.cnt
  have hkeep : (s.brAfter j 0).keep ((s.brBits j).length - n) = s.brAfter j n := hfetch.keep n
  refine runCommand_of_ok (p := brSkipbitsBody n) ?_
  refine (passes_needBr hr).ends_then ((passes_checkBitCount h1 h16).ends_then ((passes_checkPlain hm).ends_then ?_))
  refine ends_brFill_then hr hinv h16 hf ?_
  rw [ends_modifyBr, State.setBr_setBr, State.setBr_br, hcnt, Nat.min_comm, tsub_min, hkeep]

end Commands

/-- Settles O37: Fill leaves the bits of `BrFills`; BR.READBITS takes `n` of them, or BR_EOF and none. -/
theorem brReadbitsReads : Obligations.BrReadbitsReads := by
  intro s n j hr hinv h1 h16 hf l
  have hs : BrRegs s := brInv_iff.1 hinv hr
  have hfetch := brFetched_brAfter hr hinv h16 hf
  refine ⟨fun hl => ⟨_, exec_brReadbits_enough hr hinv h16 hf h1 hl, rfl, fun sp a => by simp, hf.take_eq, ?_⟩, fun hl => ?_⟩
  · obtain ⟨hunread, hpos, hcnt, hregs⟩ :
        BrTaken s j n ((s.setBr (s.brAfter j n)).setRes (u32 (numOf (l.take n)))) :=
      hfetch.taken hs hf le_rfl rfl (fun a => by simp) rfl
    exact ⟨hunread, hpos, hcnt, brInv_iff.2 fun _ => hregs⟩
  · obtain ⟨hunread, hpos, hcnt, hregs⟩ : BrTaken s j 0 (takeFault .brEof l.length (s.setBr (s.brAfter j 0))) :=
      hfetch.taken hs hf (Nat.zero_le n) rfl (fun a => by simp) rfl
    exact ⟨_, exec_brReadbits_short hr hinv h16 hf h1 hl, rfl, fun sp a => by simp, (hf.brUnread_eq hl).symm, hunread,
      BitVec.eq_of_toNat_eq (hpos.trans (hf.used_up hl)), hcnt, brInv_iff.2 fun _ => hregs⟩

/-- Settles O38: the look-ahead takes no bit; BR.SKIPBITS takes what BR.READBITS would, or all there are. -/
theorem brPeekAndSkip : Obligations.BrPeekAndSkip := by
  intro s n j hr hinv h1 h16 hm hf l
  have hs : BrRegs s := brInv_iff.1 hinv hr
  have hfetch := brFetched_brAfter hr hinv h16 hf
  constructor
  · obtain ⟨hunread, hpos, hcnt, hregs⟩ : BrTaken s j 0 ((s.setBr (s.brAfter j 0)).setRes (u32 (lookAhead n l))) :=
      hfetch.taken hs hf (Nat.zero_le n) rfl (fun a => by simp) rfl
    refine ⟨_, exec_brPeekbits hr hinv h16 hf h1 hm, ?_, fun sp a => by simp, hf.take_eq, hunread, hpos, hcnt, hregs.skip hm,
      brInv_iff.2 fun _ => hregs⟩
    rw [lookAhead, apply_ite u32]
    rfl
  · obtain ⟨hunread, hpos, hcnt, hregs⟩ : BrTaken s j n (s.setBr (s.brAfter j n)) :=
      hfetch.taken hs hf le_rfl rfl (fun a => by simp) rfl
    exact ⟨_, exec_brSkipbits hr hinv h16 hf h1 hm, rfl, fun sp a => by simp, hunread, hpos, hcnt, hregs.skip hm,
      brInv_iff.2 fun _ => hregs⟩

end Sys2Proof.Machine
end

section
/-! O36, O39, O40: the commands that move the reader and read no bit (41_bitreader.md R182, R186 to R189). -/

namespace Sys2Proof.Machine

variable {s : State}

/-! ## BR.INIT -/

theorem traps_checkWindow (h : s.arg1.toNat < s.arg0.toNat ∨ s.params.streamSize < s.arg1.toNat) :
    Traps checkWindow s .badOperand 0 :=
  traps_get (traps_check (by simpa [badWindow] using h))

/-- Settles O36: the window is checked before anything is written. -/
theorem brInitOpens : Obligations.BrInitOpens := by
  intro s mode
  refine ⟨?_, fun h => ((traps_checkWindow h).bind _).next, fun hlo hhi => ?_⟩
  · cases mode <;> rfl
  · exact runCommand_of_ok (p := brInitBody mode) ((passes_checkWindow hlo hhi).ends_then rfl)

/-! ## BR.ALIGN -/

theorem exec_brAlign_plain (hr : s.flags.brRdy = true) (hm : s.br.mode = .plain) :
    exec .brAlign s = .next (s.setBr (s.br.keep (s.br.cnt.toNat - s.br.cnt.toNat % 8))) := by
  refine runCommand_of_ok (p := brAlignBody) ((passes_needBr hr).ends_then ?_)
  rw [ends_bind, ends_get, hm]
  rfl

theorem exec_brAlign_stuff7 (hr : s.flags.brRdy = true) (hm : s.br.mode = .stuff7) :
    exec .brAlign s = .next (s.setBr (if s.br.skip = true then
      { s.br with cnt := 0, buf := 0, pos := u32 (min (s.br.pos.toNat + 1) s.br.endIdx.toNat), skip := false }
      else { s.br with cnt := 0, buf := 0 })) := by
  refine runCommand_of_ok (p := brAlignBody) ((passes_needBr hr).ends_then ?_)
  rw [ends_bind, ends_get, hm]
  rfl

/-- Settles O39: in PLAIN mode the oldest `BR_CNT mod 8` bits go; in STUFF7 mode nothing stays buffered. -/
theorem brAlignAligns : Obligations.BrAlignAligns := by
  intro s hr hinv
  have hs : BrRegs s := brInv_iff.1 hinv hr
  constructor
  · intro hm
    have hle : s.br.cnt.toNat - s.br.cnt.toNat % 8 ≤ s.br.cnt.toNat := Nat.sub_le ..
    exact ⟨_, exec_brAlign_plain hr hm, brUnread_keep_sub hs.toBrWindow (.inl (Nat.mod_le ..)), (hs.toBrWindow.keep hle).2, rfl,
      fun sp a => by simp, brInv_iff.2 fun _ => hs.keep hle⟩
  · intro hm
    rw [exec_brAlign_stuff7 hr hm]
    cases hskip : s.br.skip
    · rw [if_neg Bool.false_ne_true, if_neg Bool.false_ne_true, ← hskip]
      rfl
    · rfl

/-! ## BR.PEEKMARKER and BR.SKIPBYTES -/

/-- FF MARK stands at byte `l`, inside the window (R187). -/
abbrev MarkerAt (s : State) (l : Nat) (mark : Byte) : Prop :=
  l + 1 < s.br.endIdx.toNat ∧ s.value .stream l = 0xFF#8 ∧ s.value .stream (l + 1) = mark

/-- A read of a byte of a window that is written. -/
theorem ends_memRead_window {lo hi a : Nat} (hw : WindowWritten s lo hi) (hlo : lo ≤ a) (hhi : a < hi)
    (hsize : hi ≤ s.params.streamSize) {Q : Byte → State → Prop} {E : Stop → State → Prop} :
    Ends (memRead .stream a) s Q E ↔ Q (s.value .stream a) s := by
  have helem : (s.elem .stream a).isSome = true := by
    have := hw (a - lo) (by omega)
    rwa [Nat.mul_one, Nat.add_sub_cancel' hlo] at this
  exact ends_memRead_of s _ (Nat.lt_of_lt_of_le hhi hsize) (State.value_of_isSome helem)

theorem ends_brMarkerAt {l : Nat} {mark : Byte} (hsize : s.br.endIdx.toNat ≤ s.params.streamSize)
    (hw : WindowWritten s l s.br.endIdx.toNat) :
    Ends (brMarkerAt l mark) s (fun hit t => hit = decide (MarkerAt s l mark) ∧ t = s) fun _ _ => False := by
  rw [brMarkerAt, ends_bind, ends_get]
  by_cases hin : l + 1 < s.br.endIdx.toNat
  · rw [if_pos hin, ends_bind, ends_memRead_window hw le_rfl (Nat.lt_of_succ_lt hin) hsize]
    split
    · next hff =>
      rw [ends_bind, ends_memRead_window hw (Nat.le_succ l) hin hsize]
      exact ⟨decide_eq_decide.2 ⟨fun hmark => ⟨hin, hff, hmark⟩, fun ⟨_, _, hmark⟩ => hmark⟩, rfl⟩
    · next hff => exact ⟨(decide_eq_false fun ⟨_, h, _⟩ => hff h).symm, rfl⟩
  · rw [if_neg hin]
    exact ⟨(decide_eq_false fun ⟨h, _⟩ => hin h).symm, rfl⟩

/-- Settles O40: LPos gives `l`, and reads nothing. -/
theorem brMarkerCommands : Obligations.BrMarkerCommands := by
  intro s mark l hr hinv hl
  have hs : BrRegs s := brInv_iff.1 hinv hr
  constructor
  · intro hw
    refine runCommand_of_ok (p := brPeekmarkerBody mark) ((passes_needBr hr).ends_then ?_)
    rw [ends_bind]
    refine (ends_brLPos hl).mono ?_ fun _ _ he => he
    rintro _ _ ⟨rfl, rfl⟩
    rw [ends_bind]
    refine (ends_brMarkerAt hs.endIdx hw).mono ?_ fun _ _ he => he
    rintro _ _ ⟨rfl, rfl⟩
    rw [ends_putRes]
    refine congrArg (State.setRes _) ?_
    split
    · next hmark => rw [decide_eq_true hmark]; rfl
    · next hmark => rw [decide_eq_false hmark]; rfl
  · refine runCommand_of_ok (p := brSkipbytesBody) ((passes_needBr hr).ends_then ?_)
    rw [ends_bind]
    refine (ends_brLPos hl).mono ?_ fun _ _ he => he
    rintro _ _ ⟨rfl, rfl⟩
    rfl

end Sys2Proof.Machine
end

section
/-! The row in CLINE that CCITT.READBYTE outputs: what NextRun and the loop that collects a byte do to CC_CPOS and CC_OUTBITS, and which
pixels they pass (10_state.md R32, R33, 43_ccitt.md R276, R279). -/

namespace Sys2Proof.Machine

variable {n : Nat} {s t u : State}

/-! ## The ends of the runs -/

/-- Where run `i` of the row in CLINE ends. -/
def State.runEnd (s : State) (i : Nat) : Nat := (s.clineAt i).getD 0

theorem State.nextPixel_eq (s : State) : s.nextPixel = s.runEnd s.cc.cpos.toNat - s.cc.outbits.toNat := rfl

theorem State.runStart_eq (s : State) : s.runStart = if s.cc.cpos.toNat = 0 then 0 else s.runEnd (s.cc.cpos.toNat - 1) := rfl

theorem RowLine.clineAt_eq (h : RowLine s n) {i : Nat} (hi : i ≤ n) : s.clineAt i = some (s.runEnd i) := by
  obtain ⟨-, hlast, hbelow⟩ := h
  rcases Nat.eq_or_lt_of_le hi with rfl | hlt
  · rw [State.runEnd, hlast, Option.getD_some]
  · obtain ⟨v, -, hv, -⟩ := hbelow i hlt
    rw [State.runEnd, hv, Option.getD_some]

theorem RowLine.runEnd_last (h : RowLine s n) : s.runEnd n = s.cc.cols.toNat := by
  rw [State.runEnd, h.2.1, Option.getD_some]

theorem RowLine.runEnd_succ (h : RowLine s n) {i : Nat} (hi : i < n) :
    s.runEnd i ≤ s.runEnd (i + 1) ∧ s.runEnd i < s.cc.cols.toNat := by
  obtain ⟨v, w, hv, hw, hle, hlt⟩ := h.2.2 i hi
  rw [State.runEnd, State.runEnd, hv, hw]
  exact ⟨hle, hlt⟩

theorem RowLine.runEnd_mono (h : RowLine s n) {i j : Nat} (hij : i ≤ j) (hj : j ≤ n) : s.runEnd i ≤ s.runEnd j := by
  induction j, hij using Nat.le_induction with
  | base => exact le_rfl
  | succ j _ ih => exact (ih (Nat.le_of_succ_le hj)).trans (h.runEnd_succ hj).1

theorem RowLine.runEnd_le_cols (h : RowLine s n) {i : Nat} (hi : i ≤ n) : s.runEnd i ≤ s.cc.cols.toNat :=
  (h.runEnd_mono hi le_rfl).trans h.runEnd_last.le

/-- A run that ends before CC_COLS is not the last one. -/
theorem RowLine.lt_of_runEnd (h : RowLine s n) {i : Nat} (hi : i ≤ n) (hlt : s.runEnd i < s.cc.cols.toNat) : i < n := by
  rcases Nat.eq_or_lt_of_le hi with rfl | hin
  · exact absurd h.runEnd_last hlt.ne
  · exact hin

/-- The row depends on CLINE and CC_COLS alone. -/
theorem RowLine.congr (h : RowLine s n) (hl : ∀ i, t.clineAt i = s.clineAt i) (hc : t.cc.cols = s.cc.cols) : RowLine t n := by
  unfold RowLine
  simp only [hl, hc]
  exact h

/-! ## The pixels of a run -/

theorem State.whiteAt_congr (hl : ∀ i, t.clineAt i = s.clineAt i) (hc : t.cc.cols = s.cc.cols) (x : Nat) :
    t.whiteAt x = s.whiteAt x := by
  unfold State.whiteAt
  simp only [hl, hc]

/-- Pixels from the end of run `i - 1` up to the end of run `i` are white when `i` is even. -/
theorem RowLine.whiteAt_run (h : RowLine s n) {i x : Nat} (hi : i ≤ n) (hstart : ∀ j, j < i → s.runEnd j ≤ x)
    (hend : x < s.runEnd i) : s.whiteAt x = decide (i % 2 = 0) := by
  have hcols : x < s.cc.cols.toNat := hend.trans_le (h.runEnd_le_cols hi)
  have hfind : (List.range (s.cc.cols.toNat + 1)).find? (fun j => decide (x < (s.clineAt j).getD 0)) = some i := by
    refine List.find?_range_eq_some.2 ⟨?_, List.mem_range.2 (Nat.lt_succ_of_le (hi.trans h.1)), fun j hj => ?_⟩
    · exact decide_eq_true hend
    · simpa [State.runEnd] using hstart j hj
  rw [State.whiteAt, decide_eq_true hcols, Bool.true_and, hfind]

theorem State.whiteAt_beyond (s : State) {x : Nat} (h : s.cc.cols.toNat ≤ x) : s.whiteAt x = false := by
  rw [State.whiteAt, decide_eq_false (Nat.not_lt.2 h), Bool.false_and]

/-- The `m` places from `x` on, white `true`. -/
def State.places (s : State) (x m : Nat) : List Bool := (List.range m).map fun j => s.whiteAt (x + j)

theorem State.places_length (s : State) (x m : Nat) : (s.places x m).length = m := by simp [State.places]

theorem State.places_add (s : State) (x k m : Nat) : s.places x (k + m) = s.places x k ++ s.places (x + k) m := by
  simp only [State.places, List.range_add, List.map_append, List.map_map]
  congr 2
  funext j
  simp [Nat.add_assoc]

theorem State.places_const (s : State) {x m : Nat} {b : Bool} (h : ∀ j, j < m → s.whiteAt (x + j) = b) :
    s.places x m = List.replicate m b :=
  List.eq_replicate_iff.2 ⟨s.places_length x m, fun c hc => by
    obtain ⟨j, hj, rfl⟩ := List.mem_map.1 hc
    exact h j (List.mem_range.1 hj)⟩

theorem State.places_congr (hl : ∀ i, t.clineAt i = s.clineAt i) (hc : t.cc.cols = s.cc.cols) (x m : Nat) :
    t.places x m = s.places x m := List.map_congr_left fun _ _ => State.whiteAt_congr hl hc _

theorem State.rowByte_eq (s : State) (x : Nat) :
    s.rowByte x = if s.cc.black1 then numOf (s.places x 8) ^^^ 0xFF else numOf (s.places x 8) := rfl

theorem State.rowByte_lt (s : State) (x : Nat) : s.rowByte x < 256 := by
  have h : numOf (s.places x 8) < 2 ^ 8 := by
    have := numOf_lt (s.places x 8)
    rwa [s.places_length] at this
  rw [State.rowByte_eq]
  split
  · exact Nat.xor_lt_two_pow h (by decide)
  · exact h

theorem numOf_replicate_true (k : Nat) : numOf (List.replicate k true) = 2 ^ k - 1 := by
  induction k with
  | zero => rfl
  | succ k ih =>
    have := Nat.one_le_two_pow (n := k)
    rw [List.replicate_succ, numOf_cons, ih, List.length_replicate, pow_succ, Bool.toNat_true]
    omega

/-! ## The pending pixels -/

/-- CC_CPOS and CC_OUTBITS point into the decoded row CLINE[0 .. n] (43_ccitt.md R278 (a)). -/
structure RowPending (n : Nat) (s : State) : Prop where
  fits : s.cc.cols.toNat ≤ s.params.colsMax
  row : RowLine s n
  cpos : s.cc.cpos.toNat ≤ n
  run : s.runStart + s.cc.outbits.toNat ≤ s.runEnd s.cc.cpos.toNat

theorem ccInv_iff : CcInv s ↔
    (s.flags.ccRdy = true → s.flags.fault = false → 1 ≤ s.cc.cols.toNat ∧ ∃ n, RowPending n s) := by
  refine forall_congr' fun _ => forall_congr' fun _ => ⟨?_, ?_⟩
  · rintro ⟨h1, hfits, ⟨n, hn, hrow⟩, e, he, hrun⟩
    rw [hrow.clineAt_eq hn] at he
    exact ⟨h1, n, hfits, hrow, hn, (Option.some.inj he).symm ▸ hrun⟩
  · rintro ⟨h1, n, hfits, hrow, hn, hrun⟩
    exact ⟨h1, hfits, ⟨n, hn, hrow⟩, _, hrow.clineAt_eq hn, hrun⟩

theorem RowPending.nextPixel_le_cols (h : RowPending n s) : s.nextPixel ≤ s.cc.cols.toNat :=
  (Nat.sub_le _ _).trans (h.row.runEnd_le_cols h.cpos)

/-- The pending pixels of the run are those from `nextPixel` up to its end. -/
theorem RowPending.nextPixel_add (h : RowPending n s) :
    s.nextPixel + s.cc.outbits.toNat = s.runEnd s.cc.cpos.toNat := by
  have := h.run
  rw [State.nextPixel_eq]
  omega

/-- They have the colour of the run. -/
theorem RowPending.places_run (h : RowPending n s) {k : Nat} (hk : k ≤ s.cc.outbits.toNat) :
    s.places s.nextPixel k = List.replicate k (decide (s.cc.cpos.toNat % 2 = 0)) := by
  have hsum := h.nextPixel_add
  have hrun := h.run
  refine s.places_const fun j hj => h.row.whiteAt_run h.cpos (fun i hi => ?_) (by omega)
  have hmono := h.row.runEnd_mono (show i ≤ s.cc.cpos.toNat - 1 by omega) (by have := h.cpos; omega)
  rw [State.runStart_eq, if_neg (by omega)] at hrun
  omega

/-- The registers of the row moved on to CC_CPOS and CC_OUTBITS as they are in `t`, at pixel `x`; nothing else is changed. -/
structure RowMoved (n x : Nat) (s t : State) : Prop where
  only : t = s.setCc { s.cc with outbits := t.cc.outbits, cpos := t.cc.cpos }
  pending : RowPending n t
  pixel : t.nextPixel = x

theorem RowMoved.refl (h : RowPending n s) : RowMoved n s.nextPixel s s := ⟨rfl, h, rfl⟩

theorem RowMoved.trans {x y : Nat} (h : RowMoved n x s t) (h' : RowMoved n y t u) : RowMoved n y s u := by
  refine ⟨h'.only.trans ?_, h'.pending, h'.pixel⟩
  rw [h.only]
  rfl

theorem RowMoved.cols {x : Nat} (h : RowMoved n x s t) : t.cc.cols = s.cc.cols := by rw [h.only]; rfl

theorem RowMoved.flags {x : Nat} (h : RowMoved n x s t) : t.cc.flags = s.cc.flags := by rw [h.only]; rfl

theorem RowMoved.places {x : Nat} (h : RowMoved n x s t) (y m : Nat) : t.places y m = s.places y m :=
  State.places_congr (fun i => by rw [h.only, State.clineAt, State.setCc_elem]; rfl) h.cols y m

theorem RowPending.ends_lineEnd (h : RowPending n s) (Q : Int → State → Prop) (E : Stop → State → Prop) :
    Ends lineEnd s Q E ↔ Q (s.runEnd s.cc.cpos.toNat) s := by
  obtain ⟨v, hv, hve⟩ := Option.map_eq_some_iff.1 (h.row.clineAt_eq h.cpos)
  have hin : s.cc.cpos.toNat < s.sizeOf .cline := by
    have := h.cpos
    have := h.row.1
    have := h.fits
    simp only [State.sizeOf, Space.size]
    omega
  rw [lineEnd, ends_bind, ends_get, readCline, ends_bind, ends_memRead_of s _ hin hv, ends_pure, ← hve]

/-- CC_OUTBITS lowered by `k` pixels of the run. -/
theorem RowPending.take (h : RowPending n s) {k : Nat} (hk : k ≤ s.cc.outbits.toNat) :
    RowMoved n (s.nextPixel + k) s (s.setCc { s.cc with outbits := u32 (s.cc.outbits.toNat - k) }) ∧
      (u32 (s.cc.outbits.toNat - k)).toNat = s.cc.outbits.toNat - k := by
  have hout : (u32 (s.cc.outbits.toNat - k)).toNat = s.cc.outbits.toNat - k := by
    have := s.cc.outbits.isLt
    simp only [u32, BitVec.toNat_ofNat]
    omega
  have hrun := h.run
  have hsum := h.nextPixel_add
  refine ⟨⟨rfl, ⟨h.fits, h.row, h.cpos, ?_⟩, ?_⟩, hout⟩
  · show s.runStart + (u32 _).toNat ≤ s.runEnd s.cc.cpos.toNat
    omega
  · show s.runEnd s.cc.cpos.toNat - (u32 _).toNat = _
    omega

theorem RowPending.cpos_succ (h : RowPending n s) (hn : s.cc.cpos.toNat < n) :
    (u32 (s.cc.cpos.toNat + 1)).toNat = s.cc.cpos.toNat + 1 := by
  have := h.row.1
  have := s.cc.cols.isLt
  simp only [u32, BitVec.toNat_ofNat]
  omega

/-- One round of NextRun: the run after a finished one. -/
theorem RowPending.next (h : RowPending n s) (h0 : s.cc.outbits.toNat = 0)
    (hlt : s.runEnd s.cc.cpos.toNat < s.cc.cols.toNat) :
    RowMoved n s.nextPixel s (s.setCc { s.cc with
      cpos := u32 (s.cc.cpos.toNat + 1)
      outbits := word32 ((s.runEnd (s.cc.cpos.toNat + 1) : Int) - s.runEnd s.cc.cpos.toNat) }) := by
  have hn := h.row.lt_of_runEnd h.cpos hlt
  have hle : s.runEnd s.cc.cpos.toNat ≤ s.runEnd (s.cc.cpos.toNat + 1) := (h.row.runEnd_succ hn).1
  have hmax : s.runEnd (s.cc.cpos.toNat + 1) ≤ s.cc.cols.toNat := h.row.runEnd_le_cols hn
  have h32 := s.cc.cols.isLt
  have hcpos := h.cpos_succ hn
  have hout : (word32 ((s.runEnd (s.cc.cpos.toNat + 1) : Int) - s.runEnd s.cc.cpos.toNat)).toNat =
      s.runEnd (s.cc.cpos.toNat + 1) - s.runEnd s.cc.cpos.toNat := by
    rw [word32_eq, BitVec.toNat_ofInt]
    omega
  refine ⟨rfl, ⟨h.fits, h.row, hcpos.trans_le hn, ?_⟩, ?_⟩
  · rw [State.runStart_eq, State.setCc_cc, hcpos, if_neg (Nat.succ_ne_zero _), Nat.add_sub_cancel, hout]
    exact (Nat.add_sub_cancel' hle).le
  · rw [State.nextPixel_eq, State.nextPixel_eq, State.setCc_cc, hcpos, hout, h0]
    exact Nat.sub_sub_self hle

/-- NextRun passes no pixel, and when none is pending after it the row has been output (R279). -/
theorem ends_nextRun (h : RowPending n s) :
    Ends nextRun s (fun _ t => RowMoved n s.nextPixel s t ∧ (t.cc.outbits.toNat = 0 → s.nextPixel = s.cc.cols.toNat))
      fun _ _ => False := by
  suffices ∀ fuel (t : State), RowMoved n s.nextPixel s t → n < t.cc.cpos.toNat + fuel →
      Ends (nextRunLoop fuel) t
        (fun _ t => RowMoved n s.nextPixel s t ∧ (t.cc.outbits.toNat = 0 → s.nextPixel = s.cc.cols.toNat)) fun _ _ => False by
    have hn := h.row.1
    have hfits := h.fits
    rw [nextRun, ends_bind, ends_get]
    exact this _ s (.refl h) (by omega)
  intro fuel
  induction fuel with
  | zero =>
    intro t ht hf
    have := ht.pending.cpos
    omega
  | succ fuel ih =>
    intro t ht hf
    have hp := ht.pending
    rw [nextRunLoop, ends_bind, ends_get, ends_ite]
    refine ⟨fun h0 => ?_, fun h0 => ⟨ht, fun h1 => absurd (BitVec.toNat_inj.1 h1) h0⟩⟩
    have h0' : t.cc.outbits.toNat = 0 := congrArg BitVec.toNat h0
    rw [ends_bind, hp.ends_lineEnd, ends_ite]
    refine ⟨fun hlt => ?_, fun hend => ⟨ht, fun _ => ?_⟩⟩
    · have hlt : t.runEnd t.cc.cpos.toNat < t.cc.cols.toNat := by
        simpa [State.columns] using hlt
      have hnext := hp.next h0' hlt
      have hcpos := hp.cpos_succ (hp.row.lt_of_runEnd hp.cpos hlt)
      have hstep : RowPending n (t.setCc { t.cc with cpos := u32 (t.cc.cpos.toNat + 1) }) :=
        ⟨hp.fits, hp.row, hnext.pending.cpos, by
          have := hnext.pending.run
          rw [State.setCc_cc] at this ⊢
          show _ + t.cc.outbits.toNat ≤ _
          rw [h0']
          exact (Nat.le_add_right _ _).trans this⟩
      rw [ends_bind, ends_putCpos, ends_bind, hstep.ends_lineEnd, ends_bind, ends_modifyCc, State.setCc_setCc, State.setCc_cc, hcpos]
      refine ih _ (ht.trans (ht.pixel ▸ hnext)) ?_
      rw [State.setCc_cc, hcpos]
      omega
    · have hend : t.cc.cols.toNat ≤ t.runEnd t.cc.cpos.toNat := by
        simpa [State.columns] using hend
      rw [← ht.pixel, ← ht.cols, State.nextPixel_eq, h0']
      exact (hp.row.runEnd_le_cols hp.cpos).antisymm hend

/-! ## A byte -/

theorem shiftInPixels_eq {b k bits : Nat} (hb : b < 2 ^ (8 - bits)) (hk : k ≤ bits) (h8 : bits ≤ 8) (cpos : Nat) :
    shiftInPixels b k cpos = b * 2 ^ k + numOf (List.replicate k (decide (cpos % 2 = 0))) ∧
      shiftInPixels b k cpos < 2 ^ (8 - (bits - k)) := by
  have hpow : 2 ^ (8 - bits) * 2 ^ k = 2 ^ (8 - (bits - k)) := by rw [← pow_add]; congr 1; omega
  have hmax : 2 ^ (8 - (bits - k)) ≤ 2 ^ 8 := Nat.pow_le_pow_right (by decide) (by omega)
  have hlt : (b + 1) * 2 ^ k ≤ 2 ^ (8 - bits) * 2 ^ k := Nat.mul_le_mul_right _ hb
  have hnum := numOf_lt (List.replicate k (decide (cpos % 2 = 0)))
  have heq : shiftInPixels b k cpos = b * 2 ^ k + numOf (List.replicate k (decide (cpos % 2 = 0))) := by
    rw [shiftInPixels, Nat.mod_eq_of_lt (by rw [Nat.succ_mul] at hlt; have := Nat.two_pow_pos k; omega)]
    split
    · next hc => rw [decide_eq_true hc, numOf_replicate_true]
    · next hc => rw [decide_eq_false hc, numOf_replicate_false]
  rw [List.length_replicate] at hnum
  rw [Nat.succ_mul] at hlt
  exact ⟨heq, by omega⟩

/-- The loop that collects a byte shifts in the next `bits` places of the row and moves past them, no further than its end (R276). -/
theorem ends_serveBits (fuel : Nat) : ∀ {s : State} {bits b : Nat}, RowPending n s → bits < fuel → bits ≤ 8 →
    b < 2 ^ (8 - bits) → (bits ≠ 0 → s.cc.outbits.toNat ≠ 0) →
      Ends (serveBits fuel bits b) s (fun v t => v = b * 2 ^ bits + numOf (s.places s.nextPixel bits) ∧
        RowMoved n (min (s.nextPixel + bits) s.cc.cols.toNat) s t) fun _ _ => False := by
  induction fuel with
  | zero => intros; omega
  | succ fuel ih =>
    intro s bits b h hf h8 hb hout
    rw [serveBits, ends_ite]
    refine ⟨fun hz => ?_, fun hz => ?_⟩
    · subst hz
      rw [ends_pure, Nat.add_zero, Nat.min_eq_left h.nextPixel_le_cols]
      exact ⟨by simp [State.places], .refl h⟩
    have hout := hout hz
    rw [ends_bind, ends_get, ends_bind, ends_modifyCc]
    generalize hk : min s.cc.outbits.toNat bits = k
    have hkb : k ≤ bits := hk ▸ Nat.min_le_right _ _
    have hko : k ≤ s.cc.outbits.toNat := hk ▸ Nat.min_le_left _ _
    obtain ⟨hmove, hleft⟩ := h.take hko
    obtain ⟨hshift, hsmall⟩ := shiftInPixels_eq hb hkb h8 s.cc.cpos.toNat
    rw [← h.places_run hko] at hshift
    generalize shiftInPixels b k s.cc.cpos.toNat = b' at hshift hsmall
    -- the byte, from the places the rest of the loop shifts in
    have hval : ∀ m, m = bits - k → b' * 2 ^ m + numOf (s.places (s.nextPixel + k) m) =
        b * 2 ^ bits + numOf (s.places s.nextPixel bits) := by
      rintro m rfl
      obtain ⟨m, rfl⟩ := Nat.exists_eq_add_of_le hkb
      rw [Nat.add_sub_cancel_left, s.places_add, numOf_append, s.places_length, hshift, pow_add]
      ring
    -- the rest of the loop
    have hrest : ∀ t, RowMoved n (s.nextPixel + k) s t → (bits - k ≠ 0 → t.cc.outbits.toNat ≠ 0) →
        Ends (serveBits fuel (bits - k) b') t (fun v t => v = b * 2 ^ bits + numOf (s.places s.nextPixel bits) ∧
          RowMoved n (min (s.nextPixel + bits) s.cc.cols.toNat) s t) fun _ _ => False := by
      intro t ht hne
      refine (ih ht.pending (by omega) (by omega) hsmall hne).mono (fun v u hu => ?_) fun _ _ he => he
      obtain ⟨hv, hu⟩ := hu
      rw [ht.places, ht.pixel, hval _ rfl] at hv
      rw [ht.pixel, ht.cols, Nat.add_assoc, Nat.add_sub_cancel' hkb] at hu
      exact ⟨hv, ht.trans hu⟩
    rw [ends_ite]
    refine ⟨fun hdone => ?_, fun hmore => hrest _ hmove fun _ => ?_⟩
    · rw [ends_bind]
      refine (ends_nextRun hmove.pending).mono (fun _ t ht => ?_) fun _ _ he => he
      obtain ⟨ht, hend⟩ := ht
      rw [hmove.pixel] at ht hend
      have hst := hmove.trans ht
      rw [ends_bind, ends_get, ends_ite]
      refine ⟨fun h0 => ?_, fun h0 => hrest t hst fun _ h1 => h0 (BitVec.toNat_inj.1 h1)⟩
      have hcols : s.nextPixel + k = s.cc.cols.toNat := hend (congrArg BitVec.toNat h0)
      have hpad : s.places (s.nextPixel + k) (bits - k) = List.replicate (bits - k) false :=
        s.places_const fun j _ => s.whiteAt_beyond (by omega)
      have hbyte : b' * 2 ^ (bits - k) < 256 := by
        have := Nat.mul_lt_mul_of_pos_right hsmall (Nat.two_pow_pos (bits - k))
        rwa [← pow_add, Nat.sub_add_cancel (by omega)] at this
      have := hval _ rfl
      rw [hpad, numOf_replicate_false, Nat.add_zero] at this
      rw [ends_pure, Nat.mod_eq_of_lt hbyte, Nat.min_eq_right (by omega), ← hcols]
      exact ⟨this, hst⟩
    · rw [State.setCc_cc, hleft]
      exact hmore

/-- Eight places of the row. -/
theorem ends_servePixels (h : RowPending n s) (hout : s.cc.outbits.toNat ≠ 0) :
    Ends servePixels s (fun v t => v = numOf (s.places s.nextPixel 8) ∧
      RowMoved n (min (s.nextPixel + 8) s.cc.cols.toNat) s t) fun _ _ => False := by
  rw [servePixels, ends_bind, ends_get, ends_ite]
  refine ⟨fun h8 => ?_, fun _ => ?_⟩
  · have hmove := (h.take h8).1
    have hle : s.nextPixel + 8 ≤ s.cc.cols.toNat := hmove.pixel ▸ hmove.cols ▸ hmove.pending.nextPixel_le_cols
    rw [ends_bind, ends_modifyCc, ends_bind]
    refine (ends_nextRun hmove.pending).mono (fun _ t ht => ?_) fun _ _ he => he
    rw [ends_pure, h.places_run h8, Nat.min_eq_left hle]
    refine ⟨?_, hmove.trans (hmove.pixel ▸ ht.1)⟩
    rcases Nat.mod_two_eq_zero_or_one s.cc.cpos.toNat with hc | hc <;> rw [hc] <;> decide
  · simpa using ends_serveBits 9 (bits := 8) (b := 0) h (by decide) le_rfl (by decide) fun _ => hout

/-- A byte is served: RES is the next eight places, and the row has moved on. -/
structure ByteServed (n : Nat) (s t : State) : Prop where
  only : t = { s with res := t.res, cc := { s.cc with outbits := t.cc.outbits, cpos := t.cc.cpos } }
  res : t.res = BitVec.ofNat 32 s.nextByte
  pending : RowPending n t
  pixel : t.nextPixel = min (s.nextPixel + 8) s.cc.cols.toNat

theorem ends_serveByte (h : RowPending n s) (hout : s.cc.outbits.toNat ≠ 0) :
    Ends serveByte s (fun _ t => ByteServed n s t) fun _ _ => False := by
  rw [serveByte, ends_bind]
  refine (ends_servePixels h hout).mono (fun v t ht => ?_) fun _ _ he => he
  obtain ⟨rfl, ht⟩ := ht
  have hblack : t.cc.black1 = s.cc.black1 := by rw [CcUnit.black1, ht.flags]; rfl
  rw [ends_bind, ends_get, ends_putRes, hblack]
  refine ⟨?_, rfl, ⟨ht.pending.fits, ht.pending.row, ht.pending.cpos, ht.pending.run⟩, ht.pixel⟩
  conv_lhs => rw [ht.only]
  rfl

end Sys2Proof.Machine
end

section
/-! O52: CCITT.READBYTE with pixels pending, and after the end of the data (43_ccitt.md R276, R278 (d)). -/

namespace Sys2Proof.Machine

variable {s : State}

/-- A body that ends without a stop gives a next state. -/
theorem runCommand_next_of_ends {p : Proc Unit} {R : State → Prop} (h : Ends p s (fun _ t => R t) fun _ _ => False) :
    ∃ t, runCommand p s = .next t ∧ R t := runCommand_next.2 (h.mono (fun _ _ ht => ht) fun _ _ he => False.elim he)

/-- The checks of CCITT.READBYTE pass: the units are ready and the reader is in PLAIN mode. -/
structure ReadbyteReady (s : State) : Prop where
  ccRdy : s.flags.ccRdy = true
  brRdy : s.flags.brRdy = true
  mode : s.br.mode = .plain

/-- What follows the checks (R276). -/
def readbyteRest (s : State) : Proc Unit :=
  if s.cc.outbits = 0 then
    if s.flags.ccEof then putRes 0xFFFFFFFF
    else decodeRow >>= fun _ => serveByte
  else serveByte

theorem ends_ccittReadbyteBody (h : ReadbyteReady s) (Q : Unit → State → Prop) (E : Stop → State → Prop) :
    Ends ccittReadbyteBody s Q E ↔ Ends (readbyteRest s) s Q E := by
  have hready : ReadyUnit.ready s.flags .ccitt = true := by simp [ReadyUnit.ready, h.ccRdy, h.brRdy]
  unfold ccittReadbyteBody
  rw [ends_bind, needReady, ends_bind, ends_get, hready]
  show Ends _ s Q E ↔ _
  rw [ends_bind, ends_get, ends_bind, decide_eq_false (not_not.2 h.mode)]
  exact Iff.rfl

/-- After the end of the data the command answers the end value. -/
theorem exec_ccittReadbyte_end (h : ReadbyteReady s) (hout : s.cc.outbits = 0) (heof : s.flags.ccEof = true) :
    exec .ccittReadbyte s = .next (s.setRes 0xFFFFFFFF) := by
  refine runCommand_of_ok ((ends_ccittReadbyteBody h _ _).2 ?_)
  rw [readbyteRest, if_pos hout, if_pos heof]
  rfl

/-- With pixels pending it serves a byte of them. -/
theorem exec_ccittReadbyte_serve {n : Nat} (h : ReadbyteReady s) (hp : RowPending n s) (hout : s.cc.outbits ≠ 0) :
    ∃ t, exec .ccittReadbyte s = .next t ∧ ByteServed n s t := by
  refine runCommand_next_of_ends ((ends_ccittReadbyteBody h _ _).2 ?_)
  rw [readbyteRest, if_neg hout]
  exact ends_serveByte hp fun h0 => hout (BitVec.toNat_inj.1 h0)

theorem ByteServed.elem {n : Nat} {t : State} (h : ByteServed n s t) (sp : Space) (a : Nat) : t.elem sp a = s.elem sp a := by
  rw [h.only]
  cases sp <;> rfl

theorem ByteServed.ccInv {n : Nat} {t : State} (h : ByteServed n s t) (hcols : 1 ≤ s.cc.cols.toNat) : CcInv t := by
  refine ccInv_iff.2 fun _ _ => ⟨?_, n, h.pending⟩
  rw [h.only]
  exact hcols

/-- Settles O52: NextRun passes no pixel, and the runs the loop takes pixels from are those that `whiteAt` finds. -/
theorem ccittReadbyteServes : Obligations.CcittReadbyteServes := by
  intro s hcc hbr hmode
  have hready : ReadbyteReady s := ⟨hcc, hbr, hmode⟩
  refine ⟨exec_ccittReadbyte_end hready, fun hout hfault hinv => ?_⟩
  obtain ⟨hcols, n, hp⟩ := ccInv_iff.1 hinv hcc hfault
  obtain ⟨t, ht, hs⟩ := exec_ccittReadbyte_serve hready hp hout
  exact ⟨t, ht, hs.res, hs.only, hs.elem, hs.ccInv hcols, hs.pixel⟩

end Sys2Proof.Machine
end

section
/-! O21: the line while a row is read, whatever the reader does: CLINE holds run ends in order, those before the last below CC_COLS, and a
row ends with CC_COLS (43_ccitt.md R267 to R274, R278 (a)). `Yields p s Q` says that `p`, started in `s`, ends in `Q` if it ends. -/

namespace Sys2Proof.Machine

variable {α β : Type} {s s0 t : State}

/-! ## When only the ends count -/

/-- If `p` ends when started in `s`, it ends in `Q`. -/
abbrev Yields (p : Proc α) (s : State) (Q : α → State → Prop) : Prop := Ends p s Q fun _ _ => True

theorem Yields.bind {p : Proc β} {f : β → Proc α} {R : β → State → Prop} {Q : α → State → Prop} (h : Yields p s R)
    (hf : ∀ b t, R b t → Yields (f b) t Q) : Yields (p >>= f) s Q :=
  (ends_bind ..).2 (h.mono hf fun _ _ _ => trivial)

theorem Yields.weaken {p : Proc α} {R Q : α → State → Prop} (h : Yields p s R) (hQ : ∀ a t, R a t → Q a t) : Yields p s Q :=
  h.mono hQ fun _ _ _ => trivial

theorem yields_get {f : State → Proc α} {Q : α → State → Prop} (h : Yields (f s) s Q) : Yields (get >>= f) s Q :=
  (ends_bind ..).2 h

theorem yields_ite {c : Prop} [Decidable c] {p q : Proc α} {Q : α → State → Prop} (hp : c → Yields p s Q)
    (hq : ¬ c → Yields q s Q) : Yields (if c then p else q) s Q := (ends_ite ..).2 ⟨hp, hq⟩

theorem Ends.yields {p : Proc α} {Q : α → State → Prop} {E : Stop → State → Prop} (h : Ends p s Q E) : Yields p s Q :=
  h.mono (fun _ _ ht => ht) fun _ _ _ => trivial

theorem yields_writeCline {i : Nat} {v : Int} {Q : Unit → State → Prop}
    (h : Q () (s.setMem .cline ((s.mem .cline).write i (word32 v)))) : Yields (writeCline i v) s Q :=
  (ends_memWrite ..).2 ⟨fun _ => trivial, fun _ => h⟩

/-! ## The row so far -/

/-- `t` is `s0` with a row read up to the run end `e`, after the run ends `es`, the last of them first. -/
structure RowGoing (s0 : State) (e : Nat) (es : List Nat) (t : State) : Prop where
  only : t = { s0 with
    br := t.br, cline := t.cline, cc := { s0.cc with cpos := t.cc.cpos }
    flags := { s0.flags with ccEof := t.flags.ccEof, ccErr := t.flags.ccErr, ccWarn := t.flags.ccWarn } }
  fits : s0.cc.cols.toNat ≤ s0.params.colsMax
  cpos : t.cc.cpos.toNat = es.length
  room : es.length ≤ s0.cc.cols.toNat
  line : LineIs t (e :: es)
  order : (e :: es).Pairwise (· ≥ ·)
  inside : ∀ x ∈ es, x < s0.cc.cols.toNat
  last : e ≤ s0.cc.cols.toNat

/-- Some row is being read. -/
def RowAny (s0 t : State) : Prop := ∃ e es, RowGoing s0 e es t

/-- It has been read to CC_COLS. -/
def RowFull (s0 t : State) : Prop := ∃ es, RowGoing s0 s0.cc.cols.toNat es t

theorem RowFull.any (h : RowFull s0 t) : RowAny s0 t := h.elim fun es h => ⟨_, es, h⟩

section Going

variable {e : Nat} {es : List Nat}

theorem RowGoing.cols (h : RowGoing s0 e es t) : t.cc.cols = s0.cc.cols := by rw [h.only]

theorem RowGoing.columns (h : RowGoing s0 e es t) : t.columns = (s0.cc.cols.toNat : Int) := by
  rw [State.columns, h.cols]

theorem keepsBr_rowGoing : KeepsBr (RowGoing s0 e es) := by
  intro t m h
  refine ⟨?_, h.fits, h.cpos, h.room, fun i hi => ?_, h.order, h.inside, h.last⟩
  · conv_lhs => rw [h.only]
    rfl
  · rw [← h.line i hi, State.clineAt, State.setBr_elem]
    rfl

theorem RowGoing.setFlags (h : RowGoing s0 e es t) (eof err warn : Bool) :
    RowGoing s0 e es (t.setFlags { t.flags with ccEof := eof, ccErr := err, ccWarn := warn }) := by
  refine ⟨?_, h.fits, h.cpos, h.room, fun i hi => ?_, h.order, h.inside, h.last⟩
  · conv_lhs => rw [h.only]
    rfl
  · rw [← h.line i hi, State.clineAt, State.setFlags_elem]
    rfl

theorem yields_flagDamaged (h : RowGoing s0 e es t) : Yields flagDamaged t fun _ => RowGoing s0 e es := h.setFlags _ _ _

/-- The row cut back to run ends `es'`, and `a` put behind them. -/
theorem RowGoing.put (h : RowGoing s0 e es t) {a : Nat} {es' : List Nat} (hsuf : es' <:+ e :: es)
    (hlen : es'.length ≤ s0.cc.cols.toNat) (ha : a ≤ s0.cc.cols.toNat) (hle : ∀ x ∈ es', x ≤ a)
    (hlt : ∀ x ∈ es', x < s0.cc.cols.toNat) :
    RowGoing s0 a es' ((t.setMem .cline ((t.mem .cline).write es'.length (word32 (a : Int)))).setCc
      { t.cc with cpos := u32 es'.length }) := by
  have h32 := s0.cc.cols.isLt
  have hword : (word32 (a : Int)).toNat = a := by
    rw [word32_eq, BitVec.toNat_ofInt]
    omega
  refine ⟨?_, h.fits, ?_, hlen, fun i hi => ?_, List.pairwise_cons.2 ⟨hle, ?_⟩, hlt, ha⟩
  · conv_lhs => rw [h.only]
    rfl
  · simp only [State.setCc_cc, u32, BitVec.toNat_ofNat]
    omega
  · rw [State.clineAt, State.setCc_elem, State.elem_setMem_write, List.reverse_cons]
    rcases Nat.lt_or_ge i es'.length with hi' | hi'
    · rw [if_neg hi'.ne, List.getElem?_append_left (by simpa using hi')]
      exact h.line.suffix hsuf i hi'
    · have hie : i = es'.length := by
        simp only [List.length_cons] at hi
        omega
      subst hie
      rw [if_pos rfl, List.getElem?_append_right (by simp)]
      simp [hword]
  · exact h.order.sublist hsuf.sublist

theorem RowGoing.yields_lineEnd (h : RowGoing s0 e es t) {Q : Int → State → Prop} (hQ : Q e t) : Yields lineEnd t Q := by
  have hend : t.clineAt es.length = some e := by
    rw [h.line es.length (by simp), List.reverse_cons, List.getElem?_append_right (by simp)]
    simp
  obtain ⟨v, hv, hve⟩ := Option.map_eq_some_iff.1 hend
  rw [Yields, lineEnd, ends_bind, ends_get, h.cpos, readCline, ends_bind, ends_memRead]
  refine ⟨fun _ => trivial, fun _ _ => trivial, fun _ w hw => ?_⟩
  obtain rfl := Option.some.inj (hv.symm.trans hw)
  rw [ends_pure, hve]
  exact hQ

/-- A row read to CC_COLS is a decoded row. -/
theorem RowGoing.rowLine (h : RowGoing s0 s0.cc.cols.toNat es t) : RowLine t es.length := by
  have hat : ∀ i, i ≤ es.length → t.clineAt i = (s0.cc.cols.toNat :: es).reverse[i]? := fun i hi =>
    h.line i (Nat.lt_succ_of_le hi)
  have hbelow : ∀ i (hi : i < es.length), (s0.cc.cols.toNat :: es).reverse[i]? = some (es.reverse[i]'(by simpa using hi)) := fun i hi => by
    rw [List.reverse_cons, List.getElem?_append_left (by simpa using hi), List.getElem?_eq_getElem]
  rw [RowLine, h.cols]
  refine ⟨h.room, ?_, fun i hi => ?_⟩
  · rw [hat _ le_rfl, List.reverse_cons, List.getElem?_append_right (by simp)]
    simp
  · have hsorted := List.pairwise_iff_getElem.1 (List.pairwise_reverse.2 h.order) i (i + 1) (by simp; omega) (by simp; omega)
      (Nat.lt_succ_self i)
    refine ⟨_, _, (hat i hi.le).trans (hbelow i hi), (hat _ hi).trans (List.getElem?_eq_getElem (by simp; omega)), ?_,
      h.inside _ (List.mem_reverse.1 (List.getElem_mem _))⟩
    refine le_trans (le_of_eq ?_) hsorted
    exact Option.some.inj ((hbelow i hi).symm.trans (List.getElem?_eq_getElem (by simp; omega)))

/-! ## AddPix and AddPixNeg -/

/-- What pixels up to `a1` leave: a row, full when `a1` reaches CC_COLS. -/
def RowTo (s0 : State) (a1 : Int) (t : State) : Prop :=
  ∃ e es, RowGoing s0 e es t ∧ ((s0.cc.cols.toNat : Int) ≤ a1 → e = s0.cc.cols.toNat)

theorem RowTo.any {a1 : Int} (h : RowTo s0 a1 t) : RowAny s0 t := by
  obtain ⟨e, es, h, -⟩ := h
  exact ⟨e, es, h⟩

theorem yields_putEnd (h : RowGoing s0 e es t) {a : Nat} {a1 : Int} {es' : List Nat} (hsuf : es' <:+ e :: es)
    (hlen : es'.length ≤ s0.cc.cols.toNat) (ha : a ≤ s0.cc.cols.toNat) (hle : ∀ x ∈ es', x ≤ a)
    (hlt : ∀ x ∈ es', x < s0.cc.cols.toNat) (hfull : (s0.cc.cols.toNat : Int) ≤ a1 → a = s0.cc.cols.toNat) :
    Yields (writeCline es'.length (a : Int) >>= fun _ => pure es'.length) t fun q u =>
      Yields (putCpos q) u fun _ => RowTo s0 a1 :=
  (yields_writeCline (Q := fun _ u => u = _) rfl).bind fun _ u hu => by
    subst hu
    exact ⟨a, es', h.put hsuf hlen ha hle hlt, hfull⟩

/-- The line extended to `a1`, beyond a last run that ends inside the row, and CC_CPOS moved there (R268). -/
theorem yields_extendToEnd (h : RowGoing s0 e es t) {a1 : Int} (hlt : (e : Int) < a1) (hin : e < s0.cc.cols.toNat) (colour : Nat) :
    Yields (extendLine t.cc.cpos.toNat a1 colour >>= putCpos) t fun _ => RowTo s0 a1 := by
  have hclamp : Yields (clampColumns a1) t fun a u => RowGoing s0 e es u ∧ ∃ k : Nat, a = k ∧ e < k ∧ k ≤ s0.cc.cols.toNat ∧
      ((s0.cc.cols.toNat : Int) ≤ a1 → k = s0.cc.cols.toNat) := by
    refine yields_get (yields_ite (fun hbig => ?_) fun hsmall => ?_)
    · rw [h.columns] at hbig ⊢
      exact (yields_flagDamaged h).bind fun _ u hu => ⟨hu, _, rfl, hin, le_rfl, fun _ => rfl⟩
    · rw [h.columns] at hsmall
      exact ⟨h, a1.toNat, by omega, by omega, by omega, by omega⟩
  have hes : ∀ x ∈ es, x ≤ e := (List.pairwise_cons.1 h.order).1
  have hall : ∀ x ∈ e :: es, x ≤ e := fun x hx => (List.mem_cons.1 hx).elim (fun hx => hx.le) (hes x)
  have hsuf : es <:+ e :: es := List.suffix_cons e es
  rw [Yields, ends_bind, h.cpos]
  refine hclamp.bind fun a u hu => ?_
  obtain ⟨hu, k, rfl, hek, hk, hfull⟩ := hu
  refine yields_get (yields_ite (fun _ => yields_ite (fun _ => ?_) fun hne => ?_) fun _ => ?_)
  · refine (yields_flagDamaged hu).bind fun _ v hv => ?_
    rw [hu.columns]
    exact yields_putEnd hv hsuf h.room le_rfl (fun x hx => (h.inside x hx).le) h.inside fun _ => rfl
  · have hroom := h.room
    rw [hu.cols] at hne
    exact yields_putEnd (es' := e :: es) hu (List.suffix_refl _) (Nat.lt_of_le_of_ne hroom hne) hk
      (fun x hx => (hall x hx).trans hek.le) (fun x hx => (hall x hx).trans_lt hin) hfull
  · exact yields_putEnd hu hsuf h.room hk (fun x hx => (hes x hx).trans hek.le) h.inside hfull

/-- AddPix, on an open row or with pixels inside it (R268). -/
theorem yields_addPix (h : RowGoing s0 e es t) {a1 : Int} (ha : e < s0.cc.cols.toNat ∨ a1 ≤ s0.cc.cols.toNat) (colour : Nat) :
    Yields (addPix a1 colour) t fun _ => RowTo s0 a1 := by
  refine yields_get ((h.yields_lineEnd (Q := fun v u => v = e ∧ u = t) ⟨rfl, rfl⟩).bind fun v u hu => ?_)
  obtain ⟨rfl, rfl⟩ := hu
  refine yields_ite (fun hlt => yields_extendToEnd h hlt (by omega) colour) fun hge => ⟨e, es, h, fun hfull => ?_⟩
  have := h.last
  omega

theorem yields_addPix_open (h : RowGoing s0 e es t) (hin : e < s0.cc.cols.toNat) (a1 : Int) (colour : Nat) :
    Yields (addPix a1 colour) t fun _ => RowAny s0 :=
  (yields_addPix h (.inl hin) colour).weaken fun _ _ hu => hu.any

/-- AddPixNeg on an open row: the runs that end beyond `a1` are dropped (R269). -/
theorem yields_addPixNeg (h : RowGoing s0 e es t) (hin : e < s0.cc.cols.toNat) (a1 : Int) (colour : Nat) :
    Yields (addPixNeg a1 colour) t fun _ => RowAny s0 := by
  refine yields_get ((h.yields_lineEnd (Q := fun v u => v = e ∧ u = t) ⟨rfl, rfl⟩).bind fun v u hu => ?_)
  obtain ⟨rfl, rfl⟩ := hu
  refine yields_ite (fun hlt => (yields_extendToEnd h hlt hin colour).weaken fun _ _ hu => hu.any) fun _ =>
    yields_ite (fun hback => ?_) fun _ => ⟨e, es, h⟩
  have hclamp : Yields (clampZero a1) u fun a v => RowGoing s0 e es v ∧ v.cc = u.cc ∧ ∃ k : Nat, a = k ∧ k ≤ e := by
    refine yields_ite (fun _ => ?_) fun hpos => ⟨h, rfl, a1.toNat, by omega, by omega⟩
    exact ⟨h.setFlags _ _ _, rfl, 0, rfl, Nat.zero_le e⟩
  refine hclamp.bind fun a v hv => ?_
  obtain ⟨hv, hcc, k, rfl, hke⟩ := hv
  have hparams : v.params = s0.params := by rw [hv.only]
  have hroom := hv.room
  rw [← hcc, hv.cpos]
  refine (ends_backUp k es hv.line.tail (hparams ▸ hroom.trans hv.fits)).yields.bind fun q w hw => ?_
  obtain ⟨rfl, rfl⟩ := hw
  have hdrop := List.dropWhile_suffix (l := es) fun x => decide (k < x)
  have hlen := hdrop.length_le
  refine (yields_writeCline (Q := fun _ x => x = _) rfl).bind fun _ x hx => ?_
  subst hx
  refine ⟨k, _, hv.put (hdrop.trans (List.suffix_cons e es)) (hlen.trans hroom) (hke.trans hin.le) (fun x hx => ?_)
    fun x hx => hv.inside x (hdrop.mem hx)⟩
  have hsorted : (es.dropWhile fun x => decide (k < x)).Pairwise (· ≥ ·) :=
    (List.pairwise_cons.1 hv.order).2.sublist hdrop.sublist
  cases hd : es.dropWhile fun x => decide (k < x) with
  | nil => rw [hd] at hx; cases hx
  | cons y ys =>
    have hy : y ≤ k := by
      have := List.head_dropWhile_not (fun x => decide (k < x)) (l := es) (by rw [hd]; exact List.cons_ne_nil _ _)
      simpa [hd] using this
    rw [hd] at hx hsorted
    exact (List.mem_cons.1 hx).elim (fun hx => hx.le.trans hy) fun hx => ((List.pairwise_cons.1 hsorted).1 x hx).trans hy

/-! ## Runs and rows -/

theorem yields_fillRow (h : RowAny s0 t) : Yields fillRow t fun _ => RowFull s0 := by
  obtain ⟨e, es, h⟩ := h
  refine yields_get ?_
  rw [h.columns]
  refine (yields_addPix h (.inr le_rfl) 0).weaken fun _ u hu => ?_
  obtain ⟨e', es', hu, hfull⟩ := hu
  exact ⟨es', hfull le_rfl ▸ hu⟩

theorem yields_rowEof (h : RowAny s0 t) : Yields rowEof t fun _ => RowFull s0 :=
  (yields_fillRow h).bind fun _ _ ⟨es, hu⟩ => ⟨es, hu.setFlags _ _ _⟩

theorem yields_rowBad (h : RowAny s0 t) : Yields rowBad t fun _ => RowFull s0 := by
  obtain ⟨e, es, h⟩ := h
  refine (yields_flagDamaged h).bind fun _ u hu => (yields_fillRow ⟨e, es, hu⟩).bind fun _ v ⟨es', hv⟩ => ?_
  exact (keeps_brSkip keepsBr_rowGoing 1 v hv).yields.weaken fun _ _ hw => ⟨es', hw⟩

/-- Match takes bits from the reader, and touches nothing else. -/
theorem keeps_matchRunCode_of {I : State → Prop} (hI : KeepsBr I) (colour : Nat) : Keeps I (matchRunCode colour) := by
  refine keeps_bind (keeps_brPeek hI 13) fun look => keeps_ite _ (keeps_pure _) ?_
  split
  · exact keeps_bind (keeps_brSkip hI _) fun _ => keeps_pure _
  · exact keeps_pure _

theorem keeps_matchModeCode_of {I : State → Prop} (hI : KeepsBr I) : Keeps I matchModeCode := by
  refine keeps_bind (keeps_brPeek hI 13) fun look => keeps_ite _ (keeps_pure _) ?_
  split
  · exact keeps_bind (keeps_brSkip hI _) fun _ => keeps_pure _
  · exact keeps_pure _

/-- A run read leaves the row as it was; a run cut short or spoilt fills it. -/
def RunYields (s0 : State) (e : Nat) (es : List Nat) (r : Option Nat) (t : State) : Prop :=
  match r with
  | none => RowFull s0 t
  | some _ => RowGoing s0 e es t

theorem yields_runLen (h : RowGoing s0 e es t) (colour : Nat) : Yields (runLen colour) t (RunYields s0 e es) := by
  suffices ∀ fuel total (t : State), RowGoing s0 e es t → Yields (runLenFrom colour fuel total) t (RunYields s0 e es) from
    yields_get (this _ _ t h)
  intro fuel
  induction fuel with
  | zero => exact fun _ _ _ => trivial
  | succ fuel ih =>
    intro total t h
    refine (keeps_matchRunCode_of keepsBr_rowGoing colour t h).yields.bind fun r u hu => ?_
    cases r with
    | eof => exact (yields_rowEof ⟨e, es, hu⟩).bind fun _ _ hv => hv
    | bad => exact (yields_rowBad ⟨e, es, hu⟩).bind fun _ _ hv => hv
    | ok v => exact yields_ite (fun _ => hu) fun _ => ih _ u hu

theorem RowGoing.full_of_end (h : RowGoing s0 e es t) (hend : ¬ (e : Int) < t.columns) : RowFull s0 t := by
  have heq : e = s0.cc.cols.toNat := by
    have := h.last
    rw [h.columns] at hend
    omega
  exact ⟨es, heq ▸ h⟩

theorem RowGoing.open_of_lt (h : RowGoing s0 e es t) (hlt : (e : Int) < t.columns) : e < s0.cc.cols.toNat := by
  rw [h.columns] at hlt
  exact_mod_cast hlt

theorem yields_row1DLoop (fuel : Nat) : ∀ {t : State} (colour : Nat), RowAny s0 t →
    Yields (row1DLoop fuel colour) t fun _ => RowFull s0 := by
  induction fuel with
  | zero => exact fun _ _ => trivial
  | succ fuel ih =>
    intro t colour h
    obtain ⟨e, es, h⟩ := h
    refine yields_get ((h.yields_lineEnd (Q := fun v u => v = e ∧ u = t) ⟨rfl, rfl⟩).bind fun v u hu => ?_)
    obtain ⟨rfl, rfl⟩ := hu
    refine yields_ite (fun hlt => (yields_runLen h colour).bind fun r v hv => ?_) fun hend => h.full_of_end hend
    cases r with
    | none => exact hv
    | some total =>
      refine (RowGoing.yields_lineEnd hv (Q := fun _ w => w = v) rfl).bind fun _ w hw => ?_
      subst hw
      exact (yields_addPix_open hv (h.open_of_lt hlt) _ _).bind fun _ _ hx => ih _ hx

/-! ## Two-dimensional rows -/

/-- The coding line is full, or open. -/
theorem yields_rowOpen (h : RowAny s0 t) : Yields rowOpen t fun more u =>
    if more then ∃ e es, RowGoing s0 e es u ∧ e < s0.cc.cols.toNat else RowFull s0 u := by
  obtain ⟨e, es, h⟩ := h
  refine yields_get ((h.yields_lineEnd (Q := fun v u => v = e ∧ u = t) ⟨rfl, rfl⟩).bind fun v u hu => ?_)
  obtain ⟨rfl, rfl⟩ := hu
  by_cases hlt : (e : Int) < u.columns
  · rw [decide_eq_true hlt]
    exact ⟨e, es, h, h.open_of_lt hlt⟩
  · rw [decide_eq_false hlt]
    exact h.full_of_end hlt

theorem yields_rowOpen_any (h : RowAny s0 t) : Yields rowOpen t fun _ => RowAny s0 := keeps_rowOpen t h |>.yields

theorem yields_modePass (h : RowGoing s0 e es t) (hin : e < s0.cc.cols.toNat) (rp colour : Nat) :
    Yields (modePass rp colour) t fun _ => RowAny s0 :=
  yields_get ((keeps_refLine _ t h).yields.bind fun _ _ hu => (yields_addPix_open hu hin _ _).bind fun _ _ hv => hv)

theorem yields_modeRight (h : RowGoing s0 e es t) (hin : e < s0.cc.cols.toNat) (d rp colour : Nat) :
    Yields (modeRight d rp colour) t fun _ => RowAny s0 :=
  (keeps_refLine _ t h).yields.bind fun _ _ hu => (yields_addPix_open hu hin _ _).bind fun _ _ hv =>
    (yields_rowOpen_any hv).bind fun _ w hw => yields_ite (fun _ => (keeps_adv _ w hw).yields) fun _ => hw

theorem yields_modeLeft (h : RowGoing s0 e es t) (hin : e < s0.cc.cols.toNat) (d rp colour : Nat) :
    Yields (modeLeft d rp colour) t fun _ => RowAny s0 :=
  (keeps_refLine _ t h).yields.bind fun _ _ hu => (yields_addPixNeg hu hin _ _).bind fun _ _ hv =>
    (yields_rowOpen_any hv).bind fun _ w hw => yields_ite (fun _ => (keeps_adv _ w hw).yields) fun _ => hw

/-- The second run is added only when the first leaves the row open. -/
theorem yields_modeHorizontal (h : RowGoing s0 e es t) (hin : e < s0.cc.cols.toNat) (rp colour : Nat) :
    Yields (modeHorizontal rp colour) t fun r u => match r with
      | none => RowFull s0 u
      | some _ => RowAny s0 u := by
  refine (yields_runLen h colour).bind fun r1 u hu => ?_
  cases r1 with
  | none => exact hu
  | some t1 =>
    refine (yields_runLen hu _).bind fun r2 v hv => ?_
    cases r2 with
    | none => exact hv
    | some t2 =>
      refine (keeps_lineEnd v hv).yields.bind fun _ w hw => (yields_addPix_open hw hin _ _).bind fun _ x hx => ?_
      refine (yields_rowOpen hx).bind fun more y hy => Yields.bind (R := fun _ => RowAny s0) ?_ fun _ z hz => ?_
      · refine yields_ite (fun hm => ?_) fun hm => ?_
        · rw [if_pos hm] at hy
          obtain ⟨e', es', hy, hin'⟩ := hy
          exact (keeps_lineEnd y hy).yields.bind fun _ _ hz => yields_addPix_open hz hin' _ _
        · rw [if_neg hm] at hy
          exact hy.any
      · exact (keeps_adv rp z hz).yields.bind fun _ _ hz => hz

theorem yields_row2DLoop (fuel : Nat) : ∀ {t : State} (rp colour : Nat), RowAny s0 t →
    Yields (row2DLoop fuel rp colour) t fun _ => RowFull s0 := by
  induction fuel with
  | zero => exact fun _ _ _ => trivial
  | succ fuel ih =>
    intro t rp colour h
    refine (yields_rowOpen h).bind fun more u hu => yields_ite (fun hm => ?_) fun hm => (if_neg hm).mp hu
    obtain ⟨e, es, hu, hin⟩ := (if_pos hm).mp hu
    refine (keeps_matchModeCode_of keepsBr_rowGoing u hu).yields.bind fun m v hv => ?_
    match m with
    | .eof => exact yields_rowEof ⟨e, es, hv⟩
    | .bad => exact yields_rowBad ⟨e, es, hv⟩
    | .ok .pass => exact (yields_modePass hv hin _ _).bind fun _ _ hw => ih _ _ hw
    | .ok .horizontal =>
      refine (yields_modeHorizontal hv hin rp colour).bind fun r w hw => ?_
      cases r with
      | none => exact hw
      | some rp' => exact ih _ _ hw
    | .ok (.right d) => exact (yields_modeRight hv hin _ _ _).bind fun _ _ hw => ih _ _ hw
    | .ok (.left d) => exact (yields_modeLeft hv hin _ _ _).bind fun _ _ hw => ih _ _ hw

/-- A row begins at pixel 0. -/
theorem yields_startRow {p : Proc Unit} {Q : Unit → State → Prop} (hfits : s.cc.cols.toNat ≤ s.params.colsMax)
    (hp : ∀ t, RowGoing s 0 [] t → Yields p t Q) :
    Yields (writeCline 0 0 >>= fun _ => putCpos 0 >>= fun _ => p) s Q := by
  refine (yields_writeCline (Q := fun _ t => t = _) rfl).bind fun _ t ht => ?_
  subst ht
  refine (ends_bind ..).2 (hp _ ⟨rfl, hfits, rfl, Nat.zero_le _, fun i hi => ?_, List.pairwise_singleton _ _, by simp,
    Nat.zero_le _⟩)
  obtain rfl : i = 0 := by simpa using hi
  rw [State.clineAt, State.setCc_elem, State.elem_setMem_write, if_pos rfl]
  rfl

end Going

end Sys2Proof.Machine
end

section
/-! O21: between the rows, and the step. What follows a row in the stream moves the reader, CC_EOF and CC_NEXT2D only; then the row is
output from its first run on (43_ccitt.md R272, R275 to R279). -/

namespace Sys2Proof.Machine

variable {s s0 t : State}

/-! ## After a row -/

/-- `I` survives what the hunt for the next row changes. -/
structure GapKeeps (I : State → Prop) : Prop where
  br : KeepsBr I
  next2d : ∀ s b, I s → I (s.setCc { s.cc with next2d := b })
  eof : ∀ s, I s → I (s.setFlags { s.flags with ccEof := true })

section Gap

variable {I : State → Prop} (h : GapKeeps I)
include h

theorem GapKeeps.keeps_flagEof : Keeps I flagEof := h.eof

theorem GapKeeps.keeps_putNext2d (v : Nat) : Keeps I (putNext2d v) := fun s hs => h.next2d s _ hs

theorem GapKeeps.keeps_readTag : Keeps I readTag :=
  keeps_bind (keeps_brPeek h.br 1) fun v => keeps_bind (h.keeps_putNext2d v) fun _ => keeps_brSkip h.br 1

theorem GapKeeps.keeps_skipTag : Keeps I skipTag := keeps_get' fun _ => keeps_ite _ (keeps_brSkip h.br 1) (keeps_pure _)

theorem GapKeeps.keeps_skipZeros (fuel : Nat) : Keeps I (skipZeros fuel) := by
  induction fuel with
  | zero => exact keeps_refuse _
  | succ fuel ih =>
    exact keeps_bind (keeps_brPeek h.br 12) fun _ => keeps_ite _ (keeps_bind (keeps_brSkip h.br 1) fun _ => ih) (keeps_pure _)

theorem GapKeeps.keeps_huntEol (fuel : Nat) : Keeps I (huntEol fuel) := by
  induction fuel with
  | zero => exact keeps_refuse _
  | succ fuel ih =>
    exact keeps_bind (keeps_brPeek h.br 12) fun _ => keeps_ite _ (keeps_bind (keeps_brSkip h.br 1) fun _ => ih) (keeps_pure _)

theorem GapKeeps.keeps_resyncLoop (fuel : Nat) : Keeps I (resyncLoop fuel) := by
  induction fuel with
  | zero => exact keeps_refuse _
  | succ fuel ih =>
    exact keeps_bind (keeps_brPeek h.br 13) fun _ => keeps_ite _ (keeps_bind h.keeps_flagEof fun _ => keeps_pure _)
      (keeps_ite _ (keeps_pure _) (keeps_bind (keeps_brSkip h.br 1) fun _ => ih))

theorem GapKeeps.keeps_rowEnd : Keeps I rowEnd := by
  refine keeps_get' fun s => keeps_ite _ (keeps_bind h.keeps_flagEof fun _ => keeps_pure _) ?_
  refine keeps_bind (keeps_get' fun s => keeps_ite _ (h.keeps_huntEol _) (h.keeps_skipZeros _)) fun code => keeps_ite _ ?_ ?_
  · exact keeps_bind (keeps_brSkip h.br 12) fun _ => keeps_pure _
  · exact keeps_ite _ (keeps_bind h.keeps_flagEof fun _ => keeps_pure _) (keeps_pure _)

theorem GapKeeps.keeps_skipEols (n : Nat) : Keeps I (skipEols n) := by
  induction n with
  | zero => exact keeps_pure _
  | succ n ih => exact keeps_bind (keeps_brSkip h.br 12) fun _ => keeps_bind h.keeps_skipTag fun _ => ih

theorem GapKeeps.keeps_endOfBlock : Keeps I endOfBlock := by
  refine keeps_get' fun s => keeps_bind (keeps_brPeek h.br 12) fun v => keeps_ite _ ?_ (keeps_pure _)
  refine keeps_bind (keeps_brSkip h.br 12) fun _ => keeps_bind h.keeps_skipTag fun _ => ?_
  exact keeps_bind (keeps_ite _ (h.keeps_skipEols _) (keeps_pure _)) fun _ => h.keeps_flagEof

theorem GapKeeps.keeps_resync : Keeps I resync := by
  refine keeps_get' fun s => keeps_bind (h.keeps_resyncLoop _) fun r => keeps_get' fun t => ?_
  cases r with
  | none => exact keeps_pure _
  | some code =>
    refine keeps_ite _ (keeps_pure _) (keeps_bind (keeps_brSkip h.br 12) fun _ => keeps_ite _ ?_ (keeps_pure _))
    exact keeps_bind (keeps_brSkip h.br 1) fun _ => h.keeps_putNext2d _

theorem GapKeeps.keeps_openRows (kmode : Nat) : Keeps I (openRows kmode) := by
  refine keeps_get' fun s => keeps_bind (h.keeps_skipZeros _) fun code => ?_
  refine keeps_bind (keeps_ite _ (keeps_brSkip h.br 12) (keeps_pure _)) fun _ => keeps_bind (keeps_brPeek h.br 1) fun v => ?_
  exact keeps_ite _ h.keeps_flagEof (keeps_ite _ h.keeps_readTag (keeps_pure _))

/-- What PostRow does before the row is output. -/
theorem GapKeeps.keeps_postRow_gap {p : Proc Unit} {Q : Unit → State → Prop} (hs : I s)
    (hp : ∀ t, I t → Yields p t Q) : Yields (do
      (if s.cc.balign then brAlignPlain else pure ())
      let gotEol ← rowEnd
      let t ← get
      (if !t.flags.ccEof && decide (s.cc.kmode = 1) then readTag else pure ())
      (if s.cc.eoblock && gotEol then endOfBlock
      else if t.flags.ccErr && s.cc.eoline then resync
      else pure ())
      p) s Q := by
  refine (keeps_ite _ (keeps_modifyBr h.br _) (keeps_pure _) s hs).yields.bind fun _ t ht => ?_
  refine (h.keeps_rowEnd t ht).yields.bind fun gotEol t ht => yields_get ?_
  refine (keeps_ite _ h.keeps_readTag (keeps_pure _) t ht).yields.bind fun _ u hu => ?_
  exact (keeps_ite _ h.keeps_endOfBlock (keeps_ite _ h.keeps_resync (keeps_pure _)) u hu).yields.bind fun _ v hv => hp v hv

end Gap

/-- The end of PostRow: the row is output from its first run on, and counted (R275). -/
def outputRow : Proc Unit := do
  putCpos 0
  let e ← readCline 0
  modifyCc fun c => { c with outbits := word32 e }
  nextRun
  modifyCc fun c => { c with row := u32 (min (c.row.toNat + 1) (2 ^ 32 - 1)) }

/-- A decoded row at its first pixel. -/
structure RowOutput (n : Nat) (s t : State) : Prop where
  only : t = s.setCc { s.cc with
    row := u32 (min (s.cc.row.toNat + 1) (2 ^ 32 - 1)), outbits := t.cc.outbits, cpos := t.cc.cpos }
  pending : RowPending n t
  pixel : t.nextPixel = 0
  outbits : 1 ≤ s.cc.cols.toNat → t.cc.outbits.toNat ≠ 0

theorem ends_outputRow {n : Nat} (hfits : s.cc.cols.toNat ≤ s.params.colsMax) (hrow : RowLine s n) :
    Ends outputRow s (fun _ t => RowOutput n s t) fun _ _ => False := by
  obtain ⟨v, hv, hve⟩ := Option.map_eq_some_iff.1 (hrow.clineAt_eq (Nat.zero_le n))
  have hword : word32 ((v.toNat : Nat) : Int) = v := by
    rw [word32_eq, BitVec.ofInt_natCast, BitVec.ofNat_toNat, BitVec.setWidth_eq]
  rw [outputRow, ends_bind, ends_putCpos, readCline, ends_bind, ends_bind,
    ends_memRead_of _ _ (show 0 < (s.setCc { s.cc with cpos := u32 0 }).sizeOf .cline from Nat.succ_pos _)
      ((State.setCc_elem ..).trans hv), ends_pure, ends_bind, ends_modifyCc, hword, ends_bind]
  have hstart : RowPending n ((s.setCc { s.cc with cpos := u32 0 }).setCc { s.cc with cpos := u32 0, outbits := v }) :=
    ⟨hfits, hrow, Nat.zero_le n, (Nat.zero_add _).le.trans hve.le⟩
  have hpixel : State.nextPixel ((s.setCc { s.cc with cpos := u32 0 }).setCc { s.cc with cpos := u32 0, outbits := v }) = 0 := by
    show s.runEnd 0 - v.toNat = 0
    rw [hve, Nat.sub_self]
  refine (ends_nextRun hstart).mono (fun _ t ht => ?_) fun _ _ he => he
  obtain ⟨ht, hend⟩ := ht
  rw [hpixel] at ht hend
  rw [ends_modifyCc]
  refine ⟨?_, ⟨ht.pending.fits, ht.pending.row, ht.pending.cpos, ht.pending.run⟩, ht.pixel, fun h1 h0 => ?_⟩
  · conv_lhs => rw [ht.only]
    rfl
  · have hzero : 0 = s.cc.cols.toNat := hend h0
    omega

/-! ## The row decoded -/

/-- What decoding a row leaves: a decoded row in CLINE, the row before in RLINE when it is two-dimensional. -/
structure RowDecoded (s t : State) : Prop where
  only : t = { s with
    br := t.br, cline := t.cline, rline := t.rline, cc := { s.cc with cpos := t.cc.cpos }
    flags := { s.flags with ccEof := t.flags.ccEof, ccErr := t.flags.ccErr, ccWarn := t.flags.ccWarn } }
  row : RowLine t t.cc.cpos.toNat
  reference : s.cc.next2d = true → ∀ i, i ≤ s.cc.cols.toNat + 1 →
    t.elem .rline i = some (BitVec.ofNat 32 (refEnd s.cc.cols.toNat s.lineEnds i))
  kept : s.cc.next2d = false → t.rline = s.rline

/-- DecodeRow2D or DecodeRow1D, as CC_NEXT2D says. -/
def decodeNextRow (s : State) : Proc Unit := if s.cc.next2d then decodeRow2D else decodeRow1D

theorem yields_decodeNextRow {n : Nat} (hfits : s.cc.cols.toNat ≤ s.params.colsMax) (hrow : RowLine s n) :
    Yields (decodeNextRow s) s fun _ => RowDecoded s := by
  refine yields_ite (fun h2 => ?_) fun h1 => ?_
  · unfold decodeRow2D
    refine yields_get ?_
    have href := ((ends_bind ..).1 (ends_referenceLine hrow hfits)).yields
    refine href.bind fun i t ht => (Ends.yields ht).bind fun _ u hu => ?_
    have hcc : u.cc = s.cc := by rw [hu.only]
    have hpar : u.params = s.params := by rw [hu.only]
    refine yields_startRow (by rw [hcc, hpar]; exact hfits) fun v hv => ?_
    refine (yields_row2DLoop _ 0 0 ⟨_, _, hv⟩).weaken fun _ w hw => ?_
    obtain ⟨es, hw⟩ := hw
    refine ⟨?_, hw.cpos ▸ hw.rowLine, fun _ i hi => ?_, fun h => absurd (h2.symm.trans h) (by decide)⟩
    · rw [hw.only, hu.only]
    · rw [← hu.line i hi, hw.only]
      rfl
  · unfold decodeRow1D
    refine yields_startRow hfits fun v hv => yields_get ((yields_row1DLoop _ 0 ⟨_, _, hv⟩).weaken fun _ w hw => ?_)
    obtain ⟨es, hw⟩ := hw
    refine ⟨?_, hw.cpos ▸ hw.rowLine, fun h => absurd h h1, fun _ => ?_⟩
    · rw [hw.only]
    · rw [hw.only]

/-! ## The commands -/

/-- A decoded row of at least a pixel is being output, or about to be. -/
def RowKept (s : State) : Prop := 1 ≤ s.cc.cols.toNat ∧ s.cc.cols.toNat ≤ s.params.colsMax ∧ ∃ n, RowLine s n

theorem gapKeeps_rowKept : GapKeeps RowKept where
  br := fun _ _ h => h
  next2d := fun _ _ h => h
  eof := fun _ h => h

theorem yields_decodeRow (h : RowKept s) :
    Yields decodeRow s fun _ t => 1 ≤ t.cc.cols.toNat ∧ t.cc.outbits.toNat ≠ 0 ∧ ∃ n, RowPending n t := by
  obtain ⟨hcols, hfits, n, hrow⟩ := h
  unfold decodeRow
  rw [Yields, ends_bind, ends_modifyFlags]
  refine yields_get ((yields_decodeNextRow (s := s.setFlags { s.flags with ccErr := false }) hfits hrow).bind fun _ t ht => ?_)
  have hkept : RowKept t := by
    refine ⟨?_, ?_, _, ht.row⟩
    · rw [ht.only]; exact hcols
    · rw [ht.only]; exact hfits
  refine yields_get (gapKeeps_rowKept.keeps_postRow_gap hkept fun u hu => ?_)
  obtain ⟨hcols, hfits, n, hrow⟩ := hu
  refine (ends_outputRow hfits hrow).yields.weaken fun _ v hv => ⟨?_, hv.outbits hcols, n, hv.pending⟩
  rw [hv.only]
  exact hcols

theorem yields_serveByte {n : Nat} (h : RowPending n s) (hcols : 1 ≤ s.cc.cols.toNat) (hout : s.cc.outbits.toNat ≠ 0) :
    Yields serveByte s fun _ => CcInv :=
  (ends_serveByte h hout).yields.weaken fun _ _ ht => ht.ccInv hcols

theorem yields_needReady {u : ReadyUnit} {p : Proc Unit} {Q : Unit → State → Prop} (h : u.ready s.flags = true → Yields p s Q) :
    Yields (needReady u >>= fun _ => p) s Q := by
  rw [Yields, ends_bind, needReady, ends_bind, ends_get, ends_check]
  exact ⟨fun _ => trivial, fun hu => h (by simpa using hu)⟩

theorem yields_check {bad : Bool} {f : FaultName} {info : Nat} {p : Proc Unit} {Q : Unit → State → Prop}
    (h : bad = false → Yields p s Q) : Yields (check bad f info >>= fun _ => p) s Q :=
  (ends_bind ..).2 ((ends_check ..).2 ⟨fun _ => trivial, h⟩)

/-- A FAULT that is set stays set, and then the invariant says nothing. -/
theorem yields_ccittReadbyteBody_faulted (hf : s.flags.fault = true) : Yields ccittReadbyteBody s fun _ => CcInv := by
  have mem : ∀ sp, KeepsSpace (FlagIs Flags.fault true) sp := fun sp u _ _ h _ =>
    (congrArg Flags.fault (State.setMem_flags ..)).trans h
  have keeps : KeepsCcitt (FlagIs Flags.fault true) :=
    ⟨fun _ _ h => h, fun _ _ h => h, fun _ _ hg h => hg.trans h, mem _, mem _⟩
  refine (keeps_ccittReadbyteBody keeps (fun _ _ h => h) s hf).yields.weaken fun _ t ht _ hnf => ?_
  exact absurd (ht.symm.trans hnf) (by decide)

theorem yields_ccittReadbyteBody (h : CcInv s) : Yields ccittReadbyteBody s fun _ => CcInv := by
  cases hf : s.flags.fault with
  | true => exact yields_ccittReadbyteBody_faulted hf
  | false =>
    refine yields_needReady fun hready => yields_get (yields_check fun _ => ?_)
    have hcc : s.flags.ccRdy = true := by
      simp only [ReadyUnit.ready, Bool.and_eq_true] at hready
      exact hready.1
    obtain ⟨hcols, n, hp⟩ := ccInv_iff.1 h hcc hf
    refine yields_ite (fun _ => yields_ite (fun _ => h) fun _ => ?_) fun hout => ?_
    · exact (yields_decodeRow ⟨hcols, hp.fits, n, hp.row⟩).bind fun _ t ⟨hcols, hout, n, ht⟩ => yields_serveByte ht hcols hout
    · exact yields_serveByte hp hcols fun h0 => hout (BitVec.toNat_inj.1 h0)

/-- A row of at least a pixel with CC_CPOS and CC_OUTBITS in it. -/
def RowHeld (s : State) : Prop := 1 ≤ s.cc.cols.toNat ∧ ∃ n, RowPending n s

theorem gapKeeps_rowHeld : GapKeeps RowHeld where
  br := fun _ _ ⟨h1, n, h⟩ => ⟨h1, n, h.fits, h.row, h.cpos, h.run⟩
  next2d := fun _ _ ⟨h1, n, h⟩ => ⟨h1, n, h.fits, h.row, h.cpos, h.run⟩
  eof := fun _ ⟨h1, n, h⟩ => ⟨h1, n, h.fits, h.row, h.cpos, h.run⟩

/-- CCITT.INIT leaves a white row, output already (R272). -/
theorem yields_ccittInitBody (kmode : Nat) (eoline balign eoblock black1 : Bool) :
    Yields (ccittInitBody kmode eoline balign eoblock black1) s fun _ => CcInv := by
  refine yields_check fun _ => (keeps_checkWindow (I := (· = s)) s rfl).yields.bind fun _ t ht => ?_
  subst ht
  refine yields_get (yields_check fun hw => ?_)
  have hcols : 1 ≤ t.arg2.toNat ∧ t.arg2.toNat ≤ t.params.colsMax := by
    have := of_decide_eq_false hw
    omega
  rw [Yields, ends_bind, brOpen, ends_bind, ends_get, ends_bind, ends_modifyBr, ends_modifyFlags, ends_bind, ends_modifyCc, ends_bind,
    ends_modifyFlags, ends_bind, ends_writeCline (Nat.zero_le _)]
  show Ends _ (t.opened kmode eoline balign eoblock black1) _ _
  have hline : (t.opened kmode eoline balign eoblock black1).clineAt 0 = some t.arg2.toNat := by
    rw [State.clineAt, (opened_elem kmode eoline balign eoblock black1).1]
    rfl
  have hrow : RowLine (t.opened kmode eoline balign eoblock black1) 0 :=
    ⟨Nat.zero_le _, hline, fun i hi => absurd hi (Nat.not_lt_zero i)⟩
  have hheld : RowHeld (t.opened kmode eoline balign eoblock black1) :=
    ⟨hcols.1, 0, hcols.2, hrow, le_rfl, Nat.zero_le _⟩
  refine (gapKeeps_rowHeld.keeps_openRows kmode _ hheld).yields.bind fun _ u hu => ?_
  obtain ⟨h1, n, hu⟩ := hu
  exact ccInv_iff.2 fun _ _ => ⟨h1, n, hu.fits, hu.row, hu.cpos, hu.run⟩

/-! ## The other commands, and the step -/

/-- The invariant survives what the other units change. -/
theorem CcInv.congr (h : CcInv s) (hf : t.flags = s.flags) (hc : t.cc = s.cc) (hl : t.cline = s.cline) (hp : t.params = s.params) :
    CcInv t := by
  have hat : ∀ i, t.clineAt i = s.clineAt i := fun i => by
    show (t.cline.read? i).map _ = (s.cline.read? i).map _
    rw [hl]
  unfold CcInv State.runStart
  simp only [RowLine, hf, hc, hp, hat]
  exact h

theorem CcInv.takeFault (f : FaultName) (info : Nat) (s : State) : CcInv (takeFault f info s) := fun _ hf => Bool.noConfusion hf

/-- A body gives a next state with the invariant when it ends in one. -/
theorem Yields.runCommand_ccInv {p : Proc Unit} (h : Yields p s fun _ => CcInv) (he : runCommand p s = .next t) : CcInv t :=
  runCommand_all.2 (h.mono (fun _ _ ht => ht) fun _ u _ f info _ => CcInv.takeFault f info u) t he

theorem keepsSpace_ccInv {sp : Space} (hsp : sp ≠ .cline) : KeepsSpace CcInv sp := fun s a v h _ => by
  refine h.congr (by simp) (by simp) ?_ (by simp)
  cases sp with
  | cline => exact absurd rfl hsp
  | _ => rfl

theorem exec_keeps_ccInv {i : Instr} (h : CcInv s) (he : exec i s = .next t) : CcInv t := by
  have go : ∀ p, Keeps CcInv p → runCommand p s = .next t → CcInv t := fun p hp =>
    keeps_runCommand hp (fun u f info _ => CcInv.takeFault f info u) h
  have mq : KeepsMq CcInv := fun _ _ h => h
  have br : KeepsBr CcInv := fun _ _ h => h
  have huf : KeepsHuf CcInv := fun _ _ h => h
  have res : KeepsRes CcInv := fun _ _ h => h
  have coef : KeepsSpace CcInv .coef := keepsSpace_ccInv (by decide)
  have plane : KeepsSpace CcInv .plane := keepsSpace_ccInv (by decide)
  cases i
  case sysNop => cases he; exact h
  case sysReset => cases he; exact fun hr => Bool.noConfusion hr
  case mqInit => exact go _ (keeps_mqInitBody_of mq fun _ h => h) he
  case mqReadbit => exact go _ (keeps_mqReadbitBody mq (keepsSpace_ccInv (by decide)) res _) he
  case brInit => exact go _ (keeps_checkWindow_bind (keeps_brOpen_of br (fun _ h => h) _).onWindow) he
  case brReadbits => exact go _ (keeps_brReadbitsBody br res _) he
  case brPeekbits => exact go _ (keeps_brPeekbitsBody br res _) he
  case brSkipbits => exact go _ (keeps_brSkipbitsBody br _) he
  case brAlign => exact go _ (keeps_brAlignBody br) he
  case brPeekmarker => exact go _ (keeps_brPeekmarkerBody res _) he
  case brSkipbytes => exact go _ (keeps_brSkipbytesBody br) he
  case hufInit => exact go _ (keeps_hufInitBody_of huf fun _ h => h) he
  case hufLoadtable => exact go _ (keeps_hufLoadtableBody (fun _ _ h => h) _ _) he
  case hufScancfg => exact go _ (keeps_hufScancfgBody huf _ _ _) he
  case hufRestart => exact go _ (keeps_hufRestartBody huf) he
  case hufDecode => exact go _ (keeps_hufDecodeBody huf res _ _) he
  case hufReceive => exact go _ (keeps_hufReceiveBody huf res _) he
  case hufExtend => exact go _ (keeps_hufExtendBody huf res _) he
  case hufBlockBaseline => exact go _ (keeps_hufBlockBaselineBody huf coef _ _ _) he
  case hufDcFirst => exact go _ (keeps_hufDcFirstBody huf coef _ _) he
  case hufDcRefine => exact go _ (keeps_hufDcRefineBody huf coef) he
  case hufAcFirst => exact go _ (keeps_hufAcFirstBody huf coef _) he
  case hufAcRefine => exact go _ (keeps_hufAcRefineBody huf coef (fun _ _ h => h) _) he
  case ccittInit => exact (yields_ccittInitBody _ _ _ _ _).runCommand_ccInv he
  case ccittReadbyte => exact (yields_ccittReadbyteBody h).runCommand_ccInv he
  case idctBlock => exact go _ (keeps_idctBlockBody coef _) he
  case iwtSr1d => exact go _ (keeps_iwtSr1dBody plane _ _) he
  case iwtSr2d => exact go _ (keeps_iwtSr2dBody plane _ _ _) he

/-- Settles O21: a row is read into CLINE in order, and NextRun and the byte loop stay inside it. -/
theorem stepKeepsCcitt : Obligations.StepKeepsCcitt :=
  step_next (fun _ _ _ h he => exec_keeps_ccInv h he) (fun s f info _ => CcInv.takeFault f info s)
    (fun _ _ _ _ _ _ _ _ _ h => h) (fun s sp a v h hw _ => by
      refine h.congr (by simp) (by simp) ?_ (by simp)
      cases sp with
      | cline => exact absurd hw (by decide)
      | _ => rfl) fun _ _ hr => Bool.noConfusion hr

end Sys2Proof.Machine
end

section
/-! What the hunt for the next row does to the unread bits (43_ccitt.md R272, R275): the search for an EOL, the tag bit, the end of the
data, and the hunt after a damaged row. -/

namespace Sys2Proof.Machine

variable {s0 t : State} {l : List Bool} {eof next2d : Bool}

theorem BrOk.congr {s t : State} (h : BrOk s) (hb : t.br = s.br) (hp : t.params = s.params)
    (he : ∀ a, t.elem .stream a = s.elem .stream a) : BrOk t := by
  obtain ⟨hbuf, hcnt, hpos, hend, hskip, hwritten⟩ := h
  rw [← hb] at hbuf hcnt hpos hend hskip hwritten
  exact ⟨hbuf, hcnt, hpos, hp ▸ hend, hskip, fun i hi => he _ ▸ hwritten i hi⟩

/-- `t` is `s0` with `l` left unread, and CC_EOF and CC_NEXT2D as given. -/
structure GapAt (s0 : State) (l : List Bool) (eof next2d : Bool) (t : State) : Prop where
  only : t = { s0 with br := t.br, cc := { s0.cc with next2d := next2d }, flags := { s0.flags with ccEof := eof } }
  mode : t.br.mode = .plain
  endIdx : t.br.endIdx = s0.br.endIdx
  rest : t.brUnread = l
  br : BrOk t

/-- `t` is `s0` with what `g` says left of the stream. -/
abbrev GapIs (s0 : State) (g : RowGap) (t : State) : Prop := GapAt s0 g.rest g.eof g.next2d t

theorem GapAt.refl (hm : s0.br.mode = .plain) (hb : BrOk s0) : GapAt s0 s0.brUnread s0.flags.ccEof s0.cc.next2d s0 :=
  ⟨rfl, hm, rfl, rfl, hb⟩

section Gap

variable (h : GapAt s0 l eof next2d t)
include h

theorem GapAt.ccEof : t.flags.ccEof = eof := by rw [h.only]

theorem GapAt.ccErr : t.flags.ccErr = s0.flags.ccErr := by rw [h.only]

theorem GapAt.kmode : t.cc.kmode = s0.cc.kmode := by rw [h.only]; rfl

theorem GapAt.eoline : t.cc.eoline = s0.cc.eoline := by rw [h.only]; rfl

theorem GapAt.bitsLeft : t.bitsLeft = l.length := by
  rw [← h.rest, brUnread_length h.mode (h.br.skip h.mode), State.bitsLeft]

/-- The reader moved on. -/
theorem GapAt.reader {u : State} {m : List Bool} (hu : u = t.setBr u.br) (hm : u.br.mode = t.br.mode)
    (he : u.br.endIdx = t.br.endIdx) (hrest : u.brUnread = m) (hok : BrOk u) : GapAt s0 m eof next2d u := by
  refine ⟨?_, hm.trans h.mode, he.trans h.endIdx, hrest, hok⟩
  conv_lhs => rw [hu, h.only]
  rfl

/-- Registers and flags set that the reader does not have. -/
theorem GapAt.set {u : State} {eof' next2d' : Bool} (hb : u.br = t.br) (he : ∀ a, u.elem .stream a = t.elem .stream a)
    (hu : u = { t with cc := { t.cc with next2d := next2d' }, flags := { t.flags with ccEof := eof' } }) :
    GapAt s0 l eof' next2d' u := by
  have hrest : u.brUnread = t.brUnread := brUnread_congr hb fun a => by rw [State.value, State.value, he]
  refine ⟨?_, hb ▸ h.mode, hb ▸ h.endIdx, hrest.trans h.rest, h.br.congr hb (by rw [hu]) he⟩
  rw [hu, h.only]

theorem GapAt.setEof : GapAt s0 l true next2d (t.setFlags { t.flags with ccEof := true }) :=
  h.set rfl (State.setFlags_elem t _ _) (by rw [h.only]; rfl)

theorem GapAt.setNext2d (b : Bool) : GapAt s0 l eof b (t.setCc { t.cc with next2d := b }) :=
  h.set rfl (State.setCc_elem t _ _) (by rw [h.only]; rfl)

/-! ## Peek, Skip and the tag bit -/

theorem GapAt.ends_brPeek {n : Nat} (h0 : 0 < n) (hn : n ≤ 16) :
    Ends (brPeek n) t (fun v u => v = lookAhead n l ∧ GapAt s0 l eof next2d u) fun _ _ => False := by
  refine (Machine.ends_brPeek h0 hn h.br).mono (fun v u hu => ?_) fun _ _ he => he
  obtain ⟨rfl, hu⟩ := hu
  exact ⟨by rw [h.rest], h.reader hu.only hu.mode hu.endIdx (hu.unread.trans h.rest) hu.ok⟩

theorem GapAt.ends_brSkip {n : Nat} (hn : n ≤ 16) :
    Ends (brSkip n) t (fun _ u => GapAt s0 (l.drop n) eof next2d u) fun _ _ => False :=
  (Machine.ends_brSkip hn h.br).mono (fun _ _ hu => h.reader hu.only hu.mode hu.endIdx (hu.unread.trans (by rw [h.rest])) hu.ok)
    fun _ _ he => he

/-- AlignB drops the bits of the byte in hand (R186). -/
theorem GapAt.ends_brAlignPlain :
    Ends brAlignPlain t (fun _ u => GapAt s0 (l.drop (l.length % 8)) eof next2d u) fun _ _ => False := by
  have hlen : l.length % 8 = t.br.cnt.toNat % 8 := by
    rw [← h.bitsLeft, State.bitsLeft]
    omega
  rw [hlen]
  exact (Machine.ends_brAlignPlain h.br).mono (fun _ _ hu => h.reader hu.only hu.mode hu.endIdx (hu.unread.trans (by rw [h.rest])) hu.ok)
    fun _ _ he => he

theorem GapAt.ends_flagEof : Ends flagEof t (fun _ u => GapAt s0 l true next2d u) fun _ _ => False := h.setEof

theorem GapAt.ends_putNext2d (v : Nat) :
    Ends (putNext2d v) t (fun _ u => GapAt s0 l eof (decide (v = 0)) u) fun _ _ => False := h.setNext2d _

theorem GapAt.ends_readTag :
    Ends readTag t (fun _ u => GapAt s0 (l.drop 1) eof (decide (lookAhead 1 l = 0)) u) fun _ _ => False := by
  rw [readTag, ends_bind]
  refine (h.ends_brPeek Nat.one_pos (by decide)).mono (fun v u hu => ?_) fun _ _ he => he
  obtain ⟨rfl, hu⟩ := hu
  rw [ends_bind]
  exact (hu.ends_putNext2d _).mono (fun _ w hw => hw.ends_brSkip (by decide)) fun _ _ he => he

/-- How many bits the tag of an EOL takes. -/
theorem GapAt.ends_skipTag :
    Ends skipTag t (fun _ u => GapAt s0 (l.drop (if s0.cc.kmode = 1 then 1 else 0)) eof next2d u) fun _ _ => False := by
  rw [skipTag, ends_bind, ends_get, h.kmode]
  split
  · exact h.ends_brSkip (by decide)
  · exact h

end Gap

/-! ## Hunts -/

theorem lookAhead_nil (n : Nat) : lookAhead n [] = eofv := if_pos rfl

theorem dropFill_eq (l : List Bool) : dropFill l = dropUntil (fun m => decide (lookAhead 12 m ≠ 0)) l := by
  induction l with
  | nil => rfl
  | cons b l ih =>
    rw [dropFill, dropUntil, ih]
    by_cases h0 : lookAhead 12 (b :: l) = 0 <;> simp [h0]

theorem dropUntil_done {stop : List Bool → Bool} (h : l = [] ∨ stop l = true) : dropUntil stop l = l := by
  cases l with
  | nil => rfl
  | cons b m => exact if_pos (h.resolve_left (List.cons_ne_nil _ _))

theorem dropUntil_go {stop : List Bool → Bool} (hl : l ≠ []) (h : stop l = false) : dropUntil stop l = dropUntil stop (l.drop 1) := by
  cases l with
  | nil => exact absurd rfl hl
  | cons b m => exact if_neg (by simp [h])

theorem length_drop_one (hl : l ≠ []) : (l.drop 1).length < l.length := by
  have := List.length_pos_of_ne_nil hl
  rw [List.length_drop]
  omega

/-- What a hunt until `stop` answers and leaves: the look-ahead of `n` bits there. -/
def HuntEnds (s0 : State) (n : Nat) (stop : List Bool → Bool) (l : List Bool) (eof next2d : Bool) (v : Nat) (u : State) : Prop :=
  v = lookAhead n (dropUntil stop l) ∧ GapAt s0 (dropUntil stop l) eof next2d u

theorem huntEnds_done {n : Nat} {stop : List Bool → Bool} (hd : l = [] ∨ stop l = true) (h : GapAt s0 l eof next2d t) :
    HuntEnds s0 n stop l eof next2d (lookAhead n l) t := by
  rw [HuntEnds, dropUntil_done hd]
  exact ⟨rfl, h⟩

/-- A round of a hunt that goes on: a bit is dropped. -/
theorem ends_huntOn {α : Type} {stop : List Bool → Bool} {Q : List Bool → α → State → Prop} {p : Proc α} (hl : l ≠ [])
    (hs : stop l = false) (h : GapAt s0 l eof next2d t)
    (hp : ∀ u, GapAt s0 (l.drop 1) eof next2d u → Ends p u (Q (dropUntil stop (l.drop 1))) fun _ _ => False) :
    Ends (brSkip 1 >>= fun _ => p) t (Q (dropUntil stop l)) fun _ _ => False := by
  rw [ends_bind, dropUntil_go hl hs]
  exact (h.ends_brSkip (by decide)).mono (fun _ u hu => hp u hu) fun _ _ he => he

/-- The hunt past zeros (R272). -/
theorem ends_skipZeros (fuel : Nat) : ∀ {l : List Bool} {t : State}, GapAt s0 l eof next2d t → l.length < fuel →
    Ends (skipZeros fuel) t (HuntEnds s0 12 (fun m => decide (lookAhead 12 m ≠ 0)) l eof next2d) fun _ _ => False := by
  induction fuel with
  | zero => intros; omega
  | succ fuel ih =>
    intro l t h hf
    rw [skipZeros, ends_bind]
    refine (h.ends_brPeek (by decide) (by decide)).mono (fun v u hu => ?_) fun _ _ he => he
    obtain ⟨rfl, hu⟩ := hu
    rw [ends_ite]
    refine ⟨fun h0 => ?_, fun h0 => huntEnds_done (.inr (decide_eq_true h0)) hu⟩
    have hl : l ≠ [] := fun hl => by
      rw [hl, lookAhead_nil] at h0
      exact absurd h0 (by decide)
    have := length_drop_one hl
    exact ends_huntOn (Q := fun m v u => v = lookAhead 12 m ∧ GapAt s0 m eof next2d u) hl (by simp [h0]) hu
      fun w hw => ih hw (by omega)

/-- The hunt for an EOL (R275). -/
theorem ends_huntEol (fuel : Nat) : ∀ {l : List Bool} {t : State}, GapAt s0 l eof next2d t → l.length < fuel →
    Ends (huntEol fuel) t (HuntEnds s0 12 (fun m => decide (lookAhead 12 m = 1)) l eof next2d) fun _ _ => False := by
  induction fuel with
  | zero => intros; omega
  | succ fuel ih =>
    intro l t h hf
    rw [huntEol, ends_bind]
    refine (h.ends_brPeek (by decide) (by decide)).mono (fun v u hu => ?_) fun _ _ he => he
    obtain ⟨rfl, hu⟩ := hu
    rw [ends_ite]
    refine ⟨fun hgo => ?_, fun hend => huntEnds_done ?_ hu⟩
    · have hl : l ≠ [] := fun hl => hgo.1 ((lookAhead_eof (by decide) l).2 hl)
      have := length_drop_one hl
      exact ends_huntOn (Q := fun m v u => v = lookAhead 12 m ∧ GapAt s0 m eof next2d u) hl (decide_eq_false hgo.2) hu
        fun w hw => ih hw (by omega)
    · rcases Classical.not_and_iff_not_or_not.1 hend with h1 | h1
      · exact .inl ((lookAhead_eof (by decide) l).1 (not_not.1 h1))
      · exact .inr (decide_eq_true (not_not.1 h1))

/-- The 13 bits ahead begin with an EOL. -/
def eolAhead (l : List Bool) : Bool := decide (lookAhead 13 l / 2 = 1)

/-- The hunt after a damaged row stops before the next EOL, or ends the data (R275). -/
theorem ends_resyncLoop (fuel : Nat) : ∀ {l : List Bool} {t : State}, GapAt s0 l eof next2d t → l.length < fuel →
    Ends (resyncLoop fuel) t (fun r u =>
      if dropUntil eolAhead l = [] then r = none ∧ GapAt s0 [] true next2d u
      else r = some (lookAhead 13 (dropUntil eolAhead l)) ∧ GapAt s0 (dropUntil eolAhead l) eof next2d u) fun _ _ => False := by
  induction fuel with
  | zero => intros; omega
  | succ fuel ih =>
    intro l t h hf
    rw [resyncLoop, ends_bind]
    refine (h.ends_brPeek (by decide) (by decide)).mono (fun v u hu => ?_) fun _ _ he => he
    obtain ⟨rfl, hu⟩ := hu
    rw [ends_ite, lookAhead_eof (by decide)]
    refine ⟨fun hl => ?_, fun hl => (ends_ite ..).2 ⟨fun hs => ?_, fun hs => ?_⟩⟩
    · subst hl
      rw [ends_bind]
      exact hu.ends_flagEof.mono (fun _ w hw => ⟨rfl, hw⟩) fun _ _ he => he
    · rw [ends_pure, dropUntil_done (.inr (decide_eq_true hs)), if_neg hl]
      exact ⟨rfl, hu⟩
    · have := length_drop_one hl
      exact ends_huntOn (Q := fun m r u => if m = [] then r = none ∧ GapAt s0 [] true next2d u
        else r = some (lookAhead 13 m) ∧ GapAt s0 m eof next2d u) hl (decide_eq_false hs) hu fun w hw => ih hw (by omega)

/-! ## The stages of PostRow -/

/-- The row count ends the data (R275). -/
def CcUnit.isLast (c : CcUnit) : Bool := !c.eoblock && decide (c.row.toNat + 1 = c.rows.toNat)

/-- The unread bits where the search for an EOL ends. -/
def CcUnit.toEol (c : CcUnit) (l : List Bool) : List Bool :=
  if c.isLast then l
  else if c.eoline then dropUntil (fun m => decide (lookAhead 12 m = 1)) l
  else dropUntil (fun m => decide (lookAhead 12 m ≠ 0)) l

/-- An EOL was found there. -/
def CcUnit.hasEol (c : CcUnit) (l : List Bool) : Bool := !c.isLast && decide (lookAhead 12 (c.toEol l) = 1)

/-- The unread bits after it. -/
def CcUnit.afterEol (c : CcUnit) (l : List Bool) : List Bool := if c.hasEol l then (c.toEol l).drop 12 else c.toEol l

/-- How many bits the EOLs of an end of block take. -/
def CcUnit.blockEnd (c : CcUnit) : Nat := if c.kmode = 2 then 12 else if c.kmode = 1 then 65 else 60

theorem lastRow_eq (s : State) : lastRow s = s.cc.isLast := by
  rw [lastRow, CcUnit.isLast]
  congr 1
  exact decide_eq_decide.2 (by omega)

theorem GapAt.isLast (h : GapAt s0 l eof next2d t) : lastRow t = s0.cc.isLast := by
  rw [lastRow_eq, h.only]
  rfl

theorem ends_eolCode (h : GapAt s0 l eof next2d t) (hlast : s0.cc.isLast = false) :
    Ends eolCode t (fun v u => v = lookAhead 12 (s0.cc.toEol l) ∧ GapAt s0 (s0.cc.toEol l) eof next2d u) fun _ _ => False := by
  simp only [eolCode, ends_bind, ends_get, h.eoline, h.bitsLeft, CcUnit.toEol, hlast, Bool.false_eq_true, if_false]
  by_cases he : s0.cc.eoline = true
  · simp only [if_pos he]
    exact ends_huntEol _ h (Nat.lt_succ_self _)
  · simp only [if_neg he]
    exact ends_skipZeros _ h (Nat.lt_succ_self _)

/-- The search for an EOL, or the row count, ends the row (R275). -/
theorem ends_rowEnd (h : GapAt s0 l eof next2d t) :
    Ends rowEnd t (fun got u => got = s0.cc.hasEol l ∧
      GapAt s0 (s0.cc.afterEol l) (eof || s0.cc.isLast || decide (s0.cc.toEol l = [])) next2d u) fun _ _ => False := by
  rw [rowEnd, ends_bind, ends_get, h.isLast, CcUnit.afterEol, CcUnit.hasEol]
  cases hlast : s0.cc.isLast with
  | true =>
    rw [if_pos rfl, ends_bind, CcUnit.toEol, hlast]
    exact h.ends_flagEof.mono (fun _ u hu => ⟨rfl, by simpa using hu⟩) fun _ _ he => he
  | false =>
    rw [if_neg (by decide), findEol, ends_bind]
    refine (ends_eolCode h hlast).mono (fun v u hu => ?_) fun _ _ he => he
    obtain ⟨rfl, hu⟩ := hu
    rw [ends_ite]
    refine ⟨fun h1 => ?_, fun h1 => (ends_ite ..).2 ⟨fun he => ?_, fun he => ?_⟩⟩
    · have hne : s0.cc.toEol l ≠ [] := fun hl => by
        rw [hl, lookAhead_nil] at h1
        exact absurd h1 (by decide)
      rw [ends_bind]
      refine (hu.ends_brSkip (by decide)).mono (fun _ w hw => ?_) fun _ _ he => he
      simpa [h1, hne] using hw
    · have hnil := (lookAhead_eof (by decide) _).1 he
      rw [ends_bind]
      refine hu.ends_flagEof.mono (fun _ w hw => ?_) fun _ _ he => he
      simpa [hnil, lookAhead_nil, show eofv ≠ 1 by decide] using hw
    · have hne : s0.cc.toEol l ≠ [] := fun hl => he ((lookAhead_eof (by decide) _).2 hl)
      simpa [h1, hne] using hu

theorem ends_skipEols (n : Nat) : ∀ {l : List Bool} {t : State}, GapAt s0 l eof next2d t →
    Ends (skipEols n) t (fun _ u => GapAt s0 (l.drop (n * (12 + if s0.cc.kmode = 1 then 1 else 0))) eof next2d u)
      fun _ _ => False := by
  induction n with
  | zero =>
    intro l t h
    rw [Nat.zero_mul]
    exact h
  | succ n ih =>
    intro l t h
    rw [skipEols, ends_bind]
    refine (h.ends_brSkip (by decide)).mono (fun _ u hu => (ends_bind ..).2 ?_) fun _ _ he => he
    refine hu.ends_skipTag.mono (fun _ v hv => ?_) fun _ _ he => he
    refine (ih hv).mono (fun _ w hw => ?_) fun _ _ he => he
    rw [List.drop_drop, List.drop_drop] at hw
    convert hw using 2
    ring

/-- A second EOL ends the data (R275). -/
theorem ends_endOfBlock (h : GapAt s0 l eof next2d t) :
    Ends endOfBlock t (fun _ u => GapIs s0
      (if lookAhead 12 l = 1 then ⟨l.drop s0.cc.blockEnd, true, next2d⟩ else ⟨l, eof, next2d⟩) u) fun _ _ => False := by
  rw [endOfBlock, ends_bind, ends_get, ends_bind, h.kmode]
  refine (h.ends_brPeek (by decide) (by decide)).mono (fun v u hu => ?_) fun _ _ he => he
  obtain ⟨rfl, hu⟩ := hu
  rw [ends_ite]
  refine ⟨fun h1 => ?_, fun h1 => by rwa [if_neg h1]⟩
  simp only [if_pos h1, ends_bind]
  refine (hu.ends_brSkip (by decide)).mono (fun _ v hv => ?_) fun _ _ he => he
  refine hv.ends_skipTag.mono (fun _ w hw => ?_) fun _ _ he => he
  rw [List.drop_drop] at hw
  rw [ends_ite, CcUnit.blockEnd]
  refine ⟨fun h2 => ?_, fun h2 => ?_⟩
  · refine (ends_skipEols 4 hw).mono (fun _ x hx => ?_) fun _ _ he => he
    rw [List.drop_drop] at hx
    rw [if_neg h2]
    split at hx
    · next hk => rw [if_pos hk]; exact hx.ends_flagEof
    · next hk => rw [if_neg hk]; exact hx.ends_flagEof
  · have h2 := not_not.1 h2
    rw [h2, if_neg (by decide)] at hw
    rw [if_pos h2]
    exact hw.ends_flagEof

/-- The unread bits where the hunt after a damaged row ends. -/
def toResync (l : List Bool) : List Bool := dropUntil eolAhead l

/-- A damaged row hunts for the next EOL (R275). -/
theorem ends_resync (h : GapAt s0 l eof next2d t) :
    Ends resync t (fun _ u => GapIs s0
      (if eof || decide (toResync l = []) then ⟨toResync l, true, next2d⟩
      else if s0.cc.kmode = 1 then ⟨(toResync l).drop 13, false, decide (lookAhead 13 (toResync l) % 2 = 0)⟩
      else ⟨(toResync l).drop 12, false, next2d⟩) u) fun _ _ => False := by
  rw [resync, ends_bind, ends_get, ends_bind, h.bitsLeft]
  refine (ends_resyncLoop _ h (Nat.lt_succ_self _)).mono (fun r u hu => (ends_bind ..).2 ((ends_get ..).2 ?_)) fun _ _ he => he
  rw [← toResync] at hu
  by_cases hl : toResync l = []
  · rw [if_pos hl] at hu
    obtain ⟨rfl, hu⟩ := hu
    simpa [hl] using hu
  · rw [if_neg hl] at hu
    obtain ⟨rfl, hu⟩ := hu
    cases eof with
    | true => simpa [hl, hu.ccEof] using hu
    | false =>
      simp only [hu.ccEof, hu.kmode, Bool.false_or, decide_eq_true_eq, if_neg hl, Bool.false_eq_true, if_false]
      rw [ends_bind]
      refine (hu.ends_brSkip (by decide)).mono (fun _ v hv => ?_) fun _ _ he => he
      rw [ends_ite]
      refine ⟨fun hk => ?_, fun hk => ?_⟩
      · simp only [if_pos hk, ends_bind]
        refine (hv.ends_brSkip (by decide)).mono (fun _ w hw => ?_) fun _ _ he => he
        rw [List.drop_drop] at hw
        exact hw.ends_putNext2d _
      · simp only [if_neg hk]
        exact hv

/-! ## PostRow -/

/-- The last stage: a second EOL, or the hunt after a damaged row, from the unread bits `l` on. -/
def CcUnit.gapEnd (c : CcUnit) (eol err : Bool) (l : List Bool) (eof next2d : Bool) : RowGap :=
  if c.eoblock && eol then
    if lookAhead 12 l = 1 then ⟨l.drop c.blockEnd, true, next2d⟩ else ⟨l, eof, next2d⟩
  else if err && c.eoline then
    if eof || decide (toResync l = []) then ⟨toResync l, true, next2d⟩
    else if c.kmode = 1 then ⟨(toResync l).drop 13, false, decide (lookAhead 13 (toResync l) % 2 = 0)⟩
    else ⟨(toResync l).drop 12, false, next2d⟩
  else ⟨l, eof, next2d⟩

/-- `gapAfter`, stage by stage. -/
theorem CcUnit.gapAfter_eq (c : CcUnit) (r : RowRead) : c.gapAfter r =
    let l := if c.balign then r.rest.drop (r.rest.length % 8) else r.rest
    let eof := r.eof || c.isLast || decide (c.toEol l = [])
    let tag := !eof && decide (c.kmode = 1)
    c.gapEnd (c.hasEol l) r.err (if tag then (c.afterEol l).drop 1 else c.afterEol l) eof
      (if tag then decide (lookAhead 1 (c.afterEol l) = 0) else c.next2d) := rfl

theorem ends_gapEnd (h : GapAt s0 l eof next2d t) (eol : Bool) :
    Ends (if s0.cc.eoblock && eol then endOfBlock else if s0.flags.ccErr && s0.cc.eoline then resync else pure ()) t
      (fun _ u => GapIs s0 (s0.cc.gapEnd eol s0.flags.ccErr l eof next2d) u) fun _ _ => False := by
  unfold CcUnit.gapEnd
  split
  · exact ends_endOfBlock h
  · split
    · exact ends_resync h
    · exact h

theorem ends_tag (h : GapAt s0 l eof next2d t) (tag : Bool) :
    Ends (if tag then readTag else pure ()) t (fun _ u =>
      GapAt s0 (if tag then l.drop 1 else l) eof (if tag then decide (lookAhead 1 l = 0) else next2d) u) fun _ _ => False := by
  cases tag
  · exact h
  · exact h.ends_readTag

/-- PostRow after the row `r` (R275): the gap, then the row is output. -/
theorem ends_postRow {n : Nat} {r : RowRead} {s : State} (hm : s.br.mode = .plain) (hb : BrOk s) (hrest : s.brUnread = r.rest)
    (herr : s.flags.ccErr = r.err) (heof : s.flags.ccEof = r.eof) (hfits : s.cc.cols.toNat ≤ s.params.colsMax)
    (hrow : RowLine s n) :
    Ends postRow s (fun _ t => ∃ u, GapIs s (s.cc.gapAfter r) u ∧ RowOutput n u t) fun _ _ => False := by
  have hstart := GapAt.refl hm hb
  rw [hrest, heof] at hstart
  have halign : Ends (if s.cc.balign then brAlignPlain else pure ()) s (fun _ u =>
      GapAt s (if s.cc.balign then r.rest.drop (r.rest.length % 8) else r.rest) r.eof s.cc.next2d u) fun _ _ => False := by
    split
    · exact hstart.ends_brAlignPlain
    · exact hstart
  rw [postRow, ends_bind, ends_get, ends_bind, CcUnit.gapAfter_eq]
  refine halign.mono (fun _ t ht => (ends_bind ..).2 ?_) fun _ _ he => he
  refine (ends_rowEnd ht).mono (fun got t ht => (ends_bind ..).2 ((ends_get ..).2 ?_)) fun _ _ he => he
  obtain ⟨rfl, ht⟩ := ht
  rw [ht.ccEof, ht.ccErr, ends_bind]
  refine (ends_tag ht _).mono (fun _ u hu => (ends_bind ..).2 ?_) fun _ _ he => he
  refine (ends_gapEnd hu _).mono (fun _ v hv => ?_) fun _ _ he => he
  rw [herr] at hv
  have hcols : v.cc.cols = s.cc.cols := by rw [hv.only]
  have hpar : v.params = s.params := by rw [hv.only]
  have hline : ∀ i, v.clineAt i = s.clineAt i := fun i => by
    rw [hv.only]
    rfl
  exact (ends_outputRow (by rw [hcols, hpar]; exact hfits) (hrow.congr hline hcols)).mono (fun _ w hw => ⟨v, hv, hw⟩)
    fun _ _ he => he

/-! ## CCITT.INIT -/

/-- The stream part of CCITT.INIT: the fill and one EOL are skipped, then the data is at its end or a tag bit is read (R272). -/
theorem ends_openRows (h : GapAt s0 l false next2d t) (kmode : Nat) :
    Ends (openRows kmode) t (fun _ u =>
      let m := if lookAhead 12 (dropFill l) = 1 then (dropFill l).drop 12 else dropFill l
      GapAt s0 (if kmode = 1 then m.drop 1 else m) (decide (m = []))
        (if m ≠ [] ∧ kmode = 1 then decide (m.head? = some false) else next2d) u) fun _ _ => False := by
  rw [openRows, ends_bind, ends_get, ends_bind, h.bitsLeft]
  refine (ends_skipZeros _ h (Nat.lt_succ_self _)).mono (fun v u hu => ?_) fun _ _ he => he
  rw [HuntEnds, ← dropFill_eq] at hu
  obtain ⟨rfl, hu⟩ := hu
  have heol : Ends (if lookAhead 12 (dropFill l) = 1 then brSkip 12 else pure ()) u (fun _ w =>
      GapAt s0 (if lookAhead 12 (dropFill l) = 1 then (dropFill l).drop 12 else dropFill l) false next2d w) fun _ _ => False := by
    split
    · exact hu.ends_brSkip (by decide)
    · exact hu
  rw [ends_bind]
  refine heol.mono (fun _ w hw => ?_) fun _ _ he => he
  generalize (if lookAhead 12 (dropFill l) = 1 then (dropFill l).drop 12 else dropFill l) = m at hw ⊢
  rw [ends_bind]
  refine (hw.ends_brPeek Nat.one_pos (by decide)).mono (fun v x hx => ?_) fun _ _ he => he
  obtain ⟨rfl, hx⟩ := hx
  rw [ends_ite, lookAhead_eof (by decide)]
  refine ⟨fun hm => ?_, fun hm => (ends_ite ..).2 ⟨fun hk => ?_, fun hk => ?_⟩⟩
  · subst hm
    refine hx.ends_flagEof.mono (fun _ y hy => ?_) fun _ _ he => he
    simpa using hy
  · refine hx.ends_readTag.mono (fun _ y hy => ?_) fun _ _ he => he
    obtain ⟨b, m, rfl⟩ := List.exists_cons_of_ne_nil hm
    have htag : decide (lookAhead 1 (b :: m) = 0) = decide ((b :: m).head? = some false) := by cases b <;> simp [lookAhead, numOf]
    rw [htag] at hy
    simpa [hk] using hy
  · rw [ends_pure]
    simpa [hk, hm] using hx

end Sys2Proof.Machine
end

section
/-! A window filled up: the bytes of it that are not written are given values, the ones they are read with, so that Laws/Br.lean
applies; what is found there holds of the window as it is when only bytes that `BrAhead` asks for were fetched. -/

namespace Sys2Proof.Machine

variable {s t : State} {m : Memory (Space.width .stream)}

/-- `m` is STREAM with every byte of the window written. -/
def WindowFilled (s : State) (m : Memory (Space.width .stream)) : Prop :=
  ∀ i, m.read? i = if s.br.pos.toNat ≤ i ∧ i < s.br.pos.toNat + (s.br.endIdx.toNat - s.br.pos.toNat)
    then some (s.value .stream i) else s.elem .stream i

theorem exists_windowFilled (s : State) : ∃ m, WindowFilled s m := exists_filled s _ _

theorem WindowFilled.value (hf : WindowFilled s m) (i : Nat) : (s.setMem .stream m).value .stream i = s.value .stream i :=
  value_filled hf .stream i

theorem WindowFilled.brUnread (hf : WindowFilled s m) : (s.setMem .stream m).brUnread = s.brUnread :=
  brUnread_congr (State.setMem_br ..) hf.value

theorem WindowFilled.brOk (hf : WindowFilled s m) (h : BrRegs s) : BrOk (s.setMem .stream m) := by
  refine ⟨h.buf, h.cnt, h.pos, h.endIdx, h.skip, fun i hi => ?_⟩
  rw [State.elem, State.setMem_mem_same, hf, State.setMem_br]
  rw [State.setMem_br] at hi
  rw [if_pos (by omega)]
  rfl

/-- Without the filling the unread bits are the same. -/
theorem WindowFilled.unfilled (hf : WindowFilled s m) (ht : t.stream = m) :
    (t.setMem .stream s.stream).brUnread = t.brUnread := by
  refine brUnread_congr (State.setMem_br ..) fun i => ?_
  have hold : (t.setMem .stream s.stream).value .stream i = s.value .stream i := rfl
  have hnew : t.value .stream i = (s.setMem .stream m).value .stream i := by
    show ((t.stream.read? i).getD 0 : Byte) = (m.read? i).getD 0
    rw [ht]
  rw [hold, hnew, hf.value]

/-- The bytes fetched on the way to `t` were written all the time. -/
theorem WindowFilled.agrees (hf : WindowFilled s m) {k : Nat} (hs : BrInv s) (ht : BrInv t) (hsr : s.flags.brRdy = true)
    (htr : t.flags.brRdy = true) (hsm : s.br.mode = .plain) (htm : t.br.mode = .plain) (he : t.br.endIdx = s.br.endIdx)
    (hk : s.brUnread.length - t.brUnread.length ≤ k) (hw : BrAhead s k) :
    ∀ i, s.br.pos.toNat ≤ i → i < t.br.pos.toNat → s.elem .stream i = m.read? i := by
  intro i hlo hhi
  have hpos := pos_le_of_unread hs ht hsr htr hsm htm he hk
  have hwritten := hw (i - s.br.pos.toNat) (by omega)
  rw [Nat.mul_one, Nat.add_sub_cancel' hlo] at hwritten
  rw [hf, if_pos (by omega)]
  exact State.value_of_isSome hwritten

theorem BrOk.brInv (h : BrOk t) : BrInv t := fun _ => ⟨h.buf, h.cnt, h.pos, h.endIdx, h.skip⟩

end Sys2Proof.Machine
end

section
/-! O51: CCITT.INIT (43_ccitt.md R272). -/

namespace Sys2Proof.Machine

variable {s t : State} {kmode : Nat} {eoline balign eoblock black1 : Bool}

/-- The unread bits of the opened window once the fill and one EOL are skipped. -/
def State.openedBits (s : State) : List Bool :=
  let l := dropFill (s.setBr s.openedBr).brUnread
  if lookAhead 12 l = 1 then l.drop 12 else l

/-- The bits left when the tag bit is read too. -/
def State.openedRest (s : State) (kmode : Nat) : List Bool := if kmode = 1 then s.openedBits.drop 1 else s.openedBits

/-- What CCITT.INIT leaves, but for CC_RDY: the opened state with the stream part done. -/
structure RowsOpened (o : State) (rest : List Bool) (eof next2d : Bool) (t : State) : Prop where
  only : t = { o with br := t.br, cc := { o.cc with next2d := next2d }, flags := { o.flags with ccEof := eof } }
  rest : t.brUnread = rest
  inv : BrInv t

theorem ends_openRows_ahead {o : State} (hr : o.flags.brRdy = true) (hm : o.br.mode = .plain) (hinv : BrInv o)
    (heof : o.flags.ccEof = false) (kmode : Nat) {l rest : List Bool}
    (hl : l = if lookAhead 12 (dropFill o.brUnread) = 1 then (dropFill o.brUnread).drop 12 else dropFill o.brUnread)
    (hrest : rest = if kmode = 1 then l.drop 1 else l) (hw : BrAhead o (o.brUnread.length - rest.length)) :
    Ends (openRows kmode) o (fun _ t => RowsOpened o rest (decide (l = []))
      (if l ≠ [] ∧ kmode = 1 then decide (l.head? = some false) else o.cc.next2d) t) fun _ _ => False := by
  obtain ⟨m, hf⟩ := exists_windowFilled o
  have hstart : GapAt (o.setMem .stream m) o.brUnread false o.cc.next2d (o.setMem .stream m) := by
    have := GapAt.refl (s0 := o.setMem .stream m) hm (hf.brOk (brInv_iff.1 hinv hr))
    rw [hf.brUnread, State.setMem_flags, heof] at this
    exact this
  refine openRows_ahead ((ends_openRows hstart kmode).mono (fun _ t ht => ?_) fun _ _ he => he)
  rw [← hl] at ht
  dsimp only at ht
  rw [← hrest] at ht
  have hstream : t.stream = m := by rw [ht.only]; rfl
  have hready : t.flags.brRdy = true := by rw [ht.only]; exact hr
  refine ⟨⟨?_, (hf.unfilled hstream).trans ht.rest, ht.br.brInv⟩, ?_⟩
  · conv_lhs => rw [ht.only]
    rfl
  · exact hf.agrees hinv ht.br.brInv hr hready hm ht.mode ht.endIdx (by rw [ht.rest]) hw

/-- CCITT.INIT on legal operands. -/
theorem exec_ccittInit (hk : kmode < 3) (hlo : s.arg0.toNat ≤ s.arg1.toNat) (hhi : s.arg1.toNat ≤ s.params.streamSize)
    (hc1 : 1 ≤ s.arg2.toNat) (hc : s.arg2.toNat ≤ s.params.colsMax)
    (hw : BrAhead (s.setBr s.openedBr) ((s.setBr s.openedBr).brUnread.length - (s.openedRest kmode).length)) :
    ∃ t, exec (.ccittInit kmode eoline balign eoblock black1) s = .next t ∧
      ∃ u, RowsOpened (s.opened kmode eoline balign eoblock black1) (s.openedRest kmode) (decide (s.openedBits = []))
        (if s.openedBits ≠ [] ∧ kmode = 1 then decide (s.openedBits.head? = some false) else decide (kmode = 2)) u ∧
      t = u.setFlags { u.flags with ccRdy := true } := by
  refine runCommand_next_of_ends ?_
  have hwindow : badWindow s = false := by simp [badWindow]; omega
  unfold ccittInitBody
  rw [ends_bind, ends_check, decide_eq_false (by omega)]
  refine ⟨fun h => absurd h (by decide), fun _ => ?_⟩
  rw [ends_bind, checkWindow, ends_bind, ends_get, ends_check, hwindow]
  refine ⟨fun h => absurd h (by decide), fun _ => ?_⟩
  rw [ends_bind, ends_get, ends_bind, ends_check, decide_eq_false (by omega)]
  refine ⟨fun h => absurd h (by decide), fun _ => ?_⟩
  rw [ends_bind, brOpen, ends_bind, ends_get, ends_bind, ends_modifyBr, ends_modifyFlags, ends_bind, ends_modifyCc, ends_bind,
    ends_modifyFlags, ends_bind, ends_writeCline (Nat.zero_le _)]
  show Ends _ (s.opened kmode eoline balign eoblock black1) _ _
  have hbits : (s.opened kmode eoline balign eoblock black1).brUnread = (s.setBr s.openedBr).brUnread :=
    brUnread_congr rfl fun _ => rfl
  have hinv : BrInv (s.opened kmode eoline balign eoblock black1) := fun _ =>
    ⟨Nat.one_pos, Nat.zero_le _, hlo, hhi, fun _ => rfl⟩
  rw [← hbits] at hw
  rw [ends_bind]
  refine (ends_openRows_ahead rfl rfl hinv rfl kmode (l := s.openedBits) (rest := s.openedRest kmode) (by rw [hbits]; rfl) rfl hw).mono
    (fun _ u hu => ?_) fun _ _ he => he
  rw [ends_modifyFlags]
  exact ⟨u, hu, rfl⟩

/-- Settles O51: the window is opened, and its bits are followed through `dropFill`, one EOL and the tag bit. -/
theorem ccittInitOpens : Obligations.CcittInitOpens := by
  intro s kmode eoline balign eoblock black1 hk hlo hhi hc1 hc u l0 l rest hw
  obtain ⟨t, ht, v, hv, rfl⟩ := exec_ccittInit (eoline := eoline) (balign := balign) (eoblock := eoblock) (black1 := black1)
    hk hlo hhi hc1 hc hw
  have hcc : CcInv (v.setFlags { v.flags with ccRdy := true }) := (yields_ccittInitBody _ _ _ _ _).runCommand_ccInv ht
  have hfields := ccFlagsOf_fields hk eoline balign eoblock black1 (c := (v.setFlags { v.flags with ccRdy := true }).cc)
    (by rw [hv.only]; rfl)
  obtain ⟨hkm, heol, hbal, hblk, hbl1⟩ := hfields
  obtain ⟨hline, helem⟩ := opened_elem (s := s) kmode eoline balign eoblock black1
  have hsame : ∀ sp a, (v.setFlags { v.flags with ccRdy := true }).elem sp a =
      (s.opened kmode eoline balign eoblock black1).elem sp a := fun sp a => by
    rw [State.setFlags_elem, hv.only]
    cases sp <;> rfl
  have hnext : v.cc.next2d = if kmode = 1 then decide (l ≠ [] ∧ l.head? = some false) else decide (kmode = 2) := by
    rw [hv.only]
    show (if l ≠ [] ∧ kmode = 1 then decide (l.head? = some false) else decide (kmode = 2)) = _
    by_cases h1 : kmode = 1
    · by_cases hl : l = [] <;> simp [h1, hl]
    · simp [h1]
  refine ⟨_, ht, ?_, hkm, heol, hbal, hblk, hbl1, hnext, ?_, (hsame _ _).trans hline, fun sp a h => (hsame sp a).trans (helem sp a h),
    hv.inv, hcc⟩
  · conv_lhs => rw [hv.only]
    rw [State.setFlags_cc, hv.only]
    rfl
  · show State.brUnread _ = s.openedRest kmode
    rw [← hv.rest]
    exact brUnread_congr rfl fun a => by simp [State.value]

end Sys2Proof.Machine
end

section
/-! Two-dimensional rows on bit strings: the modes and the loop of DecodeRow2D do to the row being read what `readRow2D` says
(43_ccitt.md R270, R274). -/

namespace Sys2Proof.Machine

variable {cols : Nat} {warn : Bool} {prev : List Nat} {s s0 t u : State} {r : RowRead}

/-! ## The reference line -/

/-- RLINE holds the run ends `prev` of a row of `cols` pixels, closed by CC_COLS. -/
structure Reference (cols : Nat) (prev : List Nat) (s0 : State) : Prop where
  short : prev.length ≤ cols
  inside : ∀ i, refEnd cols prev i ≤ cols
  fits : cols < 2 ^ 32
  line : ∀ i, i ≤ cols + 1 → s0.elem .rline i = some (BitVec.ofNat 32 (refEnd cols prev i))

/-- The row `r` has been read so far, from a state whose RLINE is the reference line. -/
structure RowIn (cols : Nat) (warn : Bool) (s0 t : State) (r : RowRead) : Prop where
  row : RowAt cols warn t r
  going : RowAny s0 t

/-- Where a row being read has got to, on both accounts. -/
theorem RowAt.here_eq {e : Nat} {es : List Nat} (h : RowAt cols warn t r) (hg : RowGoing s0 e es t) : e = r.here := by
  have h1 := (ends_lineEnd h (fun _ _ => False) fun v _ => v = r.here).2 rfl
  have h2 := hg.yields_lineEnd (Q := fun v _ => v = e) rfl
  have h3 := h1.and h2
  unfold Ends at h3
  split at h3
  · exact_mod_cast h3.2.symm.trans h3.1
  · exact h3.1.elim

/-- An open row, with the run end it has got to. -/
theorem RowIn.open (h : RowIn cols warn s0 t r) (hin : r.here < cols) :
    ∃ es, RowGoing s0 r.here es t ∧ r.here < s0.cc.cols.toNat := by
  obtain ⟨e, es, hg⟩ := h.going
  obtain rfl := h.row.here_eq hg
  have hcols : s0.cc.cols.toNat = cols := by rw [← h.row.columns, hg.cols]
  exact ⟨es, hg, hcols ▸ hin⟩

theorem RowIn.rline (h : RowIn cols warn s0 t r) (i : Nat) : t.elem .rline i = s0.elem .rline i := by
  obtain ⟨e, es, hg⟩ := h.going
  rw [hg.only]
  rfl

section Line

variable (h : RowIn cols warn s0 t r) (href : Reference cols prev s0)
include h

theorem RowIn.columns : t.columns = (cols : Int) := by rw [State.columns, h.row.columns]

include href in
/-- Ref(i) (R270). -/
theorem RowIn.ends_refLine (i : Nat) :
    Ends (refLine i) t (fun b u => b = (refEnd cols prev i : Int) ∧ u = t) fun _ _ => False := by
  have hfits := h.row.fits
  have hinside := href.inside i
  have h32 := href.fits
  rw [refLine, ends_bind, ends_get, h.row.columns, ends_ite]
  refine ⟨fun hi => ?_, fun hi => ⟨?_, rfl⟩⟩
  · rw [ends_bind, ends_memRead_of t _ (show i < t.sizeOf .rline by simp only [State.sizeOf, Space.size]; omega)
      ((h.rline i).trans (href.line i hi)), ends_pure]
    refine ⟨?_, rfl⟩
    rw [BitVec.toNat_ofNat, Nat.mod_eq_of_lt (by omega)]
  · have hlen := href.short
    rw [h.columns, refEnd, List.getD_eq_default _ _ (by omega)]

theorem RowIn.ends_lineEnd : Ends lineEnd t (fun v u => v = (r.here : Int) ∧ u = t) fun _ _ => False :=
  (Machine.ends_lineEnd h.row _ _).2 ⟨rfl, rfl⟩

theorem RowIn.ends_rowOpen : Ends rowOpen t (fun more u => more = decide (r.here < cols) ∧ u = t) fun _ _ => False := by
  rw [rowOpen, ends_bind, ends_get, ends_bind]
  refine h.ends_lineEnd.mono (fun v u hu => ?_) fun _ _ he => he
  obtain ⟨rfl, rfl⟩ := hu
  rw [ends_pure, h.columns]
  exact ⟨decide_eq_decide.2 (by omega), rfl⟩

/-! ## Adv -/

/-- Element `i` of the reference line lies beyond `here`, or at the end of the row. -/
abbrev RefStops (cols : Nat) (prev : List Nat) (here i : Nat) : Prop := here < refEnd cols prev i ∨ cols ≤ refEnd cols prev i

omit h in
theorem nextRef_eq {here rp j : Nat} (hj : RefStops cols prev here (rp + 2 * j))
    (hmin : ∀ i, i < j → ¬ RefStops cols prev here (rp + 2 * i)) : nextRef cols prev here rp = rp + 2 * j := by
  have hlen : j ≤ prev.length := by
    by_contra hlt
    refine hmin prev.length (Nat.lt_of_not_le hlt) (.inr ?_)
    rw [refEnd, List.getD_eq_default _ _ (by omega)]
  have hfind : (List.range (prev.length + 1)).find? (fun j => decide (RefStops cols prev here (rp + 2 * j))) = some j :=
    List.find?_range_eq_some.2 ⟨decide_eq_true hj, List.mem_range.2 (Nat.lt_succ_of_le hlen),
      fun i hi => by simpa using hmin i hi⟩
  rw [nextRef, hfind, Option.getD_some]

include href in
theorem RowIn.ends_adv (rp : Nat) :
    Ends (adv rp) t (fun x u => x = nextRef cols prev r.here rp ∧ u = t) fun _ _ => False := by
  suffices ∀ fuel i, (∀ j, j < i → ¬ RefStops cols prev r.here (rp + 2 * j)) → prev.length < i + fuel →
      Ends (advanceRef fuel (rp + 2 * i)) t (fun x u => x = nextRef cols prev r.here rp ∧ u = t) fun _ _ => False by
    have hshort := href.short
    rw [adv, ends_bind, ends_get, h.row.columns]
    exact this _ 0 (fun j hj => absurd hj (Nat.not_lt_zero j)) (by omega)
  intro fuel
  induction fuel with
  | zero =>
    intro i hmin hi
    refine absurd (.inr ?_) (hmin prev.length hi)
    rw [refEnd, List.getD_eq_default _ _ (by omega)]
  | succ fuel ih =>
    intro i hmin hi
    rw [advanceRef, ends_bind, ends_get, ends_bind]
    refine (h.ends_refLine href _).mono (fun b u hu => ?_) fun _ _ he => he
    obtain ⟨rfl, rfl⟩ := hu
    rw [ends_bind]
    refine h.ends_lineEnd.mono (fun e v hv => ?_) fun _ _ he => he
    obtain ⟨rfl, rfl⟩ := hv
    rw [h.columns, ends_ite]
    refine ⟨fun hgo => ?_, fun hstop => ⟨(nextRef_eq (by omega) hmin).symm, rfl⟩⟩
    have hnot : ¬ RefStops cols prev r.here (rp + 2 * i) := by omega
    exact ih (i + 1) (fun j hj => (Nat.lt_succ_iff_lt_or_eq.1 hj).elim (hmin j) fun hji => hji ▸ hnot) (by omega)

/-! ## Pixels, codes and runs -/

theorem RowIn.ends_addPix (hin : r.here < cols) (a1 colour : Nat) :
    Ends (addPix (a1 : Int) colour) t (fun _ u => RowIn cols warn s0 u (r.addPix cols a1 colour)) fun _ _ => False := by
  obtain ⟨es, hg, hopen⟩ := h.open hin
  exact ((Machine.ends_addPix h.row a1 colour).and (yields_addPix_open hg hopen _ _)).mono
    (fun _ _ hu => ⟨hu.1, hu.2⟩) fun _ _ he => he.1

theorem RowIn.ends_addPixNeg (hin : r.here < cols) (a1 : Int) (colour : Nat) :
    Ends (addPixNeg a1 colour) t (fun _ u => RowIn cols warn s0 u (r.addPixNeg cols a1 colour)) fun _ _ => False := by
  obtain ⟨es, hg, hopen⟩ := h.open hin
  exact ((Machine.ends_addPixNeg h.row a1 colour).and (yields_addPixNeg hg hopen _ _)).mono
    (fun _ _ hu => ⟨hu.1, hu.2⟩) fun _ _ he => he.1

theorem RowIn.ends_matchModeCode : Ends matchModeCode t
    (fun m u => MatchedAs cols warn r (readCode modeTable r.rest) m u ∧ RowAny s0 u) fun _ _ => False := by
  obtain ⟨e, es, hg⟩ := h.going
  exact ((Machine.ends_matchModeCode h.row).and (keeps_matchModeCode_of keepsBr_rowGoing t hg)).mono
    (fun _ _ hu => ⟨hu.1, e, es, hu.2⟩) fun _ _ he => he.1

theorem RowIn.ends_runLen {colour : Nat} (hcol : colour ∈ [0, 1]) : Ends (runLen colour) t
    (fun m u => RunAs cols warn r (readRun (runTable colour) (r.rest.length + 1) 0 r.rest) m u ∧ RowAny s0 u)
      fun _ _ => False := by
  obtain ⟨e, es, hg⟩ := h.going
  refine ((Machine.ends_runLen h.row hcol).and (yields_runLen hg colour)).mono (fun m u hu => ⟨hu.1, ?_⟩) fun _ _ he => he.1
  cases m with
  | none => exact RowFull.any hu.2
  | some v => exact ⟨e, es, hu.2⟩

/-! ## Modes -/

include href in
theorem RowIn.ends_modePass (hin : r.here < cols) (rp colour : Nat) : Ends (modePass rp colour) t (fun rp' u =>
    rp' = (if refEnd cols prev (rp + 1) < cols then rp + 2 else rp) ∧
      RowIn cols warn s0 u (r.addPix cols (refEnd cols prev (rp + 1)) colour)) fun _ _ => False := by
  rw [modePass, ends_bind, ends_get, ends_bind]
  refine (h.ends_refLine href _).mono (fun b u hu => ?_) fun _ _ he => he
  obtain ⟨rfl, rfl⟩ := hu
  rw [ends_bind]
  refine (h.ends_addPix hin _ _).mono (fun _ v hv => ?_) fun _ _ he => he
  rw [ends_pure, h.columns]
  exact ⟨if_congr (by omega) rfl rfl, hv⟩

include href in
/-- Adv, when the row is still open. -/
theorem RowIn.ends_advOpen (rp rp0 : Nat) : Ends (rowOpen >>= fun more => if more then adv rp else pure rp0) t (fun rp' u =>
    rp' = (if r.here < cols then nextRef cols prev r.here rp else rp0) ∧ u = t) fun _ _ => False := by
  rw [ends_bind]
  refine h.ends_rowOpen.mono (fun more u hu => ?_) fun _ _ he => he
  obtain ⟨rfl, rfl⟩ := hu
  by_cases hin : r.here < cols
  · rw [decide_eq_true hin, if_pos rfl, if_pos hin]
    exact h.ends_adv href rp
  · rw [decide_eq_false hin, if_neg (by decide), if_neg hin]
    exact ⟨rfl, rfl⟩

include href in
theorem RowIn.ends_modeRight (hin : r.here < cols) (d rp colour : Nat) : Ends (modeRight d rp colour) t (fun rp' u =>
    let r1 := r.addPix cols (refEnd cols prev rp + d) colour
    rp' = (if r1.here < cols then nextRef cols prev r1.here (rp + 1) else rp) ∧ RowIn cols warn s0 u r1) fun _ _ => False := by
  rw [modeRight, ends_bind]
  refine (h.ends_refLine href _).mono (fun b u hu => ?_) fun _ _ he => he
  obtain ⟨rfl, rfl⟩ := hu
  rw [ends_bind, ← Nat.cast_add]
  refine (h.ends_addPix hin _ _).mono (fun _ v hv => ?_) fun _ _ he => he
  exact (hv.ends_advOpen href _ _).mono (fun x w hw => ⟨hw.1, hw.2 ▸ hv⟩) fun _ _ he => he

include href in
theorem RowIn.ends_modeLeft (hin : r.here < cols) (d rp colour : Nat) : Ends (modeLeft d rp colour) t (fun rp' u =>
    let r1 := r.addPixNeg cols (refEnd cols prev rp - d) colour
    rp' = (if r1.here < cols then nextRef cols prev r1.here (if 0 < rp then rp - 1 else rp + 1) else rp) ∧
      RowIn cols warn s0 u r1) fun _ _ => False := by
  rw [modeLeft, ends_bind]
  refine (h.ends_refLine href _).mono (fun b u hu => ?_) fun _ _ he => he
  obtain ⟨rfl, rfl⟩ := hu
  rw [ends_bind]
  refine (h.ends_addPixNeg hin _ _).mono (fun _ v hv => ?_) fun _ _ he => he
  exact (hv.ends_advOpen href _ _).mono (fun x w hw => ⟨hw.1, hw.2 ▸ hv⟩) fun _ _ he => he

end Line

/-- Both runs of mode H read: where the row has got to. -/
def RowRead.addRuns (cols n m colour : Nat) (r : RowRead) : RowRead :=
  let r1 := r.addPix cols (r.here + n) colour
  if r1.here < cols then r1.addPix cols (r1.here + m) (1 - colour) else r1

/-- What mode H answers, beside what the unread bits read as: a new reference index, or nothing when a run was cut or spoilt. -/
def HorizontalAs (cols : Nat) (warn : Bool) (prev : List Nat) (s0 : State) (r : RowRead) (rp colour : Nat) (x : Option Nat)
    (u : State) : Prop :=
  match readRun (runTable colour) (r.rest.length + 1) 0 r.rest with
  | .eof => x = none ∧ RowAt cols warn u (r.cut cols)
  | .bad rest => x = none ∧ RowAt cols warn u (r.spoil cols rest)
  | .ok n rest =>
    match readRun (runTable (1 - colour)) (rest.length + 1) 0 rest with
    | .eof => x = none ∧ RowAt cols warn u (r.cut cols)
    | .bad rest => x = none ∧ RowAt cols warn u (r.spoil cols rest)
    | .ok m rest =>
      let r2 := { r with rest := rest }.addRuns cols n m colour
      x = some (nextRef cols prev r2.here rp) ∧ RowIn cols warn s0 u r2

theorem RowIn.ends_modeHorizontal (h : RowIn cols warn s0 t r) (href : Reference cols prev s0) (hin : r.here < cols)
    {colour : Nat} (hcol : colour ∈ [0, 1]) (rp : Nat) :
    Ends (modeHorizontal rp colour) t (HorizontalAs cols warn prev s0 r rp colour) fun _ _ => False := by
  have hcol' : 1 - colour ∈ [0, 1] := by simp at hcol ⊢; omega
  rw [modeHorizontal, ends_bind]
  refine (h.ends_runLen hcol).mono (fun m u hu => ?_) fun _ _ he => he
  obtain ⟨hrun, hany⟩ := hu
  unfold HorizontalAs
  cases hc : readRun (runTable colour) (r.rest.length + 1) 0 r.rest with
  | eof => cases m <;> simp only [RunAs, hc] at hrun; exact ⟨rfl, hrun⟩
  | bad rest => cases m <;> simp only [RunAs, hc] at hrun; exact ⟨rfl, hrun⟩
  | ok n rest =>
    cases m <;> simp only [RunAs, hc] at hrun
    obtain ⟨rfl, hr⟩ := hrun
    rename_i n
    simp only [ends_bind]
    refine (RowIn.ends_runLen ⟨hr, hany⟩ hcol').mono (fun m v hv => ?_) fun _ _ he => he
    obtain ⟨hrun, hany⟩ := hv
    dsimp only at hrun
    cases hc' : readRun (runTable (1 - colour)) (rest.length + 1) 0 rest with
    | eof => cases m <;> simp only [RunAs, hc'] at hrun; exact ⟨rfl, hrun⟩
    | bad rest' => cases m <;> simp only [RunAs, hc'] at hrun; exact ⟨rfl, hrun⟩
    | ok n' rest' =>
      cases m <;> simp only [RunAs, hc'] at hrun
      obtain ⟨rfl, hr⟩ := hrun
      rename_i n'
      have hv : RowIn cols warn s0 v { r with rest := rest' } := ⟨hr, hany⟩
      have hin' : RowRead.here { r with rest := rest' } < cols := hin
      simp only [ends_bind]
      refine hv.ends_lineEnd.mono (fun e w hw => ?_) fun _ _ he => he
      obtain ⟨rfl, rfl⟩ := hw
      rw [← Nat.cast_add]
      refine (hv.ends_addPix hin' _ _).mono (fun _ x hx => ?_) fun _ _ he => he
      refine hx.ends_rowOpen.mono (fun more y hy => ?_) fun _ _ he => he
      obtain ⟨rfl, rfl⟩ := hy
      have hsecond : Ends (if decide ((RowRead.addPix cols (RowRead.here { r with rest := rest' } + n) colour
          { r with rest := rest' }).here < cols) = true then do
            let e' ← lineEnd
            addPix (e' + n') (1 - colour)
          else pure ()) y (fun _ z => RowIn cols warn s0 z ({ r with rest := rest' }.addRuns cols n n' colour)) fun _ _ => False := by
        unfold RowRead.addRuns
        rw [ends_ite]
        refine ⟨fun hmore => ?_, fun hmore => ?_⟩
        · have hmore := of_decide_eq_true hmore
          rw [ends_bind, if_pos hmore]
          refine hx.ends_lineEnd.mono (fun e z hz => ?_) fun _ _ he => he
          obtain ⟨rfl, rfl⟩ := hz
          rw [← Nat.cast_add]
          exact hx.ends_addPix hmore _ _
        · rw [if_neg (by simpa using hmore)]
          exact hx
      refine hsecond.mono (fun _ z hz => ?_) fun _ _ he => he
      refine (hz.ends_adv href rp).mono (fun rp' w hw => ?_) fun _ _ he => he
      obtain ⟨rfl, rfl⟩ := hw
      exact ⟨rfl, hz⟩

end Sys2Proof.Machine
end

section
/-! Two-dimensional rows on bit strings: DecodeRow2D reads the row that the unread bits and the row before code
(43_ccitt.md R274), and so does DecodeRow1D. -/

namespace Sys2Proof.Machine

variable {cols : Nat} {warn : Bool} {prev : List Nat} {s s0 t u : State} {r : RowRead}

theorem modeTable_ne_nil : ∀ c ∈ modeTable, c.1 ≠ [] := by
  obtain ⟨ht, hlen⟩ := modeCodes_table
  rw [ht]
  intro c hc
  obtain ⟨d, hd, rfl⟩ := List.mem_map.1 hc
  have := (hlen d hd).1
  exact List.ne_nil_of_length_pos (by simp; omega)

@[simp] theorem RowRead.addPixNeg_rest (cols : Nat) (a : Int) (colour : Nat) (r : RowRead) :
    (r.addPixNeg cols a colour).rest = r.rest := by
  unfold RowRead.addPixNeg
  split
  · rfl
  · split
    · exact RowRead.addPix_rest ..
    · rfl

@[simp] theorem RowRead.addRuns_rest (cols n m colour : Nat) (r : RowRead) : (r.addRuns cols n m colour).rest = r.rest := by
  simp only [RowRead.addRuns]
  split <;> simp

/-- The loop of DecodeRow2D; every mode takes a bit, so fuel beyond the bits left is enough on both sides. -/
theorem ends_row2DLoop (href : Reference cols prev s0) (k : Nat) : ∀ {t : State} {r : RowRead} (j rp : Nat) {colour : Nat},
    colour ∈ [0, 1] → RowIn cols warn s0 t r → r.rest.length < k → r.rest.length < j →
      Ends (row2DLoop k rp colour) t (fun _ u => RowAt cols warn u (readRow2D cols prev j rp colour r)) fun _ _ => False := by
  induction k with
  | zero => intros; omega
  | succ k ih =>
    intro t r j rp colour hcol h hk hj
    obtain ⟨j, rfl⟩ : ∃ i, j = i + 1 := ⟨j - 1, by omega⟩
    have hcol' : 1 - colour ∈ [0, 1] := by simp at hcol ⊢; omega
    rw [row2DLoop, readRow2D, ends_bind]
    refine h.ends_rowOpen.mono (fun more u hu => ?_) fun _ _ he => he
    obtain ⟨rfl, rfl⟩ := hu
    by_cases hin : r.here < cols
    case neg =>
      rw [decide_eq_false hin, if_neg (by decide), if_neg hin]
      exact h.row
    rw [decide_eq_true hin, if_pos rfl, if_pos hin, ends_bind]
    refine h.ends_matchModeCode.mono (fun m v hv => ?_) fun _ _ he => he
    obtain ⟨hm, hany⟩ := hv
    cases hc : readCode modeTable r.rest with
    | eof => cases m <;> simp only [MatchedAs, hc] at hm; exact ends_rowEof hm
    | bad rest => cases m <;> simp only [MatchedAs, hc] at hm; exact ends_rowBad hm
    | ok mode rest =>
      cases m <;> simp only [MatchedAs, hc] at hm
      obtain ⟨rfl, hr⟩ := hm
      have hs := readCode_shorter modeTable_ne_nil hc
      have hv : RowIn cols warn s0 v { r with rest := rest } := ⟨hr, hany⟩
      have hin' : RowRead.here { r with rest := rest } < cols := hin
      rename_i mode
      cases mode with
      | pass =>
        simp only [ends_bind]
        refine (hv.ends_modePass href hin' rp colour).mono (fun rp' w hw => ?_) fun _ _ he => he
        obtain ⟨rfl, hw⟩ := hw
        exact ih j _ hcol hw (by simp; omega) (by simp; omega)
      | right d =>
        simp only [ends_bind]
        refine (hv.ends_modeRight href hin' d rp colour).mono (fun rp' w hw => ?_) fun _ _ he => he
        obtain ⟨rfl, hw⟩ := hw
        exact ih j _ hcol' hw (by simp; omega) (by simp; omega)
      | left d =>
        simp only [ends_bind]
        refine (hv.ends_modeLeft href hin' d rp colour).mono (fun rp' w hw => ?_) fun _ _ he => he
        obtain ⟨rfl, hw⟩ := hw
        exact ih j _ hcol' hw (by simp; omega) (by simp; omega)
      | horizontal =>
        simp only [ends_bind]
        refine (hv.ends_modeHorizontal href hin' hcol rp).mono (fun x w hw => ?_) fun _ _ he => he
        unfold HorizontalAs at hw
        dsimp only at hw
        cases hn : readRun (runTable colour) (rest.length + 1) 0 rest with
        | eof => simp only [hn] at hw; obtain ⟨rfl, hw⟩ := hw; exact hw
        | bad rest1 => simp only [hn] at hw; obtain ⟨rfl, hw⟩ := hw; exact hw
        | ok n rest1 =>
          simp only [hn] at hw
          dsimp only
          have hs1 := readRun_shorter hcol _ hn
          cases hn' : readRun (runTable (1 - colour)) (rest1.length + 1) 0 rest1 with
          | eof => simp only [hn'] at hw; obtain ⟨rfl, hw⟩ := hw; exact hw
          | bad rest2 => simp only [hn'] at hw; obtain ⟨rfl, hw⟩ := hw; exact hw
          | ok m rest2 =>
            simp only [hn'] at hw
            obtain ⟨rfl, hw⟩ := hw
            have hs2 := readRun_shorter hcol' _ hn'
            have hlen := congrArg List.length (RowRead.addRuns_rest cols n m colour { r with rest := rest2 })
            dsimp only at hlen
            exact ih (r := RowRead.addRuns cols n m colour { r with rest := rest2 }) j _ hcol hw (by omega) (by omega)

end Sys2Proof.Machine
end

section
/-! CCITT.READBYTE when it reads a row: the row is the one that the unread bits and the row before code (43_ccitt.md R273 to R277). -/

namespace Sys2Proof.Machine

variable {s t u v : State} {n : Nat}

/-! ## The row -/

/-- A row before its first run, with `l` unread. -/
def RowRead.start (l : List Bool) : RowRead := { ends := [0], err := false, eof := false, rest := l }

theorem ends_startRow {p : Proc Unit} {Q : Unit → State → Prop} (hfits : s.cc.cols.toNat ≤ s.params.colsMax)
    (hm : s.br.mode = .plain) (hb : BrOk s) (herr : s.flags.ccErr = false) (heof : s.flags.ccEof = false)
    (hp : ∀ t, RowIn s.cc.cols.toNat s.flags.ccWarn s t (.start s.brUnread) → Ends p t Q fun _ _ => False) :
    Ends (writeCline 0 0 >>= fun _ => putCpos 0 >>= fun _ => p) s Q fun _ _ => False := by
  have hgoing := yields_startRow (p := pure ()) (Q := fun _ => RowGoing s 0 []) hfits fun _ ht => ht
  rw [Yields, ends_bind, ends_writeCline (Nat.zero_le _), ends_bind, ends_putCpos, ends_pure] at hgoing
  rw [ends_bind, ends_writeCline (Nat.zero_le _), ends_bind, ends_putCpos]
  have hstream : ∀ a, State.elem ((s.setMem .cline ((s.mem .cline).write 0 (word32 0))).setCc { s.cc with cpos := u32 0 }) .stream a =
      s.elem .stream a := fun _ => rfl
  exact hp _ ⟨⟨rfl, hfits, rfl, Nat.le_add_left 1 _, fun e he => (List.mem_singleton.1 he) ▸ Nat.zero_le _, hgoing.line, herr,
    (Bool.or_false _).symm, heof, brUnread_congr rfl fun a => congrArg (·.getD 0) (hstream a), hm, hb.congr rfl rfl hstream⟩,
    0, [], hgoing⟩

/-- The row before, once it stands in RLINE. -/
theorem ReferenceLine.reference (h : ReferenceLine s t) (hrow : RowLine s n) : Reference s.cc.cols.toNat s.lineEnds t where
  short := by
    rw [lineEnds_eq hrow, List.length_map, List.length_range]
    exact hrow.1
  inside := fun i => by
    rw [refEnd_lineEnds hrow]
    split
    · next hi => exact hrow.runEnd_le_cols hi.le
    · exact le_rfl
  fits := s.cc.cols.isLt
  line := h.line

theorem ends_decodeNextRow (hfits : s.cc.cols.toNat ≤ s.params.colsMax) (hrow : RowLine s n) (hm : s.br.mode = .plain)
    (hb : BrOk s) (herr : s.flags.ccErr = false) (heof : s.flags.ccEof = false) :
    Ends (decodeNextRow s) s (fun _ t => RowAt s.cc.cols.toNat s.flags.ccWarn t s.nextRow) fun _ _ => False := by
  rw [decodeNextRow, State.nextRow, ends_ite]
  refine ⟨fun h2 => ?_, fun h1 => ?_⟩
  · have hleft : s.bitsLeft = s.brUnread.length := by rw [brUnread_length hm (hb.skip hm), State.bitsLeft]
    rw [if_pos h2, decodeRow2D, ends_bind, ends_get, ends_bind, hleft]
    refine ((ends_bind ..).1 (ends_referenceLine hrow hfits)).mono (fun i t ht => (ends_bind ..).2 ?_) fun _ _ he => he
    refine ht.mono (fun _ u hu => ?_) fun _ _ he => he
    have hcc : u.cc = s.cc := by rw [hu.only]
    have hflags : u.flags = s.flags := by rw [hu.only]
    have hbr : u.br = s.br := by rw [hu.only]
    have hpar : u.params = s.params := by rw [hu.only]
    have hstream : ∀ a, u.elem .stream a = s.elem .stream a := fun a => by rw [hu.only]; rfl
    have hrest : u.brUnread = s.brUnread := brUnread_congr hbr fun a => congrArg (·.getD 0) (hstream a)
    refine ends_startRow (by rw [hcc, hpar]; exact hfits) (hbr ▸ hm) (hb.congr hbr hpar hstream) (hflags ▸ herr) (hflags ▸ heof)
      fun v hv => ?_
    rw [hcc, hflags, hrest] at hv
    exact ends_row2DLoop (hu.reference hrow) _ _ 0 (by simp) hv (Nat.lt_add_of_pos_right (by decide)) (Nat.lt_succ_self _)
  · rw [if_neg h1, decodeRow1D]
    refine ends_startRow hfits hm hb herr heof fun v hv => ?_
    rw [ends_bind, ends_get]
    exact ends_row1D hv.row

/-- The next row depends on the unread bits, the row before and the CC registers. -/
theorem nextRow_congr (hb : t.brUnread = s.brUnread) (hc : t.cc = s.cc) (hl : ∀ i, t.clineAt i = s.clineAt i) :
    t.nextRow = s.nextRow := by
  have hends : t.lineEnds = s.lineEnds := by simp only [State.lineEnds, hc, hl]
  rw [State.nextRow, State.nextRow, hb, hc, hends]

/-- A row read to its end has got to CC_COLS. -/
theorem RowAt.here_eq_cols {cols : Nat} {warn : Bool} {r : RowRead} (h : RowAt cols warn t r) (hrow : RowLine t t.cc.cpos.toNat) :
    r.here = cols := by
  obtain ⟨e, es, he⟩ := h.ends_cons
  have hlast := h.line es.length (by simp [he])
  rw [← h.cpos_eq he, hrow.clineAt_eq le_rfl, hrow.runEnd_last, h.columns, h.cpos_eq he, he, List.reverse_cons,
    List.getElem?_append_right (by simp)] at hlast
  rw [RowRead.here, he]
  simpa using hlast.symm

/-! ## The reader -/

/-- The reader has moved on in its window, and gave back no bit. -/
structure ReaderOn (s t : State) : Prop where
  ok : BrOk t
  mode : t.br.mode = .plain
  endIdx : t.br.endIdx = s.br.endIdx
  unread : t.brUnread <:+ s.brUnread

theorem ReaderOn.congr (h : ReaderOn s t) (hb : u.br = t.br) (hp : u.params = t.params)
    (he : ∀ a, u.elem .stream a = t.elem .stream a) : ReaderOn s u := by
  refine ⟨h.ok.congr hb hp he, hb ▸ h.mode, hb ▸ h.endIdx, ?_⟩
  rw [brUnread_congr hb fun a => congrArg (·.getD 0) (he a)]
  exact h.unread

theorem ReaderOn.skipped (h : ReaderOn s t) (hu : Skipped n t u) : ReaderOn s u :=
  ⟨hu.ok, hu.mode.trans h.mode, hu.endIdx.trans h.endIdx, hu.unread ▸ (List.drop_suffix _ _).trans h.unread⟩

theorem ReaderOn.filled (h : ReaderOn s t) (hu : Filled t u) : ReaderOn s u :=
  ⟨hu.ok, hu.mode.trans h.mode, hu.endIdx.trans h.endIdx, hu.unread ▸ h.unread⟩

theorem ccittKeeps_readerOn (s : State) : CcittKeeps (ReaderOn s) where
  cc := fun t c h => h.congr rfl rfl fun _ => State.setCc_elem t c _ _
  flags := fun t _ _ _ _ h => h.congr rfl rfl fun _ => State.setFlags_elem t _ _ _
  cline := fun _ _ _ h _ => h.congr rfl rfl fun _ => rfl
  rline := fun _ _ _ h _ => h.congr rfl rfl fun _ => rfl
  peek := fun n hn t h => by
    rw [brPeek, ends_bind]
    refine (ends_brFill hn h.ok).mono (fun _ u hu => ?_) fun _ _ he => he.elim
    rw [ends_bind, ends_get]
    exact h.filled hu.1
  skip := fun n hn t h => (ends_brSkip hn h.ok).mono (fun _ _ hu => h.skipped hu) fun _ _ he => he.elim
  align := fun t h => (ends_brAlignPlain h.ok).mono (fun _ _ hu => h.skipped hu) fun _ _ he => he.elim

theorem readerOn_ccittReadbyteBody (hm : s.br.mode = .plain) (hb : BrOk s) :
    Ends ccittReadbyteBody s (fun _ t => ReaderOn s t) fun _ t => ReaderOn s t :=
  (ccittKeeps_readerOn s).keeps_ccittReadbyteBody (fun t v h => h.congr rfl rfl fun _ => State.setRes_elem t v _ _) s
    ⟨hb, hm, rfl, List.suffix_refl _⟩

end Sys2Proof.Machine
end

section
/-! No code of the CCITT tables begins with another (43_ccitt.md R266): codes are compared as lengths and values. -/

namespace Sys2Proof.Machine

/-- Of two codes given by length and value, `d` begins with `c`. -/
def CodeBegins (c d : Nat × Nat) : Prop := c.1 ≤ d.1 ∧ d.2 / 2 ^ (d.1 - c.1) = c.2

theorem codeBegins_of_prefix {c d : Nat × Nat} (hc : c.2 < 2 ^ c.1) (hd : d.2 < 2 ^ d.1)
    (h : bitsMsb c.1 c.2 <+: bitsMsb d.1 d.2) : CodeBegins c d := by
  obtain ⟨rest, hrest⟩ := h
  have hlen := congrArg List.length hrest
  have hnum := congrArg numOf hrest
  have hlt := numOf_lt rest
  rw [List.length_append, bitsMsb_length, bitsMsb_length] at hlen
  rw [numOf_append, numOf_bitsMsb, numOf_bitsMsb, Nat.mod_eq_of_lt hc, Nat.mod_eq_of_lt hd] at hnum
  refine ⟨by omega, ?_⟩
  rw [show d.1 - c.1 = rest.length by omega, ← hnum, Nat.add_comm, Nat.add_mul_div_right _ _ (by positivity),
    Nat.div_eq_of_lt hlt, Nat.zero_add]

/-- Neither of two codes begins with the other, in the operations that the kernel computes with. -/
def codeApart (c d : Nat × Nat) : Bool :=
  bif Nat.ble c.1 d.1 then !Nat.beq (Nat.shiftRight d.2 (Nat.sub d.1 c.1)) c.2
  else !Nat.beq (Nat.shiftRight c.2 (Nat.sub c.1 d.1)) d.2

theorem codeApart_iff {c d : Nat × Nat} : codeApart c d = true ↔ ¬ CodeBegins c d ∧ ¬ CodeBegins d c := by
  have hshift : ∀ v k : Nat, Nat.shiftRight v k = v / 2 ^ k := Nat.shiftRight_eq_div_pow
  have hbeq : ∀ a b : Nat, Nat.beq a b = decide (a = b) := fun a b => Bool.eq_iff_iff.2 (by rw [Nat.beq_eq, decide_eq_true_iff])
  have hble : Nat.ble c.1 d.1 = decide (c.1 ≤ d.1) := Bool.eq_iff_iff.2 (by rw [Nat.ble_eq, decide_eq_true_iff])
  simp only [codeApart, hshift, hbeq, hble, Nat.sub_eq, CodeBegins]
  rcases Nat.lt_trichotomy c.1 d.1 with hlt | heq | hgt
  · simp [hlt.le, hlt.not_ge]
  · simp only [heq, le_refl, decide_true, cond_true, true_and, Nat.sub_self, pow_zero, Nat.div_one, eq_comm (a := c.2), and_self,
      Bool.not_eq_true', decide_eq_false_iff_not]
  · simp [hgt.le, hgt.not_ge]

/-- No code of a table, given by length and value, begins with another. -/
def codesApart : List (Nat × Nat) → Bool
  | [] => true
  | c :: cs => cs.all (codeApart c) && codesApart cs

theorem prefixFree_of_apart {cs : List (Nat × Nat)} (h : codesApart cs = true) (hfit : ∀ c ∈ cs, c.2 < 2 ^ c.1) :
    (cs.map fun c => bitsMsb c.1 c.2).Pairwise fun c d => ¬ c <+: d ∧ ¬ d <+: c := by
  induction cs with
  | nil => exact List.Pairwise.nil
  | cons c cs ih =>
    rw [codesApart, Bool.and_eq_true, List.all_eq_true] at h
    have hc := hfit c List.mem_cons_self
    have hcs : ∀ d ∈ cs, d.2 < 2 ^ d.1 := fun d hd => hfit d (List.mem_cons_of_mem c hd)
    refine List.pairwise_cons.2 ⟨List.forall_mem_map.2 fun d hd => ?_, ih h.2 hcs⟩
    obtain ⟨hcd, hdc⟩ := codeApart_iff.1 (h.1 d hd)
    exact ⟨fun hp => hcd (codeBegins_of_prefix hc (hcs d hd) hp), fun hp => hdc (codeBegins_of_prefix (hcs d hd) hc hp)⟩

theorem runCodes_apart : ∀ colour ∈ [0, 1],
    codesApart ((12, 1) :: (runCodes colour).map fun c => (c.len, c.code)) = true := by decide +kernel

theorem modeCodes_apart : codesApart (modeCodes.map fun c => (c.len, c.code)) = true := by decide +kernel

theorem eolBits_eq : eolBits = bitsMsb 12 1 := by decide +kernel

/-- WHITE and BLACK, with EOL (R266). -/
theorem runTable_prefixFree {colour : Nat} (h : colour ∈ [0, 1]) :
    (eolBits :: (runTable colour).map Prod.fst).Pairwise fun c d => ¬ c <+: d ∧ ¬ d <+: c := by
  have hfit : ∀ c ∈ (12, 1) :: (runCodes colour).map fun c => (c.len, c.code), c.2 < 2 ^ c.1 :=
    List.forall_mem_cons.2 ⟨by decide, List.forall_mem_map.2 fun c hc => ((runCodes_table colour h).2 c hc).2.2⟩
  have hfree := prefixFree_of_apart (runCodes_apart colour h) hfit
  rw [List.map_cons, List.map_map] at hfree
  rw [eolBits_eq, (runCodes_table colour h).1, List.map_map]
  exact hfree

/-- MODES (R266). -/
theorem modeTable_prefixFree : (modeTable.map Prod.fst).Pairwise fun c d => ¬ c <+: d ∧ ¬ d <+: c := by
  have hfree := prefixFree_of_apart modeCodes_apart (List.forall_mem_map.2 fun c hc => (modeCodes_table.2 c hc).2.2)
  rw [List.map_map] at hfree
  rw [modeCodes_table.1, List.map_map]
  exact hfree

end Sys2Proof.Machine
end

section
/-! What CCITT.READBYTE leaves when it reads a row: the row, what follows it, and its first eight places served
(43_ccitt.md R273 to R277). -/

namespace Sys2Proof.Machine

variable {s t u : State} {n : Nat}

/-- What CCITT.READBYTE may change. -/
def ReadbyteOnly (s t : State) : Prop :=
  t = { s with
    res := t.res, br := t.br, cline := t.cline, rline := t.rline
    cc := { s.cc with row := t.cc.row, next2d := t.cc.next2d, outbits := t.cc.outbits, cpos := t.cc.cpos }
    flags := { s.flags with ccEof := t.flags.ccEof, ccErr := t.flags.ccErr, ccWarn := t.flags.ccWarn } }

theorem ReadbyteOnly.trans (h : ReadbyteOnly s t) (h' : ReadbyteOnly t u) : ReadbyteOnly s u := by
  unfold ReadbyteOnly at *
  conv_lhs => rw [h', h]

theorem RowDecoded.readbyteOnly {err : Bool} (h : RowDecoded (s.setFlags { s.flags with ccErr := err }) t) : ReadbyteOnly s t := by
  unfold ReadbyteOnly
  rw [h.only]
  rfl

theorem GapAt.readbyteOnly {l : List Bool} {eof next2d : Bool} (h : GapAt s l eof next2d t) : ReadbyteOnly s t := by
  unfold ReadbyteOnly
  rw [h.only]

theorem RowOutput.readbyteOnly (h : RowOutput n s t) : ReadbyteOnly s t := by
  unfold ReadbyteOnly
  rw [h.only]
  rfl

theorem ByteServed.readbyteOnly (h : ByteServed n s t) : ReadbyteOnly s t := by
  unfold ReadbyteOnly
  rw [h.only]

/-- CCITT.READBYTE, started in `s`, has read the next row and served its first byte. -/
structure RowServed (s t : State) : Prop where
  only : ReadbyteOnly s t
  line : ∀ i, i < s.nextRow.ends.length → t.clineAt i = s.nextRow.ends.reverse[i]?
  here : s.nextRow.here = s.cc.cols.toNat
  ccErr : t.flags.ccErr = s.nextRow.err
  ccWarn : t.flags.ccWarn = (s.flags.ccWarn || s.nextRow.err)
  ccEof : t.flags.ccEof = (s.cc.gapAfter s.nextRow).eof
  next2d : t.cc.next2d = (s.cc.gapAfter s.nextRow).next2d
  rest : t.brUnread = (s.cc.gapAfter s.nextRow).rest
  row : t.cc.row.toNat = min (s.cc.row.toNat + 1) (2 ^ 32 - 1)
  res : t.res = BitVec.ofNat 32 (t.rowByte 0)
  pixel : t.nextPixel = min 8 s.cc.cols.toNat
  reference : s.cc.next2d = true → ∀ j, j ≤ s.cc.cols.toNat + 1 →
    t.elem .rline j = some (BitVec.ofNat 32 (refEnd s.cc.cols.toNat s.lineEnds j))
  kept : s.cc.next2d = false → t.rline = s.rline

/-- The row read, the gap after it and the byte served make up the command. -/
theorem rowServed_of_parts {d g o : State} {m : Nat} (hrow : RowAt s.cc.cols.toNat s.flags.ccWarn d s.nextRow)
    (hd : RowDecoded (s.setFlags { s.flags with ccErr := false }) d) (hg : GapIs d (d.cc.gapAfter s.nextRow) g)
    (ho : RowOutput m g o) (ht : ByteServed m o t) : RowServed s t := by
  have hcc : d.cc = { s.cc with cpos := d.cc.cpos } := by rw [hd.only]; rfl
  have hgap : d.cc.gapAfter s.nextRow = s.cc.gapAfter s.nextRow := by rw [hcc]; rfl
  rw [hgap] at hg
  have hline : ∀ i, t.clineAt i = d.clineAt i := fun i => by rw [ht.only, ho.only, hg.only]; rfl
  have hflags : t.flags = g.flags := by rw [ht.only, ho.only]; rfl
  have hrline : t.rline = d.rline := by rw [ht.only, ho.only, hg.only]; rfl
  have hbyte : o.nextByte = t.rowByte 0 := by
    have hblack : t.cc.black1 = o.cc.black1 := by rw [ht.only]; rfl
    rw [State.nextByte, ho.pixel, State.rowByte_eq, State.rowByte_eq, hblack,
      State.places_congr (s := o) (t := t) (fun i => by rw [ht.only]; rfl) (by rw [ht.only])]
  exact {
    only := hd.readbyteOnly.trans (hg.readbyteOnly.trans (ho.readbyteOnly.trans ht.readbyteOnly))
    line := fun i hi => (hline i).trans (hrow.line i hi)
    here := hrow.here_eq_cols hd.row
    ccErr := by rw [hflags, hg.only]; exact hrow.ccErr
    ccWarn := by rw [hflags, hg.only]; exact hrow.ccWarn
    ccEof := by rw [hflags, hg.only]
    next2d := by rw [ht.only, ho.only, hg.only]; rfl
    rest := by
      rw [← hg.rest]
      exact brUnread_congr (by rw [ht.only, ho.only]; rfl) fun a => by rw [ht.only, ho.only]; rfl
    row := by
      have hr : t.cc.row = u32 (min (s.cc.row.toNat + 1) (2 ^ 32 - 1)) := by rw [ht.only, ho.only, hg.only, hcc]; rfl
      have := s.cc.row.isLt
      rw [hr, u32, BitVec.toNat_ofNat]
      omega
    res := by rw [ht.res, hbyte]
    pixel := by
      have hcols : o.cc.cols = s.cc.cols := by rw [ho.only, hg.only, hcc]; rfl
      rw [ht.pixel, ho.pixel, hcols]
    reference := fun h2 j hj => by
      show t.rline.read? j = _
      rw [hrline]
      exact hd.reference h2 j hj
    kept := fun h1 => hrline.trans (hd.kept h1) }

/-- DecodeRow, then the byte loop. -/
theorem ends_readRow (hm : s.br.mode = .plain) (hb : BrOk s) (heof : s.flags.ccEof = false) (hcols : 1 ≤ s.cc.cols.toNat)
    (hfits : s.cc.cols.toNat ≤ s.params.colsMax) (hrow : RowLine s n) :
    Ends (decodeRow >>= fun _ => serveByte) s (fun _ t => RowServed s t) fun _ _ => False := by
  have hb' : BrOk (s.setFlags { s.flags with ccErr := false }) := hb.congr rfl rfl fun _ => State.setFlags_elem ..
  have hnext : (s.setFlags { s.flags with ccErr := false }).nextRow = s.nextRow :=
    nextRow_congr (brUnread_congr rfl fun a => congrArg (·.getD 0) (State.setFlags_elem s _ .stream a)) rfl fun _ => rfl
  rw [ends_bind, decodeRow, ends_bind, ends_modifyFlags, ends_bind, ends_get, ends_bind]
  show Ends (decodeNextRow (s.setFlags { s.flags with ccErr := false })) _ _ _
  have hdecoded := ends_decodeNextRow (s := s.setFlags { s.flags with ccErr := false }) hfits hrow hm hb' rfl heof
  refine (hdecoded.and (yields_decodeNextRow hfits hrow)).mono (fun _ d hd => ?_) fun _ _ he => he.1
  obtain ⟨hat, hd⟩ := hd
  rw [hnext] at hat
  have hdfits : d.cc.cols.toNat ≤ d.params.colsMax := hat.columns ▸ hat.fits
  refine (ends_postRow hat.mode hat.br hat.rest hat.ccErr hat.ccEof hdfits hd.row).mono (fun _ o ho => ?_) fun _ _ he => he
  obtain ⟨g, hg, ho⟩ := ho
  have hgcols : g.cc.cols.toNat = s.cc.cols.toNat := by
    rw [hg.only]
    exact hat.columns
  exact (ends_serveByte ho.pending (ho.outbits (hgcols ▸ hcols))).mono (fun _ t ht => rowServed_of_parts hat hd hg ho ht)
    fun _ _ he => he

/-- What a filled window changes. -/
theorem RowServed.unfilled {m : Memory (Space.width .stream)} (hf : WindowFilled s m) (h : RowServed (s.setMem .stream m) t) :
    RowServed s (t.setMem .stream s.stream) := by
  have hstream : t.stream = m := by rw [h.only]; rfl
  have hnext : (s.setMem .stream m).nextRow = s.nextRow := nextRow_congr hf.brUnread rfl fun _ => rfl
  obtain ⟨honly, hline, hhere, herr, hwarn, heof, h2d, hrest, hrow, hres, hpixel, href, hkept⟩ := h
  rw [hnext] at hline hhere herr hwarn heof h2d hrest
  refine ⟨?_, hline, hhere, herr, hwarn, heof, h2d, (hf.unfilled hstream).trans hrest, hrow, hres, hpixel, href, hkept⟩
  unfold ReadbyteOnly at *
  rw [honly]
  rfl

/-- CCITT.READBYTE at the end of a row, with the data not at its end: it looks at no byte that `BrAhead` does not ask for. -/
theorem exec_ccittReadbyte_row (h : ReadbyteReady s) (hinv : BrInv s) (hcols : 1 ≤ s.cc.cols.toNat)
    (hfits : s.cc.cols.toNat ≤ s.params.colsMax) (hrow : RowLine s n) (hout : s.cc.outbits = 0) (heof : s.flags.ccEof = false)
    (hw : BrAhead s s.rowBits) :
    ∃ t, exec .ccittReadbyte s = .next t ∧ RowServed s t ∧ t.br.mode = .plain ∧ t.br.endIdx = s.br.endIdx ∧
      t.brUnread <:+ s.brUnread := by
  obtain ⟨m, hf⟩ := exists_windowFilled s
  have hready : ReadbyteReady (s.setMem .stream m) := ⟨h.ccRdy, h.brRdy, h.mode⟩
  have hbr : BrOk (s.setMem .stream m) := hf.brOk (brInv_iff.1 hinv h.brRdy)
  have hline : RowLine (s.setMem .stream m) n := hrow.congr (fun _ => rfl) rfl
  have hserved : Ends ccittReadbyteBody (s.setMem .stream m) (fun _ t => RowServed (s.setMem .stream m) t) fun _ _ => False := by
    refine (ends_ccittReadbyteBody hready _ _).2 ?_
    rw [readbyteRest, if_pos (show (s.setMem .stream m).cc.outbits = 0 from hout),
      if_neg (by rw [State.setMem_flags, heof]; decide)]
    exact ends_readRow h.mode hbr heof hcols hfits hline
  have hagree : ∀ t, RowServed (s.setMem .stream m) t → ReaderOn (s.setMem .stream m) t →
      ∀ i, s.br.pos.toNat ≤ i → i < t.br.pos.toNat → s.elem .stream i = m.read? i := fun t hs hon => by
    have hbrRdy : t.flags.brRdy = true := by rw [hs.only]; exact h.brRdy
    have hrest : t.brUnread = (s.cc.gapAfter s.nextRow).rest := by
      rw [hs.rest, nextRow_congr hf.brUnread rfl fun _ => rfl]
      rfl
    exact hf.agrees hinv hon.ok.brInv h.brRdy hbrRdy h.mode hon.mode hon.endIdx (by rw [hrest, State.rowBits]) hw
  obtain ⟨t, ht, hstream, hs, hon⟩ := ccittReadbyte_ahead
    (Q := fun t => RowServed (s.setMem .stream m) t ∧ ReaderOn (s.setMem .stream m) t)
    ((hserved.and (readerOn_ccittReadbyteBody h.mode hbr)).mono (fun _ t ht => ⟨ht, hagree t ht.1 ht.2⟩) fun _ _ he => he.1)
  refine ⟨_, ht, hs.unfilled hf, hon.mode, hon.endIdx, ?_⟩
  rw [hf.unfilled hstream, ← hf.brUnread]
  exact hon.unread

/-! ## The statements -/

/-- Settles O54: the row is followed on the bits of the filled window, which CCITT.READBYTE does not tell from the window as it is. -/
theorem ccittReadbyteDecodes : Obligations.CcittReadbyteDecodes := by
  refine ⟨List.forall_mem_cons.2 ⟨runTable_prefixFree (by decide), List.forall_mem_cons.2 ⟨runTable_prefixFree (by decide),
    List.forall_mem_singleton.2 modeTable_prefixFree⟩⟩, fun s hcc hbr hfault hmode hinv hbinv hout heof hw => ?_⟩
  obtain ⟨hcols, n, hp⟩ := ccInv_iff.1 hinv hcc hfault
  obtain ⟨t, ht, h, -⟩ := exec_ccittReadbyte_row ⟨hcc, hbr, hmode⟩ hbinv hcols hp.fits hp.row hout heof hw
  refine ⟨t, ht, h.line, h.here, h.ccErr, h.ccWarn, h.ccEof, h.next2d, h.rest, h.row, h.res, h.pixel, h.reference, fun h1 j => ?_⟩
  show t.rline.read? j = s.rline.read? j
  rw [h.kept h1]

/-- CCITT.READBYTE has returned a byte or the end value, and gave back no bit. -/
structure ReadbyteDone (s t : State) : Prop where
  res : t.res.toNat < 256 ∨ t.res = 0xFFFFFFFF#32
  only : ReadbyteOnly s t
  mode : t.br.mode = .plain
  endIdx : t.br.endIdx = s.br.endIdx
  unread : t.brUnread <:+ s.brUnread

/-- A byte in RES. -/
theorem toNat_ofNat_rowByte_lt (t : State) (x : Nat) : (BitVec.ofNat 32 (t.rowByte x)).toNat < 256 := by
  have := t.rowByte_lt x
  rw [BitVec.toNat_ofNat]
  omega

theorem RowServed.done (h : RowServed s t) (hm : t.br.mode = .plain) (he : t.br.endIdx = s.br.endIdx)
    (hu : t.brUnread <:+ s.brUnread) : ReadbyteDone s t :=
  ⟨.inl (h.res ▸ toNat_ofNat_rowByte_lt t 0), h.only, hm, he, hu⟩

theorem ByteServed.done (h : ByteServed n s t) (hm : s.br.mode = .plain) : ReadbyteDone s t := by
  refine ⟨.inl (h.res ▸ toNat_ofNat_rowByte_lt s _), h.readbyteOnly, ?_, ?_, ?_⟩
  · rw [h.only]; exact hm
  · rw [h.only]
  · rw [brUnread_congr (s := s) (t := t) (by rw [h.only]) fun a => congrArg (·.getD 0) (h.elem .stream a)]

theorem readbyteDone_end (hm : s.br.mode = .plain) : ReadbyteDone s (s.setRes 0xFFFFFFFF) := by
  refine ⟨.inr rfl, rfl, hm, rfl, ?_⟩
  rw [brUnread_congr (s := s) (t := s.setRes 0xFFFFFFFF) rfl fun a => congrArg (·.getD 0) (State.setRes_elem s _ .stream a)]

/-- CCITT.READBYTE ends: it serves a pending byte, answers the end value, or reads a row. -/
theorem exec_ccittReadbyte_done (h : ReadbyteReady s) (hfault : s.flags.fault = false) (hinv : CcInv s) (hbinv : BrInv s)
    (hw : s.cc.outbits = 0 → s.flags.ccEof = false → BrAhead s s.rowBits) :
    ∃ t, exec .ccittReadbyte s = .next t ∧ ReadbyteDone s t := by
  obtain ⟨hcols, n, hp⟩ := ccInv_iff.1 hinv h.ccRdy hfault
  by_cases hout : s.cc.outbits = 0
  · cases heof : s.flags.ccEof with
    | true => exact ⟨_, exec_ccittReadbyte_end h hout heof, readbyteDone_end h.mode⟩
    | false =>
      obtain ⟨t, ht, hs, hm, he, hu⟩ := exec_ccittReadbyte_row h hbinv hcols hp.fits hp.row hout heof (hw hout heof)
      exact ⟨t, ht, hs.done hm he hu⟩
  · obtain ⟨t, ht, hs⟩ := exec_ccittReadbyte_serve h hp hout
    exact ⟨t, ht, hs.done h.mode⟩

/-- Settles O53: every case of CCITT.READBYTE ends without a stop, and both invariants are kept by every command. -/
theorem ccittReadbyteCompletes : Obligations.CcittReadbyteCompletes := by
  intro s hcc hbr hfault hmode hinv hbinv hw
  obtain ⟨t, ht, h⟩ := exec_ccittReadbyte_done ⟨hcc, hbr, hmode⟩ hfault hinv hbinv hw
  refine ⟨t, ht, h.res, h.only, fun sp a hcl hrl => ?_, h.mode, h.endIdx,
    exec_keeps_brInv hbinv ht, exec_keeps_ccInv hinv ht, h.unread⟩
  rw [h.only]
  cases sp with
  | cline => exact absurd rfl hcl
  | rline => exact absurd rfl hrl
  | _ => rfl

end Sys2Proof.Machine
end
